-- ==== Sys2Proof/Word.lean ====
section
/-! DEFINITION. The words of the machine and their plainest arithmetic: bytes, device tokens, wrapping counters,
saturating counters and the clamping of settings. -/

namespace Sys2Proof

/-- One byte on a link or in record memory. -/
abbrev Byte := BitVec 8

/-- A passenger device's identity as its cell head reports it (00_scope, Identifiers: a 64-bit value). -/
abbrev Token := BitVec 64

/-- A 32-bit counter after one event: it wraps from 4,294,967,295 to 0 (R40, R59, R96, R116, R138, R156, R173, R184). -/
def bump32 (n : Nat) : Nat := (n + 1) % 4294967296

/-- A 16-bit number after one step: echo sequences, swap numbers and batch numbers wrap from 65,535 to 0. -/
def bump16 (n : Nat) : Nat := (n + 1) % 65536

/-- A byte total after `b` more bytes: 64 bits wide, wrapping (R74, R116). -/
def add64 (n b : Nat) : Nat := (n + b) % 18446744073709551616

/-- `n` held at `top`. -/
def satAt (top n : Nat) : Nat := min top n

/-- The nearer end of the range `lo` to `hi` when `v` lies outside it, else `v` (R177). -/
def clampTo (lo hi v : Nat) : Nat := max lo (min hi v)

/-- Whether clamping changed the value given (R177: the reply's clamped flag). -/
def isClamped (lo hi v : Nat) : Bool := clampTo lo hi v != v

/-- The counter at place `i` of a group of counters, one event later. -/
def bumpAt (n : Nat) (v : Vector Nat n) (i : Fin n) : Vector Nat n := v.set i (bump32 v[i])

end Sys2Proof
end

