-- ==== Sys2Proof/Config.lean ====
section
/-! DEFINITION. What the manual leaves open. Each constant has no body: nothing can be proved of its value. -/

namespace Sys2Proof.Config

/-- FREE VALUE (assumption 3). The byte a record-memory operation leaves behind where the manual does not say what it
leaves: a slot write or a clear that failed or was cut short by a power loss (R163, R165, R171). -/
opaque openByte : Nat → BitVec 8

/-- FREE VALUE (assumption 3). Whether a map area write that a power loss cut short had reached the map area (R171). -/
opaque openFlag : Nat → Bool

end Sys2Proof.Config
end

