-- ==== Sys2Proof/Syntax.lean ====
section
/-! DEFINITION. The commands of the block, one constructor per row of spec/opcode_table.json, and the values they carry. -/

namespace Sys2Proof

/-- A home or network code: the digit count is part of the code (00_scope, Identifiers). `six` is set for six digits. -/
structure HomeCode where
  number : Nat
  six    : Bool
  deriving DecidableEq, Repr

/-- The quality of a fix (R5). -/
inductive Quality where
  | good | degraded | none
  deriving DecidableEq, Repr

/-- Coverage policy, from strictest to laxest (R1, R6). -/
inductive Policy where
  | quiet | reduced | full
  deriving DecidableEq, Repr

/-- Backhaul type of a shore link (R1, R77). -/
inductive LinkType where
  | satellite | coastal | harbour
  deriving DecidableEq, Repr

/-- The class of a subscriber (R43). -/
inductive SubClass where
  | passenger | exempt
  deriving DecidableEq, Repr

/-- The kind of a bearer (R61). -/
inductive BearerKind where
  | onboard | shore
  deriving DecidableEq, Repr

/-- The purpose of an echo (R79). -/
inductive Purpose where
  | probe | keepalive
  deriving DecidableEq, Repr

/-- The reason of a REG-REFUSED (R123). -/
inductive RefusedReason where
  | noAgreement | blocked | congested
  deriving DecidableEq, Repr

/-- The delivery channel of charge records (R167). -/
inductive Channel where
  | shore | onHost
  deriving DecidableEq, Repr

/-- Uplink or downlink (R73). -/
inductive Direction where
  | uplink | downlink
  deriving DecidableEq, Repr

/-- The fields of a zone that the verdict copies (R1, "The verdict"). -/
structure ZoneRules where
  jurisdiction : Nat
  policy       : Policy
  powerCap     : Nat
  berth        : Bool
  tariffClass  : Nat
  prefs        : List Nat
  linkOrder    : List LinkType
  deriving DecidableEq, Repr

/-- One zone record: its start and the rules of its stretch of water (R1). -/
structure Zone where
  start : Nat
  rules : ZoneRules
  deriving DecidableEq, Repr

/-- One roaming partner record (R118). `mask` holds the jurisdictions it operates in, bit j for jurisdiction j. -/
structure Partner where
  index    : Nat
  code     : HomeCode
  mask     : BitVec 16
  interval : Nat
  markup   : Nat
  plans    : List Nat
  codes    : List HomeCode
  deriving DecidableEq, Repr

/-- One tariff plan (R141). -/
structure TariffPlan where
  increment : Nat
  rate1     : Nat
  rate2     : Nat
  threshold : Nat
  deriving DecidableEq, Repr

/-- A management-link request as it stands in the request input: the host's tag and its body, or `none` for a body that is
not laid out as R185 gives (wrong length, an enumerated field outside its values), which R177 refuses as MALFORMED. -/
structure Request (α : Type) where
  tag  : Byte
  body : Option α
  deriving DecidableEq, Repr

/-- FIX (R5). -/
structure FixBody where
  distance : Nat
  quality  : Quality
  deriving DecidableEq, Repr

/-- LOAD-ZONES (R2, R3, R185). -/
structure LoadZonesBody where
  routeLength : Nat
  hysteresis  : Nat
  fixTimeout  : Nat
  holdTime    : Nat
  retention   : Nat
  zones       : List Zone
  deriving DecidableEq, Repr

/-- One part of LOAD-PARTNERS (R183); `settings` holds the pacer rate and the exchange timer, which part 0 carries. -/
structure PartnersPart where
  part     : Nat
  records  : List Partner
  settings : Option (Nat × Nat)
  deriving DecidableEq, Repr

/-- CONFIGURE-LINK naming a CELL port (R23). -/
structure CellConfig where
  port         : Nat
  limit        : Nat
  portLostTime : Nat
  deriving DecidableEq, Repr

/-- CONFIGURE-LINK naming a SHORE port (R78). -/
structure ShoreConfig where
  port      : Nat
  type      : LinkType
  costRank  : Nat
  rttLimit  : Option Nat
  holddown  : Nat
  reprobe   : Nat
  enabled   : Bool
  deriving DecidableEq, Repr

/-- PIN-LINK (R93). -/
structure PinBody where
  port         : Option Nat
  settleTime   : Nat
  moveAckTimer : Nat
  guardTime    : Nat
  grace        : Nat
  deriving DecidableEq, Repr

/-- LOAD-TARIFF-PLAN (R142): `plan` is `none` for UNDEFINE. -/
structure TariffLoad where
  slot : Nat
  plan : Option TariffPlan
  deriving DecidableEq, Repr

/-- SET-BILLING (R182). -/
structure BillingBody where
  defaultCap   : Nat
  alertPercent : Nat
  maxAge       : Nat
  exemptList   : List HomeCode
  deriving DecidableEq, Repr

/-- A subscriber named by handle and device token (R52, R57, R150). -/
structure SubscriberRef where
  handle : Nat
  token  : Token
  deriving DecidableEq, Repr

/-- SET-CAP (R150). -/
structure CapBody where
  who : SubscriberRef
  cap : Nat
  deriving DecidableEq, Repr

/-- SET-CLASS (R57). -/
structure ClassBody where
  who   : SubscriberRef
  cls   : SubClass
  deriving DecidableEq, Repr

/-- QUERY-SUBSCRIBER in its single form: by handle or by device token (R58). -/
inductive SubscriberName where
  | byHandle (handle : Nat)
  | byToken (token : Token)
  deriving DecidableEq, Repr

/-- SET-DELIVERY (R167). -/
structure DeliveryBody where
  channel    : Channel
  batchTimer : Nat
  deriving DecidableEq, Repr

/-- The commands: one constructor per row of spec/opcode_table.json, in the table's order. -/
inductive Instr where
  | start (r : Request Unit)
  | reset (r : Request Unit)
  | resetComplete
  | setTime (r : Request Nat)
  | fix (r : Request FixBody)
  | freezeZone (r : Request Unit)
  | thawZone (r : Request Unit)
  | loadZones (r : Request LoadZonesBody)
  | loadPartnersPart (r : Request PartnersPart)
  | loadPartnersLast (r : Request PartnersPart)
  | configureLinkCell (r : Request CellConfig)
  | configureLinkShore (r : Request ShoreConfig)
  | pinLink (r : Request PinBody)
  | loadTariffPlan (r : Request TariffLoad)
  | commitTariffNow (r : Request Unit)
  | commitTariffAtDayRoll (r : Request Unit)
  | dayRoll (r : Request Unit)
  | setBilling (r : Request BillingBody)
  | setCap (r : Request CapBody)
  | setClass (r : Request ClassBody)
  | evict (r : Request SubscriberRef)
  | queryZone (r : Request Unit)
  | queryLinkCell (r : Request Nat)
  | queryLinkShore (r : Request Nat)
  | queryLinkManagement (r : Request Unit)
  | querySubscriberSingle (r : Request SubscriberName)
  | querySubscriberSummary (r : Request Unit)
  | queryStore (r : Request Unit)
  | setDelivery (r : Request DeliveryBody)
  | exportRecords (r : Request Unit)
  | confirmExport (r : Request Nat)
  | flushRecords (r : Request Unit)
  | flushRecordsDone
  | unknownKindRequest (kind tag : Byte)
  | frameReceived (bytes : List Byte)
  | frameGap
  | hostClearToSend (given : Bool)
  | sendFrame
  | powerOn
  | powerOnScanEnd (mapReadable : Bool) (unreadable : List Nat)
  | powerLoss
  | fixTimerExpiry
  | holdExpiry
  | retentionExpiry (handle : Nat)
  | headHello (port : Fin 6) (capacity : Nat)
  | attachAsk (port : Fin 6) (token : Token) (code digits : Nat)
  | decideAttachAsk
  | depart (port : Fin 6) (token : Token)
  | headResync (port : Fin 6)
  | cellCarrierLost (port : Fin 6)
  | portLostExpiry (handle : Nat)
  | bearerOpen (port : Fin 6) (token : Token) (slot : Nat) (kind : Option BearerKind)
  | bearerClose (port : Fin 6) (identity : Nat)
  | upFrame (port : Fin 6) (identity : Nat) (payload : List Byte)
  | localDown (identity : Nat) (payload : List Byte)
  | localCarrierChange (present : Bool)
  | shoreDown (link : Fin 4) (identity : Nat) (token : Token) (payload : List Byte)
  | meteredAddition (handle attach : Nat) (dir : Direction) (bytes : Nat)
  | ageExpiry (handle : Nat)
  | shoreCarrierLost (link : Fin 4)
  | shoreCarrierReturn (link : Fin 4)
  | modemReady (link : Fin 4)
  | probeEchoDue (link : Fin 4)
  | echoBack (link : Fin 4) (linkNumber seq : Nat) (purpose : Purpose)
  | echoWindowEnd (link : Fin 4) (seq : Nat)
  | keepaliveDue (link : Fin 4)
  | holddownExpiry (link : Fin 4)
  | reprobeExpiry (link : Fin 4)
  | settleTimerExpiry
  | moveAck (link : Fin 4) (number : Nat)
  | moveAckTimerExpiry
  | drainingGuardExpiry (link : Fin 4)
  | graceExpiry
  | storeDrain
  | pacerSend
  | regOk (link : Fin 4) (handle : Nat) (token : Token) (partner : Nat)
  | regRefused (link : Fin 4) (handle : Nat) (token : Token) (partner : Nat) (reason : RefusedReason)
  | refreshOk (link : Fin 4) (handle : Nat) (token : Token) (partner : Nat)
  | refreshRefused (link : Fin 4) (handle : Nat) (token : Token) (partner : Nat)
  | exchangeTimerExpiry (handle : Nat)
  | refreshDue (handle : Nat)
  | acceptRecord
  | writeSlotDone (ok : Bool)
  | mapWriteDone (ok : Bool)
  | verifyReadDone (ok : Bool)
  | readSlotDone (ok : Bool)
  | clearSlotDone (ok : Bool)
  | buildSettleBatch
  | settleAck (link : Fin 4) (batch : Nat)
  | batchTimerExpiry
  | modemNotReady (link : Fin 4)
  deriving DecidableEq, Repr

end Sys2Proof
end

