-- ==== Sys2Proof/Machine/State.lean ====
section
/-! DEFINITION. The state of the Balteno M640 as plain data, block by block, and its value after power-on. -/

namespace Sys2Proof.Machine

/-! ## Route Zone Tracker (R1 to R21) -/

/-- The zone part of the verdict: the zone index and the fields copied from that zone ("The verdict"). -/
structure VerdictZone where
  index : Nat
  rules : ZoneRules
  deriving DecidableEq, Repr

/-- The tracker: zone table, coverage settings, verdict and fix timer (R1, R2, "The verdict"). Voyage-clock times in
milliseconds; the fix timeout and hold time in seconds, the retention time in minutes. -/
structure Tracker where
  routeLength   : Nat
  zones         : List Zone
  hysteresis    : Nat
  fixTimeout    : Nat
  holdTime      : Nat
  retentionTime : Nat
  verdict       : Option VerdictZone
  frozen        : Bool
  forcedFreeze  : Bool
  holdExpiry    : Option Nat
  lastFix       : Option (Quality × Nat)
  lastPosition  : Option Nat
  fixExpiry     : Option Nat
  deriving DecidableEq, Repr

/-! ## Cell Port Controller (R22 to R42) -/

/-- Port states (R22). -/
inductive PortState where
  | down | ready | radiating | quiet
  deriving DecidableEq, Repr

/-- Reasons of a DECLINE (R29). -/
inductive DeclineReason where
  | unavailable | portFull | tableFull | retryLater
  deriving DecidableEq, Repr

/-- One pending attach ask (R22, R24). -/
structure Ask where
  token : Token
  home  : HomeCode
  deriving DecidableEq, Repr

/-- The counters of a cell port (R40); `declines` in the order of `DeclineReason`. -/
structure PortCounters where
  newAdmissions      : Nat
  reAttaches         : Nat
  declines           : Vector Nat 4
  asksDropped        : Nat
  staleDeparts       : Nat
  discardedDown      : Nat
  malformed          : Nat
  resyncs            : Nat
  portLosses         : Nat
  portLostDepartures : Nat
  deriving DecidableEq, Repr

/-- One cell port record (R22). The effective limit and the subscriber count are worked out from it and the table. -/
structure CellPort where
  state        : PortState
  headCapacity : Nat
  limit        : Nat
  portLostTime : Nat
  hold         : Bool
  asks         : List Ask
  counters     : PortCounters
  deriving DecidableEq, Repr

/-- The Cell Port Controller: six ports, the arbiter's place in its rotation (R28) and the store hold condition (R34). -/
structure Cpc where
  ports      : Vector CellPort 6
  lastServed : Fin 6
  storeHold  : Bool
  deriving DecidableEq, Repr

/-! ## Subscriber Table (R43 to R60) -/

/-- Registration states (R43, R47). -/
inductive RegState where
  | registering | served | moving | lapsed | unroamed | resting
  deriving DecidableEq, Repr

/-- Frames and payload bytes counted together (R74, R116). -/
structure Tally where
  frames : Nat
  bytes  : Nat
  deriving DecidableEq, Repr

/-- One open bearer (R61), kept with its entry under its slot; its identity is handle × 4 + slot. -/
structure Bearer where
  slot      : Nat
  kind      : BearerKind
  openedAt  : Nat
  upShore   : Tally
  upLocal   : Tally
  upPortal  : Tally
  upLost    : Tally
  fromShore : Tally
  fromLocal : Tally
  deriving DecidableEq, Repr

/-- An open rating period (R146). -/
structure Period where
  startTime    : Nat
  partner      : Nat
  partnerCode  : HomeCode
  jurisdiction : Nat
  zone         : Nat
  tariffClass  : Nat
  plan         : Nat
  rate1        : Nat
  rate2        : Nat
  increment    : Nat
  threshold    : Nat
  up           : Nat
  down         : Nat
  inc1         : Nat
  inc2         : Nat
  charge       : Nat
  clamped      : Bool
  saturated    : Bool
  storeLoss    : Nat
  ageExpiry    : Nat
  deriving DecidableEq, Repr

/-- A subscriber entry (R43). Its handle is its key in the table. The refresh outstanding flag is worked out from the
in-flight table (R124), and the bearer slots hold the bearer table's places (R61). -/
structure Entry where
  attach       : Nat
  token        : Token
  home         : HomeCode
  cls          : SubClass
  createdAt    : Nat
  retention    : Option Nat
  port         : Fin 6
  portLost     : Option Nat
  reg          : RegState
  serving      : Option Nat
  candidate    : Option (Nat × Nat)
  regTime      : Option Nat
  balance      : Int
  nextDue      : Option Nat
  paused       : Option Nat
  bearers      : List Bearer
  period       : Option Period
  closing      : Bool
  dayCount     : Nat
  total        : Nat
  cap          : Nat
  alertSent    : Bool
  barred       : Bool
  storeLoss    : Nat
  deriving DecidableEq, Repr

/-- The causes of a removal, in the order R59 counts them. -/
inductive RemovalCause where
  | depart | portLost | retention | evict
  deriving DecidableEq, Repr

/-- The table's counters (R59); `removals` in the order of `RemovalCause`. -/
structure TableCounters where
  created         : Nat
  revivals        : Nat
  removals        : Vector Nat 4
  staleAnswers    : Nat
  droppedInFlight : Nat
  deriving DecidableEq, Repr

/-- The Subscriber Table: live entries by handle in ascending order, the free-handle FIFO (R46) and the attach counter
(R44). -/
structure Table where
  entries       : List (Nat × Entry)
  freeHandles   : List Nat
  attachCounter : Nat
  counters      : TableCounters
  deriving DecidableEq, Repr

/-! ## Bearer Router (R61 to R76) -/

/-- Portal reasons, in the order of rows 3 to 8 of R66. -/
inductive PortalReason where
  | portLost | barred | closing | registering | lapsed | unroamed
  deriving DecidableEq, Repr

/-- A metered addition on its way to the Rating Unit (R73). -/
structure Addition where
  handle : Nat
  attach : Nat
  dir    : Direction
  bytes  : Nat
  deriving DecidableEq, Repr

/-- The router's device totals (R74). `upPortal` by portal reason; `downNotEntitled` by the causes of rows 3 to 9 of R66;
`refusals` for UNKNOWN-SUBSCRIBER and SLOT-BUSY. -/
structure RouterTotals where
  upDirect          : Tally
  upStored          : Tally
  upLocal           : Tally
  upPortal          : Vector Tally 6
  upIsolated        : Tally
  upNotOpen         : Tally
  localPortDiscards : Tally
  localDelivered    : Tally
  localDiscards     : Tally
  downDelivered     : Tally
  downNotOpen       : Tally
  downStaleBearer   : Tally
  downWrongKind     : Tally
  downNotEntitled   : Vector Tally 7
  handOffs          : Tally
  meteredUp         : Tally
  meteredDown       : Tally
  opens             : Nat
  refusals          : Vector Nat 2
  closes            : Nat
  staleCloses       : Nat
  freedOther        : Nat
  deriving DecidableEq, Repr

/-- The Bearer Router: the local port's carrier (R67), its device totals and the additions on their way to the Rating Unit
(R73). -/
structure Router where
  localCarrier : Bool
  totals       : RouterTotals
  additions    : List Addition
  deriving DecidableEq, Repr

/-! ## Records the part sends -/

/-- Records to a cell head (R24). -/
inductive ServeLevel where
  | full | onboardOnly
  deriving DecidableEq, Repr

/-- Reasons of a BEARER-REFUSE (R62). -/
inductive BearerRefusal where
  | unknownSubscriber | slotBusy
  deriving DecidableEq, Repr

/-- Records to a cell head (R24). -/
inductive HeadRecord where
  | radiate (level : Nat)
  | quiet
  | hold
  | resume
  | admitted (token : Token) (handle : Nat)
  | decline (token : Token) (reason : DeclineReason) (delay : Nat)
  | serveLevel (handle : Nat) (token : Token) (level : ServeLevel)
  | bearerAck (identity : Nat)
  | bearerRefuse (identity : Nat) (reason : BearerRefusal)
  | downFrame (identity : Nat) (payload : List Byte)
  deriving DecidableEq, Repr

/-- Records to shore as the modem takes them (R79, R123, R167). -/
inductive ShoreRecord where
  | echo (link seq : Nat) (purpose : Purpose)
  | shoreUp (identity : Nat) (token : Token) (payload : List Byte)
  | move (number : Nat)
  | regAsk (handle : Nat) (token : Token) (home : HomeCode) (partner : Nat) (code : HomeCode) (jurisdiction : Nat)
  | refresh (handle : Nat) (token : Token) (partner : Nat)
  | dereg (handle : Nat) (token : Token) (partner : Nat) (code : HomeCode)
  | settle (batch : Nat) (records : List (List Byte))
  deriving DecidableEq, Repr

/-- Records on the local port (the table before R67). -/
inductive OnboardRecord where
  | localUp (identity handle : Nat) (port : Fin 6) (payload : List Byte)
  | portalUp (identity handle : Nat) (token : Token) (home : HomeCode) (reason : PortalReason) (payload : List Byte)
  deriving DecidableEq, Repr

/-- One record or frame the part has sent, with the port it left by, or a cell port's carrier that the part withholds or
restores (R41). -/
inductive Sent where
  | toHead (port : Fin 6) (r : HeadRecord)
  | toShore (link : Fin 4) (r : ShoreRecord)
  | toOnboard (r : OnboardRecord)
  | toHost (frame : List Byte)
  | cellCarrier (port : Fin 6) (given : Bool)
  deriving DecidableEq, Repr

/-! ## Shore Link Manager (R77 to R111) -/

/-- Link states (R77). -/
inductive LinkState where
  | absent | probing | ready | joining | active | draining | holddown
  deriving DecidableEq, Repr

/-- The count of the probe in progress (R77, R83). `fromReady` is set for a re-probe (R88), whose notices differ (R95). -/
structure Probe where
  long      : Bool
  sent      : Nat
  answered  : Nat
  timedOut  : Nat
  rttSum    : Nat
  fromReady : Bool
  deriving DecidableEq, Repr

/-- The last probe result (R77, R84). -/
structure ProbeResult where
  long     : Bool
  passed   : Bool
  answered : Nat
  meanRtt  : Nat
  deriving DecidableEq, Repr

/-- An echo whose window is open and not yet answered (R82). -/
structure OpenEcho where
  seq     : Nat
  purpose : Purpose
  sentAt  : Nat
  deriving DecidableEq, Repr

/-- A record waiting at a shore port for its modem (R81, R113): an echo, which takes its sequence when the modem takes it
(a keepalive names the due it belongs to), the swap store's head frame with its device token, or any other record. -/
inductive Waiting where
  | echo (purpose : Purpose) (due : Nat)
  | storeFrame (token : Token)
  | plain (r : ShoreRecord)
  deriving DecidableEq, Repr

/-- The counters of a shore link (R96). -/
structure LinkCounters where
  probeSent         : Nat
  probeAnswered     : Nat
  probeTimedOut     : Nat
  keepSent          : Nat
  keepUnanswered    : Nat
  late              : Nat
  stale             : Nat
  longPassed        : Nat
  longFailed        : Nat
  shortPassed       : Nat
  shortFailed       : Nat
  abandoned         : Nat
  keepaliveFailures : Nat
  carrierLosses     : Nat
  outOfState        : Nat
  deriving DecidableEq, Repr

/-- One link record (R77) with its modem's readiness and the records waiting at its port (R81), its open echoes and those
whose window closed unanswered (R82), and the draining guard (R106). Holddown time and re-probe interval in seconds.
`keepAnswered` says whether the keepalive last due has been answered, `keepDue` numbers it. -/
structure Link where
  type          : Option LinkType
  enabled       : Bool
  costRank      : Nat
  rttLimit      : Option Nat
  holddownTime  : Nat
  reprobeTime   : Nat
  state         : LinkState
  carrier       : Bool
  longOwed      : Bool
  probe         : Option Probe
  lastProbe     : Option ProbeResult
  misses        : Nat
  echoSeq       : Nat
  holddownAt    : Option Nat
  reprobeAt     : Option Nat
  nextEcho      : Option Nat
  guardAt       : Option Nat
  modemReady    : Bool
  waiting       : List Waiting
  openEchoes    : List OpenEcho
  closedEchoes  : List (Nat × Purpose)
  keepAnswered  : Option Bool
  keepDue       : Nat
  counters      : LinkCounters
  deriving DecidableEq, Repr

/-- How the most recent swap ended (R98). -/
inductive SwapOutcome where
  | done | timeout | targetLost
  deriving DecidableEq, Repr

/-- The swap record (R98). The MOVE-ACK expiry is absent while no MOVE-ACK timer runs (DESIGN CHOICE, assumption 56). -/
structure Swap where
  inProgress  : Bool
  number      : Nat
  planned     : Option Bool
  fromLink    : Option (Fin 4)
  toLink      : Option (Fin 4)
  moveSent    : Bool
  startedAt   : Nat
  ackExpiry   : Option Nat
  lastOutcome : Option SwapOutcome
  deriving DecidableEq, Repr

/-- The settle record (R94). -/
structure Settle where
  link   : Fin 4
  since  : Nat
  expiry : Nat
  deriving DecidableEq, Repr

/-- Counters of the swap machinery (R116). -/
structure SwapCounters where
  begunPlanned     : Nat
  begunUnplanned   : Nat
  done             : Nat
  failedTimeout    : Nat
  failedTarget     : Nat
  turnedUnplanned  : Nat
  staleMoveAcks    : Nat
  isolations       : Nat
  cutOffs          : Nat
  deriving DecidableEq, Repr

/-- The Shore Link Manager: link records, link-set timings (R93), settle record, swap record, isolation, cut-off and what
was shed when it began (R109 to R111). The settle time in seconds, the other timings in milliseconds. -/
structure Slm where
  links        : Vector Link 4
  pin          : Option (Fin 4)
  settleTime   : Nat
  moveAckTimer : Nat
  guardTime    : Nat
  grace        : Nat
  settle       : Option Settle
  swap         : Swap
  isolated     : Option Nat
  graceAt      : Option Nat
  cutOff       : Bool
  cutOffShed   : Tally
  counters     : SwapCounters
  deriving DecidableEq, Repr

/-! ## Swap Store (R112 to R117) -/

/-- One frame in the swap store (R112). -/
structure StoredFrame where
  identity : Nat
  handle   : Nat
  attach   : Nat
  payload  : List Byte
  deriving DecidableEq, Repr

/-- Counters of the swap store (R116); `withdrawn` by the five causes of R114. -/
structure StoreCounters where
  entered   : Tally
  handedOff : Tally
  shed      : Tally
  withdrawn : Vector Tally 5
  peak      : Nat
  deriving DecidableEq, Repr

/-- The swap store: its frames, oldest first, and whether the head frame stands offered at the ACTIVE link's port (R113). -/
structure SwapStore where
  frames   : List StoredFrame
  offered  : Bool
  counters : StoreCounters
  deriving DecidableEq, Repr

/-! ## Roaming Engine (R118 to R140) -/

/-- The kind of an exchange (R124). -/
inductive ExchangeKind where
  | regAsk | refresh
  deriving DecidableEq, Repr

/-- One exchange awaiting its answer (R124). -/
structure Exchange where
  handle  : Nat
  attach  : Nat
  token   : Token
  kind    : ExchangeKind
  partner : Nat
  link    : Fin 4
  expiry  : Nat
  deriving DecidableEq, Repr

/-- The engine's counters (R138); `regRefused` by reason. -/
structure RoamingCounters where
  regAsks         : Nat
  refreshOwed     : Nat
  refreshPullIn   : Nat
  regOks          : Nat
  regRefused      : Vector Nat 3
  regTimeouts     : Nat
  refreshOks      : Nat
  refreshRefused  : Nat
  refreshTimeouts : Nat
  requeues        : Nat
  movesBegun      : Nat
  movesDone       : Nat
  movesCancelled  : Nat
  movesExhausted  : Nat
  voids           : Nat
  lapsesBalance   : Nat
  lapsesRefused   : Nat
  deregsSent      : Nat
  deregsDropped   : Nat
  staleAnswers    : Nat
  deriving DecidableEq, Repr

/-- The Roaming Engine: partner table, pacer (level in thousandths of a token) and in-flight table. The move list, the
fresh registrations and the refresh schedule are worked out from the entries' states. -/
structure Rge where
  partners      : List Partner
  pacerRate     : Nat
  exchangeTimer : Nat
  bucket        : Nat
  inFlight      : List Exchange
  counters      : RoamingCounters
  deriving DecidableEq, Repr

/-! ## Rating Unit (R141 to R157) -/

/-- Close reasons, in the order of R151. -/
inductive CloseReason where
  | detach | portLost | evict | partner | zone | tariff | day | age | cap | lapse | quiet | reset
  deriving DecidableEq, Repr

/-- A closure record, with its serial once the record store has accepted it (R151, R158). -/
structure ChargeRecord where
  serial       : Option Nat
  token        : Token
  home         : HomeCode
  partner      : Nat
  partnerCode  : HomeCode
  jurisdiction : Nat
  zone         : Nat
  tariffClass  : Nat
  plan         : Nat
  rate1        : Nat
  rate2        : Nat
  startTime    : Nat
  endTime      : Nat
  up           : Nat
  down         : Nat
  inc1         : Nat
  inc2         : Nat
  charge       : Nat
  reason       : CloseReason
  clamped      : Bool
  saturated    : Bool
  delayed      : Bool
  storeLoss    : Nat
  deriving DecidableEq, Repr

/-- A closure in the wait list with the life of the entry it came from (R154). It is detached once that pair names no live
entry. -/
structure WaitingClosure where
  handle : Nat
  attach : Nat
  record : ChargeRecord
  deriving DecidableEq, Repr

/-- The Rating Unit's counters (R156); `closures` by reason. -/
structure RatingCounters where
  opened         : Nat
  closures       : Vector Nat 12
  ratedUp        : Nat
  ratedDown      : Nat
  unratedNone    : Nat
  unratedFrozen  : Nat
  inc1           : Nat
  inc2           : Nat
  clamped        : Nat
  alerts         : Nat
  capsReached    : Nat
  commitsApplied : Nat
  commitsRefused : Nat
  dayRolls       : Nat
  delayed        : Nat
  lost           : Nat
  peakWait       : Nat
  deriving DecidableEq, Repr

/-- The Rating Unit: the two tariff banks as their defined slots in ascending order (R141), the armed commit, the close
queue and the wait list (R154). -/
structure Rtu where
  active       : List (Nat × TariffPlan)
  activeExists : Bool
  bank         : List (Nat × TariffPlan)
  armed        : Bool
  closeQueue   : List ChargeRecord
  waitList     : List WaitingClosure
  counters     : RatingCounters
  deriving DecidableEq, Repr

/-! ## Record Store Controller and record memory (R158 to R173) -/

/-- The map area of record memory: remap entries (logical slot, spare) and the dead set (R159). -/
structure MapArea where
  remaps : List (Nat × Nat)
  dead   : List Nat
  deriving DecidableEq, Repr

/-- One place of the delivery ring (R160). -/
structure RingPlace where
  serial   : Nat
  slot     : Nat
  inFlight : Bool
  deriving DecidableEq, Repr

/-- Why a map area write is made: a remap of a logical slot to a spare, or the death of a logical slot (R163). -/
inductive MapChange where
  | remap (slot spare : Nat)
  | kill (slot : Nat)
  deriving DecidableEq, Repr

/-- What a read of a committed record belongs to (R165, R172). -/
inductive ReadFor where
  | settle | hostCopy
  deriving DecidableEq, Repr

/-- The record memory operation in flight (R159). -/
inductive MemOp where
  | write (slot : Nat)
  | mapWrite (change : MapChange) (repeated : Bool)
  | verify (slot : Nat)
  | read (serial slot : Nat) (purpose : ReadFor)
  | clear (slot : Nat)
  deriving DecidableEq, Repr

/-- The record being written, from its first write until it commits: the logical slot it was given and whether it is
written directly from the close queue (R161, R162). -/
structure WriteJob where
  record : ChargeRecord
  slot   : Nat
  direct : Bool
  deriving DecidableEq, Repr

/-- A settle batch or an export being read (R167, R169): the records read so far with their 64 bytes. `again` is set for
an export that reads the batch in flight a second time. -/
structure Build where
  purpose : ReadFor
  again   : Bool
  got     : List (Nat × List Byte)
  deriving DecidableEq, Repr

/-- The batch in flight (R167 to R169): its number, the timer and link of a SHORE batch. -/
structure Batch where
  number : Nat
  expiry : Option Nat
  link   : Option (Fin 4)
  deriving DecidableEq, Repr

/-- Causes for which a batch in flight is returned (R168). -/
inductive ReturnCause where
  | timer | linkLeft | swapBegan | channel | reset
  deriving DecidableEq, Repr

/-- The controller's counters (R173); `returned` by cause. -/
structure RecordCounters where
  accepted        : Nat
  committed       : Nat
  writeFailures   : Nat
  remaps          : Nat
  killed          : Nat
  mapFailures     : Nat
  verifiesPassed  : Nat
  verifiesFailed  : Nat
  unreadable      : Nat
  clearFailures   : Nat
  batchesSent     : Nat
  batchesConfirmed : Nat
  returned        : Vector Nat 5
  exportsDone     : Nat
  confirmations   : Nat
  staleAcks       : Nat
  confirmed       : Nat
  duplicates      : Nat
  lostClosures    : Nat
  deriving DecidableEq, Repr

/-- The Record Store Controller with the external record memory behind it. `memory` holds the slots' bytes (64 bytes a
physical slot, native slots first, then the spare region), `mapArea` the map area; both outlive power. The rest is the
controller's own (R160 to R173). -/
structure Rsc where
  memory       : List Host.Cell
  mapArea      : MapArea
  remaps       : List (Nat × Nat)
  usedSpares   : List Nat
  dead         : List Nat
  ring         : List RingPlace
  clearList    : List Nat
  candidates   : List Nat
  nextSerial   : Nat
  lastGiven    : Nat
  buffer       : List ChargeRecord
  bufferOn     : Bool
  job          : Option WriteJob
  op           : Option MemOp
  lastWasWrite : Bool
  build        : Option Build
  batch        : Option Batch
  batchNumber  : Nat
  channel      : Channel
  batchTimer   : Nat
  lowStands    : Bool
  scanEnded    : Bool
  counters     : RecordCounters
  deriving DecidableEq, Repr

/-! ## Management Link Interface (R174 to R185) -/

/-- Device states (R179). -/
inductive DeviceState where
  | unconfigured | running
  deriving DecidableEq, Repr

/-- Causes of a verdict change (R13). -/
inductive ZoneCause where
  | firstFix | stricter | margin | holdEnd | tableLoad
  deriving DecidableEq, Repr

/-- Causes of a link state change (R95). -/
inductive LinkCause where
  | carrierUp | carrierLost | enabled | disabled | probePass | probeFail | reprobeFail | holddownEnd | keepaliveLost | swap
  deriving DecidableEq, Repr

/-- Causes of loss in an ISOLATED notice (R109). -/
inductive LossCause where
  | keepaliveLost | carrierLost | disabled | start
  deriving DecidableEq, Repr

/-- STORE-FAULT reasons, coded 1 to 5 in this order (R172, R178). -/
inductive StoreFault where
  | writeBufferOff | slotDead | mapWrite | mapUnreadable | closureLost
  deriving DecidableEq, Repr

/-- A notice in the queue (R178), with the fields its own rule lists. -/
inductive Notice where
  | zoneChanged (prev new : Option Nat) (rules : Option ZoneRules) (cause : ZoneCause) (distance : Option Nat)
      (time count : Nat)
  | linkChanged (link : Fin 4) (prev new : LinkState) (cause : LinkCause) (type : Option LinkType) (costRank : Nat)
      (last : Option ProbeResult) (time count : Nat)
  | swapDone (number : Nat) (planned : Bool) (fromLink : Option (Fin 4)) (toLink : Fin 4) (took bytes frames : Nat)
      (time count : Nat)
  | swapFailed (number : Nat) (planned : Bool) (fromLink : Option (Fin 4)) (toLink : Fin 4) (targetLost : Bool)
      (bytes time count : Nat)
  | isolated (lost : Option (Fin 4)) (cause : LossCause) (swap : Option (Nat × Fin 4)) (bytes time count : Nat)
  | rejoined (link : Fin 4) (number lasted : Nat) (cutOff : Bool) (shed : Tally) (time count : Nat)
  | billAlert (handle : Nat) (token : Token) (cap level total time : Nat)
  | subscriberCapped (handle : Nat) (token : Token) (cap total : Nat) (clamped : Bool) (time : Nat)
  | registrationLapsed (handle : Nat) (token : Token) (partner : Nat) (refused resting : Bool) (time count : Nat)
  | storeLow (level capacity undelivered inFlight time : Nat)
  | storeFault (reason : StoreFault) (spares dead capacity lost : Nat) (slot : Option Nat) (time count : Nat)
  | recordUnreadable (serial slot : Nat) (purpose : ReadFor) (time count : Nat)
  | portLost (port : Fin 6) (marked dropped time count : Nat)
  | headResync (port : Fin 6) (marked dropped : Nat) (state : PortState) (time count : Nat)
  deriving DecidableEq, Repr

/-- A reply made ready for sending (R177): the request's tag and the reply body, header included. -/
structure Reply where
  tag  : Byte
  body : List Byte
  deriving DecidableEq, Repr

/-- What waits for the transmitter, in the order made ready (R178). -/
inductive TxItem where
  | notice (n : Notice)
  | reply (r : Reply)
  deriving DecidableEq, Repr

/-- Work that holds the head of the request input after it has begun (R169, R170, R176, R180): a RESET with the periods it
closed and, once its flush has ended STALLED, the closures lost by it. -/
inductive HeadWork where
  | flushing
  | resetting (closed : Nat) (lost : Option Nat)
  | exporting
  deriving DecidableEq, Repr

/-- The partner staging table (R183): records and settings as clamped, the last part taken, and whether a value was
clamped. -/
structure Staging where
  records       : List Partner
  pacerRate     : Nat
  exchangeTimer : Nat
  lastPart      : Nat
  clamped       : Bool
  deriving DecidableEq, Repr

/-- The billing settings (R182); the maximum period age in seconds. -/
structure Billing where
  defaultCap   : Nat
  alertPercent : Nat
  maxAge       : Nat
  exemptList   : List HomeCode
  deriving DecidableEq, Repr

/-- The management link's counters (R184); `refused` by reason code 1 to 8. -/
structure MliCounters where
  badLengths      : Nat
  gaps            : Nat
  crcErrors       : Nat
  overruns        : Nat
  taken           : Nat
  repliesOk       : Nat
  refused         : Vector Nat 8
  noticesSent     : Nat
  noticesReplaced : Nat
  noticesLost     : Nat
  deriving DecidableEq, Repr

/-- The Management Link Interface: device state, clocks (R181), receiver (R175: the bytes of the incomplete frame and the
milliseconds left of its gap timer), request input (R176), transmitter and notice queue (R178), staging table and billing
settings. `shipPhase` counts the milliseconds since the last second boundary of ship time. -/
structure Mli where
  device    : DeviceState
  clock     : Nat
  shipTime  : Nat
  shipPhase : Nat
  rx        : List Byte
  gapLeft   : Nat
  input     : List Instr
  work      : Option HeadWork
  tx        : List TxItem
  overflow  : Bool
  hostCts   : Bool
  staging   : Option Staging
  billing   : Billing
  counters  : MliCounters
  deriving DecidableEq, Repr

/-! ## The whole machine -/

/-- The state of the part, block by block. Three fields are the model's own: `sent`, what the part has sent (`Sent`),
oldest first; `openCount`, which numbers the free values drawn (Config); `pending`, the queue of commands.
(DESIGN CHOICE, assumption 35.) -/
structure State where
  powered   : Bool
  tracker   : Tracker
  cpc       : Cpc
  table     : Table
  router    : Router
  slm       : Slm
  sws       : SwapStore
  rge       : Rge
  rtu       : Rtu
  rsc       : Rsc
  mli       : Mli
  sent      : List Sent
  openCount : Nat
  pending   : List Instr
  deriving DecidableEq, Repr

/-- Why a command could stop the machine: nothing does. The manual gives every command an effect, so no fault exists. -/
inductive Fault where
  deriving DecidableEq, Repr

/-- Why a command could be refused by the model. -/
inductive Refusal where
  /-- Raised by `exec` alone, for a command of the table that has no meaning yet (safe: the run stops). None is left. -/
  | notModelled (mnemonic : String)
  deriving DecidableEq, Repr

/-! ## Reset values -/

/-- R21. -/
def Tracker.initial : Tracker :=
  { routeLength := 0, zones := [], hysteresis := 200, fixTimeout := 10, holdTime := 30, retentionTime := 20,
    verdict := none, frozen := false, forcedFreeze := false, holdExpiry := none, lastFix := none, lastPosition := none,
    fixExpiry := none }

def PortCounters.zero : PortCounters :=
  { newAdmissions := 0, reAttaches := 0, declines := Vector.replicate 4 0, asksDropped := 0, staleDeparts := 0,
    discardedDown := 0, malformed := 0, resyncs := 0, portLosses := 0, portLostDepartures := 0 }

/-- R42. -/
def CellPort.initial : CellPort :=
  { state := .down, headCapacity := 1024, limit := 512, portLostTime := 60, hold := false, asks := [],
    counters := PortCounters.zero }

/-- R42: the arbiter last served port 5. -/
def Cpc.initial : Cpc :=
  { ports := Vector.replicate 6 CellPort.initial, lastServed := 5, storeHold := false }

/-- R60. -/
def Table.initial : Table :=
  { entries := [], freeHandles := List.range 2048, attachCounter := 0,
    counters := { created := 0, revivals := 0, removals := Vector.replicate 4 0, staleAnswers := 0, droppedInFlight := 0 } }

def Tally.zero : Tally := { frames := 0, bytes := 0 }

def RouterTotals.zero : RouterTotals :=
  { upDirect := .zero, upStored := .zero, upLocal := .zero, upPortal := Vector.replicate 6 .zero, upIsolated := .zero,
    upNotOpen := .zero, localPortDiscards := .zero, localDelivered := .zero, localDiscards := .zero,
    downDelivered := .zero, downNotOpen := .zero, downStaleBearer := .zero, downWrongKind := .zero,
    downNotEntitled := Vector.replicate 7 .zero, handOffs := .zero, meteredUp := .zero, meteredDown := .zero, opens := 0,
    refusals := Vector.replicate 2 0, closes := 0, staleCloses := 0, freedOther := 0 }

/-- R76: `carrier` is the local port's carrier as read. -/
def Router.initial (carrier : Bool) : Router :=
  { localCarrier := carrier, totals := RouterTotals.zero, additions := [] }

def LinkCounters.zero : LinkCounters :=
  { probeSent := 0, probeAnswered := 0, probeTimedOut := 0, keepSent := 0, keepUnanswered := 0, late := 0, stale := 0,
    longPassed := 0, longFailed := 0, shortPassed := 0, shortFailed := 0, abandoned := 0, keepaliveFailures := 0,
    carrierLosses := 0, outOfState := 0 }

/-- R97: `carrier` and `ready` are what the modem reports. -/
def Link.initial (carrier ready : Bool) : Link :=
  { type := none, enabled := false, costRank := 0, rttLimit := none, holddownTime := 30, reprobeTime := 60,
    state := .absent, carrier := carrier, longOwed := true, probe := none, lastProbe := none, misses := 0, echoSeq := 0,
    holddownAt := none, reprobeAt := none, nextEcho := none, guardAt := none, modemReady := ready, waiting := [],
    openEchoes := [], closedEchoes := [], keepAnswered := none, keepDue := 0, counters := LinkCounters.zero }

/-- R98: the swap record after a reset. The rule gives started-at no value then: it reads 0 (DESIGN CHOICE, assumption
56). -/
def Swap.initial : Swap :=
  { inProgress := false, number := 0, planned := none, fromLink := none, toLink := none, moveSent := false,
    startedAt := 0, ackExpiry := none, lastOutcome := none }

def SwapCounters.zero : SwapCounters :=
  { begunPlanned := 0, begunUnplanned := 0, done := 0, failedTimeout := 0, failedTarget := 0, turnedUnplanned := 0,
    staleMoveAcks := 0, isolations := 0, cutOffs := 0 }

/-- R97, R117, with the links' carriers and modems as given. -/
def Slm.initial (links : Vector Link 4) : Slm :=
  { links := links, pin := none, settleTime := 10, moveAckTimer := 3000, guardTime := 2000, grace := 5000,
    settle := none, swap := Swap.initial, isolated := none, graceAt := none, cutOff := false, cutOffShed := .zero,
    counters := SwapCounters.zero }

/-- R117. -/
def SwapStore.initial : SwapStore :=
  { frames := [], offered := false,
    counters := { entered := .zero, handedOff := .zero, shed := .zero, withdrawn := Vector.replicate 5 .zero, peak := 0 } }

def RoamingCounters.zero : RoamingCounters :=
  { regAsks := 0, refreshOwed := 0, refreshPullIn := 0, regOks := 0, regRefused := Vector.replicate 3 0,
    regTimeouts := 0, refreshOks := 0, refreshRefused := 0, refreshTimeouts := 0, requeues := 0, movesBegun := 0,
    movesDone := 0, movesCancelled := 0, movesExhausted := 0, voids := 0, lapsesBalance := 0, lapsesRefused := 0,
    deregsSent := 0, deregsDropped := 0, staleAnswers := 0 }

/-- R140. -/
def Rge.initial : Rge :=
  { partners := [], pacerRate := 20, exchangeTimer := 5000, bucket := 20000, inFlight := [],
    counters := RoamingCounters.zero }

def RatingCounters.zero : RatingCounters :=
  { opened := 0, closures := Vector.replicate 12 0, ratedUp := 0, ratedDown := 0, unratedNone := 0, unratedFrozen := 0,
    inc1 := 0, inc2 := 0, clamped := 0, alerts := 0, capsReached := 0, commitsApplied := 0, commitsRefused := 0,
    dayRolls := 0, delayed := 0, lost := 0, peakWait := 0 }

/-- R157. -/
def Rtu.initial : Rtu :=
  { active := [], activeExists := false, bank := [], armed := false, closeQueue := [], waitList := [],
    counters := RatingCounters.zero }

def RecordCounters.zero : RecordCounters :=
  { accepted := 0, committed := 0, writeFailures := 0, remaps := 0, killed := 0, mapFailures := 0, verifiesPassed := 0,
    verifiesFailed := 0, unreadable := 0, clearFailures := 0, batchesSent := 0, batchesConfirmed := 0,
    returned := Vector.replicate 5 0, exportsDone := 0, confirmations := 0, staleAcks := 0, confirmed := 0,
    duplicates := 0, lostClosures := 0 }

/-- R171, R173: the controller at power-on, before its scan has ended, over the record memory given. What the scan will
find stands empty until then (DESIGN CHOICE, assumption 2). -/
def Rsc.atPowerOn (memory : List Host.Cell) (mapArea : MapArea) : Rsc :=
  { memory := memory, mapArea := mapArea, remaps := [], usedSpares := [], dead := [], ring := [], clearList := [],
    candidates := [], nextSerial := 0, lastGiven := 32767, buffer := [], bufferOn := false, job := none, op := none,
    lastWasWrite := false, build := none, batch := none, batchNumber := 0, channel := .shore, batchTimer := 10,
    lowStands := false, scanEnded := false, counters := RecordCounters.zero }

/-- R182: the defaults. -/
def Billing.initial : Billing := { defaultCap := 0, alertPercent := 80, maxAge := 900, exemptList := [] }

def MliCounters.zero : MliCounters :=
  { badLengths := 0, gaps := 0, crcErrors := 0, overruns := 0, taken := 0, repliesOk := 0,
    refused := Vector.replicate 8 0, noticesSent := 0, noticesReplaced := 0, noticesLost := 0 }

/-- R184; `cts` is the host's clear-to-send as it stands. -/
def Mli.initial (cts : Bool) : Mli :=
  { device := .unconfigured, clock := 0, shipTime := 0, shipPhase := 0, rx := [], gapLeft := 50, input := [],
    work := none, tx := [], overflow := false, hostCts := cts, staging := none, billing := Billing.initial,
    counters := MliCounters.zero }

/-- The part right after power-on with a new record memory: every block at its power-on values, the scan of record memory
not ended (R21, R42, R60, R76, R97, R117, R140, R157, R173, R184). The carriers and modems as assumption 2 says (DESIGN
CHOICE). -/
def State.reset : State :=
  { powered := true, tracker := Tracker.initial, cpc := Cpc.initial, table := Table.initial,
    router := Router.initial true, slm := Slm.initial (Vector.replicate 4 (Link.initial false true)),
    sws := SwapStore.initial, rge := Rge.initial, rtu := Rtu.initial,
    rsc := Rsc.atPowerOn [] { remaps := [], dead := [] }, mli := Mli.initial true, sent := [], openCount := 0,
    pending := [] }

end Sys2Proof.Machine
end

