-- ==== Sys2Proof/Machine/Limits.lean ====
section
/-! DEFINITION. The fixed sizes and levels of the part, each with the rule that gives it. -/

namespace Sys2Proof.Machine.Limits

/-- Entries of the subscriber table (R43). -/
def tableSize : Nat := 2048
/-- Pending asks a port may hold (R28). -/
def pendingAsks : Nat := 32
/-- The low watermark of the free level (R29, R166). -/
def lowWatermark : Nat := 2048
/-- Payload bytes the swap store holds (R112). -/
def storeBytes : Nat := 524288
/-- Occupancy at which the store hold condition begins (R34). -/
def holdBegins : Nat := 393216
/-- Occupancy at which the store hold condition ends (R35). -/
def holdEnds : Nat := 262144
/-- Largest payload of one frame (R25, R65). -/
def maxPayload : Nat := 1536
/-- Exchanges in flight (R124). -/
def inFlight : Nat := 64
/-- Closure records in the close queue (R154). -/
def closeQueue : Nat := 64
/-- Closures in the wait list (R154). -/
def waitList : Nat := 4096
/-- Logical slots, and physical slots of the native region (R159). -/
def slots : Nat := 32768
/-- Spare physical slots (R159). -/
def spares : Nat := 1024
/-- Spare pool at and below which the write buffer is off (R161, R162). -/
def bufferPool : Nat := 16
/-- Records in the write buffer (R161). -/
def buffer : Nat := 32
/-- Slots on the candidate list (R164). -/
def candidates : Nat := 32
/-- Records of a batch (R167, R169). -/
def batch : Nat := 16
/-- Requests in the request input (R176). -/
def input : Nat := 4
/-- Notices in the notice queue (R178). -/
def notices : Nat := 64
/-- Largest volume of a period, 2^40 - 1 (R146). -/
def maxVolume : Nat := 1099511627775
/-- Largest 32-bit value: voyage totals, caps, period charges (R43, R147). -/
def max32 : Nat := 4294967295
/-- Largest 16-bit value: day counts and store loss counts (R43). -/
def max16 : Nat := 65535

end Sys2Proof.Machine.Limits
end

