-- ==== Sys2Proof/Machine/Ops.lean ====
section
/-! DEFINITION. The named operations every block uses: block updates, ports, links and entries, the clocks, notices,
replies and what the part sends. -/

/-- The place of a REG-REFUSED reason in its counters (R138). -/
def Sys2Proof.RefusedReason.place : Sys2Proof.RefusedReason → Fin 3
  | .noAgreement => 0 | .blocked => 1 | .congested => 2

namespace Sys2Proof.Machine

/-! ## One block at a time -/

def State.onTracker (f : Tracker → Tracker) (s : State) : State := { s with tracker := f s.tracker }
def State.onCpc (f : Cpc → Cpc) (s : State) : State := { s with cpc := f s.cpc }
def State.onTable (f : Table → Table) (s : State) : State := { s with table := f s.table }
def State.onRouter (f : Router → Router) (s : State) : State := { s with router := f s.router }
def State.onSlm (f : Slm → Slm) (s : State) : State := { s with slm := f s.slm }
def State.onSws (f : SwapStore → SwapStore) (s : State) : State := { s with sws := f s.sws }
def State.onRge (f : Rge → Rge) (s : State) : State := { s with rge := f s.rge }
def State.onRtu (f : Rtu → Rtu) (s : State) : State := { s with rtu := f s.rtu }
def State.onRsc (f : Rsc → Rsc) (s : State) : State := { s with rsc := f s.rsc }
def State.onMli (f : Mli → Mli) (s : State) : State := { s with mli := f s.mli }

/-- The record or frame `r` leaves the part. -/
def State.emit (r : Sent) (s : State) : State := { s with sent := s.sent ++ [r] }

/-- The outcome of a command whose effect is `s`; every command of the part completes. -/
def done (s : State) : Host.Outcome State Fault Refusal := .next s

/-- A command reaches a powered part; without power nothing happens (R171; DEDUCED, assumption 4). -/
def whenPowered (s : State) (f : State → State) : Host.Outcome State Fault Refusal :=
  if s.powered then done (f s) else done s

def State.running (s : State) : Bool := s.mli.device == .running

/-! ## Numbers as bits -/

/-- One more event in a tally of frames and bytes: frames wrap at 32 bits, bytes at 64 (R74, R116). -/
def Tally.add (b : Nat) (t : Tally) : Tally := { frames := bump32 t.frames, bytes := add64 t.bytes b }

/-- The tally at place `i` of a group of tallies, one frame of `b` bytes later. -/
def addAt (n : Nat) (b : Nat) (v : Vector Tally n) (i : Fin n) : Vector Tally n := v.set i (v[i].add b)

def DeclineReason.place : DeclineReason → Fin 4
  | .unavailable => 0 | .portFull => 1 | .tableFull => 2 | .retryLater => 3

def RemovalCause.place : RemovalCause → Fin 4
  | .depart => 0 | .portLost => 1 | .retention => 2 | .evict => 3

def PortalReason.place : PortalReason → Fin 6
  | .portLost => 0 | .barred => 1 | .closing => 2 | .registering => 3 | .lapsed => 4 | .unroamed => 5

/-- Close reasons are numbered 0 to 11 in the order of R151 (R185, charge record). -/
def CloseReason.place : CloseReason → Fin 12
  | .detach => 0 | .portLost => 1 | .evict => 2 | .partner => 3 | .zone => 4 | .tariff => 5 | .day => 6 | .age => 7
  | .cap => 8 | .lapse => 9 | .quiet => 10 | .reset => 11

def ReturnCause.place : ReturnCause → Fin 5
  | .timer => 0 | .linkLeft => 1 | .swapBegan => 2 | .channel => 3 | .reset => 4

/-! ## Ports, links and entries -/

def State.port (s : State) (p : Fin 6) : CellPort := s.cpc.ports[p]
def State.onPort (p : Fin 6) (f : CellPort → CellPort) (s : State) : State :=
  s.onCpc fun c => { c with ports := c.ports.set p (f c.ports[p]) }
def State.countPort (p : Fin 6) (f : PortCounters → PortCounters) (s : State) : State :=
  s.onPort p fun q => { q with counters := f q.counters }

/-- The six cell ports in ascending order. -/
def allPorts : List (Fin 6) := [0, 1, 2, 3, 4, 5]
/-- The four shore links in ascending order. -/
def allLinks : List (Fin 4) := [0, 1, 2, 3]

def State.link (s : State) (l : Fin 4) : Link := s.slm.links[l]
def State.onLink (l : Fin 4) (f : Link → Link) (s : State) : State :=
  s.onSlm fun m => { m with links := m.links.set l (f m.links[l]) }
def State.countLink (l : Fin 4) (f : LinkCounters → LinkCounters) (s : State) : State :=
  s.onLink l fun k => { k with counters := f k.counters }

/-- The live entry under a key of a list in ascending key order. -/
def lookupKey {α : Type} (k : Nat) : List (Nat × α) → Option α
  | [] => none
  | (h, e) :: rest => if h = k then some e else lookupKey k rest

/-- The list with the value under key `k` changed; keys stay. -/
def alterKey {α : Type} (k : Nat) (f : α → α) : List (Nat × α) → List (Nat × α)
  | [] => []
  | (h, e) :: rest => if h = k then (h, f e) :: rest else (h, e) :: alterKey k f rest

/-- The list with `v` under key `k`, in ascending key order. -/
def putKey {α : Type} (k : Nat) (v : α) : List (Nat × α) → List (Nat × α)
  | [] => [(k, v)]
  | (h, e) :: rest =>
    if k < h then (k, v) :: (h, e) :: rest else if h = k then (k, v) :: rest else (h, e) :: putKey k v rest

/-- The list without key `k`. -/
def eraseKey {α : Type} (k : Nat) (l : List (Nat × α)) : List (Nat × α) := l.filter fun p => p.1 != k

/-- The live entry with handle `h` (R44). -/
def State.entry? (s : State) (h : Nat) : Option Entry := lookupKey h s.table.entries

/-- The live entry with handle `h` and attach number `a`: one life of one entry (R44, R56). -/
def State.life? (s : State) (h a : Nat) : Option Entry := (s.entry? h).filter fun e => e.attach == a

/-- The live entry with handle `h` and device token `t` (R52, R55, R57, R150). A handle above 2,047 is not clamped by R177:
it names no live entry (DESIGN CHOICE, assumption 73). -/
def State.named? (s : State) (h : Nat) (t : Token) : Option Entry := (s.entry? h).filter fun e => e.token == t

/-- The entry that holds a device token, with its handle (R44). -/
def State.byToken? (s : State) (t : Token) : Option (Nat × Entry) := s.table.entries.find? fun p => p.2.token == t

def State.onEntry (h : Nat) (f : Entry → Entry) (s : State) : State :=
  s.onTable fun t => { t with entries := alterKey h f t.entries }

/-- The handles of the live entries, ascending. -/
def State.handles (s : State) : List Nat := s.table.entries.map (·.1)

/-- `f` taken for each live entry in ascending handle order (R151). (DESIGN CHOICE, assumption 48.) -/
def State.eachEntry (f : Nat → State → State) (s : State) : State := s.handles.foldl (fun s h => f h s) s

/-- `f` taken for each of `hs` in order. -/
def State.eachOf {α : Type} (hs : List α) (f : α → State → State) (s : State) : State := hs.foldl (fun s h => f h s) s

/-- The subscriber count of a cell port: the entries whose cell port it is (R22). -/
def State.portCount (s : State) (p : Fin 6) : Nat := s.table.entries.countP fun e => e.2.port == p

/-- The effective limit of a cell port (R22). -/
def CellPort.effectiveLimit (q : CellPort) : Nat := min q.limit q.headCapacity

/-- A port on which a head is listening (R25): READY, RADIATING or QUIET. -/
def CellPort.listening (q : CellPort) : Bool := q.state != .down

/-- A record is sent to the head on port `p`; a port in DOWN is sent nothing (R27). -/
def State.toHead (p : Fin 6) (r : HeadRecord) (s : State) : State :=
  if (s.port p).listening then s.emit (.toHead p r) else s

/-! ## The clocks (R125, R175, R181) -/

/-- `n` milliseconds pass: the voyage clock counts (64 bits wide), ship time rises at each second boundary, the pacer's
bucket fills (R125), and the gap timer of an incomplete host frame runs unless the part withholds its clear-to-send
(R175). (DEDUCED, assumption 47.) -/
def State.pass (n : Nat) (s : State) : State :=
  let m := s.mli
  let running := !m.rx.isEmpty && m.input.length < Limits.input
  { s with
    mli := { m with
      clock := (m.clock + n) % 18446744073709551616,
      shipTime := (m.shipTime + (m.shipPhase + n) / 1000) % 4294967296,
      shipPhase := (m.shipPhase + n) % 1000,
      gapLeft := if running then m.gapLeft - n else m.gapLeft },
    rge := { s.rge with bucket := min (s.rge.pacerRate * 1000) (s.rge.bucket + n * s.rge.pacerRate) } }

/-- The current voyage-clock time. -/
def State.now (s : State) : Nat := s.mli.clock

/-- A timer that stands at `t` expires: it acts once the voyage clock has come to `t`. An expiry named before that belongs
to a timer that has been cancelled or started afresh since, and does nothing (DESIGN CHOICE, assumption 5). -/
def State.atExpiry (t : Nat) (act : State → State) (s : State) : State := if s.now < t then s else act s

/-! ## Notices (R178) -/

/-- Whether two notices have the same kind and subject (R178): the subject of most is the device. -/
def Notice.sameSubject : Notice → Notice → Bool
  | .zoneChanged .., .zoneChanged .. => true
  | .linkChanged l .., .linkChanged l' .. => l == l'
  | .swapDone .., .swapDone .. => true
  | .swapFailed .., .swapFailed .. => true
  | .isolated .., .isolated .. => true
  | .rejoined .., .rejoined .. => true
  | .billAlert h .., .billAlert h' .. => h == h'
  | .subscriberCapped h .., .subscriberCapped h' .. => h == h'
  | .registrationLapsed .., .registrationLapsed .. => true
  | .storeLow .., .storeLow .. => true
  | .storeFault r .., .storeFault r' .. => r == r'
  | .recordUnreadable .., .recordUnreadable .. => true
  | .portLost p .., .portLost p' .. => p == p'
  | .headResync p .., .headResync p' .. => p == p'
  | _, _ => false

/-- The notice that replaces `old` when `new`, of the same kind and subject, is raised (R13, R39, R95, R108, R109, R111,
R139, R155, R166, R172). -/
def Notice.combine (old new : Notice) : Notice :=
  match old, new with
  | .zoneChanged prev _ _ _ _ _ n, .zoneChanged _ z r c d t k => .zoneChanged prev z r c d t (satAt 255 (n + k))
  | .linkChanged _ prev _ _ _ _ _ _ n, .linkChanged l _ z c ty cr lp t k =>
    .linkChanged l prev z c ty cr lp t (satAt 255 (n + k))
  | .swapDone _ _ _ _ _ _ _ _ n, .swapDone a b c d e f g t k => .swapDone a b c d e f g t (satAt 255 (n + k))
  | .swapFailed _ _ _ _ _ _ _ n, .swapFailed a b c d e f t k => .swapFailed a b c d e f t (satAt 255 (n + k))
  | .isolated _ _ _ _ _ n, .isolated a b c d t k => .isolated a b c d t (satAt 255 (n + k))
  | .rejoined _ _ _ _ _ _ n, .rejoined a b c d e t k => .rejoined a b c d e t (satAt 255 (n + k))
  | .registrationLapsed _ _ _ _ _ _ n, .registrationLapsed a b c d e t k =>
    .registrationLapsed a b c d e t (satAt 65535 (n + k))
  | .storeFault _ _ _ _ _ _ _ n, .storeFault a b c d e f t k => .storeFault a b c d e f t (satAt 65535 (n + k))
  | .recordUnreadable _ _ _ _ n, .recordUnreadable a b c t k => .recordUnreadable a b c t (satAt 65535 (n + k))
  | .portLost _ m d _ n, .portLost p m' d' t k =>
    .portLost p (satAt 65535 (m + m')) (satAt 65535 (d + d')) t (satAt 255 (n + k))
  | .headResync _ m d _ _ n, .headResync p m' d' st t k =>
    .headResync p (satAt 65535 (m + m')) (satAt 65535 (d + d')) st t (satAt 255 (n + k))
  | _, n => n

def TxItem.isNotice : TxItem → Bool
  | .notice _ => true
  | .reply _ => false

/-- The length of the notice queue (R178). -/
def noticeCount (tx : List TxItem) : Nat := tx.countP TxItem.isNotice

/-- The queue with the standing notice of `n`'s kind and subject replaced in its place, or `none` when none stands. -/
def replaceNotice (n : Notice) : List TxItem → Option (List TxItem)
  | [] => none
  | .notice o :: rest =>
    if o.sameSubject n then some (.notice (o.combine n) :: rest) else (replaceNotice n rest).map (.notice o :: ·)
  | .reply r :: rest => (replaceNotice n rest).map (.reply r :: ·)

/-- A notice is raised (R178): it replaces a standing one of its kind and subject, joins the tail, or is lost when the
queue holds 64, which sets the overflow indication. -/
def State.raise (n : Notice) (s : State) : State :=
  s.onMli fun m =>
    match replaceNotice n m.tx with
    | some tx => { m with tx := tx, counters := { m.counters with noticesReplaced := bump32 m.counters.noticesReplaced } }
    | none =>
      if noticeCount m.tx < Limits.notices then { m with tx := m.tx ++ [.notice n] }
      else { m with overflow := true, counters := { m.counters with noticesLost := bump32 m.counters.noticesLost } }

/-! ## Requests and replies (R176, R177) -/

/-- Refusal reasons (R177), with their codes 1 to 8. -/
inductive Reason where
  | unknownKind | malformed | notReady | wrongState | notAtBerth | badTable | noSuchSubscriber | pendingArmed
  deriving DecidableEq, Repr

def Reason.place : Reason → Fin 8
  | .unknownKind => 0 | .malformed => 1 | .notReady => 2 | .wrongState => 3 | .notAtBerth => 4 | .badTable => 5
  | .noSuchSubscriber => 6 | .pendingArmed => 7

/-- The reply body's 4-byte header (R177): kind echoed, status, reason, flags (bit 0 notice overflow, bit 1 clamped). -/
def replyHeader (kind : Byte) (reason : Option Reason) (overflow clamped : Bool) : List Byte :=
  [kind, if reason.isSome then 1 else 0,
   match reason with | none => 0 | some r => BitVec.ofNat 8 (r.place.val + 1),
   (if overflow then 1 else 0) + (if clamped then 2 else 0)]

/-- The request at the head of the input completes (R176): its reply is made ready, carrying and clearing the overflow
indication (R178), and the request leaves the input. -/
def State.complete (kind tag : Byte) (reason : Option Reason) (clamped : Bool) (fields : List Byte) (s : State) : State :=
  s.onMli fun m =>
    { m with
      tx := m.tx ++ [.reply { tag := tag, body := replyHeader kind reason m.overflow clamped ++ fields }],
      overflow := false, input := m.input.tail, work := none,
      counters :=
        match reason with
        | none => { m.counters with repliesOk := bump32 m.counters.repliesOk }
        | some r => { m.counters with refused := bumpAt 8 m.counters.refused r.place } }

/-- The request completes with status OK. -/
def State.ok (kind tag : Byte) (clamped : Bool) (fields : List Byte) (s : State) : State :=
  s.complete kind tag none clamped fields

/-- The request is REFUSED with a reason and no further fields (R177). The clamped flag tells of the values its rule has
clamped by then (DEDUCED, assumption 57). -/
def State.refuseClamped (kind tag : Byte) (clamped : Bool) (r : Reason) (s : State) : State :=
  s.complete kind tag (some r) clamped []

/-- The request is REFUSED before any value of it is clamped (R177). -/
def State.refuse (kind tag : Byte) (r : Reason) (s : State) : State := s.refuseClamped kind tag false r

/-- A request joins the tail of the request input, or is discarded as an overrun when the input holds 4 (R175, R176).
(DEDUCED, assumption 37.) -/
def State.joinInput (c : Instr) (s : State) : State :=
  s.onMli fun m =>
    if m.input.length < Limits.input then
      { m with input := m.input ++ [c], counters := { m.counters with taken := bump32 m.counters.taken } }
    else { m with counters := { m.counters with overruns := bump32 m.counters.overruns } }

/-- The request `c` comes up (R176). Into an empty input it is taken at once; as the input's head, not yet begun, it is
carried out; behind another request it joins the input and waits (DESIGN CHOICE, assumption 6). -/
def takeRequest (c : Instr) (s : State) (carryOut : State → State) : Host.Outcome State Fault Refusal :=
  whenPowered s fun s =>
    if s.mli.work.isNone && s.mli.input.isEmpty then carryOut (s.joinInput c)
    else if s.mli.work.isNone && s.mli.input.head? == some c then carryOut s
    else s.joinInput c

/-- The checks of R177 that every request passes before its own: 2, the body is laid out and its fields are what its rule
allows, else MALFORMED; 3, the power-on scan has ended or the request is a query, else NOT-READY (DEDUCED, assumption 7).
`clamped` tells whether the request's rule has clamped a value of a body it can read before these checks (assumption 57). -/
def checkedClamped {α : Type} (kind : Byte) (r : Request α) (query : Bool) (clamped wellFormed : α → Bool)
    (own : α → State → State) (s : State) : State :=
  match r.body with
  | none => s.refuse kind r.tag .malformed
  | some b =>
    if !wellFormed b then s.refuseClamped kind r.tag (clamped b) .malformed
    else if !s.rsc.scanEnded && !query then s.refuseClamped kind r.tag (clamped b) .notReady
    else own b s

/-- `checkedClamped` for a request that clamps nothing before these checks. -/
def checked {α : Type} (kind : Byte) (r : Request α) (query : Bool) (wellFormed : α → Bool) (own : α → State → State)
    (s : State) : State := checkedClamped kind r query (fun _ => false) wellFormed own s

end Sys2Proof.Machine
end

