-- ==== Sys2Proof/Machine/Memory.lean ====
section
/-! DEFINITION. Record memory as bytes (R159, R185): 64 bytes a physical slot, the native region first and the spare
region after it. The bytes are a list of cells in one canonical form: addresses strictly rising, no cell equal to what an
unlisted address reads as. -/

namespace Sys2Proof.Machine

/-- What a byte that nothing has written reads as: 0xFF, so that an unlisted slot's state byte reads NEVER-WRITTEN (R185;
DESIGN CHOICE, assumption 8). -/
def blankByte : Byte := 0xFF

/-- The byte at address `a`. -/
def readByte (m : List Host.Cell) (a : Nat) : Byte := (lookupKey a m).getD blankByte

/-- The memory after byte `b` is written at address `a`. -/
def writeByte (a : Nat) (b : Byte) : List Host.Cell → List Host.Cell
  | [] => if b = blankByte then [] else [(a, b)]
  | (k, v) :: rest =>
    if a < k then (if b = blankByte then (k, v) :: rest else (a, b) :: (k, v) :: rest)
    else if a = k then (if b = blankByte then rest else (a, b) :: rest)
    else (k, v) :: writeByte a b rest

/-- The memory after the bytes `bs` are written from address `a` up. -/
def writeBytes (a : Nat) : List Byte → List Host.Cell → List Host.Cell
  | [], m => m
  | b :: bs, m => writeBytes (a + 1) bs (writeByte a b m)

/-- The `n` bytes from address `a` up. -/
def readBytes (m : List Host.Cell) (a : Nat) : Nat → List Byte
  | 0 => []
  | n + 1 => readByte m a :: readBytes m (a + 1) n

/-- Every cell of `m` lies above address `lo - 1` and its successors rise strictly; none reads as an unlisted address. -/
def Memory.risesFrom (lo : Nat) : List Host.Cell → Bool
  | [] => true
  | (k, v) :: rest => decide (lo ≤ k) && v != blankByte && Memory.risesFrom (k + 1) rest

/-- The canonical form of record memory. -/
def Memory.wf (m : List Host.Cell) : Bool := Memory.risesFrom 0 m

/-- Bytes of one slot (R158). -/
def slotBytes : Nat := 64

/-- The physical slot of a logical slot: its native one unless a remap entry names a spare (R160). -/
def physicalSlot (remaps : List (Nat × Nat)) (slot : Nat) : Nat :=
  match lookupKey slot remaps with
  | none => slot
  | some spare => Limits.slots + spare

/-- The address of a physical slot's first byte. -/
def slotAddress (remaps : List (Nat × Nat)) (slot : Nat) : Nat := physicalSlot remaps slot * slotBytes

end Sys2Proof.Machine
end

