-- ==== Sys2Proof/Machine/Layout.lean ====
section
/-! DEFINITION. The collected layouts (R174, R178, R185): how numbers, codes, lists, charge records, notices and frames
lie in bytes. What R185 leaves to its conventions is read in assumption 9 (DEDUCED). -/

namespace Sys2Proof

/-- `n` in `w` bytes, least significant byte first. -/
def le : Nat → Nat → List Byte
  | 0, _ => []
  | w + 1, n => BitVec.ofNat 8 n :: le w (n / 256)

/-- A home or network code in 3 bytes: the number in the low 20 bits, bit 20 set for six digits. -/
def HomeCode.bytes (c : HomeCode) : List Byte := le 3 (c.number % 1048576 + (if c.six then 1048576 else 0))

def Policy.code : Policy → Nat
  | .quiet => 0 | .reduced => 1 | .full => 2
def LinkType.code : LinkType → Nat
  | .satellite => 0 | .coastal => 1 | .harbour => 2
def Quality.code : Quality → Nat
  | .good => 0 | .degraded => 1 | .none => 2
def SubClass.code : SubClass → Nat
  | .passenger => 0 | .exempt => 1
def BearerKind.code : BearerKind → Nat
  | .onboard => 0 | .shore => 1
def Channel.code : Channel → Nat
  | .shore => 0 | .onHost => 1
end Sys2Proof

namespace Sys2Proof.Machine

/-- The number that `bs` holds, least significant byte first. -/
def ofLe : List Byte → Nat
  | [] => 0
  | b :: bs => b.toNat + 256 * ofLe bs

/-- A flag: 0 for clear, 1 for set. -/
def bFlag (b : Bool) : List Byte := [if b then 1 else 0]

/-- A field that may be none: a presence byte, then the value in full width, all zero when none. -/
def bOpt (w : Nat) : Option Nat → List Byte
  | none => 0 :: List.replicate w 0
  | some v => 1 :: le w v

/-- A list: its count in `cw` bytes, then its entries. -/
def bList {α : Type} (cw : Nat) (f : α → List Byte) (l : List α) : List Byte := le cw l.length ++ l.flatMap f

def tokenBytes (t : Token) : List Byte := le 8 t.toNat

/-- A signed number of one byte, in two's complement. -/
def bInt8 (i : Int) : List Byte := [BitVec.ofInt 8 i]

def PortState.code : PortState → Nat
  | .down => 0 | .ready => 1 | .radiating => 2 | .quiet => 3
def LinkState.code : LinkState → Nat
  | .absent => 0 | .probing => 1 | .ready => 2 | .joining => 3 | .active => 4 | .draining => 5 | .holddown => 6
def RegState.code : RegState → Nat
  | .registering => 0 | .served => 1 | .moving => 2 | .lapsed => 3 | .unroamed => 4 | .resting => 5
def ZoneCause.code : ZoneCause → Nat
  | .firstFix => 0 | .stricter => 1 | .margin => 2 | .holdEnd => 3 | .tableLoad => 4
def LinkCause.code : LinkCause → Nat
  | .carrierUp => 0 | .carrierLost => 1 | .enabled => 2 | .disabled => 3 | .probePass => 4 | .probeFail => 5
  | .reprobeFail => 6 | .holddownEnd => 7 | .keepaliveLost => 8 | .swap => 9
def LossCause.code : LossCause → Nat
  | .keepaliveLost => 0 | .carrierLost => 1 | .disabled => 2 | .start => 3
def StoreFault.code : StoreFault → Nat
  | .writeBufferOff => 1 | .slotDead => 2 | .mapWrite => 3 | .mapUnreadable => 4 | .closureLost => 5
def SwapOutcome.code : SwapOutcome → Nat
  | .done => 0 | .timeout => 1 | .targetLost => 1

/-! ## Tariff plans (R185) -/

/-- A tariff plan record. -/
def planBytes (t : TariffPlan) : List Byte := le 3 t.increment ++ le 3 t.rate1 ++ le 3 t.rate2 ++ le 2 t.threshold

/-- A slot with its defined byte and its plan record, all zero when undefined. -/
def slotPlanBytes (slot : Nat) (plan : Option TariffPlan) : List Byte :=
  le 1 slot ++ match plan with
    | some t => 1 :: planBytes t
    | none => 0 :: List.replicate 11 0

/-! ## CRC-16 and frames (R174) -/

/-- One bit of the CRC-16 with polynomial 0x1021, most significant bit first (PRESUMED, assumption 10). -/
def crcBit (c : BitVec 16) : BitVec 16 := if c.msb then (c <<< 1) ^^^ 0x1021#16 else c <<< 1

/-- One byte of the CRC-16. -/
def crcByte (c : BitVec 16) (b : Byte) : BitVec 16 :=
  crcBit (crcBit (crcBit (crcBit (crcBit (crcBit (crcBit (crcBit (c ^^^ (b.zeroExtend 16 <<< 8)))))))))

/-- CRC-16 with initial value 0xFFFF and no final inversion (R174). -/
def crc16 (bs : List Byte) : Nat := (bs.foldl crcByte 0xFFFF#16).toNat

/-- A whole frame (R174): start mark, length of kind through body, kind, tag, body, CRC over length through body. -/
def frameBytes (kind tag : Byte) (body : List Byte) : List Byte :=
  let inner := le 2 (body.length + 2) ++ kind :: tag :: body
  0x7E :: inner ++ le 2 (crc16 inner)

/-! ## The charge record, 64 bytes (R185) -/

/-- Slot states, byte 0 of a slot. -/
def neverWritten : Byte := 0xFF
def holdsRecord : Byte := 0x5A
def cleared : Byte := 0x00

/-- Bytes 1 to 61 of a charge record. -/
def ChargeRecord.inner (r : ChargeRecord) : List Byte :=
  le 4 (r.serial.getD 0) ++ tokenBytes r.token ++ r.home.bytes ++ le 1 r.partner ++ r.partnerCode.bytes
    ++ le 1 (r.jurisdiction % 16 + 16 * (r.tariffClass % 8)) ++ le 1 r.zone ++ le 1 r.plan
    ++ le 1 (r.reason.place.val + (if r.clamped then 16 else 0) + (if r.saturated then 32 else 0)
        + (if r.delayed then 64 else 0))
    ++ le 2 r.storeLoss ++ le 3 r.rate1 ++ le 3 r.rate2 ++ le 4 r.startTime ++ le 4 r.endTime ++ le 5 r.up ++ le 5 r.down
    ++ le 4 r.inc1 ++ le 4 r.inc2 ++ le 4 r.charge

/-- The 64 bytes of a committed charge record. -/
def ChargeRecord.bytes (r : ChargeRecord) : List Byte :=
  holdsRecord :: r.inner ++ le 2 (crc16 r.inner)

/-- What the header of a slot says (R158, R171). -/
inductive Header where
  | neverWritten
  | holds (serial : Nat)
  | cleared (serial : Nat)
  | unreadable
  deriving DecidableEq, Repr

/-- The header of a slot from its 64 bytes: a state byte outside the three values, or HOLDS-RECORD contents that fail the
check, counts as a failed read (R185). -/
def headerOf (bs : List Byte) : Header :=
  match bs with
  | [] => .unreadable
  | st :: rest =>
    if st = neverWritten then .neverWritten
    else if st = cleared then .cleared (ofLe (rest.take 4))
    else if st = holdsRecord then
      if ofLe (rest.drop 61) = crc16 (rest.take 61) then .holds (ofLe (rest.take 4)) else .unreadable
    else .unreadable

/-! ## Notices (R178) -/

def Notice.code : Notice → Nat
  | .zoneChanged .. => 1 | .linkChanged .. => 2 | .swapDone .. => 3 | .swapFailed .. => 4 | .isolated .. => 5
  | .rejoined .. => 6 | .billAlert .. => 7 | .subscriberCapped .. => 8 | .registrationLapsed .. => 9 | .storeLow .. => 10
  | .storeFault .. => 11 | .recordUnreadable .. => 12 | .portLost .. => 13 | .headResync .. => 14

/-- Subject kind and value (R178). -/
def Notice.subject : Notice → Nat × Nat
  | .linkChanged l .. => (2, l.val)
  | .billAlert h .. => (3, h)
  | .subscriberCapped h .. => (3, h)
  | .storeFault r .. => (4, r.code)
  | .portLost p .. => (1, p.val)
  | .headResync p .. => (1, p.val)
  | _ => (0, 0)

/-- Ship time at the event. -/
def Notice.time : Notice → Nat
  | .zoneChanged _ _ _ _ _ t _ => t
  | .linkChanged _ _ _ _ _ _ _ t _ => t
  | .swapDone _ _ _ _ _ _ _ t _ => t
  | .swapFailed _ _ _ _ _ _ t _ => t
  | .isolated _ _ _ _ t _ => t
  | .rejoined _ _ _ _ _ t _ => t
  | .billAlert _ _ _ _ _ t => t
  | .subscriberCapped _ _ _ _ _ t => t
  | .registrationLapsed _ _ _ _ _ t _ => t
  | .storeLow _ _ _ _ t => t
  | .storeFault _ _ _ _ _ _ t _ => t
  | .recordUnreadable _ _ _ t _ => t
  | .portLost _ _ _ t _ => t
  | .headResync _ _ _ _ t _ => t

def bLink (l : Option (Fin 4)) : List Byte := bOpt 1 (l.map (·.val))

/-- A last probe result: kind, pass or fail, echoes answered, mean RTT (R77), a count of milliseconds that its rule does
not bound (R185). -/
def bProbeResult : Option ProbeResult → List Byte
  | none => 0 :: List.replicate 11 0
  | some p => 1 :: le 1 (if p.long then 0 else 1) ++ le 1 (if p.passed then 0 else 1) ++ le 1 p.answered ++ le 8 p.meanRtt

/-- A policy with its power cap, which stands only under REDUCED (R13). -/
def bPolicyCap : Option ZoneRules → List Byte
  | none => bOpt 1 none ++ bOpt 1 none
  | some r => bOpt 1 (some r.policy.code) ++ bOpt 1 (if r.policy = .reduced then some r.powerCap else none)

/-- The fields of a notice, in the order its rule lists them (R13, R39, R95, R108, R109, R111, R139, R155, R166, R172). -/
def Notice.fields : Notice → List Byte
  | .zoneChanged prev new r c d t n =>
    bOpt 1 prev ++ bOpt 1 new ++ bPolicyCap r ++ bOpt 1 (r.map (·.jurisdiction)) ++ bOpt 1 (r.map (·.tariffClass))
      ++ le 1 c.code ++ bOpt 3 d ++ le 4 t ++ le 1 n
  | .linkChanged l p q c ty cr lp t n =>
    le 1 l.val ++ le 1 p.code ++ le 1 q.code ++ le 1 c.code ++ bOpt 1 (ty.map LinkType.code) ++ le 1 cr
      ++ bProbeResult lp ++ le 4 t ++ le 1 n
  | .swapDone num pl f to_ ms b fr t n =>
    le 2 num ++ le 1 (if pl then 0 else 1) ++ bLink f ++ le 1 to_.val ++ le 8 ms ++ le 3 b ++ le 3 fr ++ le 4 t ++ le 1 n
  | .swapFailed num pl f to_ lost b t n =>
    le 2 num ++ le 1 (if pl then 0 else 1) ++ bLink f ++ le 1 to_.val ++ le 1 (if lost then 1 else 0) ++ le 3 b ++ le 4 t
      ++ le 1 n
  | .isolated l c sw b t n =>
    bLink l ++ le 1 c.code ++ bFlag sw.isSome ++ bOpt 2 (sw.map (·.1)) ++ bOpt 1 (sw.map (·.2.val)) ++ le 3 b ++ le 4 t
      ++ le 1 n
  | .rejoined l num ms cut shed t n =>
    le 1 l.val ++ le 2 num ++ le 8 ms ++ bFlag cut ++ le 3 shed.frames ++ le 3 shed.bytes ++ le 4 t ++ le 1 n
  | .billAlert h tok cap lvl tot t => le 2 h ++ tokenBytes tok ++ le 4 cap ++ le 4 lvl ++ le 4 tot ++ le 4 t
  | .subscriberCapped h tok cap tot cl t => le 2 h ++ tokenBytes tok ++ le 4 cap ++ le 4 tot ++ bFlag cl ++ le 4 t
  | .registrationLapsed h tok p ref rest t n =>
    le 2 h ++ tokenBytes tok ++ le 1 p ++ le 1 (if ref then 1 else 0) ++ bFlag rest ++ le 4 t ++ le 2 n
  | .storeLow lvl cap und inf t => le 2 lvl ++ le 2 cap ++ le 2 und ++ le 1 inf ++ le 4 t
  | .storeFault r sp dead cap lost slot t n =>
    le 1 (r.code - 1) ++ le 2 sp ++ le 2 dead ++ le 2 cap ++ le 4 lost ++ bOpt 2 slot ++ le 4 t ++ le 2 n
  | .recordUnreadable ser slot p t n =>
    le 4 ser ++ le 2 slot ++ le 1 (if p = .settle then 0 else 1) ++ le 4 t ++ le 2 n
  | .portLost p m d t n => le 1 p.val ++ le 2 m ++ le 2 d ++ le 4 t ++ le 1 n
  | .headResync p m d st t n => le 1 p.val ++ le 2 m ++ le 2 d ++ le 1 st.code ++ le 4 t ++ le 1 n

/-- The body of a notice (R178). -/
def Notice.body (n : Notice) : List Byte :=
  le 1 n.code ++ le 1 n.subject.1 ++ le 2 n.subject.2 ++ le 4 n.time ++ n.fields

/-- The frame in which an item of the transmit queue travels: a reply in kind 0x80 with its request's tag, a notice in
kind 0x81 with tag 0 (R174, R178). -/
def TxItem.frame : TxItem → List Byte
  | .notice n => frameBytes 0x81 0 n.body
  | .reply r => frameBytes 0x80 r.tag r.body

end Sys2Proof.Machine
end

