-- ==== Sys2Proof/Machine/Arbiter.lean ====
section
/-! DEFINITION. The record store's levels and the arbiter at the memory port (R159, R160, R166): what the controller works
out from its own state, and which memory operation begins next. -/

namespace Sys2Proof.Machine

/-! ## Levels -/

/-- The spare pool (R160): spare slots no remap has used since the last power-on scan (DESIGN CHOICE, assumption 11). -/
def Rsc.sparePool (r : Rsc) : Nat := Limits.spares - r.usedSpares.length

/-- The usable capacity (R160). -/
def Rsc.capacity (r : Rsc) : Nat := Limits.slots - r.dead.length

/-- The record of a direct write in progress counts as one (R160). -/
def Rsc.directWrites (r : Rsc) : Nat :=
  match r.job with
  | some j => if j.direct then 1 else 0
  | none => 0

/-- The free level (R160). -/
def Rsc.freeLevel (r : Rsc) : Nat :=
  r.capacity - (r.ring.length + r.buffer.length + r.directWrites + r.clearList.length)

def Rsc.undelivered (r : Rsc) : List RingPlace := r.ring.filter fun p => !p.inFlight
def Rsc.inBatch (r : Rsc) : List RingPlace := r.ring.filter fun p => p.inFlight

/-- A logical slot is free (R160): not dead, holding no committed record, not on the clear list, not being written. -/
def Rsc.slotFree (r : Rsc) (slot : Nat) : Bool :=
  !r.dead.contains slot && !(r.ring.any fun p => p.slot == slot) && !r.clearList.contains slot
    && !(match r.job with | some j => j.slot == slot | none => false)

/-- The first free slot at or after `slot`, wrapping, within `fuel` slots. -/
def Rsc.searchFree (r : Rsc) : Nat → Nat → Option Nat
  | 0, _ => none
  | fuel + 1, slot => if r.slotFree slot then some slot else r.searchFree fuel ((slot + 1) % Limits.slots)

/-- The slot the allocation pointer gives next (R160). -/
def Rsc.nextFree (r : Rsc) : Option Nat := r.searchFree Limits.slots ((r.lastGiven + 1) % Limits.slots)

/-- The low watermark is checked (R166): a fall below it raises STORE-LOW once; a rise to it ends the low condition. -/
def State.checkLow (s : State) : State :=
  let r := s.rsc
  if r.freeLevel < Limits.lowWatermark then
    if r.lowStands then s
    else (s.onRsc fun r => { r with lowStands := true }).raise
      (.storeLow r.freeLevel r.capacity r.undelivered.length r.inBatch.length s.mli.shipTime)
  else s.onRsc fun r => { r with lowStands := false }

/-- STORE-FAULT (R172), with the reason and, for SLOT-DEAD and MAP-WRITE, the slot. -/
def State.storeFault (reason : StoreFault) (slot : Option Nat) (s : State) : State :=
  s.raise (.storeFault reason s.rsc.sparePool s.rsc.dead.length s.rsc.capacity s.rsc.counters.lostClosures slot
    s.mli.shipTime 1)

/-! ## What the slots hold -/

/-- The 64 bytes of a logical slot. -/
def Rsc.slotContents (r : Rsc) (slot : Nat) : List Byte := readBytes r.memory (slotAddress r.remaps slot) slotBytes

/-- A read of a slot succeeds when the memory reports so and its contents pass the check of R185. -/
def Rsc.readable (r : Rsc) (slot : Nat) : Bool := headerOf (r.slotContents slot) != .unreadable

/-- `n` free bytes, drawn from the `c`-th on (Config.openByte). -/
def openBytes (c : Nat) : Nat → List Byte
  | 0 => []
  | n + 1 => Config.openByte c :: openBytes (c + 1) n

/-- A slot write that failed or was cut short leaves free values in the slot (DESIGN CHOICE, assumption 3). -/
def State.scrambleSlot (slot : Nat) (s : State) : State :=
  { s with
    rsc := { s.rsc with
      memory := writeBytes (slotAddress s.rsc.remaps slot) (openBytes s.openCount slotBytes) s.rsc.memory },
    openCount := s.openCount + slotBytes }

/-- A clear that failed or was cut short leaves a free value in the slot's state byte (DESIGN CHOICE, assumption 3). -/
def State.scrambleState (slot : Nat) (s : State) : State :=
  { s with
    rsc := { s.rsc with memory := writeByte (slotAddress s.rsc.remaps slot) (Config.openByte s.openCount) s.rsc.memory },
    openCount := s.openCount + 1 }

/-! ## The arbiter -/

/-- Every record produced so far is committed (R170). -/
def State.flushEmpty (s : State) : Bool := s.rtu.closeQueue.isEmpty && s.rsc.buffer.isEmpty

/-- A write waits for a free logical slot (R170; DEDUCED, assumption 12). -/
def State.writeStalled (s : State) : Bool :=
  !s.rtu.closeQueue.isEmpty && s.rsc.freeLevel == 0 && s.rsc.buffer.isEmpty && s.rsc.job.isNone

/-- A flush ends, EMPTY or STALLED (R170). -/
def State.flushEnded (s : State) : Bool := s.flushEmpty || s.writeStalled

/-- Whether a RESET has ended its flush and waits only for the memory operation in flight (R180, step 3): no further
operation is begun then, and no record accepted (DEDUCED, assumption 12). -/
def State.resetWaits (s : State) : Bool :=
  match s.mli.work with
  | some (.resetting _ lost) => lost.isSome || s.flushEnded
  | _ => false

/-- A write that waits for the port (R159): the buffer's head, or the close queue's head while the buffer is off and the
free level is at least 1 (R162). -/
def State.writeReady (s : State) : Bool :=
  s.rsc.job.isNone &&
    (if s.rsc.bufferOn then !s.rsc.buffer.isEmpty else !s.rtu.closeQueue.isEmpty && decide (1 ≤ s.rsc.freeLevel))

/-- The next record to read for the batch or export being built (R167, R169): the oldest undelivered one not yet read, or,
when a batch in flight is read again, the oldest of that batch. -/
def Rsc.nextRead (r : Rsc) : Option RingPlace :=
  match r.build with
  | none => none
  | some b =>
    if b.got.length < Limits.batch then
      (if b.again then r.inBatch else r.undelivered).find? fun p => !(b.got.any fun g => g.1 == p.serial)
    else none

/-- A write begins (R161, R162): the record takes the slot the allocation pointer gives; a record written directly is
accepted, and given its serial, as its first write begins (R158). -/
def State.beginWrite (s : State) : State :=
  match s.rsc.nextFree with
  | none => s
  | some slot =>
    if s.rsc.bufferOn then
      match s.rsc.buffer with
      | [] => s
      | c :: _ =>
        s.onRsc fun r => { r with
          job := some { record := c, slot := slot, direct := false }, op := some (.write slot), lastGiven := slot,
          lastWasWrite := true }
    else
      match s.rtu.closeQueue with
      | [] => s
      | c :: rest =>
        let fresh := c.serial.isNone
        let c' := { c with serial := some (c.serial.getD s.rsc.nextSerial) }
        let s1 := s.onRtu fun u => { u with closeQueue := c' :: rest }
        (s1.onRsc fun r => { r with
          job := some { record := c', slot := slot, direct := true }, op := some (.write slot), lastGiven := slot,
          lastWasWrite := true,
          nextSerial := if fresh then bump32 r.nextSerial else r.nextSerial,
          counters := if fresh then { r.counters with accepted := bump32 r.counters.accepted } else r.counters }).checkLow

/-- A clear or a read begins; among them clears come first (R159). -/
def State.beginOther (s : State) : State :=
  match s.rsc.clearList with
  | slot :: _ => s.onRsc fun r => { r with op := some (.clear slot), lastWasWrite := false }
  | [] =>
    match s.rsc.build, s.rsc.nextRead with
    | some b, some p => s.onRsc fun r => { r with op := some (.read p.serial p.slot b.purpose), lastWasWrite := false }
    | _, _ => s

/-- The arbiter at the memory port (R159). Continuations are begun by the operation that owes them, so the port is free
here; when writes and other work both wait they alternate. -/
def State.arbitrate (s : State) : State :=
  if s.rsc.op.isSome || !s.rsc.scanEnded || s.resetWaits then s
  else
    let other := !s.rsc.clearList.isEmpty || s.rsc.nextRead.isSome
    if s.writeReady && (!other || !s.rsc.lastWasWrite) then s.beginWrite
    else if other then s.beginOther
    else s

end Sys2Proof.Machine
end

