-- ==== Sys2Proof/Machine/Periods.lean ====
section
/-! DEFINITION. Rating periods (R146, R151, R154): when one opens, how one closes into a closure record, and how closures
reach the close queue. -/

namespace Sys2Proof.Machine

/-- The partner record with an index (R118). -/
def State.partner? (s : State) (i : Nat) : Option Partner := s.rge.partners.find? fun p => p.index == i

/-- The rules of the zone the verdict names, or none ("The verdict"). -/
def State.rules? (s : State) : Option ZoneRules := s.tracker.verdict.map (·.rules)

/-- A registration state in which shore service is possible (R47, R53): SERVED or MOVING. -/
def RegState.onShore : RegState → Bool
  | .served | .moving => true
  | _ => false

/-- A subscriber qualifies for a period (R146). -/
def Entry.qualifies (e : Entry) : Bool := e.reg.onShore && e.cls == .passenger && !e.barred

/-- From a RESET's closures until its completion no period opens (R157). -/
def State.openingStopped (s : State) : Bool :=
  match s.mli.work with
  | some (.resetting _ _) => true
  | _ => false

/-- The effective rate of a plan rate under a markup in permille, rounded half up (R146). -/
def effectiveRate (rate markup : Nat) : Nat := (rate * (1000 + markup) + 500) / 1000

/-- The period that opens now for a serving partner, in the verdict's zone, under a plan (R146). -/
def State.newPeriod (s : State) (v : VerdictZone) (p : Partner) (planIndex : Nat) (t : TariffPlan) : Period :=
  { startTime := s.mli.shipTime, partner := p.index, partnerCode := p.code, jurisdiction := v.rules.jurisdiction,
    zone := v.index, tariffClass := v.rules.tariffClass, plan := planIndex, rate1 := effectiveRate t.rate1 p.markup,
    rate2 := effectiveRate t.rate2 p.markup, increment := t.increment, threshold := t.threshold, up := 0, down := 0,
    inc1 := 0, inc2 := 0, charge := 0, clamped := false, saturated := false, storeLoss := 0,
    ageExpiry := s.mli.clock + s.mli.billing.maxAge * 1000 }

/-- The period that an entry would open now: it needs a zone in the verdict, a serving partner, and a defined plan for the
zone's class (R146). -/
def State.periodFor? (s : State) (e : Entry) : Option Period :=
  match s.tracker.verdict, e.serving.bind s.partner? with
  | some v, some p =>
    match p.plans[v.rules.tariffClass]? with
    | none => none
    | some i => (lookupKey i s.rtu.active).map fun t => s.newPeriod v p i t
  | _, _ => none

/-- A period opens for entry `h` if it qualifies, holds none, and its closing flag is clear (R146). -/
def State.openPeriod (h : Nat) (s : State) : State :=
  match s.entry? h with
  | none => s
  | some e =>
    if e.qualifies && e.period.isNone && !e.closing && !s.openingStopped then
      match s.periodFor? e with
      | none => s
      | some p =>
        (s.onEntry h fun e => { e with period := some p }).onRtu fun u =>
          { u with counters := { u.counters with opened := bump32 u.counters.opened } }
    else s

/-- The closure record of an entry's period for a close reason (R151); the closing-delayed flag as given. -/
def State.closureRecord (s : State) (e : Entry) (p : Period) (reason : CloseReason) (delayed : Bool) : ChargeRecord :=
  { serial := none, token := e.token, home := e.home, partner := p.partner, partnerCode := p.partnerCode,
    jurisdiction := p.jurisdiction, zone := p.zone, tariffClass := p.tariffClass, plan := p.plan, rate1 := p.rate1,
    rate2 := p.rate2, startTime := p.startTime, endTime := s.mli.shipTime, up := p.up, down := p.down, inc1 := p.inc1,
    inc2 := p.inc2, charge := p.charge, reason := reason, clamped := p.clamped, saturated := p.saturated,
    delayed := delayed, storeLoss := p.storeLoss }

/-- The wait list without its oldest detached closure, or `none` when every closure's entry is live (R154). -/
def State.withoutDetached (s : State) : List WaitingClosure → Option (List WaitingClosure)
  | [] => none
  | w :: rest =>
    if (s.life? w.handle w.attach).isNone then some rest else (s.withoutDetached rest).map (w :: ·)

/-- `n` closures are lost: counted, and STORE-FAULT with reason CLOSURE-LOST raised (R154, R170). -/
def State.closuresLost (n : Nat) (s : State) : State :=
  (s.onRsc fun r => { r with
    counters := { r.counters with lostClosures := (r.counters.lostClosures + n) % 4294967296 } }).storeFault .closureLost none

/-- A wait list already holding 4,096 makes room for one more closure (R154). -/
def State.makeRoom (s : State) : State :=
  if s.rtu.waitList.length < Limits.waitList then s
  else
    match s.withoutDetached s.rtu.waitList with
    | none => s
    | some l =>
      (s.onRtu fun u => { u with
        waitList := l, counters := { u.counters with lost := bump32 u.counters.lost } }).closuresLost 1

/-- The wait list takes a closure at its tail (R154). -/
def State.joinWaitList (w : WaitingClosure) (s : State) : State :=
  s.makeRoom.onRtu fun u => { u with
    waitList := u.waitList ++ [w],
    counters := { u.counters with
      delayed := bump32 u.counters.delayed, peakWait := max u.counters.peakWait (u.waitList.length + 1) } }

/-- Whether a closure taken now enters the close queue at once (R154). -/
def State.queueOpen (s : State) : Bool := decide (s.rtu.closeQueue.length < Limits.closeQueue) && s.rtu.waitList.isEmpty

/-- Whether a closure of entry `h` taken now makes a closure record: it has a period and the period is not frozen (R151). -/
def State.hasUnfrozen (s : State) (h : Nat) : Bool :=
  match s.entry? h with
  | none => false
  | some e => e.period.isSome && !e.closing

/-- A closure of entry `h`'s period is taken (R151, R154): its record enters the close queue and the period leaves the
entry, or it waits and the period stays frozen under the closing flag. A frozen or absent period makes no record. -/
def State.closePeriod (reason : CloseReason) (h : Nat) (s : State) : State :=
  match s.entry? h with
  | none => s
  | some e =>
    match e.period with
    | none => s
    | some p =>
      if e.closing then s
      else
        let s := s.onRtu fun u => { u with
          counters := { u.counters with closures := bumpAt 12 u.counters.closures reason.place } }
        if s.queueOpen then
          ((s.onRtu fun u => { u with closeQueue := u.closeQueue ++ [s.closureRecord e p reason false] }).onEntry h
            fun e => { e with period := none }).arbitrate
        else
          (s.joinWaitList { handle := h, attach := e.attach, record := s.closureRecord e p reason true }).onEntry h
            fun e => { e with closing := true }

/-- The close queue has given up a record (R154): the head of the wait list enters when the queue holds fewer than 64
(DEDUCED, assumption 13); a live entry's closing flag clears, its frozen period leaves it and a period may open. -/
def State.feedQueue (s : State) : State :=
  match s.rtu.waitList with
  | [] => s
  | w :: rest =>
    if s.rtu.closeQueue.length < Limits.closeQueue then
      let s := s.onRtu fun u => { u with closeQueue := u.closeQueue ++ [w.record], waitList := rest }
      match s.life? w.handle w.attach with
      | none => s
      | some e =>
        if e.closing then (s.onEntry w.handle fun e => { e with closing := false, period := none }).openPeriod w.handle
        else s
    else s

/-- The waiting closure of one life raises its store loss count with the frozen period's (R149). (DEDUCED, assumption 36.) -/
def raiseWaitingLoss (h a : Nat) (l : List WaitingClosure) : List WaitingClosure :=
  l.map fun w =>
    if w.handle = h && w.attach = a then
      { w with record := { w.record with storeLoss := satAt Limits.max16 (w.record.storeLoss + 1) } }
    else w

/-- A frame of the life (`h`, `a`) is lost in the swap store: while the entry lives its store loss count rises, and with
it that of its open period, frozen or not (R112, R114, R149). -/
def State.raiseLoss (h a : Nat) (s : State) : State :=
  match s.life? h a with
  | none => s
  | some e =>
    let s := s.onEntry h fun e => { e with
      storeLoss := satAt Limits.max16 (e.storeLoss + 1),
      period := e.period.map fun p => { p with storeLoss := satAt Limits.max16 (p.storeLoss + 1) } }
    if e.closing then s.onRtu fun u => { u with waitList := raiseWaitingLoss h a u.waitList } else s

end Sys2Proof.Machine
end

