-- ==== Sys2Proof/Machine/Flags.lean ====
section
/-! DEFINITION. The tests the blocks ask of a subscriber and of the links, worked out at the moment of asking:
entitlement, charging, routing, eligibility, and whether a link may carry. -/

namespace Sys2Proof.Machine

/-- The ACTIVE link, if any. -/
def State.activeLink? (s : State) : Option (Fin 4) := allLinks.find? fun l => (s.link l).state == .active

/-- A link is ACTIVE and no swap is in progress: the condition under which roaming records, deregistrations, settle
batches and stored frames may go (R50, R107, R113, R125, R137, R167). -/
def State.mayCarry (s : State) : Bool := s.activeLink?.isSome && !s.slm.swap.inProgress

/-- The entry is shore-entitled now (R53), given that it is live. -/
def State.entitled (s : State) (e : Entry) : Bool :=
  e.reg.onShore && !e.barred && !e.closing && e.portLost.isNone && !s.slm.cutOff

/-- The entry is charged now (R54). -/
def State.charged (s : State) (e : Entry) : Bool := s.entitled e && e.cls == .passenger

/-- The first cause of an entry's own that keeps it from shore, in the order of R66 rows 3 to 8. -/
def Entry.portalReason? (e : Entry) : Option PortalReason :=
  if e.portLost.isSome then some .portLost
  else if e.barred then some .barred
  else if e.closing then some .closing
  else match e.reg with
    | .registering => some .registering
    | .lapsed => some .lapsed
    | .unroamed => some .unroamed
    | _ => none

/-- The route of an uplink frame (R66). -/
inductive Route where
  | shore
  | onboard
  | portal (reason : PortalReason)
  | isolated
  deriving DecidableEq, Repr

/-- The route of a frame on an open bearer of `kind` whose entry is `e` (R66). -/
def State.route (s : State) (kind : BearerKind) (e : Entry) : Route :=
  match kind with
  | .onboard => .onboard
  | .shore =>
    if s.entitled e then .shore
    else match e.portalReason? with
      | some r => .portal r
      | none => .isolated

/-- The withdrawal causes of R114, by place: REMOVED, PORT-LOST, BARRED, CLOSING, NOT-SERVED. -/
def withdrawalCause (e : Option Entry) : Fin 5 :=
  match e with
  | none => 0
  | some e => if e.portLost.isSome then 1 else if e.barred then 2 else if e.closing then 3 else 4

/-! ## Partners (R121) -/

/-- A partner is eligible for a home code in a jurisdiction (R121). -/
def partnerEligible (p : Partner) (home : HomeCode) (jurisdiction : Nat) : Bool :=
  p.mask.getLsbD jurisdiction && p.codes.contains home

/-- The partner with index `i` is eligible for `home` under the rules of a zone. -/
def State.eligible (s : State) (home : HomeCode) (r : ZoneRules) (i : Nat) : Bool :=
  match s.partner? i with
  | none => false
  | some p => partnerEligible p home r.jurisdiction

/-- The first position of a preference list, from position `pos` on, whose partner passes `good`. -/
def firstFrom (good : Nat → Bool) (pos : Nat) : List Nat → Option (Nat × Nat)
  | [] => none
  | i :: rest => if good i then some (i, pos) else firstFrom good (pos + 1) rest

/-- The chosen partner for a home code under the current verdict, with its position 1 to 4 (R121). -/
def State.chosen (s : State) (home : HomeCode) : Option (Nat × Nat) :=
  match s.rules? with
  | none => none
  | some r => firstFrom (s.eligible home r) 1 r.prefs

/-- The next candidate after position `pos` of the verdict's list: eligible now and not the serving partner (R121). The
position may have been taken from an earlier list (DEDUCED, assumption 76). -/
def State.nextCandidate (s : State) (e : Entry) (pos : Nat) : Option (Nat × Nat) :=
  match s.rules? with
  | none => none
  | some r => firstFrom (fun i => s.eligible e.home r i && e.serving != some i) (pos + 1) (r.prefs.drop pos)

/-- The serving partner of an entry is eligible under the current verdict. -/
def State.servingEligible (s : State) (e : Entry) : Bool :=
  match s.rules?, e.serving with
  | some r, some i => s.eligible e.home r i
  | _, _ => false

/-! ## Policy (R6, R15) -/

/-- The policy of a verdict; NONE ranks as QUIET (R6). -/
def policyOf (r : Option ZoneRules) : Policy := (r.map (·.policy)).getD .quiet

def policyRank : Policy → Nat
  | .quiet => 0 | .reduced => 1 | .full => 2

/-- The order the ports are to have now (R15, R16): `some level` to radiate, `none` for QUIET. -/
def State.order (s : State) : Option Nat :=
  if s.running then
    match s.rules? with
    | none => none
    | some r => match r.policy with
      | .quiet => none
      | .reduced => some r.powerCap
      | .full => some 8
  else none

/-! ## Links (R80, R81, R100) -/

/-- The link's modem would take a frame handed to it now: it is ready and no record waits before it (R69, R81). -/
def Link.free (k : Link) : Bool := k.modemReady && k.waiting.isEmpty

/-- The link takes records of other blocks now: ACTIVE, DRAINING, or JOINING once its modem has taken the MOVE (R80, R100). -/
def State.takes (s : State) (l : Fin 4) : Bool :=
  match (s.link l).state with
  | .active | .draining => true
  | .joining => s.slm.swap.moveSent
  | _ => false

end Sys2Proof.Machine
end

