-- ==== Sys2Proof/Machine/PortOps.lean ====
section
/-! DEFINITION. What the Cell Port Controller does for other blocks (R15, R16, R33 to R35): orders, serve levels and the
store hold condition. -/

namespace Sys2Proof.Machine

/-- Port `p` is sent HOLD and its hold flag is set (R34, R35). -/
def State.sendHold (p : Fin 6) (s : State) : State := (s.toHead p .hold).onPort p fun q => { q with hold := true }

/-- Port `p`, in READY, RADIATING or QUIET, is sent the current order and takes the state that follows (R15, R16). A port
that enters RADIATING while the store hold condition stands is sent HOLD after its RADIATE (R35). -/
def State.sendOrder (p : Fin 6) (s : State) : State :=
  let q := s.port p
  if !q.listening then s
  else match s.order with
    | none => (s.toHead p .quiet).onPort p fun q => { q with state := .quiet }
    | some level =>
      let s := (s.toHead p (.radiate level)).onPort p fun q => { q with state := .radiating }
      if q.state != .radiating && s.cpc.storeHold then s.sendHold p else s

/-- Every listening port is sent the order of the verdict just published, while the device is RUNNING (R15). -/
def State.sendOrders (s : State) : State := if s.running then s.eachOf allPorts State.sendOrder else s

/-- SERVE-LEVEL `level` for entry `h` (R33): sent when the entry's port is listening, the entry carries no port-lost
marker and is not RESTING; otherwise not sent and not kept. -/
def State.sendLevel (h : Nat) (level : ServeLevel) (s : State) : State :=
  match s.entry? h with
  | none => s
  | some e =>
    if e.portLost.isNone && e.reg != .resting then s.toHead e.port (.serveLevel h e.token level) else s

/-- SERVE-LEVEL by entitlement (R33). -/
def State.sendLevelByEntitlement (h : Nat) (s : State) : State :=
  match s.entry? h with
  | none => s
  | some e => s.sendLevel h (if s.entitled e then .full else .onboardOnly)

/-- The swap store's occupancy: the sum of the payload lengths it holds (R112). -/
def occupancy (l : List StoredFrame) : Nat := (l.map fun f => f.payload.length).sum

/-- A frame has entered the store (R34, R112): at 393,216 bytes or more the store hold condition begins, unless it stands,
and every RADIATING port is sent HOLD. -/
def State.reportRise (s : State) : State :=
  if Limits.holdBegins ≤ occupancy s.sws.frames && !s.cpc.storeHold then
    (s.onCpc fun c => { c with storeHold := true }).eachOf allPorts fun p s =>
      if (s.port p).state == .radiating then s.sendHold p else s
  else s

/-- The occupancy has fallen (R35, R113): at 262,144 bytes or less the store hold condition ends and every held port is
sent RESUME. -/
def State.reportFall (s : State) : State :=
  if occupancy s.sws.frames ≤ Limits.holdEnds && s.cpc.storeHold then
    (s.onCpc fun c => { c with storeHold := false }).eachOf allPorts fun p s =>
      if (s.port p).hold then (s.toHead p .resume).onPort p fun q => { q with hold := false } else s
  else s

end Sys2Proof.Machine
end

