-- ==== Sys2Proof/Machine/StoreOps.lean ====
section
/-! DEFINITION. The swap store and the hand-off (R70, R73, R112 to R115). -/

namespace Sys2Proof.Machine

/-- A metered addition is made and set on its way to the Rating Unit (R73, R74). -/
def State.makeAddition (a : Addition) (s : State) : State :=
  s.onRouter fun r => { r with
    additions := r.additions ++ [a],
    totals := match a.dir with
      | .uplink => { r.totals with meteredUp := r.totals.meteredUp.add a.bytes }
      | .downlink => { r.totals with meteredDown := r.totals.meteredDown.add a.bytes } }

/-- Changes the open bearer with slot `k` in a list of bearers. -/
def onSlot (k : Nat) (f : Bearer → Bearer) (l : List Bearer) : List Bearer :=
  l.map fun b => if b.slot = k then f b else b

/-- The head frame leaves the store; the port's offer, if it was the frame offered, goes with it. -/
def State.popFrame (s : State) : State := s.onSws fun w => { w with frames := w.frames.tail, offered := false }

/-- The waiting records of a port without an offered store frame. -/
def withoutOffer (l : List Waiting) : List Waiting :=
  l.filter fun w => match w with | .storeFrame _ => false | _ => true

/-- No port holds the store's head frame any more. -/
def State.withdrawOffer (s : State) : State :=
  if s.sws.offered then
    (s.onSws fun w => { w with offered := false }).eachOf allLinks fun l s =>
      s.onLink l fun k => { k with waiting := withoutOffer k.waiting }
  else s

/-- The head frame is shed (R112): discarded, not metered, counted, and its living entry's store loss count raised. An
offer of it at a port is withdrawn with it (DEDUCED, assumption 14). -/
def State.shedHead (s : State) : State :=
  match s.sws.frames with
  | [] => s
  | f :: _ =>
    let s := s.withdrawOffer.popFrame
    (s.onSws fun w => { w with counters := { w.counters with shed := w.counters.shed.add f.payload.length } }).raiseLoss
      f.handle f.attach

/-- Frames are shed from the head until `len` more bytes fit (R112, step 1); `fuel` bounds the frames looked at. -/
def State.shedFor (len : Nat) : Nat → State → State
  | 0, s => s
  | fuel + 1, s =>
    if occupancy s.sws.frames + len ≤ Limits.storeBytes then s else (s.shedHead).shedFor len fuel

/-- A frame enters the store (R112): shedding, entry, hold report. What shedding frees is reported as a fall first. -/
def State.storeFrame (f : StoredFrame) (s : State) : State :=
  let len := f.payload.length
  let s := (s.shedFor len s.sws.frames.length).reportFall
  (s.onSws fun w => { w with
    frames := w.frames ++ [f],
    counters := { w.counters with
      entered := w.counters.entered.add len, peak := max w.counters.peak (occupancy (w.frames ++ [f])) } }).reportRise

/-- The store is emptied whole: `n` frames are shed and counted (R110, R115). -/
def State.shedAll : Nat → State → State
  | 0, s => s
  | n + 1, s => (s.shedHead).shedAll n

/-- A hand-off from the store (R70, R113): the head frame leaves the store for link `l`, sent as SHORE-UP with the device
token it was offered with, and is metered if its entry lives and is of class PASSENGER. (DEDUCED, assumption 26.) -/
def State.handOffStored (l : Fin 4) (token : Token) (s : State) : State :=
  match s.sws.frames with
  | [] => s
  | f :: _ =>
    let len := f.payload.length
    let s := s.popFrame.emit (.toShore l (.shoreUp f.identity token f.payload))
    let s := s.onSws fun w => { w with counters := { w.counters with handedOff := w.counters.handedOff.add len } }
    let s := s.onRouter fun r => { r with totals := { r.totals with handOffs := r.totals.handOffs.add len } }
    let s := match s.life? f.handle f.attach with
      | some e => if e.cls = SubClass.passenger then
          s.makeAddition { handle := f.handle, attach := f.attach, dir := .uplink, bytes := len } else s
      | none => s
    s.reportFall

end Sys2Proof.Machine
end

