-- ==== Sys2Proof/Machine/LinkOps.lean ====
section
/-! DEFINITION. What a shore port and its modem do with records (R81, R82), and a change of a link's state with all that
hangs on it (R81, R86 to R91, R95, R106, R113, R124). -/

namespace Sys2Proof.Machine

/-- Milliseconds between two probe echoes, and between two keepalives (R83, R89). -/
def echoGap : Purpose → Nat
  | .probe => 100
  | .keepalive => 1000

/-- The answer window of a probe echo (R82). -/
def echoWindow : Nat := 2000

def Probe.echoes (p : Probe) : Nat := if p.long then 64 else 8
def Probe.passMark (p : Probe) : Nat := if p.long then 56 else 7
def Probe.tolerated (p : Probe) : Nat := if p.long then 8 else 1

/-- The modem takes an echo (R82): it takes the link's current sequence, its send time is now, and its window opens. A
keepalive taken after the next one fell due has its window closed already (R89). -/
def State.takeEcho (l : Fin 4) (purpose : Purpose) (due : Nat) (s : State) : State :=
  let k := s.link l
  let seq := k.echoSeq
  let isOpen := purpose == .probe || due == k.keepDue
  let s := s.emit (.toShore l (.echo l.val seq purpose))
  s.onLink l fun k => { k with
    echoSeq := bump16 seq,
    openEchoes := if isOpen then k.openEchoes ++ [{ seq := seq, purpose := purpose, sentAt := s.now }] else k.openEchoes,
    closedEchoes := (k.closedEchoes.filter fun c => c.1 != seq) ++ (if isOpen then [] else [(seq, purpose)]),
    probe := if purpose = .probe then k.probe.map fun p => { p with sent := p.sent + 1 } else k.probe,
    nextEcho := match purpose, k.probe with
      | .probe, some p => if p.sent + 1 < p.echoes then some (s.now + echoGap .probe) else none
      | _, _ => k.nextEcho,
    counters := match purpose with
      | .probe => { k.counters with probeSent := bump32 k.counters.probeSent }
      | .keepalive => { k.counters with keepSent := bump32 k.counters.keepSent } }

/-- The modem of link `l` takes a record (R81): it is sent, and what waits on its taking happens (R82, R99, R113): the
taking of a MOVE sets the MOVE-sent flag of the swap it announces, which another link's MOVE-ACK may have completed by
then. A record of another block that waited when a swap began is sent during the swap (DESIGN CHOICE, assumption 55). -/
def State.modemTakes (l : Fin 4) (w : Waiting) (s : State) : State :=
  match w with
  | .echo purpose due => s.takeEcho l purpose due
  | .storeFrame token => s.handOffStored l token
  | .plain (.move n) =>
    (s.emit (.toShore l (.move n))).onSlm fun m =>
      if m.swap.toLink == some l && m.swap.number == n then
        { m with swap := { m.swap with moveSent := true } } else m
  | .plain r => s.emit (.toShore l r)

/-- A record falls due on link `l` (R81): the modem takes it when it is ready and none waits before it; otherwise it waits
at the port in its order. -/
def State.offer (l : Fin 4) (w : Waiting) (s : State) : State :=
  if (s.link l).free then s.modemTakes l w else s.onLink l fun k => { k with waiting := k.waiting ++ [w] }

/-! ## Batches and exchanges that lose their link -/

/-- A batch in flight is returned (R168): its records are undelivered again, in their places at the head of the ring, and
a settle batch being read is abandoned (R167). An export that was reading the batch again reads on for a new one (DEDUCED,
assumption 39). -/
def State.returnBatch (cause : ReturnCause) (s : State) : State :=
  s.onRsc fun r =>
    let build := match r.build with
      | some b => if b.purpose = .settle then none else some { b with again := false }
      | none => none
    match r.batch with
    | none => { r with build := build }
    | some _ => { r with
        build := build, batch := none, ring := r.ring.map fun p => { p with inFlight := false },
        counters := { r.counters with returned := bumpAt 5 r.counters.returned cause.place } }

/-- The link that carried the batch in flight leaves ACTIVE, or no link is ACTIVE for a batch being read (R167, R168). -/
def State.batchLinkLeft (l : Fin 4) (s : State) : State :=
  match s.rsc.batch with
  | some b => if b.link = some l then s.returnBatch .linkLeft else s
  | none => s.returnBatch .linkLeft

/-- The exchanges that link `l` carried are removed and their work becomes sendable again; each counts as a re-queue
(R124). -/
def State.requeue (l : Fin 4) (s : State) : State :=
  s.onRge fun g => { g with
    inFlight := g.inFlight.filter fun x => x.link != l,
    counters := { g.counters with
      requeues := (g.counters.requeues + g.inFlight.countP fun x => x.link == l) % 4294967296 } }

/-! ## A link changes state -/

/-- The records waiting at the port of a link that leaves its state are discarded (R81, R90). The store's head frame, if
it stood offered there, is shed on a failure (R113); on a release to DRAINING it stays in the store (DEDUCED, assumption
15). -/
def State.dropWaiting (l : Fin 4) (failed : Bool) (s : State) : State :=
  let offeredHere := (s.link l).waiting.any fun w => match w with | .storeFrame _ => true | _ => false
  let s' := s.onLink l fun k => { k with waiting := [] }
  if offeredHere then
    let s' := s'.onSws fun w => { w with offered := false }
    if failed then s'.shedHead.reportFall else s'
  else s'

/-- Link `l` takes state `new` (R77): the timers, probe, open echoes and keepalive of the state it leaves end with it.
Entering HOLDDOWN and READY starts their timers (R86, R88), entering ACTIVE schedules the first keepalive (R89), entering
DRAINING starts the guard (R106). The keepalive misses keep their last value until the link next enters ACTIVE (DESIGN CHOICE,
assumption 75). -/
def State.enterState (l : Fin 4) (new : LinkState) (s : State) : State :=
  let now := s.now
  let guardTime := s.slm.guardTime
  s.onLink l fun k => { k with
    state := new, probe := none, openEchoes := [], keepAnswered := none,
    misses := if new = .active then 0 else k.misses,
    nextEcho := if new = .active then some (now + echoGap .keepalive) else none,
    holddownAt := if new = .holddown then some (now + k.holddownTime * 1000) else none,
    reprobeAt := if new = .ready then some (now + k.reprobeTime * 1000) else none,
    guardAt := if new = .draining then some (now + guardTime) else none }

/-- LINK-CHANGED (R95) with link `l`'s fields as they stand. -/
def State.linkChanged (l : Fin 4) (prev new : LinkState) (cause : LinkCause) (s : State) : State :=
  let k := s.link l
  s.raise (.linkChanged l prev new cause k.type k.costRank k.lastProbe s.mli.shipTime 1)

/-- The state a LINK-CHANGED names as the previous one: a re-probe counts as READY (R95). -/
def Link.reported (k : Link) : LinkState :=
  match k.state, k.probe with
  | .probing, some p => if p.fromReady then .ready else .probing
  | st, _ => st

/-- Link `l` enters PROBING (R83): a long probe if one is owed, short otherwise, and the first echo at once. The move from
READY at the re-probe timer raises no notice (R95). -/
def State.startProbe (l : Fin 4) (cause : LinkCause) (s : State) : State :=
  let k := s.link l
  let fromReady := k.state == .ready
  let long := k.longOwed
  let s := (s.enterState l .probing).onLink l fun k => { k with
    probe := some { long := long, sent := 0, answered := 0, timedOut := 0, rttSum := 0, fromReady := fromReady } }
  let s := if fromReady then s else s.linkChanged l k.reported .probing cause
  s.offer l (.echo .probe 0)

/-- Link `l` leaves for a state that carries nothing, ABSENT, HOLDDOWN or READY: its waiting records are discarded, its
exchanges are re-queued (R124), a batch it carried is returned (R168), and the change is reported. -/
def State.leaveFor (l : Fin 4) (new : LinkState) (cause : LinkCause) (quietly : Bool) (s : State) : State :=
  let k := s.link l
  let s := s.dropWaiting l (k.state == .active)
  let s := if k.state = .active then s.batchLinkLeft l else s
  let s := (s.enterState l new).requeue l
  if quietly then s else s.linkChanged l k.reported new cause

end Sys2Proof.Machine
end

