-- ==== Sys2Proof/Machine/RoamingOps.lean ====
section
/-! DEFINITION. What the Roaming Engine does to entries, exchanges and registrations (R120 to R139), for its own commands
and for those of other blocks. -/

namespace Sys2Proof.Machine

def State.countRge (f : RoamingCounters → RoamingCounters) (s : State) : State :=
  s.onRge fun g => { g with counters := f g.counters }

/-- What becomes of the DEREG a cause owes (R50, R52, R137). -/
inductive DeregOutcome where
  | sent | dropped | notOwed
  deriving DecidableEq, Repr

/-- A DEREG for a device to partner `i` (R137): queued at the ACTIVE link's port when a link is ACTIVE and no swap is in
progress, and otherwise dropped and counted. -/
def State.sendDereg (h : Nat) (token : Token) (i : Nat) (s : State) : State :=
  match s.activeLink?, s.partner? i, s.slm.swap.inProgress with
  | some l, some p, false =>
    (s.offer l (.plain (.dereg h token i p.code))).countRge fun c => { c with deregsSent := bump32 c.deregsSent }
  | _, _, _ => s.countRge fun c => { c with deregsDropped := bump32 c.deregsDropped }

/-- The outcome that `sendDereg` would have for an entry now. -/
def State.deregOutcome (s : State) (e : Entry) : DeregOutcome :=
  match e.serving with
  | none => .notOwed
  | some i => if s.mayCarry && (s.partner? i).isSome then .sent else .dropped

/-- The exchange in flight of entry `h`, if any; an entry has at most one (R124). -/
def State.exchange? (s : State) (h : Nat) : Option Exchange := s.rge.inFlight.find? fun x => x.handle == h

/-- Every exchange of entry `h` leaves the in-flight table (R50, R124). Its record, where that still waits at a shore port,
stays there and is sent when the modem takes it (DEDUCED, assumption 74). -/
def State.dropExchange (h : Nat) (s : State) : State :=
  s.onRge fun g => { g with inFlight := g.inFlight.filter fun x => x.handle != h }

/-- The REG-ASK of entry `h` leaves the in-flight table unless it was sent to partner `keep` (R124). A record that still waits
at a shore port stays there (DEDUCED, assumption 74). -/
def State.dropRegAsk (h : Nat) (keep : Option Nat) (s : State) : State :=
  s.onRge fun g => { g with
    inFlight := g.inFlight.filter fun x => !(x.handle == h && x.kind == .regAsk && keep != some x.partner) }

/-- The refresh outstanding flag of entry `h` (R43, R124). -/
def State.outstanding (s : State) (h : Nat) : Bool := s.rge.inFlight.any fun x => x.handle == h && x.kind == .refresh

/-- The registration of an entry is lost: serving partner, registration time and refresh fields are cleared (R132). -/
def Entry.unregistered (e : Entry) : Entry :=
  { e with serving := none, regTime := none, balance := 0, nextDue := none, paused := none }

/-- The candidate of an entry becomes its serving partner at `now`, with a fresh refresh account (R128, R132). -/
def Entry.registered (e : Entry) (i now : Nat) : Entry :=
  { e with serving := some i, candidate := none, regTime := some now, balance := 0, paused := none }

/-- The engine gives a REGISTERING entry without a candidate its chosen partner, or makes it UNROAMED (R122). -/
def State.giveCandidate (h : Nat) (s : State) : State :=
  match s.entry? h with
  | none => s
  | some e =>
    match s.chosen e.home with
    | some c => s.onEntry h fun e => { e with reg := .registering, candidate := some c }
    | none => s.onEntry h fun e => { e with reg := .unroamed, candidate := none }

/-- A lapse, taken whole for a SERVED or MOVING entry (R133), by a refused refresh or by the balance. -/
def State.lapse (h : Nat) (refused : Bool) (s : State) : State :=
  match s.entry? h with
  | none => s
  | some e =>
    let s := s.closePeriod .lapse h
    let s := (s.onEntry h fun e => { e.unregistered with candidate := none, reg := .lapsed }).dropExchange h
    let s := s.sendLevel h .onboardOnly
    let s := s.countRge fun c =>
      if refused then { c with lapsesRefused := bump32 c.lapsesRefused } else { c with lapsesBalance := bump32 c.lapsesBalance }
    s.raise (.registrationLapsed h e.token (e.serving.getD 0) refused false s.mli.shipTime 1)

/-- A registration is void for a SERVED or MOVING entry (R134): its period closes with reason PARTNER, a DEREG goes to its
serving partner, the registration is lost, and it becomes REGISTERING with the chosen partner or UNROAMED. -/
def State.voidRegistration (h : Nat) (s : State) : State :=
  match s.entry? h with
  | none => s
  | some e =>
    let s := s.closePeriod .partner h
    let s := match e.serving with
      | some i => s.sendDereg h e.token i
      | none => s
    let s := (s.onEntry h fun e => { e.unregistered with candidate := none }).dropExchange h
    let s := s.countRge fun c => { c with voids := bump32 c.voids }
    match s.chosen e.home with
    | some c => s.onEntry h fun e => { e with reg := .registering, candidate := some c }
    | none => (s.onEntry h fun e => { e with reg := .unroamed }).sendLevel h .onboardOnly

/-- A move begins (R134, R136): a SERVED entry becomes MOVING with candidate `c`. -/
def State.beginMove (h : Nat) (c : Nat × Nat) (s : State) : State :=
  (s.onEntry h fun e => { e with reg := .moving, candidate := some c }).countRge fun c =>
    { c with movesBegun := bump32 c.movesBegun }

/-- The check of one entry at a verdict change to REDUCED or FULL (R134, R135). A candidate chosen again keeps the position it
had, wherever it stands in the new verdict's list (DEDUCED, assumption 76). -/
def State.moveCheck (h : Nat) (s : State) : State :=
  match s.entry? h with
  | none => s
  | some e =>
    let chosen := s.chosen e.home
    match e.reg with
    | .served =>
      if !s.servingEligible e then s.voidRegistration h
      else match chosen with
        | some c => if e.serving = some c.1 then s else s.beginMove h c
        | none => s
    | .moving =>
      if !s.servingEligible e then s.voidRegistration h
      else match chosen with
        | some c =>
          if e.serving = some c.1 then
            ((s.onEntry h fun e => { e with reg := .served, candidate := none }).dropRegAsk h none).countRge fun c =>
              { c with movesCancelled := bump32 c.movesCancelled }
          else if e.candidate.map (·.1) = some c.1 then s
          else (s.onEntry h fun e => { e with candidate := some c }).dropRegAsk h (some c.1)
        | none =>
          ((s.onEntry h fun e => { e with reg := .served, candidate := none }).dropRegAsk h none).countRge fun c =>
            { c with movesCancelled := bump32 c.movesCancelled }
    | .registering =>
      match chosen with
      | some c =>
        if e.candidate.map (·.1) = some c.1 then s
        else (s.onEntry h fun e => { e with candidate := some c }).dropRegAsk h (some c.1)
      | none =>
        ((s.onEntry h fun e => { e with reg := .unroamed, candidate := none }).dropExchange h).sendLevel h .onboardOnly
    | .unroamed =>
      match chosen with
      | some c => s.onEntry h fun e => { e with reg := .registering, candidate := some c }
      | none => s
    | .lapsed => s
    | .resting => s

/-- A REG-ASK has been refused or has timed out (R129): a REGISTERING or MOVING entry tries its next candidate; a RESTING
one loses its candidate. The exchange has left the in-flight table. -/
def State.askFailed (h : Nat) (s : State) : State :=
  match s.entry? h with
  | none => s
  | some e =>
    let next := s.nextCandidate e (e.candidate.map (·.2) |>.getD 0)
    match e.reg, next with
    | .registering, some c => s.onEntry h fun e => { e with candidate := some c }
    | .registering, none =>
      (s.onEntry h fun e => { e with reg := .unroamed, candidate := none }).sendLevel h .onboardOnly
    | .moving, some c => s.onEntry h fun e => { e with candidate := some c }
    | .moving, none =>
      (s.onEntry h fun e => { e with reg := .served, candidate := none }).countRge fun c =>
        { c with movesExhausted := bump32 c.movesExhausted }
    | _, _ => s.onEntry h fun e => { e with candidate := none }

/-- The refresh interval of partner `i` in milliseconds. -/
def State.intervalOf (s : State) (i : Nat) : Nat := ((s.partner? i).map (·.interval)).getD 0 * 1000

/-! ## The pacer's work (R125, R126) -/

/-- The bucket's depth in thousandths (R125). -/
def Rge.depth (g : Rge) : Nat := g.pacerRate * 1000

/-- Lexicographic order on lists of integers, for the orders of R126. -/
def keyLt : List Int → List Int → Bool
  | a :: as, b :: bs => decide (a < b) || (a == b && keyLt as bs)
  | _, _ => false

/-- The handle with the least key. -/
def leastBy : List (Nat × List Int) → Option Nat
  | [] => none
  | (h, k) :: rest => some (rest.foldl (fun best p => if keyLt p.2 best.2 then p else best) (h, k)).1

/-- The entries the pacer may take up at all: not RESTING and without an exchange in flight (R126). -/
def State.pacerEntries (s : State) : List (Nat × Entry) :=
  s.table.entries.filter fun p => p.2.reg != .resting && (s.exchange? p.1).isNone

/-- Class 1: REGISTERING entries with a candidate, and LAPSED entries (R126). (DESIGN CHOICE, assumption 30.) -/
def State.freshClass (s : State) : List (Nat × List Int) :=
  (s.pacerEntries.filter fun p => (p.2.reg == .registering && p.2.candidate.isSome) || p.2.reg == .lapsed).map
    fun p => (p.1, [(p.2.createdAt : Int), p.1])

/-- Class 2: the move list (R126). -/
def State.moveClass (s : State) : List (Nat × List Int) :=
  (s.pacerEntries.filter fun p => p.2.reg == .moving).map fun p => (p.1, [((p.2.regTime.getD 0 : Nat) : Int), p.1])

/-- Class 3: owed refreshes (R126). -/
def State.owedClass (s : State) : List (Nat × List Int) :=
  (s.pacerEntries.filter fun p => p.2.reg.onShore && decide (p.2.balance < 0)).map
    fun p => (p.1, [p.2.balance, ((p.2.nextDue.getD 0 : Nat) : Int), p.1])

/-- Class 4: pull-ins (R126). -/
def State.pullInClass (s : State) : List (Nat × List Int) :=
  (s.pacerEntries.filter fun p => p.2.reg.onShore && decide (0 ≤ p.2.balance) && decide (p.2.balance ≤ 2)).map
    fun p => (p.1, [((p.2.nextDue.getD 0 : Nat) : Int), p.1])

/-- A piece of pacer work (R126). -/
inductive Work where
  | ask (handle : Nat)
  | refresh (handle : Nat) (owed : Bool)
  deriving DecidableEq, Repr

/-- The first piece of work of the first class that holds any (R126). -/
def State.nextWork (s : State) : Option Work :=
  match leastBy s.freshClass with
  | some h => some (.ask h)
  | none => match leastBy s.moveClass with
    | some h => some (.ask h)
    | none => match leastBy s.owedClass with
      | some h => some (.refresh h true)
      | none =>
        if s.rge.bucket = s.rge.depth then (leastBy s.pullInClass).map fun h => .refresh h false else none

/-- The pacer may send (R125), work apart. -/
def State.pacerOpen (s : State) : Bool :=
  decide (1000 ≤ s.rge.bucket) && s.mayCarry && decide (s.rge.inFlight.length < Limits.inFlight)

end Sys2Proof.Machine
end

