-- ==== Sys2Proof/Machine/SwapOps.lean ====
section
/-! DEFINITION. Selection, the swap protocol and isolation (R92 to R94, R99, R103 to R105, R109 to R111). -/

namespace Sys2Proof.Machine

/-! ## Selection (R92) -/

/-- The link-type order in use: the verdict's, or HARBOUR, COASTAL, SATELLITE under NONE (R92). -/
def State.linkOrder (s : State) : List LinkType :=
  match s.rules? with
  | some r => r.linkOrder
  | none => [.harbour, .coastal, .satellite]

/-- A candidate for selection: a link in READY or ACTIVE, with a type set (R92). -/
def Link.candidate (k : Link) : Bool := (k.state == .ready || k.state == .active) && k.type.isSome

/-- Link `l` put before the first link that costs at least as much. -/
def insertByCost (cost : Fin 4 → Nat) (l : Fin 4) : List (Fin 4) → List (Fin 4)
  | [] => [l]
  | a :: rest => if cost l ≤ cost a then l :: a :: rest else a :: insertByCost cost l rest

/-- The links of `ls` in ascending cost rank, lower port first among equals. -/
def State.byCost (s : State) (ls : List (Fin 4)) : List (Fin 4) :=
  ls.foldr (insertByCost fun l => (s.link l).costRank) []

/-- The candidates in the order of R92: the pinned one, those whose type stands in the order, and while no link is ACTIVE
the rest. -/
def State.ranking (s : State) : List (Fin 4) :=
  let cands := allLinks.filter fun l => (s.link l).candidate
  let pinned := cands.filter fun l => s.slm.pin == some l
  let typed := s.linkOrder.flatMap fun t => s.byCost (cands.filter fun l => (s.link l).type == some t)
  let others := if s.activeLink?.isSome then []
    else s.byCost (cands.filter fun l => match (s.link l).type with
      | some t => !s.linkOrder.contains t
      | none => false)
  pinned ++ typed ++ others

/-- The desired link (R92). -/
def State.desired (s : State) : Option (Fin 4) := s.ranking.head?

/-! ## A swap begins (R99) -/

/-- A swap begins to link `l`, planned or not (R99): a batch in flight is returned (R168), the target becomes JOINING and
a MOVE is queued on it. -/
def State.beginSwap (l : Fin 4) (planned : Bool) (s : State) : State :=
  let s := s.returnBatch .swapBegan
  let fromLink := if planned then s.activeLink? else none
  let number := bump16 s.slm.swap.number
  let prev := (s.link l).reported
  let s := s.onSlm fun m => { m with
    settle := none,
    swap := { inProgress := true, number := number, planned := some planned, fromLink := fromLink, toLink := some l,
              moveSent := false, startedAt := s.now, ackExpiry := some (s.now + m.moveAckTimer),
              lastOutcome := m.swap.lastOutcome },
    counters := if planned then { m.counters with begunPlanned := bump32 m.counters.begunPlanned }
      else { m.counters with begunUnplanned := bump32 m.counters.begunUnplanned } }
  let s := (s.enterState l .joining).linkChanged l prev .joining .swap
  s.offer l (.plain (.move number))

/-- Selection is worked out again (R94). -/
def State.workOut (s : State) : State :=
  if !s.running then s
  else if s.slm.swap.inProgress then s.onSlm fun m => { m with settle := none }
  else
    match s.activeLink?, s.desired with
    | none, some l => s.beginSwap l false
    | none, none => s.onSlm fun m => { m with settle := none }
    | some _, none => s.onSlm fun m => { m with settle := none }
    | some a, some d =>
      if a = d then s.onSlm fun m => { m with settle := none }
      else if (s.slm.settle.map (·.link)) = some d then s
      else if s.slm.settleTime = 0 then s.beginSwap d true
      else s.onSlm fun m => { m with settle := some { link := d, since := s.now, expiry := s.now + m.settleTime * 1000 } }

/-! ## Isolation (R109 to R111) -/

/-- The entries SERVED or MOVING that pass a test, by handle, ascending. -/
def State.onShoreHandles (s : State) (good : Entry → Bool) : List Nat :=
  (s.table.entries.filter fun p => p.2.reg.onShore && good p.2).map (·.1)

/-- The grace has expired while isolation stands (R110): the store is emptied, LOCAL is sent to every SERVED or MOVING
subscriber, and the shore cut-off condition stands. -/
def State.beginCutOff (s : State) : State :=
  let shed : Tally := { frames := s.sws.frames.length, bytes := occupancy s.sws.frames }
  let s := (s.shedAll s.sws.frames.length).reportFall
  let s := s.onSlm fun m => { m with
    graceAt := none, cutOff := true, cutOffShed := shed, counters := { m.counters with cutOffs := bump32 m.counters.cutOffs } }
  s.eachOf (s.onShoreHandles fun _ => true) fun h s => s.sendLevel h .onboardOnly

/-- Isolation begins (R109), with the link lost and the cause; a grace of 0 expires at once (R110). -/
def State.beginIsolation (lost : Option (Fin 4)) (cause : LossCause) (s : State) : State :=
  let swap := match s.slm.swap.inProgress, s.slm.swap.toLink with
    | true, some t => some (s.slm.swap.number, t)
    | _, _ => none
  let s := s.onSlm fun m => { m with
    isolated := some s.now, graceAt := some (s.now + m.grace),
    counters := { m.counters with isolations := bump32 m.counters.isolations } }
  let s := s.raise (.isolated lost cause swap (occupancy s.sws.frames) s.mli.shipTime 1)
  if s.slm.grace = 0 then s.beginCutOff else s

/-- A link has become ACTIVE: isolation, if it stands, ends (R111), and with it any cut-off. -/
def State.endIsolation (l : Fin 4) (s : State) : State :=
  match s.slm.isolated with
  | none => s
  | some since =>
    let cut := s.slm.cutOff
    let shed := if cut then s.slm.cutOffShed else Tally.zero
    let s := s.onSlm fun m => { m with isolated := none, graceAt := none, cutOff := false }
    let s := s.raise (.rejoined l s.slm.swap.number (s.now - since) cut shed s.mli.shipTime 1)
    if cut then s.eachOf (s.onShoreHandles fun e => !e.barred) fun h s => s.sendLevel h .full else s

/-! ## The end of a swap -/

/-- The swap in progress fails (R103, R105): it is no longer in progress, and SWAP-FAILED is raised (R108). The to-link
has taken its new state. What the record keeps is assumption 59 (DESIGN CHOICE). -/
def State.failSwap (targetLost : Bool) (s : State) : State :=
  let w := s.slm.swap
  let s := s.onSlm fun m => { m with
    swap := { m.swap with
      inProgress := false, ackExpiry := none,
      lastOutcome := some (if targetLost then .targetLost else .timeout) },
    counters := if targetLost then { m.counters with failedTarget := bump32 m.counters.failedTarget }
      else { m.counters with failedTimeout := bump32 m.counters.failedTimeout } }
  s.raise (.swapFailed w.number (w.planned.getD false) w.fromLink (w.toLink.getD 0) targetLost (occupancy s.sws.frames)
    s.mli.shipTime 1)

/-- The swap in progress completes (R101). Kind, links and the MOVE-sent flag of the swap that has ended stand in its record
until the next swap begins (DESIGN CHOICE, assumption 59). -/
def State.completeSwap (to_ : Fin 4) (s : State) : State :=
  let w := s.slm.swap
  let prevTo := (s.link to_).reported
  let s := s.onSlm fun m => { m with
    swap := { m.swap with inProgress := false, ackExpiry := none, lastOutcome := some .done },
    counters := { m.counters with done := bump32 m.counters.done } }
  let s := (s.enterState to_ .active).linkChanged to_ prevTo .active .swap
  let s := match w.fromLink with
    | some f => ((s.dropWaiting f false).enterState f .draining).linkChanged f .active .draining .swap
    | none => s
  let s := s.raise (.swapDone w.number (w.planned.getD false) w.fromLink to_ (s.now - w.startedAt)
    (occupancy s.sws.frames) s.sws.frames.length s.mli.shipTime 1)
  (s.endIsolation to_).workOut

/-! ## Failures -/

def LossCause.linkCause : LossCause → LinkCause
  | .keepaliveLost => .keepaliveLost
  | .carrierLost => .carrierLost
  | .disabled => .disabled
  | .start => .swap

/-- The ACTIVE link fails (R90, R104, R109): it leaves for `new`; a planned swap it was the from-link of becomes
unplanned; isolation begins while the device is RUNNING. -/
def State.activeFails (l : Fin 4) (new : LinkState) (cause : LossCause) (s : State) : State :=
  let s := s.leaveFor l new cause.linkCause false
  let s := if s.slm.swap.inProgress && s.slm.swap.fromLink == some l then
      s.onSlm fun m => { m with
        swap := { m.swap with fromLink := none, planned := some false },
        counters := { m.counters with turnedUnplanned := bump32 m.counters.turnedUnplanned } }
    else s
  if s.running && s.activeLink?.isNone && s.slm.isolated.isNone then s.beginIsolation (some l) cause else s

/-- Link `l` goes ABSENT by carrier loss or disabling (R78, R81): its probe is abandoned (R85), its timers are cancelled,
a long probe is owed; the ACTIVE link fails (R90) and a JOINING one ends its swap (R105). Selection is worked out (R94).
(DEDUCED, assumption 31.) -/
def State.goAbsent (l : Fin 4) (cause : LossCause) (s : State) : State :=
  let st := (s.link l).state
  let s := s.onLink l fun k => { k with longOwed := true }
  let s := if st = .probing then s.countLink l fun c => { c with abandoned := bump32 c.abandoned } else s
  let s := if st = .active then s.activeFails l .absent cause else s.leaveFor l .absent cause.linkCause false
  let s := if st = .joining && s.slm.swap.inProgress && s.slm.swap.toLink == some l then s.failSwap true else s
  s.workOut

end Sys2Proof.Machine
end

