-- ==== Sys2Proof/Machine/TableOps.lean ====
section
/-! DEFINITION. The life of an entry (R30, R31, R45 to R50, R64): creation, re-attach and revival, quiet entry, removal. -/

namespace Sys2Proof.Machine

/-- Every bearer of entry `h` is freed by a cause other than BEARER-CLOSE (R64, R74). -/
def State.freeBearers (h : Nat) (s : State) : State :=
  match s.entry? h with
  | none => s
  | some e =>
    (s.onEntry h fun e => { e with bearers := [] }).onRouter fun r => { r with
      totals := { r.totals with freedOther := (r.totals.freedOther + e.bearers.length) % 4294967296 } }

/-- A removal, taken whole (R50). `reason` closes the period; retention expiry gives none (R49). -/
def State.removeEntry (h : Nat) (cause : RemovalCause) (reason : Option CloseReason) (s : State) : State :=
  match s.entry? h with
  | none => s
  | some e =>
    let s := match reason with
      | some r => s.closePeriod r h
      | none => s
    let s := s.freeBearers h
    let s := match e.serving with
      | some i => s.sendDereg h e.token i
      | none => s
    let s := s.dropExchange h
    s.onTable fun t => { t with
      entries := eraseKey h t.entries, freeHandles := t.freeHandles ++ [h],
      counters := { t.counters with removals := bumpAt 4 t.counters.removals cause.place } }

/-- The class a home code gets at creation (R30, R45). -/
def State.isExempt (s : State) (home : HomeCode) : Bool := s.mli.billing.exemptList.contains home

/-- The starting values of a new entry (R45). -/
def State.newEntry (s : State) (p : Fin 6) (a : Ask) : Entry :=
  { attach := s.table.attachCounter, token := a.token, home := a.home,
    cls := if s.isExempt a.home then .exempt else .passenger, createdAt := s.now, retention := none, port := p,
    portLost := none, reg := .registering, serving := none, candidate := none, regTime := none, balance := 0,
    nextDue := none, paused := none, bearers := [], period := none, closing := false, dayCount := 0, total := 0,
    cap := s.mli.billing.defaultCap, alertSent := false, barred := false, storeLoss := 0 }

/-- A new entry for an ask that passed check 6 (R30, R45, R46): ADMIT, then its candidate or UNROAMED with LOCAL (R122). -/
def State.admitNew (p : Fin 6) (a : Ask) (s : State) : State :=
  match s.table.freeHandles with
  | [] => s
  | h :: rest =>
    let e := s.newEntry p a
    let s := s.onTable fun t => { t with
      entries := putKey h e t.entries, freeHandles := rest, attachCounter := bump32 t.attachCounter,
      counters := { t.counters with created := bump32 t.counters.created } }
    let s := s.countPort p fun c => { c with newAdmissions := bump32 c.newAdmissions }
    let s := (s.toHead p (.admitted a.token h)).giveCandidate h
    match s.entry? h with
    | some e => if e.reg = .unroamed then s.sendLevel h .onboardOnly else s
    | none => s

/-- Whether the exchange `x` still fits the entry it is for: a REG-ASK its candidate, a REFRESH its serving partner (R136). -/
def Entry.fits (e : Entry) (x : Exchange) : Bool :=
  match x.kind with
  | .regAsk => e.candidate.map (·.1) == some x.partner
  | .refresh => e.serving == some x.partner

/-- Exchanges of entry `h` that no longer fit it leave the in-flight table (R136). -/
def State.dropUnfit (h : Nat) (s : State) : State :=
  match s.entry? h with
  | none => s
  | some e => s.onRge fun g => { g with inFlight := g.inFlight.filter fun x => x.handle != h || e.fits x }

/-- A RESTING entry is revived (R31, R48, R136): its refresh schedule resumes (R130), and the check of R134 decides its
state. A void at revival removes only the exchange that no longer fits the entry, by the last sentence of R136 (DESIGN
CHOICE, assumption 60). -/
def State.revive (h : Nat) (s : State) : State :=
  match s.entry? h with
  | none => s
  | some e =>
    let s := s.onTable fun t => { t with counters := { t.counters with revivals := bump32 t.counters.revivals } }
    match e.serving with
    | none =>
      (((s.onEntry h fun e => { e with retention := none, reg := .registering, candidate := none }).giveCandidate
        h).dropUnfit h)
    | some i =>
      if s.servingEligible e then
        let s := s.onEntry h fun e => { e with
          retention := none, reg := .served, candidate := none, nextDue := some (s.now + e.paused.getD 0), paused := none }
        let s := match s.chosen e.home with
          | some c => if c.1 = i then s else s.beginMove h c
          | none => s
        (s.dropUnfit h).openPeriod h
      else
        let s := s.sendDereg h e.token i
        let s := s.countRge fun c => { c with voids := bump32 c.voids }
        let s := s.onEntry h fun e => { e.unregistered with retention := none, reg := .registering, candidate := none }
        (s.giveCandidate h).dropUnfit h

/-- The entry `h` holding an ask's token is re-attached on port `p` (R31). -/
def State.reAttach (p : Fin 6) (h : Nat) (e : Entry) (s : State) : State :=
  let s := s.freeBearers h
  let s := s.onEntry h fun e => { e with port := p, portLost := none }
  let s := if e.reg = .resting then s.revive h else s
  let s := s.countPort p fun c => { c with reAttaches := bump32 c.reAttaches }
  let s := s.toHead p (.admitted e.token h)
  match s.entry? h with
  | some e => if e.reg = .registering then s else s.sendLevelByEntitlement h
  | none => s

/-- One entry at a quiet entry (R17, R18, R130): not yet RESTING, it becomes so, its refresh schedule pauses, its period
closes with reason QUIET, its bearers are freed, its port-lost marker clears and its retention timer starts. While it rests
the next refresh due reads none, beside the remaining time (DESIGN CHOICE, assumption 69). -/
def State.rest (h : Nat) (s : State) : State :=
  match s.entry? h with
  | none => s
  | some e =>
    if e.reg = .resting then s
    else
      let s := (s.closePeriod .quiet h).freeBearers h
      let now := s.now
      let expiry := now + s.tracker.retentionTime * 60000
      s.onEntry h fun e => { e with
        reg := .resting, portLost := none, retention := some expiry,
        paused := if e.serving.isSome then some (e.nextDue.getD 0 - now) else none, nextDue := none }

/-- An entry of a port that lost its head is marked (R36, R37): its bearers are freed, and unless RESTING or already
marked it gains the port-lost marker with the port's port-lost time. -/
def State.markLost (h : Nat) (s : State) : State :=
  match s.entry? h with
  | none => s
  | some e =>
    let s := s.freeBearers h
    if e.reg = .resting || e.portLost.isSome then s
    else
      let expiry := s.now + (s.port e.port).portLostTime * 1000
      s.onEntry h fun e => { e with portLost := some expiry }

end Sys2Proof.Machine
end

