-- ==== Sys2Proof/Machine/TrackerOps.lean ====
section
/-! DEFINITION. The verdict (R1, R6 to R13) and its publication to the blocks that read it (R13, R15, R17, R134, R152, R94). -/

namespace Sys2Proof.Machine

/-! ## The zone table -/

/-- The zone in which distance `d` lies, with its index (R1): the last zone whose start is at most `d`. -/
def locateFrom (i d : Nat) : List Zone → Option VerdictZone
  | [] => none
  | z :: rest =>
    match locateFrom (i + 1) d rest with
    | some v => some v
    | none => if z.start ≤ d then some { index := i, rules := z.rules } else none

def Tracker.locate (t : Tracker) (d : Nat) : Option VerdictZone := locateFrom 0 d t.zones

/-- The start of zone `i`. -/
def Tracker.startOf (t : Tracker) (i : Nat) : Nat := (t.zones[i]?.map (·.start)).getD 0

/-- The end of zone `i`: the next zone's start, or the route length (R1). -/
def Tracker.endOf (t : Tracker) (i : Nat) : Nat := (t.zones[i + 1]?.map (·.start)).getD t.routeLength

/-- The fix at distance `d` passes the margin of candidate zone `c` seen from the verdict's zone `v` (R6). -/
def Tracker.passesMargin (t : Tracker) (v c d : Nat) : Bool :=
  if v < c then decide (t.startOf c + t.hysteresis ≤ d) else decide (d + t.hysteresis ≤ t.endOf c)

/-! ## Publication (R13) -/

/-- An open, unfrozen period is rotated with reason ZONE when its class or jurisdiction has changed and its entry's
serving partner is still eligible (R152). -/
def State.rotatePeriod (h : Nat) (s : State) : State :=
  match s.entry? h, s.rules? with
  | some e, some r =>
    match e.period with
    | none => s
    | some p =>
      if !e.closing && s.servingEligible e && (r.tariffClass != p.tariffClass || r.jurisdiction != p.jurisdiction) then
        (s.closePeriod .zone h).openPeriod h
      else s
  | _, _ => s

/-- The verdict changes to `new` (R13): it is published to the Cell Port Controller (R15), on a quiet entry to the blocks
R17 names, under REDUCED or FULL to the Rating Unit (R152) and the Roaming Engine (R134, R135), and last to selection
(R94). ZONE-CHANGED is raised first. (DESIGN CHOICE, assumption 23.) -/
def State.changeVerdict (new : Option VerdictZone) (cause : ZoneCause) (d : Option Nat) (s : State) : State :=
  let old := s.tracker.verdict
  let oldPolicy := policyOf (old.map (·.rules))
  let newPolicy := policyOf (new.map (·.rules))
  let s := s.onTracker fun t => { t with verdict := new }
  let s := s.raise (.zoneChanged (old.map (·.index)) (new.map (·.index)) (new.map (·.rules)) cause d s.mli.shipTime 1)
  let s := s.sendOrders
  let s := if newPolicy = .quiet then
      (if oldPolicy = .quiet then s else s.eachEntry State.rest)
    else (s.eachEntry State.rotatePeriod).eachEntry State.moveCheck
  s.workOut

/-! ## Evaluation -/

/-- The position `d` of a fix of quality `q` is evaluated for a change of zone (R6, R7, R8); `cause` names an equal or
laxer change. -/
def State.evaluate (q : Quality) (d : Nat) (cause : ZoneCause) (s : State) : State :=
  match s.tracker.verdict, s.tracker.locate d with
  | some v, some c =>
    if c.index = v.index then s
    else if policyRank c.rules.policy < policyRank v.rules.policy then s.changeVerdict (some c) .stricter (some d)
    else if q = .good && !s.tracker.frozen && !s.tracker.forcedFreeze && s.tracker.holdExpiry.isNone
        && s.tracker.passesMargin v.index c.index d then
      s.changeVerdict (some c) cause (some d)
    else s
  | _, _ => s

/-- The hold has ended (R12): with a GOOD last fix its position is evaluated again, no hold running. -/
def State.endHold (s : State) : State :=
  let s := s.onTracker fun t => { t with holdExpiry := none }
  match s.tracker.lastFix, s.tracker.lastPosition with
  | some (.good, _), some d => s.evaluate .good d .holdEnd
  | _, _ => s

/-- A hold begins (R12); a hold time of 0 ends it at once. (DEDUCED, assumption 21.) -/
def State.beginHold (s : State) : State :=
  let s := s.onTracker fun t => { t with holdExpiry := some (s.now + t.holdTime * 1000) }
  if s.tracker.holdTime = 0 then s.endHold else s

/-- The verdict freezes (R10): any running hold is cancelled. -/
def State.freeze (s : State) : State := s.onTracker fun t => { t with frozen := true, holdExpiry := none }

/-- A fix is evaluated while the device is RUNNING (R5, R7 to R10, R12). -/
def State.takeFix (q : Quality) (d : Nat) (s : State) : State :=
  match q with
  | .none => s.freeze
  | q =>
    match s.tracker.verdict with
    | none =>
      if q = .good && !s.tracker.forcedFreeze then
        match s.tracker.locate d with
        | some c => (s.onTracker fun t => { t with frozen := false }).changeVerdict (some c) .firstFix (some d)
        | none => s
      else s
    | some _ =>
      if q = .good && s.tracker.frozen && !s.tracker.forcedFreeze then
        ((s.evaluate q d .margin).onTracker fun t => { t with frozen := false }).beginHold
      else s.evaluate q d .margin

end Sys2Proof.Machine
end

