-- ==== Sys2Proof/Machine/Operands.lean ====
section
/-! DEFINITION. The operands of requests: the kind codes of the catalogue (R174), the numbers as clamped, and the own
checks of the requests whose rules list them (R3, R23, R78, R93, R119, R142, R143, R182, R183). -/

namespace Sys2Proof.Machine

/-! ## Request codes -/

namespace Kind
def start : Byte := 0x01
def reset : Byte := 0x02
def setTime : Byte := 0x03
def fix : Byte := 0x04
def freezeZone : Byte := 0x05
def thawZone : Byte := 0x06
def loadZones : Byte := 0x07
def loadPartners : Byte := 0x08
def configureLink : Byte := 0x09
def pinLink : Byte := 0x0A
def loadTariffPlan : Byte := 0x0B
def commitTariff : Byte := 0x0C
def dayRoll : Byte := 0x0D
def setBilling : Byte := 0x0E
def setCap : Byte := 0x0F
def setClass : Byte := 0x10
def evict : Byte := 0x11
def queryZone : Byte := 0x12
def queryLink : Byte := 0x13
def querySubscriber : Byte := 0x14
def queryStore : Byte := 0x15
def setDelivery : Byte := 0x16
def exportRecords : Byte := 0x17
def confirmExport : Byte := 0x18
def flushRecords : Byte := 0x19
end Kind

/-- A request whose fields need no check of their own. -/
def always {α : Type} (_ : α) : Bool := true

/-- A code lies within its digit count (R25, R119, R182): five digits hold up to 99,999, six up to 999,999. -/
def codeOk (c : HomeCode) : Bool := decide (c.number ≤ if c.six then 999999 else 99999)

def noDup {α : Type} [BEq α] : List α → Bool
  | [] => true
  | a :: rest => !rest.contains a && noDup rest

/-! ## LOAD-ZONES (R2, R3) -/

/-- A zone record with its power cap held in range where it is unused (R3). -/
def clampZone (z : Zone) : Zone :=
  if z.rules.policy = .reduced then z
  else { z with rules := { z.rules with powerCap := clampTo 1 8 z.rules.powerCap } }

/-- The request with every number held in its range (R2, R3). -/
def clampZones (b : LoadZonesBody) : LoadZonesBody :=
  { routeLength := clampTo 1 1000000 b.routeLength, hysteresis := clampTo 0 2000 b.hysteresis,
    fixTimeout := clampTo 1 60 b.fixTimeout, holdTime := clampTo 0 300 b.holdTime, retention := clampTo 1 60 b.retention,
    zones := b.zones.map clampZone }

/-- A value of the load lies outside its range (R2, R3). -/
def zonesClamped (b : LoadZonesBody) : Bool := clampZones b != b

/-- Check 1 of R3. -/
def zonesWellFormed (b : LoadZonesBody) : Bool :=
  decide (1 ≤ b.zones.length) && decide (b.zones.length ≤ 48) && b.zones.all fun z =>
    decide (1 ≤ z.rules.prefs.length) && decide (z.rules.prefs.length ≤ 4) && decide (1 ≤ z.rules.linkOrder.length)
      && decide (z.rules.linkOrder.length ≤ 3) && (z.rules.prefs.all fun i => decide (i ≤ 31))
      && decide (z.rules.jurisdiction ≤ 15) && decide (z.rules.tariffClass ≤ 7)

/-- Check 2 of R3 and R119: the device is UNCONFIGURED, or the verdict names a berth zone. -/
def State.atBerth (s : State) : Bool :=
  !s.running || (match s.rules? with | some r => r.berth | none => false)

def risingStarts : List Zone → Bool
  | a :: b :: rest => decide (a.start < b.start) && risingStarts (b :: rest)
  | _ => true

/-- Check 3 of R3. -/
def startsOk (b : LoadZonesBody) : Bool :=
  (match b.zones with | z :: _ => z.start == 0 | [] => false) && risingStarts b.zones
    && b.zones.all fun z => decide (z.start < b.routeLength)

/-- Check 4 of R3: every zone, the last included, is at least twice the hysteresis long. -/
def lengthsOk (routeLength hysteresis : Nat) : List Zone → Bool
  | a :: b :: rest => decide (2 * hysteresis ≤ b.start - a.start) && lengthsOk routeLength hysteresis (b :: rest)
  | [a] => decide (2 * hysteresis ≤ routeLength - a.start)
  | [] => true

/-- Checks 5 and 6 of R3 for one zone. -/
def zoneOk (z : Zone) : Bool :=
  noDup z.rules.prefs && noDup z.rules.linkOrder && (!z.rules.berth || z.rules.policy == .quiet)
    && (z.rules.policy != .reduced || (decide (1 ≤ z.rules.powerCap) && decide (z.rules.powerCap ≤ 8)))

/-- Checks 3 to 7 of R3 on the clamped request. -/
def State.zonesAccepted (s : State) (b : LoadZonesBody) : Bool :=
  startsOk b && lengthsOk b.routeLength b.hysteresis b.zones && b.zones.all zoneOk
    && (s.rge.partners.isEmpty || b.zones.all fun z => z.rules.prefs.all fun i => (s.partner? i).isSome)

/-! ## LOAD-PARTNERS (R119, R183) -/

/-- Check 1 of R119 for one record; the mask's width holds the jurisdiction check. -/
def partnerWellFormed (p : Partner) : Bool :=
  decide (p.index ≤ 31) && codeOk p.code && p.mask != 0 && decide (1 ≤ p.codes.length) && decide (p.codes.length ≤ 24)
    && p.codes.all codeOk && decide (p.plans.length = 8) && p.plans.all fun i => decide (i ≤ 63)

/-- A part's own fields (R183): part number 0 to 7, at most 32 records, and the settings exactly in part 0. -/
def partWellFormed (b : PartnersPart) : Bool :=
  decide (b.part ≤ 7) && decide (b.records.length ≤ 32) && (b.settings.isSome == (b.part == 0))
    && b.records.all partnerWellFormed

/-- A record with its refresh interval and markup held in their ranges (R118, R119). -/
def clampPartner (p : Partner) : Partner :=
  { p with interval := clampTo 60 3600 p.interval, markup := clampTo 0 2000 p.markup }

/-- A value of the part lies outside its range (R119). (DEDUCED, assumption 29.) -/
def partClamped (b : PartnersPart) : Bool :=
  (b.records.any fun p => clampPartner p != p)
    || (match b.settings with
        | some (r, t) => isClamped 1 200 r || isClamped 1000 30000 t
        | none => false)

/-- The part taken against the staging table (R183), or `none` when it is refused as MALFORMED. A table that part 0 filled
with its settings and no record is not empty (DESIGN CHOICE, assumption 65). -/
def stage (old : Option Staging) (b : PartnersPart) : Option Staging :=
  let records := b.records.map clampPartner
  match b.settings with
  | some (r, t) =>
    some { records := records, pacerRate := clampTo 1 200 r, exchangeTimer := clampTo 1000 30000 t, lastPart := 0,
           clamped := partClamped b }
  | none =>
    match old with
    | none => none
    | some st =>
      if b.part = st.lastPart + 1 && decide (st.records.length + records.length ≤ 32) then
        some { st with records := st.records ++ records, lastPart := b.part, clamped := st.clamped || partClamped b }
      else none

/-- Checks 3 to 5 of R119 on the staged table. -/
def State.partnersAccepted (s : State) (ps : List Partner) : Bool :=
  noDup (ps.map (·.index)) && (ps.all fun p => noDup p.codes)
    && (ps.all fun p => p.plans.all fun i => (lookupKey i s.rtu.active).isSome)
    && s.tracker.zones.all fun z => z.rules.prefs.all fun i => ps.any fun p => p.index == i

/-! ## Other requests -/

/-- The RTT limit of a link type when none is given (R78). -/
def defaultRtt : LinkType → Nat
  | .satellite => 900
  | .coastal => 200
  | .harbour => 50

/-- A plan with its fields held in range and its increment rounded down to a multiple of 1,024 (R142). -/
def clampPlan (t : TariffPlan) : TariffPlan :=
  { increment := clampTo 1024 1048576 t.increment / 1024 * 1024, rate1 := clampTo 0 1000000 t.rate1,
    rate2 := clampTo 0 1000000 t.rate2, threshold := clampTo 0 65535 t.threshold }

def planClamped (t : TariffPlan) : Bool :=
  isClamped 1024 1048576 t.increment || isClamped 0 1000000 t.rate1 || isClamped 0 1000000 t.rate2
    || isClamped 0 65535 t.threshold

/-- The two checks of R143 on the pending bank. -/
def State.bankPasses (s : State) : Bool :=
  !s.rtu.bank.isEmpty && s.rge.partners.all fun p => p.plans.all fun i => (lookupKey i s.rtu.bank).isSome

/-- The exempt list of SET-BILLING as R182 checks it, apart from a code given twice. -/
def billingWellFormed (b : BillingBody) : Bool := decide (b.exemptList.length ≤ 16) && b.exemptList.all codeOk

end Sys2Proof.Machine
end

