-- ==== Sys2Proof/Decode.lean ====
section
/-! DEFINITION. Requests as bytes (R174, R177, R185): the parsing of each request's body, total and rejecting what is not
laid out as R185 gives (DEDUCED, assumption 27), the host's side of the same layouts, and the decoder of table words, of
which this table gives none. -/

namespace Sys2Proof.Decode

open Sys2Proof.Machine

/-! ## Fields -/

/-- A number of `w` bytes at the front, and the bytes behind it. -/
def num (w : Nat) (bs : List Byte) : Option (Nat × List Byte) :=
  if bs.length < w then none else some (ofLe (bs.take w), bs.drop w)

/-- A flag byte: 0 or 1. -/
def flag : Nat → Option Bool
  | 0 => some false
  | 1 => some true
  | _ => none

def quality : Nat → Option Quality
  | 0 => some .good
  | 1 => some .degraded
  | 2 => some .none
  | _ => Option.none

def policy : Nat → Option Policy
  | 0 => some .quiet
  | 1 => some .reduced
  | 2 => some .full
  | _ => none

def linkType : Nat → Option LinkType
  | 0 => some .satellite
  | 1 => some .coastal
  | 2 => some .harbour
  | _ => none

def subClass : Nat → Option SubClass
  | 0 => some .passenger
  | 1 => some .exempt
  | _ => none

def channel : Nat → Option Channel
  | 0 => some .shore
  | 1 => some .onHost
  | _ => none

/-- A home or network code from its 3 bytes (R185): bits 0 to 19 the number, bit 20 the digit count, the rest 0. -/
def code (n : Nat) : Option HomeCode :=
  if 2097152 ≤ n then none else some { number := n % 1048576, six := decide (1048576 ≤ n) }

/-- The body ends here. -/
def ends {α : Type} (a : α) : List Byte → Option α
  | [] => some a
  | _ => none

/-- A field that may be none: a presence byte, then its value in full width, all zero when none. -/
def optNum (w : Nat) (bs : List Byte) : Option (Option Nat × List Byte) := do
  let (p, bs) ← num 1 bs
  let (v, bs) ← num w bs
  match p with
  | 0 => if v = 0 then some (none, bs) else none
  | 1 => some (some v, bs)
  | _ => none

/-- `n` items, each taken from the front by `item`. -/
def items {α : Type} (item : List Byte → Option (α × List Byte)) : Nat → List Byte → Option (List α × List Byte)
  | 0, bs => some ([], bs)
  | n + 1, bs => do
    let (a, bs) ← item bs
    let (as, bs) ← items item n bs
    some (a :: as, bs)

def byteItem (bs : List Byte) : Option (Nat × List Byte) := num 1 bs

def codeItem (bs : List Byte) : Option (HomeCode × List Byte) := do
  let (n, bs) ← num 3 bs
  let c ← code n
  some (c, bs)

def linkTypeItem (bs : List Byte) : Option (LinkType × List Byte) := do
  let (n, bs) ← num 1 bs
  let t ← linkType n
  some (t, bs)

/-- Unused places read 0xFF: `n` of them. -/
def unused (n : Nat) (bs : List Byte) : Option (List Byte) :=
  if bs.take n = List.replicate n 0xFF then some (bs.drop n) else none

/-! ## Records (R185) -/

/-- A zone record, 17 bytes. -/
def zone (bs : List Byte) : Option (Zone × List Byte) := do
  let (start, bs) ← num 3 bs
  let (jurisdiction, bs) ← num 1 bs
  let (p, bs) ← num 1 bs
  let pol ← policy p
  let (powerCap, bs) ← num 1 bs
  let (b, bs) ← num 1 bs
  let berth ← flag b
  let (tariffClass, bs) ← num 1 bs
  let (np, bs) ← num 1 bs
  if 4 < np then none else do
    let (prefs, bs) ← items byteItem np bs
    let bs ← unused (4 - np) bs
    let (nt, bs) ← num 1 bs
    if 3 < nt then none else do
      let (order, bs) ← items linkTypeItem nt bs
      let bs ← unused (3 - nt) bs
      some ({ start := start,
              rules := { jurisdiction := jurisdiction, policy := pol, powerCap := powerCap, berth := berth,
                         tariffClass := tariffClass, prefs := prefs, linkOrder := order } }, bs)

/-- A partner record, 19 + 3n bytes. -/
def partner (bs : List Byte) : Option (Partner × List Byte) := do
  let (index, bs) ← num 1 bs
  let (c, bs) ← codeItem bs
  let (mask, bs) ← num 2 bs
  let (interval, bs) ← num 2 bs
  let (markup, bs) ← num 2 bs
  let (plans, bs) ← items byteItem 8 bs
  let (n, bs) ← num 1 bs
  let (codes, bs) ← items codeItem n bs
  some ({ index := index, code := c, mask := BitVec.ofNat 16 mask, interval := interval, markup := markup, plans := plans,
          codes := codes }, bs)

/-- A tariff plan record, 11 bytes. -/
def plan (bs : List Byte) : Option (TariffPlan × List Byte) := do
  let (increment, bs) ← num 3 bs
  let (rate1, bs) ← num 3 bs
  let (rate2, bs) ← num 3 bs
  let (threshold, bs) ← num 2 bs
  some ({ increment := increment, rate1 := rate1, rate2 := rate2, threshold := threshold }, bs)

/-! ## Bodies -/

def noBody (bs : List Byte) : Option Unit := ends () bs

def number (w : Nat) (bs : List Byte) : Option Nat := do
  let (n, bs) ← num w bs
  ends n bs

def fix (bs : List Byte) : Option FixBody := do
  let (d, bs) ← num 3 bs
  let (q, bs) ← num 1 bs
  let q ← quality q
  ends { distance := d, quality := q } bs

def loadZones (bs : List Byte) : Option LoadZonesBody := do
  let (routeLength, bs) ← num 3 bs
  let (hysteresis, bs) ← num 2 bs
  let (fixTimeout, bs) ← num 1 bs
  let (holdTime, bs) ← num 2 bs
  let (retention, bs) ← num 1 bs
  let (n, bs) ← num 1 bs
  let (zones, bs) ← items zone n bs
  ends { routeLength := routeLength, hysteresis := hysteresis, fixTimeout := fixTimeout, holdTime := holdTime,
         retention := retention, zones := zones } bs

/-- A part of LOAD-PARTNERS (R183): part number, last-part flag, the records, and in part 0 the two settings, which have no
presence byte (DESIGN CHOICE, assumption 72). -/
def loadPartners (bs : List Byte) : Option (Bool × PartnersPart) := do
  let (part, bs) ← num 1 bs
  let (l, bs) ← num 1 bs
  let last ← flag l
  let (n, bs) ← num 1 bs
  let (records, bs) ← items partner n bs
  if part = 0 then do
    let (rate, bs) ← num 1 bs
    let (timer, bs) ← num 2 bs
    ends (last, { part := part, records := records, settings := some (rate, timer) }) bs
  else ends (last, { part := part, records := records, settings := none }) bs

def cellConfig (bs : List Byte) : Option CellConfig := do
  let (port, bs) ← num 1 bs
  let (limit, bs) ← num 2 bs
  let (time, bs) ← num 2 bs
  ends { port := port, limit := limit, portLostTime := time } bs

def shoreConfig (bs : List Byte) : Option ShoreConfig := do
  let (port, bs) ← num 1 bs
  let (t, bs) ← num 1 bs
  let t ← linkType t
  let (rank, bs) ← num 1 bs
  let (rtt, bs) ← optNum 2 bs
  let (hold, bs) ← num 2 bs
  let (reprobe, bs) ← num 2 bs
  let (e, bs) ← num 1 bs
  let e ← flag e
  ends { port := port, type := t, costRank := rank, rttLimit := rtt, holddown := hold, reprobe := reprobe, enabled := e } bs

def pin (bs : List Byte) : Option PinBody := do
  let (port, bs) ← optNum 1 bs
  let (settle, bs) ← num 1 bs
  let (ack, bs) ← num 2 bs
  let (guardTime, bs) ← num 2 bs
  let (grace, bs) ← num 2 bs
  ends { port := port, settleTime := settle, moveAckTimer := ack, guardTime := guardTime, grace := grace } bs

def tariff (bs : List Byte) : Option TariffLoad := do
  let (slot, bs) ← num 1 bs
  let (d, bs) ← num 1 bs
  let d ← flag d
  if d then do
    let (p, bs) ← plan bs
    ends { slot := slot, plan := some p } bs
  else if bs = List.replicate 11 0 then some { slot := slot, plan := none } else none

def billing (bs : List Byte) : Option BillingBody := do
  let (cap, bs) ← num 4 bs
  let (pct, bs) ← num 1 bs
  let (age, bs) ← num 2 bs
  let (n, bs) ← num 1 bs
  let (codes, bs) ← items codeItem n bs
  ends { defaultCap := cap, alertPercent := pct, maxAge := age, exemptList := codes } bs

def subscriberRef (bs : List Byte) : Option (SubscriberRef × List Byte) := do
  let (h, bs) ← num 2 bs
  let (t, bs) ← num 8 bs
  some ({ handle := h, token := BitVec.ofNat 64 t }, bs)

def evict (bs : List Byte) : Option SubscriberRef := do
  let (who, bs) ← subscriberRef bs
  ends who bs

def setCap (bs : List Byte) : Option CapBody := do
  let (who, bs) ← subscriberRef bs
  let (v, bs) ← num 4 bs
  ends { who := who, cap := v } bs

def setClass (bs : List Byte) : Option ClassBody := do
  let (who, bs) ← subscriberRef bs
  let (c, bs) ← num 1 bs
  let c ← subClass c
  ends { who := who, cls := c } bs

def delivery (bs : List Byte) : Option DeliveryBody := do
  let (c, bs) ← num 1 bs
  let c ← channel c
  let (t, bs) ← num 1 bs
  ends { channel := c, batchTimer := t } bs

/-- QUERY-SUBSCRIBER (R58, R59): a handle or none, then a token or none; both is no form of it. (DEDUCED, assumption 28.) -/
def subscriberQuery (bs : List Byte) : Option (Option SubscriberName) := do
  let (h, bs) ← optNum 2 bs
  let (t, bs) ← optNum 8 bs
  match h, t with
  | none, none => ends none bs
  | some h, none => ends (some (.byHandle h)) bs
  | none, some t => ends (some (.byToken (BitVec.ofNat 64 t))) bs
  | some _, some _ => none

/-! ## Requests (R174, R177) -/

/-- CONFIGURE-LINK: the port's kind, SHORE 0 or CELL 1, then its form (R23, R78). -/
def configureLink (tag : Byte) (bs : List Byte) : Instr :=
  match bs with
  | k :: rest =>
    if k = 1 then .configureLinkCell { tag := tag, body := cellConfig rest }
    else if k = 0 then .configureLinkShore { tag := tag, body := shoreConfig rest }
    else .configureLinkShore { tag := tag, body := none }
  | [] => .configureLinkShore { tag := tag, body := none }

/-- QUERY-LINK: the kind SHORE 0, CELL 1 or MANAGEMENT 2, and a number but for the last, with no presence byte (R23, R96,
R184; DESIGN CHOICE, assumption 72). -/
def queryLink (tag : Byte) (bs : List Byte) : Instr :=
  match bs with
  | k :: rest =>
    if k = 0 then .queryLinkShore { tag := tag, body := number 1 rest }
    else if k = 1 then .queryLinkCell { tag := tag, body := number 1 rest }
    else if k = 2 then .queryLinkManagement { tag := tag, body := noBody rest }
    else .queryLinkShore { tag := tag, body := none }
  | [] => .queryLinkShore { tag := tag, body := none }

/-- COMMIT-TARIFF: the mode NOW 0 or AT-DAY-ROLL 1 (R143). -/
def commitTariff (tag : Byte) (bs : List Byte) : Instr :=
  if bs = [1] then .commitTariffAtDayRoll { tag := tag, body := some () }
  else if bs = [0] then .commitTariffNow { tag := tag, body := some () }
  else .commitTariffNow { tag := tag, body := none }

/-- LOAD-PARTNERS as its part or its last part (R183). -/
def partners (tag : Byte) (bs : List Byte) : Instr :=
  match loadPartners bs with
  | some (true, p) => .loadPartnersLast { tag := tag, body := some p }
  | some (false, p) => .loadPartnersPart { tag := tag, body := some p }
  | none => .loadPartnersPart { tag := tag, body := none }

/-- QUERY-SUBSCRIBER as its single or its summary form. -/
def querySubscriber (tag : Byte) (bs : List Byte) : Instr :=
  match subscriberQuery bs with
  | some none => .querySubscriberSummary { tag := tag, body := some () }
  | some (some n) => .querySubscriberSingle { tag := tag, body := some n }
  | none => .querySubscriberSingle { tag := tag, body := none }

/-- The request that a good frame carries (R175, R177): its kind names it, its body is parsed, and a kind outside the
catalogue makes an unknown request. -/
def request (kind tag : Byte) (bs : List Byte) : Instr :=
  if kind = Kind.start then .start { tag := tag, body := noBody bs }
  else if kind = Kind.reset then .reset { tag := tag, body := noBody bs }
  else if kind = Kind.setTime then .setTime { tag := tag, body := number 4 bs }
  else if kind = Kind.fix then .fix { tag := tag, body := fix bs }
  else if kind = Kind.freezeZone then .freezeZone { tag := tag, body := noBody bs }
  else if kind = Kind.thawZone then .thawZone { tag := tag, body := noBody bs }
  else if kind = Kind.loadZones then .loadZones { tag := tag, body := loadZones bs }
  else if kind = Kind.loadPartners then partners tag bs
  else if kind = Kind.configureLink then configureLink tag bs
  else if kind = Kind.pinLink then .pinLink { tag := tag, body := pin bs }
  else if kind = Kind.loadTariffPlan then .loadTariffPlan { tag := tag, body := tariff bs }
  else if kind = Kind.commitTariff then commitTariff tag bs
  else if kind = Kind.dayRoll then .dayRoll { tag := tag, body := noBody bs }
  else if kind = Kind.setBilling then .setBilling { tag := tag, body := billing bs }
  else if kind = Kind.setCap then .setCap { tag := tag, body := setCap bs }
  else if kind = Kind.setClass then .setClass { tag := tag, body := setClass bs }
  else if kind = Kind.evict then .evict { tag := tag, body := evict bs }
  else if kind = Kind.queryZone then .queryZone { tag := tag, body := noBody bs }
  else if kind = Kind.queryLink then queryLink tag bs
  else if kind = Kind.querySubscriber then querySubscriber tag bs
  else if kind = Kind.queryStore then .queryStore { tag := tag, body := noBody bs }
  else if kind = Kind.setDelivery then .setDelivery { tag := tag, body := delivery bs }
  else if kind = Kind.exportRecords then .exportRecords { tag := tag, body := noBody bs }
  else if kind = Kind.confirmExport then .confirmExport { tag := tag, body := number 2 bs }
  else if kind = Kind.flushRecords then .flushRecords { tag := tag, body := noBody bs }
  else .unknownKindRequest kind tag

/-! ## The host's side of the same layouts -/

def zoneBytes (z : Zone) : List Byte :=
  le 3 z.start ++ le 1 z.rules.jurisdiction ++ le 1 z.rules.policy.code ++ le 1 z.rules.powerCap ++ bFlag z.rules.berth
    ++ le 1 z.rules.tariffClass ++ le 1 z.rules.prefs.length ++ z.rules.prefs.flatMap (le 1)
    ++ List.replicate (4 - z.rules.prefs.length) 0xFF ++ le 1 z.rules.linkOrder.length
    ++ z.rules.linkOrder.flatMap (fun t => le 1 t.code) ++ List.replicate (3 - z.rules.linkOrder.length) 0xFF

def partnerBytes (p : Partner) : List Byte :=
  le 1 p.index ++ p.code.bytes ++ le 2 p.mask.toNat ++ le 2 p.interval ++ le 2 p.markup ++ p.plans.flatMap (le 1)
    ++ bList 1 HomeCode.bytes p.codes

def partBytes (last : Bool) (b : PartnersPart) : List Byte :=
  le 1 b.part ++ bFlag last ++ bList 1 partnerBytes b.records ++ match b.settings with
    | some (rate, timer) => le 1 rate ++ le 2 timer
    | none => []

def refBytes (r : SubscriberRef) : List Byte := le 2 r.handle ++ tokenBytes r.token

def queryBytes : Option SubscriberName → List Byte
  | none => bOpt 2 none ++ bOpt 8 none
  | some (.byHandle h) => bOpt 2 (some h) ++ bOpt 8 none
  | some (.byToken t) => bOpt 2 none ++ bOpt 8 (some t.toNat)

/-- The kind, tag and body with which a host sends a request whose body is laid out; `none` for what is no request. -/
def encode : Instr → Option (Byte × Byte × List Byte)
  | .start r => r.body.map fun _ => (Kind.start, r.tag, [])
  | .reset r => r.body.map fun _ => (Kind.reset, r.tag, [])
  | .setTime r => r.body.map fun t => (Kind.setTime, r.tag, le 4 t)
  | .fix r => r.body.map fun b => (Kind.fix, r.tag, le 3 b.distance ++ le 1 b.quality.code)
  | .freezeZone r => r.body.map fun _ => (Kind.freezeZone, r.tag, [])
  | .thawZone r => r.body.map fun _ => (Kind.thawZone, r.tag, [])
  | .loadZones r => r.body.map fun b =>
      (Kind.loadZones, r.tag,
        le 3 b.routeLength ++ le 2 b.hysteresis ++ le 1 b.fixTimeout ++ le 2 b.holdTime ++ le 1 b.retention
          ++ bList 1 zoneBytes b.zones)
  | .loadPartnersPart r => r.body.map fun b => (Kind.loadPartners, r.tag, partBytes false b)
  | .loadPartnersLast r => r.body.map fun b => (Kind.loadPartners, r.tag, partBytes true b)
  | .configureLinkCell r => r.body.map fun b =>
      (Kind.configureLink, r.tag, 1 :: (le 1 b.port ++ le 2 b.limit ++ le 2 b.portLostTime))
  | .configureLinkShore r => r.body.map fun b =>
      (Kind.configureLink, r.tag,
        0 :: (le 1 b.port ++ le 1 b.type.code ++ le 1 b.costRank ++ bOpt 2 b.rttLimit ++ le 2 b.holddown ++ le 2 b.reprobe
          ++ bFlag b.enabled))
  | .pinLink r => r.body.map fun b =>
      (Kind.pinLink, r.tag, bOpt 1 b.port ++ le 1 b.settleTime ++ le 2 b.moveAckTimer ++ le 2 b.guardTime ++ le 2 b.grace)
  | .loadTariffPlan r => r.body.map fun b =>
      (Kind.loadTariffPlan, r.tag, slotPlanBytes b.slot b.plan)
  | .commitTariffNow r => r.body.map fun _ => (Kind.commitTariff, r.tag, [0])
  | .commitTariffAtDayRoll r => r.body.map fun _ => (Kind.commitTariff, r.tag, [1])
  | .dayRoll r => r.body.map fun _ => (Kind.dayRoll, r.tag, [])
  | .setBilling r => r.body.map fun b =>
      (Kind.setBilling, r.tag,
        le 4 b.defaultCap ++ le 1 b.alertPercent ++ le 2 b.maxAge ++ bList 1 HomeCode.bytes b.exemptList)
  | .setCap r => r.body.map fun b => (Kind.setCap, r.tag, refBytes b.who ++ le 4 b.cap)
  | .setClass r => r.body.map fun b => (Kind.setClass, r.tag, refBytes b.who ++ le 1 b.cls.code)
  | .evict r => r.body.map fun b => (Kind.evict, r.tag, refBytes b)
  | .queryZone r => r.body.map fun _ => (Kind.queryZone, r.tag, [])
  | .queryLinkCell r => r.body.map fun p => (Kind.queryLink, r.tag, 1 :: le 1 p)
  | .queryLinkShore r => r.body.map fun p => (Kind.queryLink, r.tag, 0 :: le 1 p)
  | .queryLinkManagement r => r.body.map fun _ => (Kind.queryLink, r.tag, [2])
  | .querySubscriberSingle r => r.body.map fun b => (Kind.querySubscriber, r.tag, queryBytes (some b))
  | .querySubscriberSummary r => r.body.map fun _ => (Kind.querySubscriber, r.tag, queryBytes none)
  | .queryStore r => r.body.map fun _ => (Kind.queryStore, r.tag, [])
  | .setDelivery r => r.body.map fun b => (Kind.setDelivery, r.tag, le 1 b.channel.code ++ le 1 b.batchTimer)
  | .exportRecords r => r.body.map fun _ => (Kind.exportRecords, r.tag, [])
  | .confirmExport r => r.body.map fun n => (Kind.confirmExport, r.tag, le 2 n)
  | .flushRecords r => r.body.map fun _ => (Kind.flushRecords, r.tag, [])
  | _ => none

end Sys2Proof.Decode

namespace Sys2Proof

/-- The command that a word spells by the table's bits: no row of spec/opcode_table.json gives bits, so none. -/
def decodeTableWord (_nbits _w : Nat) : Option Instr := none

end Sys2Proof
end

