-- ==== Sys2Proof/Machine/Ports.lean ====
section
/-! DEFINITION. The commands of the Cell Port Controller (R23, R25 to R40). -/

namespace Sys2Proof.Machine

/-- CONFIGURE-LINK naming a CELL port (R23). -/
def execConfigureLinkCell (r : Request CellConfig) (s : State) : Host.Outcome State Fault Refusal :=
  takeRequest (.configureLinkCell r) s <| checked Kind.configureLink r false (fun b => decide (b.port < 6)) fun b s =>
    if h : b.port < 6 then
      let limit := clampTo 0 2048 b.limit
      let time := clampTo 10 600 b.portLostTime
      (s.onPort ⟨b.port, h⟩ fun q => { q with limit := limit, portLostTime := time }).ok Kind.configureLink r.tag
        (isClamped 0 2048 b.limit || isClamped 10 600 b.portLostTime) (le 2 limit ++ le 2 time)
    else s.refuse Kind.configureLink r.tag .malformed

/-- A record other than HEAD-HELLO taken on port `p` (R25): discarded and counted on a DOWN port, discarded and counted as
malformed when its fields lie outside their sets, else handled. One that is both counts as discarded while DOWN alone
(DESIGN CHOICE, assumption 50). -/
def State.onRecord (p : Fin 6) (wellFormed : Bool) (handle : State → State) (s : State) : State :=
  if !(s.port p).listening then s.countPort p fun c => { c with discardedDown := bump32 c.discardedDown }
  else if !wellFormed then s.countPort p fun c => { c with malformed := bump32 c.malformed }
  else handle s

/-- HEAD-HELLO (R25, R26): the capacity is recorded and the port is sent the current order, from DOWN by way of READY; a
held port is sent HOLD again. A malformed one counts as malformed, on a DOWN port too (DESIGN CHOICE, assumption 50). -/
def execHeadHello (port : Fin 6) (capacity : Nat) (s : State) : Host.Outcome State Fault Refusal :=
  whenPowered s fun s =>
    if capacity = 0 || 1024 < capacity then s.countPort port fun c => { c with malformed := bump32 c.malformed }
    else
      let s := s.onPort port fun q => { q with
        headCapacity := capacity, state := if q.state = .down then .ready else q.state }
      let entered := (s.port port).state != .radiating && s.order.isSome && s.cpc.storeHold
      let again := (s.port port).hold && !entered
      let s := s.sendOrder port
      if again then s.sendHold port else s

/-- A DECLINE is sent and counted by its reason (R28, R29). -/
def State.decline (p : Fin 6) (token : Token) (reason : DeclineReason) (delay : Nat) (s : State) : State :=
  (s.toHead p (.decline token reason delay)).countPort p fun c =>
    { c with declines := bumpAt 4 c.declines reason.place }

/-- An attach ask's fields lie in their sets (R25). -/
def askWellFormed (code digits : Nat) : Bool :=
  (digits == 5 && decide (code ≤ 99999)) || (digits == 6 && decide (code ≤ 999999))

/-- ATTACH-ASK (R28): joins the port's pending asks, or is declined UNAVAILABLE when 32 are pending. -/
def execAttachAsk (port : Fin 6) (token : Token) (code digits : Nat) (s : State) : Host.Outcome State Fault Refusal :=
  whenPowered s <| State.onRecord port (askWellFormed code digits) fun s =>
    if (s.port port).asks.length < Limits.pendingAsks then
      s.onPort port fun q => { q with asks := q.asks ++ [{ token := token, home := { number := code, six := digits == 6 } }] }
    else s.decline port token .unavailable 0

/-- The port the arbiter serves next (R28): in ascending order from the one after the last served, the first with an ask. -/
def State.nextAsk (s : State) : Option (Fin 6) :=
  ((List.range 6).map fun i => s.cpc.lastServed + 1 + Fin.ofNat 6 i).find? fun p => !(s.port p).asks.isEmpty

/-- An ask is decided by the checks of R29. -/
def State.decideAsk (p : Fin 6) (a : Ask) (s : State) : State :=
  if !s.running || (s.port p).state != .radiating then s.decline p a.token .unavailable 0
  else match s.byToken? a.token with
    | some (h, e) => s.reAttach p h e
    | none =>
      if (s.port p).effectiveLimit ≤ s.portCount p then s.decline p a.token .portFull 0
      else if Limits.tableSize ≤ s.table.entries.length then s.decline p a.token .tableFull 0
      else if s.rsc.freeLevel < Limits.lowWatermark && !s.isExempt a.home then s.decline p a.token .retryLater 60
      else s.admitNew p a

/-- The arbiter takes the next pending ask in rotation and decides it (R28, R29). -/
def execDecideAttachAsk (s : State) : Host.Outcome State Fault Refusal :=
  whenPowered s fun s =>
    match s.nextAsk with
    | none => s
    | some p =>
      match (s.port p).asks with
      | [] => s
      | a :: rest =>
        let s := (s.onPort p fun q => { q with asks := rest }).onCpc fun c => { c with lastServed := p }
        s.decideAsk p a

/-- DEPART (R32): removes the entry on its own port with reason DETACH, else is counted as stale. -/
def execDepart (port : Fin 6) (token : Token) (s : State) : Host.Outcome State Fault Refusal :=
  whenPowered s <| State.onRecord port true fun s =>
    match s.byToken? token with
    | some (h, e) =>
      if e.port = port then s.removeEntry h .depart (some .detach)
      else s.countPort port fun c => { c with staleDeparts := bump32 c.staleDeparts }
    | none => s.countPort port fun c => { c with staleDeparts := bump32 c.staleDeparts }

/-- The handles of the entries on port `p`, ascending. -/
def State.onPortHandles (s : State) (p : Fin 6) : List Nat :=
  (s.table.entries.filter fun e => e.2.port == p).map (·.1)

/-- What a HEAD-RESYNC and a carrier loss do alike (R36, R37): the pending asks are dropped, the entries' bearers are
freed and the entries marked, the hold flag clears. -/
def State.portFails (p : Fin 6) (s : State) : State :=
  let n := (s.port p).asks.length
  let s := s.countPort p fun c => { c with asksDropped := (c.asksDropped + n) % 4294967296 }
  let s := s.onPort p fun q => { q with asks := [], hold := false }
  s.eachOf (s.onPortHandles p) State.markLost

/-- The entries of port `p` that a failure of the port would newly mark (R36, R39). -/
def State.newlyMarked (s : State) (p : Fin 6) : Nat :=
  s.table.entries.countP fun e => e.2.port == p && e.2.reg != .resting && e.2.portLost.isNone

/-- HEAD-RESYNC (R36, R39): the port fails, goes back through READY to the current order, and the notice is raised. -/
def execHeadResync (port : Fin 6) (s : State) : Host.Outcome State Fault Refusal :=
  whenPowered s <| State.onRecord port true fun s =>
    let marked := s.newlyMarked port
    let dropped := (s.port port).asks.length
    let s := s.portFails port
    let s := s.countPort port fun c => { c with resyncs := bump32 c.resyncs }
    let s := (s.onPort port fun q => { q with state := .ready }).sendOrder port
    s.raise (.headResync port (satAt 65535 marked) (satAt 65535 dropped) (s.port port).state s.mli.shipTime 1)

/-- A cell port loses its carrier (R27, R37, R39): it enters DOWN. A port already DOWN is unaffected. -/
def execCellCarrierLost (port : Fin 6) (s : State) : Host.Outcome State Fault Refusal :=
  whenPowered s fun s =>
    if !(s.port port).listening then s
    else
      let marked := s.newlyMarked port
      let dropped := (s.port port).asks.length
      let s := s.portFails port
      let s := s.countPort port fun c => { c with portLosses := bump32 c.portLosses }
      let s := s.onPort port fun q => { q with state := .down, headCapacity := 1024 }
      s.raise (.portLost port (satAt 65535 marked) (satAt 65535 dropped) s.mli.shipTime 1)

/-- The port-lost timer of entry `handle` expires (R38): it is removed with reason PORT-LOST. -/
def execPortLostExpiry (handle : Nat) (s : State) : Host.Outcome State Fault Refusal :=
  whenPowered s fun s =>
    match s.entry? handle with
    | none => s
    | some e =>
      match e.portLost with
      | none => s
      | some t => s.atExpiry t fun s =>
        let s := s.removeEntry handle .portLost (some .portLost)
        s.countPort e.port fun c => { c with portLostDepartures := bump32 c.portLostDepartures }

end Sys2Proof.Machine
end

