-- ==== Sys2Proof/Machine/Router.lean ====
section
/-! DEFINITION. The commands of the Bearer Router (R61 to R76). -/

namespace Sys2Proof.Machine

def State.countRouter (f : RouterTotals → RouterTotals) (s : State) : State :=
  s.onRouter fun r => { r with totals := f r.totals }

/-- The open bearer at an identity, with its entry's handle (R61): handle × 4 + slot names the place. -/
def State.bearerAt (s : State) (identity : Nat) : Option (Nat × Entry × Bearer) :=
  match s.entry? (identity / 4) with
  | none => none
  | some e => (e.bearers.find? fun b => b.slot == identity % 4).map fun b => (identity / 4, e, b)

/-- The bearer in slot `k` of entry `h` changes. -/
def State.onBearer (h k : Nat) (f : Bearer → Bearer) (s : State) : State :=
  s.onEntry h fun e => { e with bearers := onSlot k f e.bearers }

/-- The value of a BEARER-REFUSE when no entry holds the token (R62). -/
def noIdentity : Nat := 8191

/-- A bearer opened now (R62). -/
def newBearer (slot : Nat) (kind : BearerKind) (now : Nat) : Bearer :=
  { slot := slot, kind := kind, openedAt := now, upShore := .zero, upLocal := .zero, upPortal := .zero, upLost := .zero,
    fromShore := .zero, fromLocal := .zero }

/-- A bearer list with one more bearer, in ascending slot order. -/
def insertBearer (b : Bearer) : List Bearer → List Bearer
  | [] => [b]
  | c :: rest => if b.slot < c.slot then b :: c :: rest else c :: insertBearer b rest

/-- A BEARER-REFUSE is sent and counted by its reason (R62, R74). -/
def State.refuseBearer (p : Fin 6) (identity : Nat) (reason : BearerRefusal) (s : State) : State :=
  (s.toHead p (.bearerRefuse identity reason)).countRouter fun t => { t with
    refusals := bumpAt 2 t.refusals (match reason with | .unknownSubscriber => 0 | .slotBusy => 1) }

/-- BEARER-OPEN (R25, R62): opened and acknowledged, or refused. -/
def execBearerOpen (port : Fin 6) (token : Token) (slot : Nat) (kind : Option BearerKind) (s : State) :
    Host.Outcome State Fault Refusal :=
  whenPowered s <| State.onRecord port (decide (slot ≤ 3) && kind.isSome) fun s =>
    match s.byToken? token, kind with
    | none, _ => s.refuseBearer port noIdentity .unknownSubscriber
    | some _, none => s
    | some (h, e), some k =>
      let identity := h * 4 + slot
      if e.port != port || e.reg == .resting then s.refuseBearer port identity .unknownSubscriber
      else if e.bearers.any fun b => b.slot == slot then s.refuseBearer port identity .slotBusy
      else
        let now := s.now
        let s := s.onEntry h fun e => { e with bearers := insertBearer (newBearer slot k now) e.bearers }
        (s.toHead port (.bearerAck identity)).countRouter fun t => { t with opens := bump32 t.opens }

/-- BEARER-CLOSE (R63, R64): frees the bearer, or is counted as a stale close. -/
def execBearerClose (port : Fin 6) (identity : Nat) (s : State) : Host.Outcome State Fault Refusal :=
  whenPowered s <| State.onRecord port true fun s =>
    match s.bearerAt identity with
    | some (h, e, b) =>
      if e.port = port then
        (s.onEntry h fun e => { e with bearers := e.bearers.filter fun c => c.slot != b.slot }).countRouter
          fun t => { t with closes := bump32 t.closes }
      else s.countRouter fun t => { t with staleCloses := bump32 t.staleCloses }
    | none => s.countRouter fun t => { t with staleCloses := bump32 t.staleCloses }

/-- A record goes out on the local port, or is counted as a local-port discard while its carrier is absent (R67). -/
def State.sendOnboard (r : OnboardRecord) (len : Nat) (s : State) : State :=
  if s.router.localCarrier then s.emit (.toOnboard r)
  else s.countRouter fun t => { t with localPortDiscards := t.localPortDiscards.add len }

/-- A frame routed SHORE is sent on (R69): straight to the ACTIVE link and metered if charged (R70), when a link is
ACTIVE, no swap is in progress, the store is empty and the modem is ready; otherwise into the swap store. -/
def State.sendShore (h : Nat) (e : Entry) (identity : Nat) (payload : List Byte) (s : State) : State :=
  let len := payload.length
  let direct := match s.activeLink? with
    | some l => if !s.slm.swap.inProgress && s.sws.frames.isEmpty && (s.link l).free then some l else none
    | none => none
  match direct with
  | some l =>
    let s := s.countRouter fun t => { t with upDirect := t.upDirect.add len }
    let s := s.emit (.toShore l (.shoreUp identity e.token payload))
    if e.cls = SubClass.passenger then
      s.makeAddition { handle := h, attach := e.attach, dir := .uplink, bytes := len } else s
  | none =>
    (s.countRouter fun t => { t with upStored := t.upStored.add len }).storeFrame
      { identity := identity, handle := h, attach := e.attach, payload := payload }

/-- UP-FRAME (R25, R65, R66): routed on the bearer's kind and its entry's state at this moment. -/
def execUpFrame (port : Fin 6) (identity : Nat) (payload : List Byte) (s : State) : Host.Outcome State Fault Refusal :=
  let len := payload.length
  whenPowered s <| State.onRecord port (decide (1 ≤ len) && decide (len ≤ Limits.maxPayload)) fun s =>
    match s.bearerAt identity with
    | none => s.countRouter fun t => { t with upNotOpen := t.upNotOpen.add len }
    | some (h, e, b) =>
      if e.port != port then s.countRouter fun t => { t with upNotOpen := t.upNotOpen.add len }
      else match s.route b.kind e with
        | .shore =>
          (s.onBearer h b.slot fun b => { b with upShore := b.upShore.add len }).sendShore h e identity payload
        | .onboard =>
          ((s.onBearer h b.slot fun b => { b with upLocal := b.upLocal.add len }).countRouter
            fun t => { t with upLocal := t.upLocal.add len }).sendOnboard (.localUp identity h e.port payload) len
        | .portal reason =>
          ((s.onBearer h b.slot fun b => { b with upPortal := b.upPortal.add len }).countRouter
            fun t => { t with upPortal := addAt 6 len t.upPortal reason.place }).sendOnboard
              (.portalUp identity h e.token e.home reason payload) len
        | .isolated =>
          (s.onBearer h b.slot fun b => { b with upLost := b.upLost.add len }).countRouter
            fun t => { t with upIsolated := t.upIsolated.add len }

/-- LOCAL-DOWN (R68): delivered to the head as a DOWN-FRAME, or discarded. -/
def execLocalDown (identity : Nat) (payload : List Byte) (s : State) : Host.Outcome State Fault Refusal :=
  let len := payload.length
  whenPowered s fun s =>
    match s.bearerAt identity with
    | none => s.countRouter fun t => { t with localDiscards := t.localDiscards.add len }
    | some (h, e, b) =>
      if (s.port e.port).listening && decide (1 ≤ len) && decide (len ≤ Limits.maxPayload) then
        ((s.onBearer h b.slot fun b => { b with fromLocal := b.fromLocal.add len }).countRouter
          fun t => { t with localDelivered := t.localDelivered.add len }).toHead e.port (.downFrame identity payload)
      else s.countRouter fun t => { t with localDiscards := t.localDiscards.add len }

/-- The local port's carrier goes absent or returns (R67). -/
def execLocalCarrierChange (present : Bool) (s : State) : Host.Outcome State Fault Refusal :=
  done (s.onRouter fun r => { r with localCarrier := present })

/-- A record from shore arriving on a link that does not take it is discarded and counted as out-of-state (R80, R100). -/
def State.onShoreRecord (l : Fin 4) (handle : State → State) (s : State) : State :=
  if s.takes l then handle s else s.countLink l fun c => { c with outOfState := bump32 c.outOfState }

/-- The place of a not-entitled downlink's cause: rows 3 to 9 of R66 (R71, R74). -/
def downCause (e : Entry) : Fin 7 :=
  match e.portalReason? with
  | some r => r.place.castSucc
  | none => 6

/-- SHORE-DOWN (R71, R72): delivered and metered, or discarded by its row. A payload outside 1 to 1,536 bytes makes no
SHORE-DOWN and is discarded (DEDUCED, assumption 16). -/
def execShoreDown (link : Fin 4) (identity : Nat) (token : Token) (payload : List Byte) (s : State) :
    Host.Outcome State Fault Refusal :=
  let len := payload.length
  whenPowered s <| State.onShoreRecord link fun s =>
    if len = 0 || Limits.maxPayload < len then s
    else match s.bearerAt identity with
      | none => s.countRouter fun t => { t with downNotOpen := t.downNotOpen.add len }
      | some (h, e, b) =>
        if e.token != token then s.countRouter fun t => { t with downStaleBearer := t.downStaleBearer.add len }
        else if b.kind == .onboard then s.countRouter fun t => { t with downWrongKind := t.downWrongKind.add len }
        else if !s.entitled e then
          s.countRouter fun t => { t with downNotEntitled := addAt 7 len t.downNotEntitled (downCause e) }
        else
          let s := ((s.onBearer h b.slot fun b => { b with fromShore := b.fromShore.add len }).countRouter
            fun t => { t with downDelivered := t.downDelivered.add len }).toHead e.port (.downFrame identity payload)
          if e.cls = SubClass.passenger then
            s.makeAddition { handle := h, attach := e.attach, dir := .downlink, bytes := len } else s

end Sys2Proof.Machine
end

