-- ==== Sys2Proof/Machine/Rating.lean ====
section
/-! DEFINITION. The commands of the Rating Unit (R56, R142 to R153, R182). -/

namespace Sys2Proof.Machine

def State.countRtu (f : RatingCounters → RatingCounters) (s : State) : State :=
  s.onRtu fun u => { u with counters := f u.counters }

/-- The open, unfrozen periods of the table. -/
def State.openPeriods (s : State) : Nat := s.table.entries.countP fun p => p.2.period.isSome && !p.2.closing

/-- Every open, unfrozen period closes for one cause, in ascending handle order (R151). -/
def State.closeAll (reason : CloseReason) (s : State) : State := s.eachEntry (State.closePeriod reason)

/-- A period opens for every entry that qualifies (R144 step 4, R145 step 4). -/
def State.openAll (s : State) : State := s.eachEntry State.openPeriod

/-! ## Tariff banks -/

/-- LOAD-TARIFF-PLAN (R142). -/
def execLoadTariffPlan (r : Request TariffLoad) (s : State) : Host.Outcome State Fault Refusal :=
  takeRequest (.loadTariffPlan r) s <| checked Kind.loadTariffPlan r false (fun b => decide (b.slot < 64)) fun b s =>
    if s.rtu.armed then s.refuse Kind.loadTariffPlan r.tag .pendingArmed
    else
      let plan := b.plan.map clampPlan
      let s := s.onRtu fun u => { u with
        bank := match plan with
          | some t => putKey b.slot t u.bank
          | none => eraseKey b.slot u.bank }
      s.ok Kind.loadTariffPlan r.tag (b.plan.any planClamped) (slotPlanBytes b.slot plan)

/-- The pending bank becomes the active bank, and the pending bank all-undefined; the armed state clears (R144, steps 2
and 3). -/
def State.swapBanks (s : State) : State :=
  s.onRtu fun u => { u with
    active := u.bank, activeExists := true, bank := [], armed := false,
    counters := { u.counters with commitsApplied := bump32 u.counters.commitsApplied } }

/-- COMMIT-TARIFF with mode NOW (R143, R144). -/
def execCommitTariffNow (r : Request Unit) (s : State) : Host.Outcome State Fault Refusal :=
  takeRequest (.commitTariffNow r) s <| checked Kind.commitTariff r false always fun _ s =>
    if !s.bankPasses then s.refuse Kind.commitTariff r.tag .badTable
    else
      let closed := s.openPeriods
      let s := (s.closeAll .tariff).swapBanks.openAll
      s.ok Kind.commitTariff r.tag false (le 2 closed ++ le 2 s.openPeriods)

/-- COMMIT-TARIFF with mode AT-DAY-ROLL (R143). -/
def execCommitTariffAtDayRoll (r : Request Unit) (s : State) : Host.Outcome State Fault Refusal :=
  takeRequest (.commitTariffAtDayRoll r) s <| checked Kind.commitTariff r false always fun _ s =>
    if !s.bankPasses then s.refuse Kind.commitTariff r.tag .badTable
    else (s.onRtu fun u => { u with armed := true }).ok Kind.commitTariff r.tag false []

/-- The outcome of the armed commit at a DAY-ROLL (R145). -/
inductive CommitOutcome where
  | noneArmed | applied | refusedBadTable
  deriving DecidableEq, Repr

def CommitOutcome.code : CommitOutcome → Nat
  | .noneArmed => 0 | .applied => 1 | .refusedBadTable => 2

def State.commitOutcome (s : State) : CommitOutcome :=
  if !s.rtu.armed then .noneArmed else if s.bankPasses then .applied else .refusedBadTable

/-- DAY-ROLL, taken whole (R145). -/
def State.rollDay (s : State) : State :=
  let s := s.closeAll .day
  let s := s.onTable fun t => { t with entries := t.entries.map fun p => (p.1, { p.2 with dayCount := 0 }) }
  let s := match s.commitOutcome with
    | .noneArmed => s
    | .applied => s.swapBanks
    | .refusedBadTable => s.onRtu fun u => { u with
        armed := false, counters := { u.counters with commitsRefused := bump32 u.counters.commitsRefused } }
  s.openAll.countRtu fun c => { c with dayRolls := bump32 c.dayRolls }

/-- DAY-ROLL (R145). -/
def execDayRoll (r : Request Unit) (s : State) : Host.Outcome State Fault Refusal :=
  takeRequest (.dayRoll r) s <| checked Kind.dayRoll r false always fun _ s =>
    let closed := s.openPeriods
    let outcome := s.commitOutcome
    let s := s.rollDay
    s.ok Kind.dayRoll r.tag false (le 2 closed ++ le 2 s.openPeriods ++ le 1 outcome.code)

/-! ## Billing settings -/

def billingBytes (b : Billing) : List Byte :=
  le 4 b.defaultCap ++ le 1 b.alertPercent ++ le 2 b.maxAge ++ bList 1 HomeCode.bytes b.exemptList

/-- SET-BILLING (R182). A list refused as BAD-TABLE tells whether a number was clamped (DEDUCED, assumption 57). -/
def execSetBilling (r : Request BillingBody) (s : State) : Host.Outcome State Fault Refusal :=
  takeRequest (.setBilling r) s <| checked Kind.setBilling r false billingWellFormed fun b s =>
    let clamped := isClamped 0 Limits.max32 b.defaultCap || isClamped 50 100 b.alertPercent || isClamped 60 3600 b.maxAge
    if !noDup b.exemptList then s.refuseClamped Kind.setBilling r.tag clamped .badTable
    else
      let taken : Billing :=
        { defaultCap := clampTo 0 Limits.max32 b.defaultCap, alertPercent := clampTo 50 100 b.alertPercent,
          maxAge := clampTo 60 3600 b.maxAge, exemptList := b.exemptList }
      (s.onMli fun m => { m with billing := taken }).ok Kind.setBilling r.tag clamped (billingBytes taken)

/-! ## Caps and alerts -/

/-- The alert level of a cap (R148). -/
def State.alertLevel (s : State) (cap : Nat) : Nat := cap * s.mli.billing.alertPercent / 100

/-- BILL-ALERT is raised for entry `h` and its alert-sent flag set (R148, R150). -/
def State.billAlert (h : Nat) (s : State) : State :=
  match s.entry? h with
  | none => s
  | some e =>
    let s := (s.onEntry h fun e => { e with alertSent := true }).countRtu fun c => { c with alerts := bump32 c.alerts }
    s.raise (.billAlert h e.token e.cap (s.alertLevel e.cap) e.total s.mli.shipTime)

/-- The total of entry `h` stands at its cap (R148, R150): barred, its period closed with reason CAP, SUBSCRIBER-CAPPED,
SERVE-LEVEL LOCAL. (DEDUCED, assumption 24.) -/
def State.capReached (h : Nat) (clamped : Bool) (s : State) : State :=
  match s.entry? h with
  | none => s
  | some e =>
    let s := (s.onEntry h fun e => { e with barred := true }).closePeriod .cap h
    let s := s.countRtu fun c => { c with capsReached := bump32 c.capsReached }
    let s := s.raise (.subscriberCapped h e.token e.cap e.total clamped s.mli.shipTime)
    s.sendLevel h .onboardOnly

/-- A barred flag that stood has been cleared by SET-CAP (R150): SERVE-LEVEL FULL to an entitled subscriber, and a period. -/
def State.unbarred (h : Nat) (s : State) : State :=
  let s := match s.entry? h with
    | some e => if s.entitled e then s.sendLevel h .full else s
    | none => s
  s.openPeriod h

/-- SET-CAP's value `v` is taken for entry `h` (R150). -/
def State.takeCap (h v : Nat) (e : Entry) (s : State) : State :=
  if v = 0 then
    let s := s.onEntry h fun e => { e with cap := 0, barred := false, alertSent := false }
    if e.barred then s.unbarred h else s
  else if v ≤ e.total then
    if e.barred && e.cap == e.total then s
    else
      let s := s.onEntry h fun e => { e with cap := e.total }
      let s := if e.alertSent then s else s.billAlert h
      s.capReached h false
  else
    let s := s.onEntry h fun e => { e with cap := v, barred := false }
    let s := if e.total < s.alertLevel v then s.onEntry h fun e => { e with alertSent := false }
      else if e.alertSent then s else s.billAlert h
    if e.barred then s.unbarred h else s

/-- SET-CAP (R150). The reply says whether a period was closed and whether one was opened in a flag byte each (DESIGN
CHOICE, assumption 51). -/
def execSetCap (r : Request CapBody) (s : State) : Host.Outcome State Fault Refusal :=
  takeRequest (.setCap r) s <| checked Kind.setCap r false always fun b s =>
    match s.named? b.who.handle b.who.token with
    | none => s.refuse Kind.setCap r.tag .noSuchSubscriber
    | some e =>
      let h := b.who.handle
      let v := clampTo 0 Limits.max32 b.cap
      let before := s.hasUnfrozen h
      let s := s.takeCap h v e
      let after := s.hasUnfrozen h
      let cap := ((s.entry? h).map (·.cap)).getD 0
      let barred := ((s.entry? h).map (·.barred)).getD false
      s.ok Kind.setCap r.tag (cap != b.cap)
        (le 4 cap ++ le 4 e.total ++ bFlag barred ++ bFlag (before && !after) ++ bFlag (!before && after))

/-! ## Rating an addition (R147) -/

/-- An entry with its open period while an addition is rated, and the rating counters. -/
structure Account where
  entry    : Entry
  period   : Period
  counters : RatingCounters
  deriving DecidableEq, Repr

/-- One increment is charged (R147, step 3). (DEDUCED, assumption 25.) -/
def chargeIncrement (a : Account) : Account :=
  let e := a.entry
  let p := a.period
  let tier1 := decide (e.dayCount < p.threshold)
  let rate := if tier1 then p.rate1 else p.rate2
  let clamp := e.cap != 0 && decide (e.cap < e.total + rate)
  let charge := if clamp then e.cap - e.total else rate
  let total := if clamp then e.cap else satAt Limits.max32 (e.total + rate)
  let saturates := (!clamp && decide (Limits.max32 < e.total + rate)) || decide (Limits.max32 < p.charge + charge)
  { entry := { e with total := total, dayCount := satAt Limits.max16 (e.dayCount + 1) },
    period := { p with
      charge := satAt Limits.max32 (p.charge + charge), clamped := p.clamped || clamp,
      saturated := p.saturated || saturates, inc1 := if tier1 then p.inc1 + 1 else p.inc1,
      inc2 := if tier1 then p.inc2 else p.inc2 + 1 },
    counters := { a.counters with
      inc1 := if tier1 then bump32 a.counters.inc1 else a.counters.inc1,
      inc2 := if tier1 then a.counters.inc2 else bump32 a.counters.inc2,
      clamped := if clamp then bump32 a.counters.clamped else a.counters.clamped } }

/-- The account's total stands at a non-zero cap (R147, R148). -/
def Entry.atCap (e : Entry) : Bool := e.cap != 0 && e.total == e.cap

/-- Up to `n` increments are charged in turn, stopping at the cap (R147, step 3). -/
def chargeIncrements : Nat → Account → Account
  | 0, a => a
  | n + 1, a =>
    let a := chargeIncrement a
    if a.entry.atCap then a else chargeIncrements n a

/-- The period with `b` bytes added to its volume in one direction (R147, step 1). -/
def Period.addVolume (p : Period) (dir : Direction) (b : Nat) : Period :=
  match dir with
  | .uplink => { p with up := satAt Limits.maxVolume (p.up + b) }
  | .downlink => { p with down := satAt Limits.maxVolume (p.down + b) }

/-- The increments a period's volume has started (R147, step 2). -/
def Period.started (p : Period) : Nat := (p.up + p.down + p.increment - 1) / p.increment

/-- The increments started and not yet charged. -/
def Period.owed (p : Period) : Nat := p.started - (p.inc1 + p.inc2)

/-- Alert, cap and volume saturation after the charging of an addition (R147 steps 4 and 5, R148). -/
def State.afterCharging (h : Nat) (s : State) : State :=
  let s := match s.entry? h with
    | some e => if e.cap != 0 && !e.alertSent && decide (s.alertLevel e.cap ≤ e.total) then s.billAlert h else s
    | none => s
  let s := match s.entry? h with
    | some e => if e.atCap then s.capReached h ((e.period.map Period.clamped).getD false) else s
    | none => s
  match (s.entry? h).bind (·.period) with
  | some p =>
    if s.hasUnfrozen h && (p.up == Limits.maxVolume || p.down == Limits.maxVolume) then
      ((s.onEntry h fun e => { e with period := e.period.map fun (p : Period) => { p with saturated := true } }).closePeriod .age
        h).openPeriod h
    else s
  | none => s

/-- An addition is rated in entry `h`'s open, unfrozen period (R147). -/
def State.rate (h : Nat) (dir : Direction) (b : Nat) (e : Entry) (p : Period) (s : State) : State :=
  let p := p.addVolume dir b
  let a := chargeIncrements p.owed { entry := e, period := p, counters := s.rtu.counters }
  let s := s.onEntry h fun _ => { a.entry with period := some a.period }
  let s := s.countRtu fun _ => match dir with
    | .uplink => { a.counters with ratedUp := bump32 a.counters.ratedUp }
    | .downlink => { a.counters with ratedDown := bump32 a.counters.ratedDown }
  s.afterCharging h

/-- A metered addition reaches the Rating Unit (R56, R73, R147, R149): dropped at the table when it names no live entry,
unrated without an unfrozen period, rated otherwise. It leaves the additions on their way. (DESIGN CHOICE, assumption 33.) -/
def execMeteredAddition (handle attach : Nat) (dir : Direction) (bytes : Nat) (s : State) :
    Host.Outcome State Fault Refusal :=
  whenPowered s fun s =>
    let s := s.onRouter fun r => { r with
      additions := r.additions.erase { handle := handle, attach := attach, dir := dir, bytes := bytes } }
    match s.life? handle attach with
    | none => s.onTable fun t => { t with
        counters := { t.counters with droppedInFlight := bump32 t.counters.droppedInFlight } }
    | some e =>
      match e.period with
      | none => s.countRtu fun c => { c with unratedNone := bump32 c.unratedNone }
      | some p =>
        if e.closing then s.countRtu fun c => { c with unratedFrozen := bump32 c.unratedFrozen }
        else s.rate handle dir bytes e p

/-- An open, unfrozen period reaches its age expiry (R153): it closes with reason AGE and a period opens. A period whose
own expiry has not come has replaced the one whose timer expired, and stays (assumption 5). -/
def execAgeExpiry (handle : Nat) (s : State) : Host.Outcome State Fault Refusal :=
  whenPowered s fun s =>
    match s.entry? handle with
    | none => s
    | some e =>
      match e.period with
      | none => s
      | some p => if e.closing then s else s.atExpiry p.ageExpiry fun s => (s.closePeriod .age handle).openPeriod handle

end Sys2Proof.Machine
end

