-- ==== Sys2Proof/Machine/Records.lean ====
section
/-! DEFINITION. The commands of the Record Store Controller (R158 to R170). -/

namespace Sys2Proof.Machine

def State.countRsc (f : RecordCounters → RecordCounters) (s : State) : State :=
  s.onRsc fun r => { r with counters := f r.counters }

/-! ## The end of a RESET's flush, and the next operation (R159, R170, R180) -/

/-- The records still in the close queue and the wait list (R170). -/
def State.stillWaiting (s : State) : Nat := s.rtu.closeQueue.length + s.rtu.waitList.length

/-- A RESET whose flush has just STALLED discards the closures that wait and raises CLOSURE-LOST for them, before it waits
for the memory operation in flight (R170; R180, step 2). Their entries keep the closing flag and the frozen period (DESIGN
CHOICE, assumption 77). -/
def State.endFlush (s : State) : State :=
  match s.mli.work with
  | some (.resetting closed none) =>
    if s.writeStalled then
      ((s.closuresLost s.stillWaiting).onRtu fun u => { u with closeQueue := [], waitList := [] }).onMli fun m =>
        { m with work := some (.resetting closed (some s.stillWaiting)) }
    else s
  | _ => s

/-- What follows the end of an operation, and an acceptance (R159, R166, R180): the low watermark is checked, a stalled
RESET's closures are lost, and the arbiter chooses. -/
def State.nextOperation (s : State) : State := s.checkLow.endFlush.arbitrate

/-! ## Accepting and committing (R158, R161, R162) -/

/-- The write buffer takes the close queue's head now (R161). -/
def State.mayAccept (s : State) : Bool :=
  s.rsc.scanEnded && s.rsc.bufferOn && !s.rtu.closeQueue.isEmpty && decide (s.rsc.buffer.length < Limits.buffer)
    && decide (1 ≤ s.rsc.freeLevel) && !s.resetWaits

/-- The close queue's head enters the write buffer and is given its serial (R158, R161). -/
def execAcceptRecord (s : State) : Host.Outcome State Fault Refusal :=
  whenPowered s fun s =>
    if !s.mayAccept then s
    else match s.rtu.closeQueue with
      | [] => s
      | c :: rest =>
        let fresh := c.serial.isNone
        let c := { c with serial := some (c.serial.getD s.rsc.nextSerial) }
        let s := s.onRtu fun u => { u with closeQueue := rest }
        let s := s.onRsc fun r => { r with
          buffer := r.buffer ++ [c],
          nextSerial := if fresh then bump32 r.nextSerial else r.nextSerial,
          counters := if fresh then { r.counters with accepted := bump32 r.counters.accepted } else r.counters }
        s.feedQueue.nextOperation

/-- The record of job `j` is committed (R161, R162): it leaves the buffer or the close queue and joins the tail of the ring. -/
def State.commitRecord (j : WriteJob) (s : State) : State :=
  let s := s.onRsc fun r => { r with
    op := none, job := none, ring := r.ring ++ [{ serial := j.record.serial.getD 0, slot := j.slot, inFlight := false }],
    buffer := if j.direct then r.buffer else r.buffer.tail,
    counters := { r.counters with committed := bump32 r.counters.committed } }
  let s := if j.direct then (s.onRtu fun u => { u with closeQueue := u.closeQueue.tail }).feedQueue else s
  s.nextOperation

/-! ## Slot failures (R162 to R164) -/

/-- A slot joins the dead set (R160), which holds it once. -/
def joinDead (slot : Nat) (l : List Nat) : List Nat := if l.contains slot then l else l ++ [slot]

/-- A slot joins the candidate list (R164). -/
def joinCandidates (slot : Nat) (l : List Nat) : List Nat :=
  if l.contains slot then l else if l.length < Limits.candidates then l ++ [slot] else l.tail ++ [slot]

/-- The write buffer becomes disabled (R162): its records return to the head of the close queue, the write in progress
goes on as a direct write, and STORE-FAULT WRITE-BUFFER-OFF is raised. -/
def State.disableBuffer (s : State) : State :=
  let returned := s.rsc.buffer
  let s := s.onRtu fun u => { u with closeQueue := returned ++ u.closeQueue }
  let s := s.onRsc fun r => { r with
    buffer := [], bufferOn := false, job := r.job.map fun j => { j with direct := true } }
  (s.storeFault .writeBufferOff none).checkLow

/-- The lowest spare slot that no remap has used (R163; DESIGN CHOICE, assumption 11). -/
def Rsc.nextSpare (r : Rsc) : Nat := ((List.range Limits.spares).find? fun k => !r.usedSpares.contains k).getD 0

/-- A write to `slot` has failed (R163): the slot is remapped while a spare is left, and killed otherwise; either change
is written to the map area as a continuation (DEDUCED, assumption 41). A killed slot leaves the candidate list, as a
remapped one does (DEDUCED, assumption 62). -/
def State.writeFailed (slot : Nat) (s : State) : State :=
  let s := s.countRsc fun c => { c with writeFailures := bump32 c.writeFailures }
  let s := s.onRsc fun r => { r with candidates := r.candidates.filter fun k => k != slot }
  if 1 ≤ s.rsc.sparePool then
    let spare := s.rsc.nextSpare
    let s := s.onRsc fun r => { r with
      remaps := putKey slot spare r.remaps, usedSpares := r.usedSpares ++ [spare],
      op := some (.mapWrite (.remap slot spare) false),
      counters := { r.counters with remaps := bump32 r.counters.remaps } }
    if s.rsc.sparePool = Limits.bufferPool then s.disableBuffer else s
  else
    let s := s.onRsc fun r => { r with
      dead := joinDead slot r.dead, op := some (.mapWrite (.kill slot) false),
      counters := { r.counters with killed := bump32 r.counters.killed } }
    (s.storeFault .slotDead (some slot)).checkLow

/-- A slot write ends (R161 to R164). On success the slot holds the record, which is committed, or first read back when
its slot is a candidate; on failure the slot's contents are free values (DESIGN CHOICE, assumption 3). -/
def execWriteSlotDone (ok : Bool) (s : State) : Host.Outcome State Fault Refusal :=
  whenPowered s fun s =>
    match s.rsc.op, s.rsc.job with
    | some (.write slot), some j =>
      if ok then
        let s := s.onRsc fun r => { r with
          memory := writeBytes (slotAddress r.remaps slot) j.record.bytes r.memory }
        if s.rsc.candidates.contains slot then s.onRsc fun r => { r with op := some (.verify slot) }
        else s.commitRecord j
      else (s.scrambleSlot slot).writeFailed slot
    | _, _ => s

/-- The record goes on after its map area write (R163): rewritten to the remapped slot, or written to the slot the
allocation pointer gives after a kill, or waiting for a free slot when there is none. -/
def State.rewrite (change : MapChange) (s : State) : State :=
  match change with
  | .remap slot _ => s.onRsc fun r => { r with op := some (.write slot) }
  | .kill _ =>
    match s.rsc.nextFree with
    | some slot => s.onRsc fun r => { r with
        op := some (.write slot), job := r.job.map fun j => { j with slot := slot }, lastGiven := slot }
    | none => (s.onRsc fun r => { r with op := none, job := none }).nextOperation

/-- The map area holds a change (R159, R163) beside what it held, entries the controller could not read included (DESIGN
CHOICE, assumption 80). -/
def MapArea.put (m : MapArea) : MapChange → MapArea
  | .remap slot spare => { m with remaps := putKey slot spare m.remaps }
  | .kill slot => { m with dead := joinDead slot m.dead }

/-- The slot a map area write concerns. -/
def MapChange.slot : MapChange → Nat
  | .remap slot _ => slot
  | .kill slot => slot

/-- A map area write ends (R163): repeated once on failure; after a second failure STORE-FAULT MAP-WRITE, and the record's
write goes on. After MAP-UNREADABLE the change joins the entries that could not be read (DESIGN CHOICE, assumption 80). -/
def execMapWriteDone (ok : Bool) (s : State) : Host.Outcome State Fault Refusal :=
  whenPowered s fun s =>
    match s.rsc.op with
    | some (.mapWrite change repeated) =>
      if ok then (s.onRsc fun r => { r with mapArea := r.mapArea.put change }).rewrite change
      else
        let s := s.countRsc fun c => { c with mapFailures := bump32 c.mapFailures }
        if repeated then (s.storeFault .mapWrite (some change.slot)).rewrite change
        else s.onRsc fun r => { r with op := some (.mapWrite change true) }
    | _ => s

/-- The read-back of a candidate slot ends (R164): the record is committed and the slot leaves the list, or the write has
failed. (DEDUCED, assumption 40.) -/
def execVerifyReadDone (ok : Bool) (s : State) : Host.Outcome State Fault Refusal :=
  whenPowered s fun s =>
    match s.rsc.op, s.rsc.job with
    | some (.verify slot), some j =>
      if ok && s.rsc.readable slot then
        (s.onRsc fun r => { r with
          candidates := r.candidates.filter fun k => k != slot,
          counters := { r.counters with verifiesPassed := bump32 r.counters.verifiesPassed } }).commitRecord j
      else (s.countRsc fun c => { c with verifiesFailed := bump32 c.verifiesFailed }).writeFailed slot
    | _, _ => s

/-! ## Batches and exports (R165, R167 to R169) -/

/-- The tag of the request at the head of the input. -/
def requestTag : Instr → Byte
  | .reset r => r.tag
  | .exportRecords r => r.tag
  | .flushRecords r => r.tag
  | _ => 0

def State.headTag (s : State) : Byte := (s.mli.input.head?.map requestTag).getD 0

/-- The records read become the in-flight batch. -/
def putInFlight (serials : List Nat) (l : List RingPlace) : List RingPlace :=
  l.map fun p => if serials.contains p.serial then { p with inFlight := true } else p

/-- A settle batch's reads have ended (R167): with records read, the next batch number is taken and a SETTLE offered at
the ACTIVE link's port; with none, no batch is made. -/
def State.sendSettle (got : List (Nat × List Byte)) (s : State) : State :=
  let s := s.onRsc fun r => { r with build := none }
  match got, s.activeLink? with
  | [], _ => s
  | _, none => s
  | got, some l =>
    let number := bump16 s.rsc.batchNumber
    let expiry := s.now + s.rsc.batchTimer * 1000
    let s := s.onRsc fun r => { r with
      batchNumber := number, ring := putInFlight (got.map (·.1)) r.ring,
      batch := some { number := number, expiry := some expiry, link := some l },
      counters := { r.counters with batchesSent := bump32 r.counters.batchesSent } }
    s.offer l (.plain (.settle number (got.map (·.2))))

/-- An export's reads have ended (R169): its reply carries the batch number, the count and the records. The number in a
reply of count 0 is a free value, for no batch is made (DESIGN CHOICE, assumption 18). (DEDUCED, assumption 38.) -/
def State.sendExport (again : Bool) (got : List (Nat × List Byte)) (s : State) : State :=
  let s := s.onRsc fun r => { r with
    build := none, counters := { r.counters with exportsDone := bump32 r.counters.exportsDone } }
  let tag := s.headTag
  if got.isEmpty && !again then
    let number := openBytes s.openCount 2
    ({ s with openCount := s.openCount + 2 }).ok Kind.exportRecords tag false (number ++ le 1 0)
  else
    let number := if again then s.rsc.batchNumber else bump16 s.rsc.batchNumber
    let s := if again then s else s.onRsc fun r => { r with
      batchNumber := number, ring := putInFlight (got.map (·.1)) r.ring,
      batch := some { number := number, expiry := none, link := none } }
    s.ok Kind.exportRecords tag false (le 2 number ++ le 1 got.length ++ got.flatMap (·.2))

/-- The build in progress ends when it has read 16 records or none is left to read (R167, R169). (DEDUCED, assumption 39.) -/
def State.finishBuild (s : State) : State :=
  match s.rsc.build with
  | none => s
  | some b =>
    if s.rsc.nextRead.isSome then s
    else match b.purpose with
      | .settle => s.sendSettle b.got
      | .hostCopy => s.sendExport b.again b.got

/-- A record that could not be read is dropped (R165). -/
def State.dropUnreadable (serial slot : Nat) (purpose : ReadFor) (s : State) : State :=
  let s := s.onRsc fun r => { r with
    candidates := joinCandidates slot r.candidates, ring := r.ring.filter fun p => p.serial != serial,
    clearList := r.clearList ++ [slot],
    counters := { r.counters with unreadable := bump32 r.counters.unreadable } }
  s.raise (.recordUnreadable serial slot purpose s.mli.shipTime 1)

/-- The record of a read joins the build that waits for it: also one begun for an abandoned build, when the new build's
next record is the same (DESIGN CHOICE, assumption 63). -/
def State.addRead (serial slot : Nat) (s : State) : State :=
  if s.rsc.nextRead.map (·.serial) = some serial then
    s.onRsc fun r => { r with
      build := r.build.map fun b => { b with got := b.got ++ [(serial, holdsRecord :: (r.slotContents slot).tail)] } }
  else s

/-- A read for a batch or export ends (R165, R167, R169): the record is added, or dropped as unreadable, and a finished
build sends its SETTLE or its reply. A failed read whose build was abandoned drops its record all the same (DEDUCED,
assumption 19); one whose record has been confirmed meanwhile does nothing, its slot becoming no candidate (DESIGN CHOICE,
assumption 81). -/
def execReadSlotDone (ok : Bool) (s : State) : Host.Outcome State Fault Refusal :=
  whenPowered s fun s =>
    match s.rsc.op with
    | some (.read serial slot purpose) =>
      let s := s.onRsc fun r => { r with op := none }
      let s := if ok && s.rsc.readable slot then s.addRead serial slot
        else if s.rsc.ring.any fun p => p.serial == serial && p.slot == slot then s.dropUnreadable serial slot purpose
        else s
      s.finishBuild.nextOperation
    | _ => s

/-- A slot clear ends (R165): on success the header reads CLEARED; on failure the slot becomes a candidate. Either way it
leaves the clear list and is free. -/
def execClearSlotDone (ok : Bool) (s : State) : Host.Outcome State Fault Refusal :=
  whenPowered s fun s =>
    match s.rsc.op with
    | some (.clear slot) =>
      let s := if ok then
          s.onRsc fun r => { r with memory := writeByte (slotAddress r.remaps slot) cleared r.memory }
        else
          (s.scrambleState slot).onRsc fun r => { r with
            candidates := joinCandidates slot r.candidates,
            counters := { r.counters with clearFailures := bump32 r.counters.clearFailures } }
      (s.onRsc fun r => { r with op := none, clearList := r.clearList.erase slot }).nextOperation
    | _ => s

/-- The conditions for building a settle batch (R167). -/
def State.mayBuild (s : State) : Bool :=
  s.rsc.scanEnded && s.rsc.channel == .shore && s.running && s.mayCarry && s.rsc.batch.isNone && s.rsc.build.isNone
    && !s.rsc.undelivered.isEmpty

/-- The controller begins to read a settle batch (R167). -/
def execBuildSettleBatch (s : State) : Host.Outcome State Fault Refusal :=
  whenPowered s fun s =>
    if s.mayBuild then
      (s.onRsc fun r => { r with build := some { purpose := .settle, again := false, got := [] } }).arbitrate
    else s

/-- The batch in flight is confirmed (R168, R169): its records leave the ring and their slots join the clear list in
serial order. `host` tells a CONFIRM-EXPORT from a SETTLE-ACK for the counters. An export that was reading the batch again
is answered at once with what it has read (DESIGN CHOICE, assumption 64). -/
def State.confirmBatch (host : Bool) (s : State) : State :=
  (s.onRsc fun r => { r with
    batch := none, ring := r.undelivered, clearList := r.clearList ++ r.inBatch.map (·.slot),
    counters := { r.counters with
      batchesConfirmed := if host then r.counters.batchesConfirmed else bump32 r.counters.batchesConfirmed,
      confirmations := if host then bump32 r.counters.confirmations else r.counters.confirmations,
      confirmed := (r.counters.confirmed + r.inBatch.length) % 4294967296 } }).finishBuild.arbitrate

/-- Whether `number` names the batch in flight (R168, R169; DEDUCED, assumption 20). -/
def State.namesBatch (s : State) (number : Nat) : Bool :=
  match s.rsc.batch with
  | some b => b.number == number
  | none => false

/-- SETTLE-ACK (R80, R168): confirms the batch in flight it names, or is counted as stale. -/
def execSettleAck (link : Fin 4) (batch : Nat) (s : State) : Host.Outcome State Fault Refusal :=
  whenPowered s <| State.onShoreRecord link fun s =>
    if s.namesBatch batch then s.confirmBatch false
    else s.countRsc fun c => { c with staleAcks := bump32 c.staleAcks }

/-- The batch timer expires (R168): the batch returns to the head of the ring. -/
def execBatchTimerExpiry (s : State) : Host.Outcome State Fault Refusal :=
  whenPowered s fun s =>
    match s.rsc.batch.bind (·.expiry) with
    | none => s
    | some t => s.atExpiry t fun s => s.returnBatch .timer

/-- SET-DELIVERY (R167, R168): the channel and batch timer; a change of channel returns a batch in flight. -/
def execSetDelivery (r : Request DeliveryBody) (s : State) : Host.Outcome State Fault Refusal :=
  takeRequest (.setDelivery r) s <| checked Kind.setDelivery r false always fun b s =>
    let timer := clampTo 2 60 b.batchTimer
    let s := if s.rsc.channel = b.channel then s else s.returnBatch .channel
    (s.onRsc fun r => { r with channel := b.channel, batchTimer := timer }).ok Kind.setDelivery r.tag
      (isClamped 2 60 b.batchTimer) (le 1 b.channel.code ++ le 1 timer)

/-- EXPORT-RECORDS (R169): refused on SHORE; otherwise the reads begin, and the reply is sent when they end. -/
def execExportRecords (r : Request Unit) (s : State) : Host.Outcome State Fault Refusal :=
  takeRequest (.exportRecords r) s <| checked Kind.exportRecords r false always fun _ s =>
    if s.rsc.channel = .shore then s.refuse Kind.exportRecords r.tag .wrongState
    else
      let s := s.onMli fun m => { m with work := some .exporting }
      let s := s.onRsc fun r => { r with
        build := some { purpose := .hostCopy, again := r.batch.isSome, got := [] } }
      s.finishBuild.arbitrate

/-- CONFIRM-EXPORT (R169). -/
def execConfirmExport (r : Request Nat) (s : State) : Host.Outcome State Fault Refusal :=
  takeRequest (.confirmExport r) s <| checked Kind.confirmExport r false always fun b s =>
    if s.namesBatch b then
      let n := s.rsc.inBatch.length
      (s.confirmBatch true).ok Kind.confirmExport r.tag false (le 1 n)
    else s.refuse Kind.confirmExport r.tag .wrongState

/-! ## Flushing (R170) -/

/-- FLUSH-RECORDS (R170, R176): holds the head of the input until FLUSH_RECORDS_DONE. -/
def execFlushRecords (r : Request Unit) (s : State) : Host.Outcome State Fault Refusal :=
  takeRequest (.flushRecords r) s <| checked Kind.flushRecords r false always fun _ s =>
    s.onMli fun m => { m with work := some .flushing }

/-- A FLUSH-RECORDS may be answered now (R170). -/
def State.flushMayEnd (s : State) : Bool := s.mli.work == some .flushing && s.flushEnded

/-- The flush reply is made ready, with outcome EMPTY, or STALLED and the records still waiting, a count that is absent
with EMPTY and has its presence byte there (R170, R185; DESIGN CHOICE, assumption 72). -/
def execFlushRecordsDone (s : State) : Host.Outcome State Fault Refusal :=
  whenPowered s fun s =>
    if s.flushMayEnd then
      s.ok Kind.flushRecords s.headTag false (if s.flushEmpty then le 1 0 ++ bOpt 2 none else le 1 1 ++ bOpt 2 (some s.stillWaiting))
    else s

end Sys2Proof.Machine
end

