-- ==== Sys2Proof/Machine/Management.lean ====
section
/-! DEFINITION. The commands of the Management Link Interface (R174 to R181): START, RESET, time, the receiver and the
transmitter. -/

namespace Sys2Proof.Machine

/-! ## START and RESET (R179, R180) -/

/-- What START misses (R179): bit 0 no zones, bit 1 no partners, bit 2 no active bank. -/
def State.missing (s : State) : Nat :=
  (if s.tracker.zones.isEmpty then 1 else 0) + (if s.rge.partners.isEmpty then 2 else 0)
    + (if s.rtu.activeExists then 0 else 4)

/-- The tracker's START values (R20). -/
def Tracker.started (now : Nat) (t : Tracker) : Tracker :=
  { t with verdict := none, frozen := false, holdExpiry := none, fixExpiry := some (now + t.fixTimeout * 1000) }

/-- The device becomes RUNNING (R179): tracker, selection, and isolation when no link is ACTIVE. -/
def State.startDevice (s : State) : State :=
  let s := s.onMli fun m => { m with device := .running }
  let s := (s.onTracker (Tracker.started s.now)).workOut
  if s.activeLink?.isNone then s.beginIsolation none .start else s

/-- START (R20, R179). (DEDUCED, assumption 22.) -/
def execStart (r : Request Unit) (s : State) : Host.Outcome State Fault Refusal :=
  takeRequest (.start r) s <| checked Kind.start r false always fun _ s =>
    if s.running then s.refuse Kind.start r.tag .wrongState
    else if s.missing != 0 then s.complete Kind.start r.tag (some .wrongState) false (le 1 s.missing)
    else
      let s := s.startDevice
      s.ok Kind.start r.tag false
        (le 1 s.tracker.zones.length ++ le 1 s.rge.partners.length
          ++ le 1 (allLinks.countP fun l => (s.link l).state == .ready))

/-- RESET, steps 1 and 2 (R157, R180): every open, unfrozen period closes with reason RESET, none opens from then on, and
the flush holds the head of the input. A flush that stalls at once ends here. -/
def execReset (r : Request Unit) (s : State) : Host.Outcome State Fault Refusal :=
  takeRequest (.reset r) s <| checked Kind.reset r false always fun _ s =>
    let closed := s.openPeriods
    ((s.onMli fun m => { m with work := some (.resetting closed none) }).closeAll .reset).endFlush

/-- The RESET in progress, with the periods it closed and the closures its flush lost, whose flush and memory operation have
ended (R180, step 3). -/
def State.resetMayEnd (s : State) : Option (Nat × Option Nat) :=
  match s.mli.work with
  | some (.resetting closed lost) => if (lost.isSome || s.flushEmpty) && s.rsc.op.isNone then some (closed, lost) else none
  | _ => none

/-- The four links after a reset, each with the carrier and readiness its modem reports (R97). -/
def Slm.resetLinks (m : Slm) : Vector Link 4 :=
  #v[Link.initial m.links[0].carrier m.links[0].modemReady, Link.initial m.links[1].carrier m.links[1].modemReady,
     Link.initial m.links[2].carrier m.links[2].modemReady, Link.initial m.links[3].carrier m.links[3].modemReady]

/-- The record store after a RESET (R173): its view of the memory kept, a batch in flight returned. -/
def Rsc.afterReset (r : Rsc) : Rsc :=
  { r with
    ring := r.ring.map fun p => { p with inFlight := false }, buffer := [], job := none, op := none, lastWasWrite := false,
    build := none, batch := none, channel := .shore, batchTimer := 10, counters := RecordCounters.zero }

/-- The interface after a RESET (R184): the requests in the input and the replies made ready stay; the notices go. -/
def Mli.afterReset (m : Mli) : Mli :=
  { Mli.initial m.hostCts with input := m.input, tx := m.tx.filter fun i => !i.isNotice }

/-- Every block takes its reset values (R21, R42, R60, R76, R97, R117, R140, R157, R173, R180, R184). Additions still on
their way go with the table, uncounted (DESIGN CHOICE, assumption 52). -/
def State.afterReset (s : State) : State :=
  { s with
    tracker := Tracker.initial, cpc := Cpc.initial, table := Table.initial,
    router := Router.initial s.router.localCarrier, slm := Slm.initial s.slm.resetLinks, sws := SwapStore.initial,
    rge := Rge.initial, rtu := Rtu.initial, rsc := s.rsc.afterReset, mli := s.mli.afterReset }

/-- The part withholds or restores its carrier on every cell port (R41). -/
def State.cellCarriers (given : Bool) (s : State) : State := s.eachOf allPorts fun p s => s.emit (.cellCarrier p given)

/-- RESET, steps 3 to 5 (R41, R180): each listening port is sent QUIET, the carrier is withheld on every cell port, every
block takes its reset values, the reply is made ready, and the carriers are restored (DESIGN CHOICE, assumption 45). The
counters are zeroed first, and the reply then counts as the first OK one (DESIGN CHOICE, assumption 66). -/
def execResetComplete (s : State) : Host.Outcome State Fault Refusal :=
  whenPowered s fun s =>
    match s.resetMayEnd with
    | none => s
    | some (closed, lost) =>
      let s := (s.eachOf allPorts fun p s => s.toHead p .quiet).cellCarriers false
      let discarded := noticeCount s.mli.tx
      let tag := s.headTag
      (s.afterReset.ok Kind.reset tag false
        (le 1 (if lost.isSome then 1 else 0) ++ le 2 closed ++ le 2 (lost.getD 0) ++ le 1 discarded)).arbitrate.cellCarriers true

/-! ## Time (R181) -/

/-- SET-TIME (R181). -/
def execSetTime (r : Request Nat) (s : State) : Host.Outcome State Fault Refusal :=
  takeRequest (.setTime r) s <| checked Kind.setTime r false always fun t s =>
    let t := clampTo 0 Limits.max32 t
    (s.onMli fun m => { m with shipTime := t, shipPhase := 0 }).ok Kind.setTime r.tag false (le 4 t)

/-! ## The receiver and the request input (R175, R176) -/

/-- A request whose kind the catalogue lacks (R175, R177). -/
def execUnknownKindRequest (kind tag : Byte) (s : State) : Host.Outcome State Fault Refusal :=
  takeRequest (.unknownKindRequest kind tag) s fun s => s.refuse kind tag .unknownKind

def State.countMli (f : MliCounters → MliCounters) (s : State) : State :=
  s.onMli fun m => { m with counters := f m.counters }

/-- What the receiver makes of its bytes (R175). -/
inductive Heard where
  /-- Nothing, or an incomplete frame. -/
  | waiting
  /-- A byte that begins no frame; hunting goes on behind it. -/
  | noise
  /-- A start mark with an impossible length. -/
  | badLength
  /-- A frame whose CRC does not match. -/
  | badCrc
  /-- A good frame, with the bytes behind it. -/
  | frame (kind tag : Byte) (body rest : List Byte)
  deriving DecidableEq, Repr

/-- The receiver looks at its bytes, hunting at the first (R174, R175). -/
def hear : List Byte → Heard
  | [] => .waiting
  | b :: bs =>
    if b != 0x7E then .noise
    else if bs.length < 2 then .waiting
    else
      let len := ofLe (bs.take 2)
      if len < 2 || 1100 < len then .badLength
      else if bs.length < len + 4 then .waiting
      else if ofLe ((bs.drop (len + 2)).take 2) != crc16 (bs.take (len + 2)) then .badCrc
      else
        match bs.drop 2 with
        | kind :: tag :: body => .frame kind tag (body.take (len - 2)) (bs.drop (len + 4))
        | _ => .waiting

/-- The receiver works through its bytes; each round takes at least one, so `fuel` as large as their number suffices. -/
def State.receive : Nat → State → State
  | 0, s => s
  | fuel + 1, s =>
    match hear s.mli.rx with
    | .waiting => s
    | .noise => (s.onMli fun m => { m with rx := m.rx.tail }).receive fuel
    | .badLength =>
      ((s.onMli fun m => { m with rx := m.rx.tail }).countMli fun c => { c with badLengths := bump32 c.badLengths }).receive fuel
    | .badCrc =>
      ((s.onMli fun m => { m with rx := m.rx.tail }).countMli fun c => { c with crcErrors := bump32 c.crcErrors }).receive fuel
    | .frame kind tag body rest =>
      ((s.onMli fun m => { m with rx := rest }).joinInput (Decode.request kind tag body)).receive fuel

/-- Bytes arrive from the host (R175): good frames join the request input, or are overruns; bad ones are discarded; an
incomplete one waits with its gap timer started anew. -/
def execFrameReceived (bytes : List Byte) (s : State) : Host.Outcome State Fault Refusal :=
  whenPowered s fun s =>
    let s := s.onMli fun m => { m with rx := m.rx ++ bytes, gapLeft := if bytes.isEmpty then m.gapLeft else 50 }
    s.receive s.mli.rx.length

/-- The gap timer of an incomplete frame runs (R175): not while the part withholds its clear-to-send.
(DEDUCED, assumption 44.) -/
def State.gapRuns (s : State) : Bool := !s.mli.rx.isEmpty && decide (s.mli.input.length < Limits.input)

/-- The gap timer expires (R175): the partial frame is discarded and hunting resumes. Before the 50 ms have passed nothing
happens (assumption 5). -/
def execFrameGap (s : State) : Host.Outcome State Fault Refusal :=
  whenPowered s fun s =>
    if s.gapRuns && s.mli.gapLeft == 0 then
      (s.onMli fun m => { m with rx := [], gapLeft := 50 }).countMli fun c =>
        { c with gaps := bump32 c.gaps }
    else s

/-! ## The transmitter (R178) -/

/-- The host gives or withholds its clear-to-send (R178). -/
def execHostClearToSend (given : Bool) (s : State) : Host.Outcome State Fault Refusal :=
  done (s.onMli fun m => { m with hostCts := given })

/-- The transmitter begins to send the next frame made ready (R178), while the host gives its clear-to-send.
(DESIGN CHOICE, assumption 34.) -/
def execSendFrame (s : State) : Host.Outcome State Fault Refusal :=
  whenPowered s fun s =>
    match s.mli.hostCts, s.mli.tx with
    | true, item :: rest =>
      let s := s.onMli fun m => { m with
        tx := rest,
        counters := if item.isNotice then { m.counters with noticesSent := bump32 m.counters.noticesSent } else m.counters }
      s.emit (.toHost item.frame)
    | _, _ => s

end Sys2Proof.Machine
end

