-- ==== Sys2Proof/Machine/Power.lean ====
section
/-! DEFINITION. Power loss, power-on and the power-on scan of record memory (R171). -/

namespace Sys2Proof.Machine

/-! ## Power -/

/-- The record memory operation in flight is cut short (R171): what it leaves is a free value (DESIGN CHOICE, assumption 3).
Power lost before or during the verify read of a candidate slot leaves the written slot, which the next scan takes up
(DESIGN CHOICE, assumption 79). -/
def State.cutOperation (s : State) : State :=
  match s.rsc.op with
  | some (.write slot) => s.scrambleSlot slot
  | some (.clear slot) => s.scrambleState slot
  | some (.mapWrite change _) =>
    let s := if Config.openFlag s.openCount then s.onRsc fun r => { r with mapArea := r.mapArea.put change } else s
    { s with openCount := s.openCount + 1 }
  | some (.verify _) => s
  | some (.read _ _ _) => s
  | none => s

/-- Every block at its power-on values, over the record memory, carriers and modems as they are (R21, R42, R60, R76, R97,
R117, R140, R157, R171, R173, R184). -/
def State.atPowerOn (powered : Bool) (s : State) : State :=
  { s with
    powered := powered, tracker := Tracker.initial, cpc := Cpc.initial, table := Table.initial,
    router := Router.initial s.router.localCarrier, slm := Slm.initial s.slm.resetLinks, sws := SwapStore.initial,
    rge := Rge.initial, rtu := Rtu.initial, rsc := Rsc.atPowerOn s.rsc.memory s.rsc.mapArea, mli := Mli.initial s.mli.hostCts }

/-- Power is lost (R171): all but record memory goes. -/
def State.losePower (s : State) : State := s.cutOperation.atPowerOn false

def execPowerLoss (s : State) : Host.Outcome State Fault Refusal := whenPowered s State.losePower

/-- Power comes on (R171): every block takes its power-on values and the scan begins. On a powered part it is a power
cycle.
(DESIGN CHOICE, assumption 43.) -/
def execPowerOn (s : State) : Host.Outcome State Fault Refusal :=
  done ((if s.powered then s.losePower else s).atPowerOn true)

/-! ## The scan (R171) -/

/-- What the scan has found so far: the records by serial and slot, the slots to clear, the candidates, the duplicates
counted and every serial a header holds. -/
structure Scan where
  records    : List (Nat × Nat)
  clears     : List Nat
  candidates : List Nat
  duplicates : Nat
  serials    : List Nat
  deriving DecidableEq, Repr

/-- The header found in one slot (R171). -/
def Scan.take (f : Scan) (slot : Nat) : Header → Scan
  | .neverWritten => f
  | .cleared serial => { f with serials := serial :: f.serials }
  | .unreadable => { f with candidates := joinCandidates slot f.candidates }
  | .holds serial =>
    if f.records.any fun p => p.1 == serial then
      { f with clears := f.clears ++ [slot], duplicates := bump32 f.duplicates, serials := serial :: f.serials }
    else { f with records := f.records ++ [(serial, slot)], serials := serial :: f.serials }

/-- The header of a slot as the scan reads it: a read that the memory reports as failed is unreadable. -/
def Rsc.headerAt (r : Rsc) (unreadable : List Nat) (slot : Nat) : Header :=
  if unreadable.contains slot then .unreadable else headerOf (r.slotContents slot)

/-- The headers of every logical slot that is not dead, in ascending slot order (R171). -/
def Rsc.scan (r : Rsc) (unreadable : List Nat) : Scan :=
  (List.range Limits.slots).foldl
    (fun f slot => if r.dead.contains slot then f else f.take slot (r.headerAt unreadable slot))
    { records := [], clears := [], candidates := [], duplicates := 0, serials := [] }

/-- Half of the serial numbers. -/
def halfSerials : Nat := 2147483648

/-- The serials found lie on both sides of a wrap (R171). -/
def wrapped (serials : List Nat) : Bool :=
  (serials.any fun n => decide (halfSerials ≤ n)) && serials.any fun n => decide (n < halfSerials)

/-- A serial's place in the order: across a wrap the lower values follow the higher ones (R171). -/
def serialKey (wrap : Bool) (n : Nat) : Nat := if wrap && decide (n < halfSerials) then n + 4294967296 else n

/-- A ring place put in its order by serial. -/
def insertPlace (wrap : Bool) (p : RingPlace) : List RingPlace → List RingPlace
  | [] => [p]
  | q :: rest => if serialKey wrap p.serial ≤ serialKey wrap q.serial then p :: q :: rest else q :: insertPlace wrap p rest

/-- The delivery ring from the records found (R171). -/
def ringOf (wrap : Bool) (records : List (Nat × Nat)) : List RingPlace :=
  records.foldr (fun p ring => insertPlace wrap { serial := p.1, slot := p.2, inFlight := false } ring) []

/-- The next serial from the serials found (R171): the highest plus 1, or 0 when none was found. -/
def nextSerialOf (wrap : Bool) : List Nat → Nat
  | [] => 0
  | n :: rest => bump32 (rest.foldl (fun best k => if serialKey wrap best < serialKey wrap k then k else best) n)

/-- The map area as read, or every logical slot native and not dead with no spare left (R171). (DEDUCED, assumption 42.) -/
def Rsc.readMap (readable : Bool) (r : Rsc) : Rsc :=
  if readable then { r with remaps := r.mapArea.remaps, dead := r.mapArea.dead, usedSpares := r.mapArea.remaps.map (·.2) }
  else { r with remaps := [], dead := [], usedSpares := List.range Limits.spares }

/-- The controller takes up what the scan found (R171). -/
def Rsc.takeScan (f : Scan) (r : Rsc) : Rsc :=
  let wrap := wrapped f.serials
  let ring := ringOf wrap f.records
  { r with
    ring := ring, clearList := f.clears, candidates := f.candidates, nextSerial := nextSerialOf wrap f.serials,
    lastGiven := (ring.getLast?.map (·.slot)).getD 32767, bufferOn := decide (Limits.bufferPool < r.sparePool),
    lastWasWrite := false, scanEnded := true, counters := { r.counters with duplicates := f.duplicates } }

/-- The power-on scan ends (R161, R162, R166, R171): the map area was readable or not, and the reads of the slots
`unreadable` failed. -/
def execPowerOnScanEnd (mapReadable : Bool) (unreadable : List Nat) (s : State) : Host.Outcome State Fault Refusal :=
  whenPowered s fun s =>
    if s.rsc.scanEnded then s
    else
      let s := s.onRsc (Rsc.readMap mapReadable)
      let s := if mapReadable then s else s.storeFault .mapUnreadable none
      let s := s.onRsc fun r => r.takeScan (r.scan unreadable)
      let s := if s.rsc.bufferOn then s else s.storeFault .writeBufferOff none
      s.checkLow.arbitrate

end Sys2Proof.Machine
end

