-- ==== Sys2Proof/Machine/Queries.lean ====
section
/-! DEFINITION. The queries (R14, R23, R58, R59, R75, R96, R116, R138, R156, R173, R184): each replies with the fields its
rules list, in their order, laid out by R185 (DEDUCED, assumption 9), and changes nothing else. They are answered while
the scan runs. -/

namespace Sys2Proof.Machine

/-- The milliseconds left on a timer that may be running. -/
def State.left (s : State) (expiry : Option Nat) : Option Nat := expiry.map (· - s.now)

def bTally (t : Tally) : List Byte := le 4 t.frames ++ le 8 t.bytes

/-- Counters of 32 bits, in order. -/
def bCounters (l : List Nat) : List Byte := l.flatMap (le 4)

/-! ## QUERY-ZONE (R14) -/

/-- The copied fields of a verdict, each absent under NONE. -/
def bRules (r : Option ZoneRules) : List Byte :=
  bOpt 1 (r.map (·.policy.code)) ++ bOpt 1 (r.map (·.powerCap)) ++ bOpt 1 (r.map fun z => if z.berth then 1 else 0)
    ++ bOpt 1 (r.map (·.jurisdiction)) ++ bFlag r.isSome ++ bList 1 (le 1) ((r.map (·.prefs)).getD [])
    ++ bFlag r.isSome ++ bList 1 (fun t => le 1 (LinkType.code t)) ((r.map (·.linkOrder)).getD [])
    ++ bOpt 1 (r.map (·.tariffClass))

/-- The reply fields of QUERY-ZONE. R14 lists the route length and then the current coverage settings, of which R2 makes
it one: it goes once, before the zone count, and the other four settings follow (DESIGN CHOICE, assumption 49). The last
fix's quality and age have a presence byte each (DESIGN CHOICE, assumption 67). -/
def State.zoneReply (s : State) : List Byte :=
  let t := s.tracker
  bOpt 1 (t.verdict.map (·.index)) ++ bRules s.rules? ++ bFlag t.frozen ++ bFlag t.forcedFreeze
    ++ le 8 ((s.left t.holdExpiry).getD 0) ++ bOpt 1 (t.lastFix.map (·.1.code)) ++ bOpt 8 (t.lastFix.map fun f => s.now - f.2)
    ++ bOpt 3 t.lastPosition ++ le 3 t.routeLength ++ le 1 t.zones.length ++ le 2 t.hysteresis ++ le 1 t.fixTimeout
    ++ le 2 t.holdTime ++ le 1 t.retentionTime

def execQueryZone (r : Request Unit) (s : State) : Host.Outcome State Fault Refusal :=
  takeRequest (.queryZone r) s <| checked Kind.queryZone r true always fun _ s =>
    s.ok Kind.queryZone r.tag false s.zoneReply

/-! ## QUERY-LINK, CELL (R22, R23, R40) -/

def bPortCounters (c : PortCounters) : List Byte :=
  bCounters ([c.newAdmissions, c.reAttaches] ++ c.declines.toList
    ++ [c.asksDropped, c.staleDeparts, c.discardedDown, c.malformed, c.resyncs, c.portLosses, c.portLostDepartures])

/-- The reply fields of QUERY-LINK naming cell port `p`. -/
def State.cellReply (s : State) (p : Fin 6) : List Byte :=
  let q := s.port p
  le 1 q.state.code ++ le 2 q.headCapacity ++ le 2 q.limit ++ le 2 q.effectiveLimit ++ bFlag q.hold ++ le 2 (s.portCount p)
    ++ bList 1 (fun a : Ask => tokenBytes a.token ++ a.home.bytes) q.asks ++ le 2 q.portLostTime ++ bPortCounters q.counters

def execQueryLinkCell (r : Request Nat) (s : State) : Host.Outcome State Fault Refusal :=
  takeRequest (.queryLinkCell r) s <| checked Kind.queryLink r true (fun p => decide (p < 6)) fun p s =>
    s.ok Kind.queryLink r.tag false (s.cellReply (Fin.ofNat 6 p))

/-! ## QUERY-LINK, SHORE (R77, R96, R116) -/

def bProbe : Option Probe → List Byte
  | none => 0 :: List.replicate 12 0
  | some p => 1 :: le 1 (if p.long then 0 else 1) ++ le 1 p.sent ++ le 1 p.answered ++ le 1 p.timedOut ++ le 8 p.rttSum

def bLinkCounters (c : LinkCounters) : List Byte :=
  bCounters [c.probeSent, c.probeAnswered, c.probeTimedOut, c.keepSent, c.keepUnanswered, c.late, c.stale, c.longPassed,
    c.longFailed, c.shortPassed, c.shortFailed, c.abandoned, c.keepaliveFailures, c.carrierLosses, c.outOfState]

/-- A link record with the time left on its timers and its counters (R77, R96). The carrier goes as a flag, 1 for present
(DESIGN CHOICE, assumption 68). -/
def State.linkReply (s : State) (k : Link) : List Byte :=
  bOpt 1 (k.type.map LinkType.code) ++ bFlag k.enabled ++ le 1 k.costRank ++ bOpt 2 k.rttLimit ++ le 2 k.holddownTime
    ++ le 2 k.reprobeTime ++ le 1 k.state.code ++ bFlag k.carrier ++ bFlag k.longOwed ++ bProbe k.probe
    ++ bProbeResult k.lastProbe ++ le 1 k.misses ++ le 2 k.echoSeq ++ bOpt 8 k.holddownAt ++ bOpt 8 k.reprobeAt
    ++ bOpt 8 k.nextEcho ++ bOpt 8 (s.left k.holddownAt) ++ bOpt 8 (s.left k.reprobeAt) ++ bOpt 8 (s.left k.nextEcho)
    ++ bLinkCounters k.counters

/-- The device-wide selection state (R96). The desired link is the first of the ranking of R92 as it stands, while
UNCONFIGURED too (DESIGN CHOICE, assumption 53). The settle record's fields have a presence byte each (DESIGN CHOICE,
assumption 67). -/
def State.selectionReply (s : State) : List Byte :=
  let m := s.slm
  bLink m.pin ++ le 1 m.settleTime ++ le 2 m.moveAckTimer ++ le 2 m.guardTime ++ le 2 m.grace ++ bLink s.desired
    ++ bLink (m.settle.map (·.link)) ++ bOpt 8 (m.settle.map (·.since)) ++ bOpt 8 (s.left (m.settle.map (·.expiry)))

def SwapOutcome.failed : SwapOutcome → Nat
  | .done => 0
  | .timeout => 1
  | .targetLost => 1

def SwapOutcome.cause? : SwapOutcome → Option Nat
  | .done => none
  | .timeout => some 0
  | .targetLost => some 1

/-- The swap record with the time left on the MOVE-ACK timer (R98, R116). Started-at is always present, the expiry while its
timer runs (DESIGN CHOICE, assumption 56); outcome and cause have a presence byte each (assumption 67). -/
def State.swapReply (s : State) : List Byte :=
  let w := s.slm.swap
  bFlag w.inProgress ++ le 2 w.number ++ bOpt 1 (w.planned.map fun p => if p then 0 else 1) ++ bLink w.fromLink
    ++ bLink w.toLink ++ bFlag w.moveSent ++ le 8 w.startedAt ++ bOpt 8 w.ackExpiry
    ++ bOpt 1 (w.lastOutcome.map SwapOutcome.failed) ++ bOpt 1 (w.lastOutcome.bind SwapOutcome.cause?)
    ++ bOpt 8 (s.left w.ackExpiry)

/-- Draining guards, isolation, cut-off, and the store with the counters of R116. The guard time left goes as a list of the
DRAINING links, each with its number and 8 bytes of milliseconds (DESIGN CHOICE, assumptions 70 and 71). -/
def State.storeReply (s : State) : List Byte :=
  let c := s.slm.counters
  let w := s.sws.counters
  bList 1 (fun l : Fin 4 => le 1 l.val ++ le 8 ((s.left (s.link l).guardAt).getD 0))
      (allLinks.filter fun l => (s.link l).state == .draining)
    ++ bFlag s.slm.isolated.isSome ++ bOpt 8 s.slm.isolated ++ bOpt 8 (s.left s.slm.graceAt) ++ bFlag s.slm.cutOff
    ++ le 3 (occupancy s.sws.frames) ++ le 3 s.sws.frames.length
    ++ bCounters [c.begunPlanned, c.begunUnplanned, c.done, c.failedTimeout, c.failedTarget, c.turnedUnplanned,
        c.staleMoveAcks, c.isolations, c.cutOffs]
    ++ bTally w.entered ++ bTally w.handedOff ++ bTally w.shed ++ w.withdrawn.toList.flatMap bTally ++ le 4 w.peak

def execQueryLinkShore (r : Request Nat) (s : State) : Host.Outcome State Fault Refusal :=
  takeRequest (.queryLinkShore r) s <| checked Kind.queryLink r true (fun p => decide (p < 4)) fun p s =>
    s.ok Kind.queryLink r.tag false
      (s.linkReply (s.link (Fin.ofNat 4 p)) ++ s.selectionReply ++ s.swapReply ++ s.storeReply)

/-! ## QUERY-LINK, MANAGEMENT (R184) -/

/-- The reply fields of QUERY-LINK naming MANAGEMENT. -/
def State.managementReply (s : State) : List Byte :=
  let m := s.mli
  let c := m.counters
  le 1 (if m.device = .running then 1 else 0) ++ bFlag s.rsc.scanEnded ++ le 8 m.clock ++ le 4 m.shipTime
    ++ billingBytes m.billing ++ le 1 ((m.staging.map (·.records.length)).getD 0) ++ le 1 (noticeCount m.tx)
    ++ bFlag m.overflow
    ++ bCounters ([c.badLengths, c.gaps, c.crcErrors, c.overruns, c.taken, c.repliesOk] ++ c.refused.toList
        ++ [c.noticesSent, c.noticesReplaced, c.noticesLost])

def execQueryLinkManagement (r : Request Unit) (s : State) : Host.Outcome State Fault Refusal :=
  takeRequest (.queryLinkManagement r) s <| checked Kind.queryLink r true always fun _ s =>
    s.ok Kind.queryLink r.tag false s.managementReply

/-! ## QUERY-SUBSCRIBER, single form (R43, R58, R75, R156) -/

/-- A bearer slot: empty, or the open bearer's kind, opened-at time and counters (R75). -/
def bBearer : Option Bearer → List Byte
  | none => 0 :: List.replicate 81 0
  | some b => 1 :: le 1 b.kind.code ++ le 8 b.openedAt ++ bTally b.upShore ++ bTally b.upLocal ++ bTally b.upPortal
      ++ bTally b.upLost ++ bTally b.fromShore ++ bTally b.fromLocal

/-- The open period with every field of R146, and whether it is frozen (R156). -/
def bPeriod (frozen : Bool) : Option Period → List Byte
  | none => 0 :: List.replicate 58 0
  | some p => 1 :: le 4 p.startTime ++ le 1 p.partner ++ p.partnerCode.bytes ++ le 1 p.jurisdiction ++ le 1 p.zone
      ++ le 1 p.tariffClass ++ le 1 p.plan ++ le 3 p.rate1 ++ le 3 p.rate2 ++ le 3 p.increment ++ le 2 p.threshold
      ++ le 5 p.up ++ le 5 p.down ++ le 4 p.inc1 ++ le 4 p.inc2 ++ le 4 p.charge ++ bFlag p.clamped ++ bFlag p.saturated
      ++ le 2 p.storeLoss ++ le 8 p.ageExpiry ++ bFlag frozen

/-- The reply fields of the single form for entry `h`; the candidate and its place have a presence byte each (DESIGN CHOICE,
assumption 67). -/
def State.entryReply (s : State) (h : Nat) (e : Entry) : List Byte :=
  le 2 h ++ le 4 e.attach ++ tokenBytes e.token ++ e.home.bytes ++ le 1 e.cls.code ++ le 8 e.createdAt ++ bOpt 8 e.retention
    ++ le 1 e.port.val ++ bFlag e.portLost.isSome ++ bOpt 8 e.portLost ++ le 1 e.reg.code ++ bOpt 1 e.serving
    ++ bOpt 1 (e.candidate.map (·.1)) ++ bOpt 1 (e.candidate.map (·.2)) ++ bOpt 8 e.regTime ++ bInt8 e.balance
    ++ bOpt 8 e.nextDue ++ bFlag (s.outstanding h) ++ bOpt 3 e.paused
    ++ (List.range 4).flatMap (fun k => bBearer (e.bearers.find? fun b => b.slot == k)) ++ bPeriod e.closing e.period
    ++ bFlag e.closing ++ le 2 e.dayCount ++ le 4 e.total ++ le 4 e.cap ++ bFlag e.alertSent ++ bFlag e.barred
    ++ le 2 e.storeLoss ++ bFlag (s.entitled e) ++ bFlag (s.charged e) ++ bOpt 8 (s.left e.retention)
    ++ bOpt 8 (s.left e.portLost)

/-- The entry a single form names (R58). A handle above 2,047 is not clamped by R177: it names none (DESIGN CHOICE, assumption
73). -/
def State.entryNamed (s : State) : SubscriberName → Option (Nat × Entry)
  | .byHandle h => (s.entry? h).map fun e => (h, e)
  | .byToken t => s.byToken? t

def execQuerySubscriberSingle (r : Request SubscriberName) (s : State) : Host.Outcome State Fault Refusal :=
  takeRequest (.querySubscriberSingle r) s <| checked Kind.querySubscriber r true always fun name s =>
    match s.entryNamed name with
    | none => s.refuse Kind.querySubscriber r.tag .noSuchSubscriber
    | some (h, e) => s.ok Kind.querySubscriber r.tag false (s.entryReply h e)

/-! ## QUERY-SUBSCRIBER, summary form (R59, R74, R75, R138, R156) -/

/-- How many live entries pass a test. -/
def State.count (s : State) (good : Entry → Bool) : Nat := s.table.entries.countP fun p => good p.2

/-- The table's totals (R59). -/
def State.tableReply (s : State) : List Byte :=
  let c := s.table.counters
  le 2 s.table.entries.length
    ++ [RegState.registering, .served, .moving, .lapsed, .unroamed, .resting].flatMap
        (fun r => le 2 (s.count fun e => e.reg == r))
    ++ le 2 (s.count fun e => e.portLost.isSome) ++ le 2 (s.count fun e => e.closing) ++ le 2 (s.count fun e => e.barred)
    ++ le 2 s.table.freeHandles.length ++ bOpt 2 s.table.freeHandles.head? ++ le 4 s.table.attachCounter
    ++ bCounters ([c.created, c.revivals] ++ c.removals.toList ++ [c.staleAnswers, c.droppedInFlight])

/-- The router's device totals and the number of open bearers (R74, R75). -/
def State.routerReply (s : State) : List Byte :=
  let t := s.router.totals
  bTally t.upDirect ++ bTally t.upStored ++ bTally t.upLocal ++ t.upPortal.toList.flatMap bTally ++ bTally t.upIsolated
    ++ bTally t.upNotOpen ++ bTally t.localPortDiscards ++ bTally t.localDelivered ++ bTally t.localDiscards
    ++ bTally t.downDelivered ++ bTally t.downNotOpen ++ bTally t.downStaleBearer ++ bTally t.downWrongKind
    ++ t.downNotEntitled.toList.flatMap bTally ++ bTally t.handOffs ++ bTally t.meteredUp ++ bTally t.meteredDown
    ++ bCounters ([t.opens] ++ t.refusals.toList ++ [t.closes, t.staleCloses, t.freedOther])
    ++ le 2 (s.table.entries.map fun p => p.2.bearers.length).sum

/-- The engine's state and counters (R138). The move list length counts the MOVING entries: one that was MOVING at quiet
entry left the list as it became RESTING (DESIGN CHOICE, assumption 78). -/
def State.engineReply (s : State) : List Byte :=
  let g := s.rge
  let c := g.counters
  le 1 (g.inFlight.countP fun x => x.kind == .regAsk) ++ le 1 (g.inFlight.countP fun x => x.kind == .refresh)
    ++ le 2 s.freshClass.length ++ le 2 s.moveClass.length ++ le 2 s.owedClass.length ++ le 2 s.pullInClass.length
    ++ le 2 (s.count fun e => e.reg == .moving) ++ le 3 g.bucket ++ le 1 g.pacerRate ++ le 2 g.exchangeTimer
    ++ bCounters ([c.regAsks, c.refreshOwed, c.refreshPullIn, c.regOks] ++ c.regRefused.toList
        ++ [c.regTimeouts, c.refreshOks, c.refreshRefused, c.refreshTimeouts, c.requeues, c.movesBegun, c.movesDone,
            c.movesCancelled, c.movesExhausted, c.voids, c.lapsesBalance, c.lapsesRefused, c.deregsSent, c.deregsDropped,
            c.staleAnswers])

/-- The defined slots of a bank: their count and their numbers in ascending order (DESIGN CHOICE, assumption 61). -/
def bBank (bank : List (Nat × TariffPlan)) : List Byte := bList 1 (fun p => le 1 p.1) bank

/-- The Rating Unit's state and counters (R156). -/
def State.ratingReply (s : State) : List Byte :=
  let u := s.rtu
  let c := u.counters
  bFlag u.armed ++ bBank u.active ++ bBank u.bank ++ le 1 u.closeQueue.length ++ le 2 u.waitList.length
    ++ bCounters ([c.opened] ++ c.closures.toList ++ [c.ratedUp, c.ratedDown, c.unratedNone, c.unratedFrozen, c.inc1, c.inc2,
        c.clamped, c.alerts, c.capsReached, c.commitsApplied, c.commitsRefused, c.dayRolls, c.delayed, c.lost, c.peakWait])

def execQuerySubscriberSummary (r : Request Unit) (s : State) : Host.Outcome State Fault Refusal :=
  takeRequest (.querySubscriberSummary r) s <| checked Kind.querySubscriber r true always fun _ s =>
    s.ok Kind.querySubscriber r.tag false (s.tableReply ++ s.routerReply ++ s.engineReply ++ s.ratingReply)

/-! ## QUERY-STORE (R173) -/

/-- The reply fields of QUERY-STORE. The time left on the batch timer goes as 8 bytes of milliseconds (DESIGN CHOICE,
assumption 70). -/
def State.recordsReply (s : State) : List Byte :=
  let r := s.rsc
  let c := r.counters
  le 2 r.capacity ++ le 2 Limits.slots ++ le 2 r.dead.length ++ le 2 r.sparePool ++ le 2 r.freeLevel
    ++ le 2 r.undelivered.length ++ le 1 r.inBatch.length ++ le 1 r.buffer.length ++ le 1 s.rtu.closeQueue.length
    ++ le 2 r.clearList.length ++ le 1 r.candidates.length ++ bFlag r.bufferOn ++ bFlag r.lowStands ++ le 1 r.channel.code
    ++ le 1 r.batchTimer ++ bOpt 2 (r.batch.map (·.number)) ++ bOpt 8 (s.left (r.batch.bind (·.expiry))) ++ le 4 r.nextSerial
    ++ bFlag r.scanEnded
    ++ bCounters ([c.accepted, c.committed, c.writeFailures, c.remaps, c.killed, c.mapFailures, c.verifiesPassed,
        c.verifiesFailed, c.unreadable, c.clearFailures, c.batchesSent, c.batchesConfirmed] ++ c.returned.toList
        ++ [c.exportsDone, c.confirmations, c.staleAcks, c.confirmed, c.duplicates, c.lostClosures])

def execQueryStore (r : Request Unit) (s : State) : Host.Outcome State Fault Refusal :=
  takeRequest (.queryStore r) s <| checked Kind.queryStore r true always fun _ s =>
    s.ok Kind.queryStore r.tag false s.recordsReply

end Sys2Proof.Machine
end

