-- ==== Sys2Proof/Machine/Roaming.lean ====
section
/-! DEFINITION. The commands of the Roaming Engine (R119, R120, R125 to R139, R183). -/

namespace Sys2Proof.Machine

/-- A part of LOAD-PARTNERS that can be read has a value clamped, before any check of it is made (R119). -/
def bodyClamped (r : Request PartnersPart) : Bool := r.body.any partClamped

/-- A non-last part of LOAD-PARTNERS (R183): staged, or refused as MALFORMED; a refused part empties the staging table. Its
values are clamped before any check (R119), so that a refusal tells of them too (DEDUCED, assumption 57). -/
def execLoadPartnersPart (r : Request PartnersPart) (s : State) : Host.Outcome State Fault Refusal :=
  takeRequest (.loadPartnersPart r) s fun s =>
    let refused := fun (why : Reason) (s : State) =>
      (s.onMli fun m => { m with staging := none }).refuseClamped Kind.loadPartners r.tag (bodyClamped r) why
    match r.body with
    | none => refused .malformed s
    | some b =>
      if !partWellFormed b then refused .malformed s
      else match stage s.mli.staging b with
        | none => refused .malformed s
        | some st =>
          if !s.rsc.scanEnded then refused .notReady s
          else (s.onMli fun m => { m with staging := some st }).ok Kind.loadPartners r.tag (partClamped b)
            (le 1 st.records.length)

/-- An entry under a new partner table (R120): its serving partner is kept when the new table holds the same index with
the same network code as the old; otherwise the registration is void without a DEREG. Every candidate is cleared. -/
def underNewTable (old new : List Partner) (e : Entry) : Entry :=
  let e := { e with candidate := none }
  match e.serving with
  | none => e
  | some i =>
    match old.find? fun p => p.index == i, new.find? fun p => p.index == i with
    | some p, some q => if p.code = q.code then e else e.unregistered
    | _, _ => e.unregistered

/-- The table takes effect (R119, R120): in-flight table emptied, entries brought into line, the bucket cut to the new depth.
A record of an exchange that still waits at a shore port stays there (DEDUCED, assumption 74). -/
def State.takePartners (st : Staging) (s : State) : State :=
  let old := s.rge.partners
  let s := s.onTable fun t => { t with entries := t.entries.map fun p => (p.1, underNewTable old st.records p.2) }
  s.onRge fun g => { g with
    partners := st.records, pacerRate := st.pacerRate, exchangeTimer := st.exchangeTimer, inFlight := [],
    bucket := min g.bucket (st.pacerRate * 1000) }

/-- The last part of LOAD-PARTNERS (R119, R120, R183): the staged table is checked whole and takes effect. A refusal tells
of the values clamped (DEDUCED, assumptions 29 and 57). -/
def execLoadPartnersLast (r : Request PartnersPart) (s : State) : Host.Outcome State Fault Refusal :=
  takeRequest (.loadPartnersLast r) s fun s =>
    let staged := r.body.bind fun b => if partWellFormed b then stage s.mli.staging b else none
    let s := s.onMli fun m => { m with staging := none }
    let refused := fun (why : Reason) (s : State) =>
      s.refuseClamped Kind.loadPartners r.tag (match staged with | some st => st.clamped | none => bodyClamped r) why
    match staged with
    | none => refused .malformed s
    | some st =>
      if st.records.isEmpty then refused .malformed s
      else if !s.rsc.scanEnded then refused .notReady s
      else if !s.atBerth then refused .notAtBerth s
      else if !s.partnersAccepted st.records then refused .badTable s
      else
        (s.takePartners st).ok Kind.loadPartners r.tag st.clamped
          (le 1 st.records.length ++ le 1 st.pacerRate ++ le 2 st.exchangeTimer)

/-- A record of the pacer is sent on link `l` and its exchange joins the in-flight table (R124, R125); it costs one token. -/
def State.sendExchange (l : Fin 4) (h : Nat) (e : Entry) (kind : ExchangeKind) (partner : Nat) (rec_ : ShoreRecord)
    (s : State) : State :=
  let x : Exchange := { handle := h, attach := e.attach, token := e.token, kind := kind, partner := partner, link := l,
                        expiry := s.now + s.rge.exchangeTimer }
  (s.onRge fun g => { g with bucket := g.bucket - 1000, inFlight := g.inFlight ++ [x] }).offer l (.plain rec_)

/-- A REG-ASK for entry `h` to its candidate (R123, R126). -/
def State.sendAsk (l : Fin 4) (h : Nat) (s : State) : State :=
  match s.entry? h with
  | none => s
  | some e =>
    match e.candidate.bind fun c => s.partner? c.1 with
    | none => s
    | some p =>
      (s.sendExchange l h e .regAsk p.index
        (.regAsk h e.token e.home p.index p.code ((s.rules?.map (·.jurisdiction)).getD 0))).countRge fun c =>
          { c with regAsks := bump32 c.regAsks }

/-- The pacer takes one piece of work (R125 to R127): a REG-ASK or REFRESH is sent, or a LAPSED entry without a chosen
partner becomes UNROAMED and nothing is spent. -/
def execPacerSend (s : State) : Host.Outcome State Fault Refusal :=
  whenPowered s fun s =>
    if !s.pacerOpen then s
    else match s.activeLink?, s.nextWork with
      | some l, some (.ask h) =>
        match s.entry? h with
        | none => s
        | some e =>
          if e.reg = .lapsed then
            let s := s.giveCandidate h
            match (s.entry? h).map (·.reg) with
            | some RegState.registering => s.sendAsk l h
            | _ => s
          else s.sendAsk l h
      | some l, some (.refresh h owed) =>
        match s.entry? h with
        | none => s
        | some e =>
          match e.serving with
          | none => s
          | some i =>
            (s.sendExchange l h e .refresh i (.refresh h e.token i)).countRge fun c =>
              if owed then { c with refreshOwed := bump32 c.refreshOwed }
              else { c with refreshPullIn := bump32 c.refreshPullIn }
      | _, _ => s

/-- An answer from shore (R55, R80, R138): taken on a link that takes it, matched against the table and the in-flight
table; `act` is done for the entry's exchange, otherwise the answer is counted as stale and ignored. -/
def State.onAnswer (l : Fin 4) (h : Nat) (token : Token) (kind : ExchangeKind) (partner : Nat)
    (act : Entry → State → State) (s : State) : State :=
  s.onShoreRecord l fun s =>
    match s.named? h token with
    | none => s.onTable fun t => { t with counters := { t.counters with staleAnswers := bump32 t.counters.staleAnswers } }
    | some e =>
      match s.exchange? h with
      | some x =>
        if x.attach == e.attach && x.kind == kind && x.partner == partner then act e (s.dropExchange h)
        else s.countRge fun c => { c with staleAnswers := bump32 c.staleAnswers }
      | none => s.countRge fun c => { c with staleAnswers := bump32 c.staleAnswers }

/-- REG-OK (R128). A RESTING entry keeps the interval as its remaining time and has no next due (DESIGN CHOICE, assumption
69). -/
def execRegOk (link : Fin 4) (handle : Nat) (token : Token) (partner : Nat) (s : State) : Host.Outcome State Fault Refusal :=
  whenPowered s <| State.onAnswer link handle token .regAsk partner fun e s =>
    let s := s.countRge fun c => { c with regOks := bump32 c.regOks }
    let now := s.now
    let interval := s.intervalOf partner
    match e.reg with
    | .registering =>
      let s := s.onEntry handle fun e => { e.registered partner now with reg := .served, nextDue := some (now + interval) }
      (s.openPeriod handle).sendLevelByEntitlement handle
    | .moving =>
      let s := s.closePeriod .partner handle
      let s := match e.serving with
        | some i => s.sendDereg handle token i
        | none => s
      let s := s.onEntry handle fun e => { e.registered partner now with reg := .served, nextDue := some (now + interval) }
      let s := s.countRge fun c => { c with movesDone := bump32 c.movesDone }
      (s.openPeriod handle).sendLevelByEntitlement handle
    | .resting =>
      let s := match e.serving with
        | some i => s.sendDereg handle token i
        | none => s
      s.onEntry handle fun e => { e.registered partner now with nextDue := none, paused := some interval }
    | .served | .lapsed | .unroamed => s

/-- REG-REFUSED (R129): the reason is only counted. -/
def execRegRefused (link : Fin 4) (handle : Nat) (token : Token) (partner : Nat) (reason : RefusedReason) (s : State) :
    Host.Outcome State Fault Refusal :=
  whenPowered s <| State.onAnswer link handle token .regAsk partner fun _ s =>
    (s.countRge fun c => { c with regRefused := bumpAt 3 c.regRefused reason.place }).askFailed handle

/-- REFRESH-OK (R131): the balance rises by 1, to +3 at most. -/
def execRefreshOk (link : Fin 4) (handle : Nat) (token : Token) (partner : Nat) (s : State) :
    Host.Outcome State Fault Refusal :=
  whenPowered s <| State.onAnswer link handle token .refresh partner fun _ s =>
    (s.onEntry handle fun e => { e with balance := min 3 (e.balance + 1) }).countRge fun c =>
      { c with refreshOks := bump32 c.refreshOks }

/-- REFRESH-REFUSED (R131): a SERVED or MOVING entry lapses; a RESTING one loses its registration in place. -/
def execRefreshRefused (link : Fin 4) (handle : Nat) (token : Token) (partner : Nat) (s : State) :
    Host.Outcome State Fault Refusal :=
  whenPowered s <| State.onAnswer link handle token .refresh partner fun e s =>
    let s := s.countRge fun c => { c with refreshRefused := bump32 c.refreshRefused }
    if e.reg = .resting then
      let s := s.onEntry handle fun e => e.unregistered
      let s := s.countRge fun c => { c with lapsesRefused := bump32 c.lapsesRefused }
      s.raise (.registrationLapsed handle token (e.serving.getD 0) true true s.mli.shipTime 1)
    else s.lapse handle true

/-- The exchange timer of entry `handle` expires (R129, R131): a REG-ASK tries the next candidate, a REFRESH stays owed. -/
def execExchangeTimerExpiry (handle : Nat) (s : State) : Host.Outcome State Fault Refusal :=
  whenPowered s fun s =>
    match s.exchange? handle with
    | none => s
    | some x => s.atExpiry x.expiry fun s =>
      let s := s.dropExchange handle
      match x.kind with
      | .regAsk => (s.countRge fun c => { c with regTimeouts := bump32 c.regTimeouts }).askFailed handle
      | .refresh => s.countRge fun c => { c with refreshTimeouts := bump32 c.refreshTimeouts }

/-- A SERVED or MOVING entry's due instant comes (R130): the next due advances, and the balance falls by 1 or, at -6, the
entry lapses. -/
def execRefreshDue (handle : Nat) (s : State) : Host.Outcome State Fault Refusal :=
  whenPowered s fun s =>
    match s.entry? handle with
    | none => s
    | some e =>
      match e.nextDue, e.serving with
      | some t, some i =>
        if !e.reg.onShore then s
        else s.atExpiry t fun s =>
          let interval := s.intervalOf i
          if e.balance ≤ -6 then s.lapse handle false
          else s.onEntry handle fun e => { e with nextDue := some (t + interval), balance := e.balance - 1 }
      | _, _ => s

end Sys2Proof.Machine
end

