-- ==== Sys2Proof/Machine/Links.lean ====
section
/-! DEFINITION. The commands of the Shore Link Manager on one link and on selection (R78 to R95). -/

namespace Sys2Proof.Machine

/-- CONFIGURE-LINK naming a SHORE port (R78). -/
def execConfigureLinkShore (r : Request ShoreConfig) (s : State) : Host.Outcome State Fault Refusal :=
  takeRequest (.configureLinkShore r) s <| checked Kind.configureLink r false (fun b => decide (b.port < 4)) fun b s =>
    if h : b.port < 4 then
      let l : Fin 4 := ⟨b.port, h⟩
      let rtt := match b.rttLimit with
        | some v => clampTo 50 5000 v
        | none => defaultRtt b.type
      let rttClamped := match b.rttLimit with
        | some v => isClamped 50 5000 v
        | none => false
      let rank := clampTo 0 15 b.costRank
      let hold := clampTo 5 300 b.holddown
      let reprobe := clampTo 10 600 b.reprobe
      let old := s.link l
      let s := s.onLink l fun k => { k with
        type := some b.type, costRank := rank, rttLimit := some rtt, holddownTime := hold, reprobeTime := reprobe,
        enabled := b.enabled }
      let s :=
        if b.enabled && !old.enabled then
          (if (s.link l).carrier && (s.link l).state == .absent then (s.startProbe l .enabled).workOut else s.workOut)
        else if !b.enabled && old.enabled then
          (if (s.link l).state = .absent then (s.onLink l fun k => { k with longOwed := true }).workOut
           else s.goAbsent l .disabled)
        else s.workOut
      s.ok Kind.configureLink r.tag
        (rttClamped || isClamped 0 15 b.costRank || isClamped 5 300 b.holddown || isClamped 10 600 b.reprobe)
        (le 1 b.type.code ++ le 1 rank ++ le 2 rtt ++ le 2 hold ++ le 2 reprobe ++ bFlag b.enabled)
    else s.refuse Kind.configureLink r.tag .malformed

/-- PIN-LINK (R93): the pin and the four link-set timings, which the reply reports; selection takes up a change of the pin
(R94). A timer that this working-out starts runs at the new timing (DESIGN CHOICE, assumption 54). -/
def execPinLink (r : Request PinBody) (s : State) : Host.Outcome State Fault Refusal :=
  takeRequest (.pinLink r) s <|
    checked Kind.pinLink r false (fun b => match b.port with | some p => decide (p < 4) | none => true) fun b s =>
      let settle := clampTo 0 120 b.settleTime
      let ack := clampTo 500 30000 b.moveAckTimer
      let guardTime := clampTo 500 10000 b.guardTime
      let grace := clampTo 0 60000 b.grace
      let s := s.onSlm fun m => { m with
        pin := b.port.map (Fin.ofNat 4), settleTime := settle, moveAckTimer := ack, guardTime := guardTime, grace := grace }
      s.workOut.ok Kind.pinLink r.tag
        (isClamped 0 120 b.settleTime || isClamped 500 30000 b.moveAckTimer || isClamped 500 10000 b.guardTime
          || isClamped 0 60000 b.grace)
        (le 1 settle ++ le 2 ack ++ le 2 guardTime ++ le 2 grace)

/-- A shore link loses its carrier (R81). -/
def execShoreCarrierLost (link : Fin 4) (s : State) : Host.Outcome State Fault Refusal :=
  let s := s.onLink link fun k => { k with carrier := false }
  whenPowered s fun s =>
    if (s.link link).state = .absent then s
    else (s.countLink link fun c => { c with carrierLosses := bump32 c.carrierLosses }).goAbsent link .carrierLost

/-- A shore link's carrier returns (R87): an enabled ABSENT link begins its long probe. -/
def execShoreCarrierReturn (link : Fin 4) (s : State) : Host.Outcome State Fault Refusal :=
  let s := s.onLink link fun k => { k with carrier := true }
  whenPowered s fun s =>
    let k := s.link link
    if k.state == .absent && k.enabled then (s.startProbe link .carrierUp).workOut else s

/-- A modem becomes ready and takes the record waiting first at its port (R81); one record for each report (DESIGN CHOICE,
assumption 17). -/
def execModemReady (link : Fin 4) (s : State) : Host.Outcome State Fault Refusal :=
  let s := s.onLink link fun k => { k with modemReady := true }
  whenPowered s fun s =>
    match (s.link link).waiting with
    | [] => s
    | w :: rest => (s.onLink link fun k => { k with waiting := rest }).modemTakes link w

/-- A modem reports that it is no longer ready (R81): records due on its link wait at the port. -/
def execModemNotReady (link : Fin 4) (s : State) : Host.Outcome State Fault Refusal :=
  done (s.onLink link fun k => { k with modemReady := false })

/-- The next probe echo falls due (R83). -/
def execProbeEchoDue (link : Fin 4) (s : State) : Host.Outcome State Fault Refusal :=
  whenPowered s fun s =>
    let k := s.link link
    match k.state, k.nextEcho with
    | .probing, some t =>
      s.atExpiry t fun s => (s.onLink link fun k => { k with nextEcho := none }).offer link (.echo .probe 0)
    | _, _ => s

/-- The probe of link `l` concludes (R84): READY on a pass, HOLDDOWN on a failure; an early failure has no mean judged. -/
def State.concludeProbe (l : Fin 4) (p : Probe) (early : Bool) (s : State) : State :=
  let k := s.link l
  let mean := if p.answered = 0 then 0 else p.rttSum / p.answered
  let passed := !early && decide (p.passMark ≤ p.answered)
    && (match k.rttLimit with | some limit => decide (mean ≤ limit) | none => false)
  let s := s.onLink l fun k => { k with
    lastProbe := some { long := p.long, passed := passed, answered := p.answered, meanRtt := mean },
    longOwed := if passed && p.long then false else k.longOwed,
    counters := match p.long, passed with
      | true, true => { k.counters with longPassed := bump32 k.counters.longPassed }
      | true, false => { k.counters with longFailed := bump32 k.counters.longFailed }
      | false, true => { k.counters with shortPassed := bump32 k.counters.shortPassed }
      | false, false => { k.counters with shortFailed := bump32 k.counters.shortFailed } }
  let s := if passed then s.leaveFor l .ready .probePass p.fromReady
    else s.leaveFor l .holddown (if p.fromReady then .reprobeFail else .probeFail) false
  s.workOut

/-- The conclusion of a probe is judged after an echo of it was answered or timed out (R84). -/
def State.judgeProbe (l : Fin 4) (s : State) : State :=
  match (s.link l).probe with
  | none => s
  | some p =>
    if p.tolerated < p.timedOut then s.concludeProbe l p true
    else if p.sent = p.echoes && p.answered + p.timedOut = p.echoes then s.concludeProbe l p false
    else s

/-- The open echo an ECHO-BACK answers (R82): the same sequence and purpose, its window not past.
(DEDUCED, assumption 32.) -/
def State.matchEcho (s : State) (l : Fin 4) (seq : Nat) (purpose : Purpose) : Option OpenEcho :=
  (s.link l).openEchoes.find? fun o => o.seq == seq && o.purpose == purpose
    && (match purpose with
        | .probe => decide (s.now ≤ o.sentAt + echoWindow)
        | .keepalive => match (s.link l).nextEcho with
          | some t => decide (s.now ≤ t)
          | none => false)

/-- An echo of link `l` whose window has closed unanswered, by its end taken or by the time past it (R82). -/
def State.echoClosed (s : State) (l : Fin 4) (seq : Nat) (purpose : Purpose) : Bool :=
  ((s.link l).closedEchoes.contains (seq, purpose))
    || (s.link l).openEchoes.any fun o => o.seq == seq && o.purpose == purpose

/-- ECHO-BACK (R82, R84, R89): answers its open echo, or is counted as late or stale; out-of-state where the link takes
none (R80, R100). -/
def execEchoBack (link : Fin 4) (linkNumber seq : Nat) (purpose : Purpose) (s : State) : Host.Outcome State Fault Refusal :=
  whenPowered s fun s =>
    let k := s.link link
    let takes := match k.state with
      | .probing | .ready | .holddown | .active => true
      | .joining => s.slm.swap.moveSent
      | .absent | .draining => false
    if !takes then s.countLink link fun c => { c with outOfState := bump32 c.outOfState }
    else if linkNumber != link.val then s.countLink link fun c => { c with stale := bump32 c.stale }
    else match s.matchEcho link seq purpose with
      | some o =>
        match purpose with
        | .probe =>
          let rtt := s.now - o.sentAt
          let s := s.onLink link fun k => { k with
            openEchoes := k.openEchoes.filter fun o => o.seq != seq,
            probe := k.probe.map fun p => { p with answered := p.answered + 1, rttSum := p.rttSum + rtt },
            counters := { k.counters with probeAnswered := bump32 k.counters.probeAnswered } }
          s.judgeProbe link
        | .keepalive =>
          s.onLink link fun k => { k with
            openEchoes := k.openEchoes.filter fun o => o.seq != seq, keepAnswered := some true, misses := 0 }
      | none =>
        if s.echoClosed link seq purpose then s.countLink link fun c => { c with late := bump32 c.late }
        else s.countLink link fun c => { c with stale := bump32 c.stale }

/-- A probe echo's window ends unanswered (R82, R84). -/
def execEchoWindowEnd (link : Fin 4) (seq : Nat) (s : State) : Host.Outcome State Fault Refusal :=
  whenPowered s fun s =>
    match (s.link link).openEchoes.find? fun o => o.seq == seq && o.purpose == .probe with
    | none => s
    | some o => s.atExpiry (o.sentAt + echoWindow) fun s =>
      let s := s.onLink link fun k => { k with
        openEchoes := k.openEchoes.filter fun o => o.seq != seq, closedEchoes := k.closedEchoes ++ [(seq, .probe)],
        probe := k.probe.map fun p => { p with timedOut := p.timedOut + 1 },
        counters := { k.counters with probeTimedOut := bump32 k.counters.probeTimedOut } }
      s.judgeProbe link

/-- The misses after the window of the keepalive last due has ended (R89). -/
def Link.missesAtDue (k : Link) : Nat :=
  match k.keepAnswered with
  | none => k.misses
  | some true => 0
  | some false => k.misses + 1

/-- A keepalive falls due on the ACTIVE link (R89, R90): the window of the one before it ends; a third miss fails the
link, else the new keepalive is sent. -/
def execKeepaliveDue (link : Fin 4) (s : State) : Host.Outcome State Fault Refusal :=
  whenPowered s fun s =>
    match (s.link link).state, (s.link link).nextEcho with
    | .active, some t => s.atExpiry t fun s =>
      let misses := (s.link link).missesAtDue
      let missed := (s.link link).keepAnswered == some false
      let s := s.onLink link fun k => { k with
        misses := misses, openEchoes := [],
        closedEchoes := k.closedEchoes ++ k.openEchoes.map fun o => (o.seq, o.purpose),
        counters := if missed then { k.counters with keepUnanswered := bump32 k.counters.keepUnanswered } else k.counters }
      if 3 ≤ misses then
        ((s.countLink link fun c => { c with keepaliveFailures := bump32 c.keepaliveFailures }).activeFails link .holddown
          .keepaliveLost).workOut
      else
        let due := (s.link link).keepDue + 1
        (s.onLink link fun k => { k with
          keepAnswered := some false, keepDue := due, nextEcho := some (t + echoGap .keepalive) }).offer link
            (.echo .keepalive due)
    | _, _ => s

/-- A link's holddown ends and it begins probing (R86). -/
def execHolddownExpiry (link : Fin 4) (s : State) : Host.Outcome State Fault Refusal :=
  whenPowered s fun s =>
    match (s.link link).state, (s.link link).holddownAt with
    | .holddown, some t => s.atExpiry t fun s => (s.startProbe link .holddownEnd).workOut
    | _, _ => s

/-- A READY link's re-probe timer expires and it begins probing (R88). -/
def execReprobeExpiry (link : Fin 4) (s : State) : Host.Outcome State Fault Refusal :=
  whenPowered s fun s =>
    match (s.link link).state, (s.link link).reprobeAt with
    | .ready, some t => s.atExpiry t fun s => (s.startProbe link .probePass).workOut
    | _, _ => s

/-- The settle time passes (R94): the desired link is handed on as the target of a planned swap. A record whose own expiry
has not come has replaced the one whose timer expired, and is not handed on (assumption 5). -/
def execSettleTimerExpiry (s : State) : Host.Outcome State Fault Refusal :=
  whenPowered s fun s =>
    match s.slm.settle with
    | none => s
    | some r => s.atExpiry r.expiry fun s =>
      let s := s.onSlm fun m => { m with settle := none }
      if s.running && !s.slm.swap.inProgress && s.activeLink?.isSome && s.desired == some r.link
          && s.activeLink? != some r.link then
        s.beginSwap r.link true
      else s

end Sys2Proof.Machine
end

