-- ==== Sys2Proof/Machine/Swaps.lean ====
section
/-! DEFINITION. The commands of the swap protocol, isolation and the swap store (R101 to R114). -/

namespace Sys2Proof.Machine

/-- MOVE-ACK (R80, R100 to R102): completes the current swap, or is counted as stale. -/
def execMoveAck (link : Fin 4) (number : Nat) (s : State) : Host.Outcome State Fault Refusal :=
  whenPowered s <| State.onShoreRecord link fun s =>
    match s.slm.swap.inProgress && number == s.slm.swap.number, s.slm.swap.toLink with
    | true, some t => s.completeSwap t
    | _, _ => s.onSlm fun m => { m with counters := { m.counters with staleMoveAcks := bump32 m.counters.staleMoveAcks } }

/-- The MOVE-ACK timer expires (R103): the to-link goes to HOLDDOWN and the swap fails with cause TIMEOUT.
The expiry of a swap's cancelled timer does nothing to the swap begun after it (R102, R105). -/
def execMoveAckTimerExpiry (s : State) : Host.Outcome State Fault Refusal :=
  whenPowered s fun s =>
    match s.slm.swap.inProgress, s.slm.swap.ackExpiry, s.slm.swap.toLink with
    | true, some t, some l => s.atExpiry t fun s => ((s.leaveFor l .holddown .swap false).failSwap false).workOut
    | _, _, _ => s

/-- A DRAINING link's guard ends and it returns to READY (R106). -/
def execDrainingGuardExpiry (link : Fin 4) (s : State) : Host.Outcome State Fault Refusal :=
  whenPowered s fun s =>
    match (s.link link).state, (s.link link).guardAt with
    | .draining, some t => s.atExpiry t fun s => (s.leaveFor link .ready .swap false).workOut
    | _, _ => s

/-- The isolation grace expires (R110). -/
def execGraceExpiry (s : State) : Host.Outcome State Fault Refusal :=
  whenPowered s fun s =>
    match s.slm.isolated, s.slm.graceAt with
    | some _, some t => s.atExpiry t State.beginCutOff
    | _, _ => s

/-- The store may drain now (R113), and no frame of it stands offered already. -/
def State.mayDrain (s : State) : Bool := s.mayCarry && !s.sws.frames.isEmpty && !s.sws.offered

/-- The head frame of the store is withdrawn (R114): discarded, counted by cause, its living entry's store loss count raised. -/
def State.withdrawHead (f : StoredFrame) (e : Option Entry) (s : State) : State :=
  let s := s.popFrame.onSws fun w => { w with
    counters := { w.counters with withdrawn := addAt 5 f.payload.length w.counters.withdrawn (withdrawalCause e) } }
  (s.raiseLoss f.handle f.attach).reportFall

/-- The head frame of the swap store is tested (R53, R113): offered to the ACTIVE link's port when its subscriber is
entitled, else withdrawn. One frame for each command (DESIGN CHOICE, assumption 17). -/
def execStoreDrain (s : State) : Host.Outcome State Fault Refusal :=
  whenPowered s fun s =>
    if !s.mayDrain then s
    else match s.activeLink?, s.sws.frames with
      | some l, f :: _ =>
        match s.life? f.handle f.attach with
        | none => s.withdrawHead f none
        | some e =>
          if s.entitled e then
            (if (s.link l).free then s.handOffStored l e.token
             else (s.onSws fun w => { w with offered := true }).onLink l fun k =>
               { k with waiting := k.waiting ++ [.storeFrame e.token] })
          else s.withdrawHead f (some e)
      | _, _ => s

end Sys2Proof.Machine
end

