-- ==== Sys2Proof/Machine/Clock.lean ====
section
/-! DEFINITION. What the part does of itself when no command waits (DESIGN CHOICE, assumption 1): the commands whose
moment has come, and the passing of a millisecond. -/

namespace Sys2Proof.Machine

/-- A timer whose expiry has come. -/
def State.hasCome (s : State) : Option Nat → Bool
  | some t => decide (t ≤ s.now)
  | none => false

/-- `c` when `b` holds. -/
def dueIf (b : Bool) (c : Instr) : List Instr := if b then [c] else []

/-- The request at the head of the input that has not begun, and the end of one that has (R170, R176, R180). -/
def State.dueRequests (s : State) : List Instr :=
  (if s.mli.work.isNone then s.mli.input.head?.toList else [])
    ++ dueIf s.flushMayEnd .flushRecordsDone ++ dueIf s.resetMayEnd.isSome .resetComplete
    ++ dueIf (s.gapRuns && s.mli.gapLeft == 0) .frameGap

/-- The timers of the device that have come. -/
def State.dueTimers (s : State) : List Instr :=
  dueIf (s.hasCome s.tracker.fixExpiry) .fixTimerExpiry ++ dueIf (s.hasCome s.tracker.holdExpiry) .holdExpiry
    ++ dueIf (s.hasCome (s.slm.settle.map (·.expiry))) .settleTimerExpiry
    ++ dueIf (s.slm.swap.inProgress && s.hasCome s.slm.swap.ackExpiry) .moveAckTimerExpiry
    ++ dueIf (s.slm.isolated.isSome && s.hasCome s.slm.graceAt) .graceExpiry
    ++ dueIf (s.hasCome (s.rsc.batch.bind (·.expiry))) .batchTimerExpiry

/-- The timers of one entry that have come. -/
def State.dueOfEntry (s : State) (h : Nat) (e : Entry) : List Instr :=
  dueIf (s.hasCome e.retention) (.retentionExpiry h) ++ dueIf (s.hasCome e.portLost) (.portLostExpiry h)
    ++ dueIf (e.reg.onShore && s.hasCome e.nextDue) (.refreshDue h)
    ++ dueIf (!e.closing && s.hasCome (e.period.map (·.ageExpiry))) (.ageExpiry h)

/-- The timers of one link that have come, and a ready modem's next record. -/
def State.dueOfLink (s : State) (l : Fin 4) : List Instr :=
  let k := s.link l
  dueIf (k.state == .probing && s.hasCome k.nextEcho) (.probeEchoDue l)
    ++ (k.openEchoes.filter fun o => o.purpose == .probe && s.hasCome (some (o.sentAt + echoWindow))).map
        (fun o => .echoWindowEnd l o.seq)
    ++ dueIf (k.state == .active && s.hasCome k.nextEcho) (.keepaliveDue l)
    ++ dueIf (k.state == .holddown && s.hasCome k.holddownAt) (.holddownExpiry l)
    ++ dueIf (k.state == .ready && s.hasCome k.reprobeAt) (.reprobeExpiry l)
    ++ dueIf (k.state == .draining && s.hasCome k.guardAt) (.drainingGuardExpiry l)
    ++ dueIf (k.modemReady && !k.waiting.isEmpty) (.modemReady l)

/-- The blocks' work that may be done now. -/
def State.dueWork (s : State) : List Instr :=
  dueIf s.nextAsk.isSome .decideAttachAsk ++ dueIf s.mayDrain .storeDrain
    ++ dueIf (s.pacerOpen && s.nextWork.isSome) .pacerSend
    ++ s.router.additions.map (fun a => .meteredAddition a.handle a.attach a.dir a.bytes)
    ++ dueIf s.mayAccept .acceptRecord ++ dueIf s.mayBuild .buildSettleBatch

/-- Everything that has come. The frames the transmitter sends and the ends of memory operations are the environment's to
pace. -/
def State.dueCommands (s : State) : List Instr :=
  s.dueRequests ++ s.dueTimers ++ s.table.entries.flatMap (fun p => s.dueOfEntry p.1 p.2)
    ++ (s.rge.inFlight.filter fun x => s.hasCome (some x.expiry)).map (fun x => .exchangeTimerExpiry x.handle)
    ++ allLinks.flatMap s.dueOfLink ++ s.dueWork

/-- What a step on an empty queue does (DESIGN CHOICE, assumption 1): the first command that has come is put in the queue;
when none has, a millisecond passes. Without power nothing happens. One at a time: what it does may end or restart the
timers of the others. -/
def State.idle (s : State) : State :=
  if !s.powered then s
  else match s.dueCommands with
    | [] => s.pass 1
    | c :: _ => { s with pending := [c] }

end Sys2Proof.Machine
end

