-- ==== Sys2Proof/Machine/Subscribers.lean ====
section
/-! DEFINITION. The host's commands on one subscriber that the Subscriber Table takes (R52, R57). -/

namespace Sys2Proof.Machine

/-- EVICT (R52). -/
def execEvict (r : Request SubscriberRef) (s : State) : Host.Outcome State Fault Refusal :=
  takeRequest (.evict r) s <| checked Kind.evict r false always fun b s =>
    match s.named? b.handle b.token with
    | none => s.refuse Kind.evict r.tag .noSuchSubscriber
    | some e =>
      let closed := s.hasUnfrozen b.handle
      let dereg := match s.deregOutcome e with
        | .sent => 0
        | .dropped => 1
        | .notOwed => 2
      let s := (s.removeEntry b.handle .evict (some .evict)).toHead e.port (.decline b.token .unavailable 0)
      s.ok Kind.evict r.tag false (le 2 b.handle ++ le 1 e.reg.code ++ bFlag closed ++ le 1 dereg)

/-- SET-CLASS (R57). The reply says whether a period was closed and whether one was opened in a flag byte each (DESIGN
CHOICE, assumption 51). -/
def execSetClass (r : Request ClassBody) (s : State) : Host.Outcome State Fault Refusal :=
  takeRequest (.setClass r) s <| checked Kind.setClass r false always fun b s =>
    match s.named? b.who.handle b.who.token with
    | none => s.refuse Kind.setClass r.tag .noSuchSubscriber
    | some e =>
      let h := b.who.handle
      let reply := fun (closed opened : Bool) (s : State) =>
        s.ok Kind.setClass r.tag false (le 1 b.cls.code ++ bFlag closed ++ bFlag opened)
      if e.reg = .resting then s.refuse Kind.setClass r.tag .wrongState
      else if e.cls = b.cls then reply false false s
      else
        match b.cls with
        | .exempt =>
          let closed := s.hasUnfrozen h
          reply closed false ((s.onEntry h fun e => { e with cls := .exempt }).closePeriod .age h)
        | .passenger =>
          let s1 := (s.onEntry h fun e => { e with cls := .passenger }).openPeriod h
          reply false (!s.hasUnfrozen h && s1.hasUnfrozen h) s1

end Sys2Proof.Machine
end

