-- ==== Sys2Proof/Machine/Tracker.lean ====
section
/-! DEFINITION. The commands of the Route Zone Tracker (R3 to R5, R10 to R12, R19). -/

namespace Sys2Proof.Machine

/-- FIX (R5): the distance is clamped, the last fix recorded, the fix timer restarted, and the fix evaluated. Its arrival
time is the moment it is carried out, which for one that waited in the input is not when it joined (DESIGN CHOICE,
assumption 58). -/
def execFix (r : Request FixBody) (s : State) : Host.Outcome State Fault Refusal :=
  takeRequest (.fix r) s <| checked Kind.fix r false always fun b s =>
    let top := if s.tracker.zones.isEmpty then 1000000 else s.tracker.routeLength
    let d := clampTo 0 top b.distance
    let s := s.onTracker fun t => { t with
      lastFix := some (b.quality, s.now),
      lastPosition := if b.quality = .none then t.lastPosition else some d }
    let s := if s.running then
        (s.onTracker fun t => { t with fixExpiry := some (s.now + t.fixTimeout * 1000) }).takeFix b.quality d
      else s
    s.ok Kind.fix r.tag (isClamped 0 top b.distance) (le 3 d)

/-- FREEZE-ZONE (R11). -/
def execFreezeZone (r : Request Unit) (s : State) : Host.Outcome State Fault Refusal :=
  takeRequest (.freezeZone r) s <| checked Kind.freezeZone r false always fun _ s =>
    (s.onTracker fun t => { t with forcedFreeze := true, holdExpiry := none }).ok Kind.freezeZone r.tag false []

/-- THAW-ZONE (R11): clears the forced-freeze flag; while RUNNING, with a zone in the verdict and the frozen flag clear, a
hold begins. With the flag clear it changes nothing. -/
def execThawZone (r : Request Unit) (s : State) : Host.Outcome State Fault Refusal :=
  takeRequest (.thawZone r) s <| checked Kind.thawZone r false always fun _ s =>
    let s := if s.tracker.forcedFreeze then
        let s := s.onTracker fun t => { t with forcedFreeze := false }
        if s.running && s.tracker.verdict.isSome && !s.tracker.frozen then s.beginHold else s
      else s
    s.ok Kind.thawZone r.tag false []

/-- LOAD-ZONES (R2 to R4). The reply carries the route length once, then the other four clamped settings (DESIGN CHOICE,
assumption 49). Its values are clamped before any check (R2), so that a refusal tells of them too (DEDUCED, assumption
57). -/
def execLoadZones (r : Request LoadZonesBody) (s : State) : Host.Outcome State Fault Refusal :=
  takeRequest (.loadZones r) s <| checkedClamped Kind.loadZones r false zonesClamped zonesWellFormed fun b s =>
    let c := clampZones b
    if !s.atBerth then s.refuseClamped Kind.loadZones r.tag (zonesClamped b) .notAtBerth
    else if !s.zonesAccepted c then s.refuseClamped Kind.loadZones r.tag (zonesClamped b) .badTable
    else
      let s := s.onTracker fun t => { t with
        routeLength := c.routeLength, zones := c.zones, hysteresis := c.hysteresis, fixTimeout := c.fixTimeout,
        holdTime := c.holdTime, retentionTime := c.retention, frozen := false, holdExpiry := none, lastPosition := none }
      let s := if s.tracker.verdict.isSome then s.changeVerdict none .tableLoad none else s
      s.ok Kind.loadZones r.tag (zonesClamped b)
        (le 1 c.zones.length ++ le 3 c.routeLength ++ le 2 c.hysteresis ++ le 1 c.fixTimeout ++ le 2 c.holdTime
          ++ le 1 c.retention)

/-- The fix timer expires (R10): the verdict freezes. Only while RUNNING with the timer running. -/
def execFixTimerExpiry (s : State) : Host.Outcome State Fault Refusal :=
  whenPowered s fun s =>
    match s.tracker.fixExpiry with
    | none => s
    | some e => s.atExpiry e fun s =>
      let s := s.onTracker fun t => { t with fixExpiry := none }
      if s.running then s.freeze else s

/-- The hold ends (R12). -/
def execHoldExpiry (s : State) : Host.Outcome State Fault Refusal :=
  whenPowered s fun s =>
    match s.tracker.holdExpiry with
    | none => s
    | some e => s.atExpiry e State.endHold

/-- The retention timer of entry `handle` expires (R19): the entry is removed without a closure. -/
def execRetentionExpiry (handle : Nat) (s : State) : Host.Outcome State Fault Refusal :=
  whenPowered s fun s =>
    match (s.entry? handle).bind (·.retention) with
    | none => s
    | some e => s.atExpiry e fun s => s.removeEntry handle .retention none

end Sys2Proof.Machine
end

