-- ==== Sys2Proof/Machine/Dispatch.lean ====
section
/-! DEFINITION. The effect of each command on everything but the queue: one arm per row of the table. -/

namespace Sys2Proof.Machine

def exec (i : Instr) (s : State) : Host.Outcome State Fault Refusal :=
  match i with
  | .start r => Sys2Proof.Machine.execStart r s
  | .reset r => Sys2Proof.Machine.execReset r s
  | .resetComplete => Sys2Proof.Machine.execResetComplete s
  | .setTime r => Sys2Proof.Machine.execSetTime r s
  | .fix r => Sys2Proof.Machine.execFix r s
  | .freezeZone r => Sys2Proof.Machine.execFreezeZone r s
  | .thawZone r => Sys2Proof.Machine.execThawZone r s
  | .loadZones r => Sys2Proof.Machine.execLoadZones r s
  | .loadPartnersPart r => Sys2Proof.Machine.execLoadPartnersPart r s
  | .loadPartnersLast r => Sys2Proof.Machine.execLoadPartnersLast r s
  | .configureLinkCell r => Sys2Proof.Machine.execConfigureLinkCell r s
  | .configureLinkShore r => Sys2Proof.Machine.execConfigureLinkShore r s
  | .pinLink r => Sys2Proof.Machine.execPinLink r s
  | .loadTariffPlan r => Sys2Proof.Machine.execLoadTariffPlan r s
  | .commitTariffNow r => Sys2Proof.Machine.execCommitTariffNow r s
  | .commitTariffAtDayRoll r => Sys2Proof.Machine.execCommitTariffAtDayRoll r s
  | .dayRoll r => Sys2Proof.Machine.execDayRoll r s
  | .setBilling r => Sys2Proof.Machine.execSetBilling r s
  | .setCap r => Sys2Proof.Machine.execSetCap r s
  | .setClass r => Sys2Proof.Machine.execSetClass r s
  | .evict r => Sys2Proof.Machine.execEvict r s
  | .queryZone r => Sys2Proof.Machine.execQueryZone r s
  | .queryLinkCell r => Sys2Proof.Machine.execQueryLinkCell r s
  | .queryLinkShore r => Sys2Proof.Machine.execQueryLinkShore r s
  | .queryLinkManagement r => Sys2Proof.Machine.execQueryLinkManagement r s
  | .querySubscriberSingle r => Sys2Proof.Machine.execQuerySubscriberSingle r s
  | .querySubscriberSummary r => Sys2Proof.Machine.execQuerySubscriberSummary r s
  | .queryStore r => Sys2Proof.Machine.execQueryStore r s
  | .setDelivery r => Sys2Proof.Machine.execSetDelivery r s
  | .exportRecords r => Sys2Proof.Machine.execExportRecords r s
  | .confirmExport r => Sys2Proof.Machine.execConfirmExport r s
  | .flushRecords r => Sys2Proof.Machine.execFlushRecords r s
  | .flushRecordsDone => Sys2Proof.Machine.execFlushRecordsDone s
  | .unknownKindRequest kind tag => Sys2Proof.Machine.execUnknownKindRequest kind tag s
  | .frameReceived bytes => Sys2Proof.Machine.execFrameReceived bytes s
  | .frameGap => Sys2Proof.Machine.execFrameGap s
  | .hostClearToSend given => Sys2Proof.Machine.execHostClearToSend given s
  | .sendFrame => Sys2Proof.Machine.execSendFrame s
  | .powerOn => Sys2Proof.Machine.execPowerOn s
  | .powerOnScanEnd mapReadable unreadable => Sys2Proof.Machine.execPowerOnScanEnd mapReadable unreadable s
  | .powerLoss => Sys2Proof.Machine.execPowerLoss s
  | .fixTimerExpiry => Sys2Proof.Machine.execFixTimerExpiry s
  | .holdExpiry => Sys2Proof.Machine.execHoldExpiry s
  | .retentionExpiry handle => Sys2Proof.Machine.execRetentionExpiry handle s
  | .headHello port capacity => Sys2Proof.Machine.execHeadHello port capacity s
  | .attachAsk port token code digits => Sys2Proof.Machine.execAttachAsk port token code digits s
  | .decideAttachAsk => Sys2Proof.Machine.execDecideAttachAsk s
  | .depart port token => Sys2Proof.Machine.execDepart port token s
  | .headResync port => Sys2Proof.Machine.execHeadResync port s
  | .cellCarrierLost port => Sys2Proof.Machine.execCellCarrierLost port s
  | .portLostExpiry handle => Sys2Proof.Machine.execPortLostExpiry handle s
  | .bearerOpen port token slot kind => Sys2Proof.Machine.execBearerOpen port token slot kind s
  | .bearerClose port identity => Sys2Proof.Machine.execBearerClose port identity s
  | .upFrame port identity payload => Sys2Proof.Machine.execUpFrame port identity payload s
  | .localDown identity payload => Sys2Proof.Machine.execLocalDown identity payload s
  | .localCarrierChange present => Sys2Proof.Machine.execLocalCarrierChange present s
  | .shoreDown link identity token payload => Sys2Proof.Machine.execShoreDown link identity token payload s
  | .meteredAddition handle attach dir bytes => Sys2Proof.Machine.execMeteredAddition handle attach dir bytes s
  | .ageExpiry handle => Sys2Proof.Machine.execAgeExpiry handle s
  | .shoreCarrierLost link => Sys2Proof.Machine.execShoreCarrierLost link s
  | .shoreCarrierReturn link => Sys2Proof.Machine.execShoreCarrierReturn link s
  | .modemReady link => Sys2Proof.Machine.execModemReady link s
  | .probeEchoDue link => Sys2Proof.Machine.execProbeEchoDue link s
  | .echoBack link linkNumber seq purpose => Sys2Proof.Machine.execEchoBack link linkNumber seq purpose s
  | .echoWindowEnd link seq => Sys2Proof.Machine.execEchoWindowEnd link seq s
  | .keepaliveDue link => Sys2Proof.Machine.execKeepaliveDue link s
  | .holddownExpiry link => Sys2Proof.Machine.execHolddownExpiry link s
  | .reprobeExpiry link => Sys2Proof.Machine.execReprobeExpiry link s
  | .settleTimerExpiry => Sys2Proof.Machine.execSettleTimerExpiry s
  | .moveAck link number => Sys2Proof.Machine.execMoveAck link number s
  | .moveAckTimerExpiry => Sys2Proof.Machine.execMoveAckTimerExpiry s
  | .drainingGuardExpiry link => Sys2Proof.Machine.execDrainingGuardExpiry link s
  | .graceExpiry => Sys2Proof.Machine.execGraceExpiry s
  | .storeDrain => Sys2Proof.Machine.execStoreDrain s
  | .pacerSend => Sys2Proof.Machine.execPacerSend s
  | .regOk link handle token partner => Sys2Proof.Machine.execRegOk link handle token partner s
  | .regRefused link handle token partner reason => Sys2Proof.Machine.execRegRefused link handle token partner reason s
  | .refreshOk link handle token partner => Sys2Proof.Machine.execRefreshOk link handle token partner s
  | .refreshRefused link handle token partner => Sys2Proof.Machine.execRefreshRefused link handle token partner s
  | .exchangeTimerExpiry handle => Sys2Proof.Machine.execExchangeTimerExpiry handle s
  | .refreshDue handle => Sys2Proof.Machine.execRefreshDue handle s
  | .acceptRecord => Sys2Proof.Machine.execAcceptRecord s
  | .writeSlotDone ok => Sys2Proof.Machine.execWriteSlotDone ok s
  | .mapWriteDone ok => Sys2Proof.Machine.execMapWriteDone ok s
  | .verifyReadDone ok => Sys2Proof.Machine.execVerifyReadDone ok s
  | .readSlotDone ok => Sys2Proof.Machine.execReadSlotDone ok s
  | .clearSlotDone ok => Sys2Proof.Machine.execClearSlotDone ok s
  | .buildSettleBatch => Sys2Proof.Machine.execBuildSettleBatch s
  | .settleAck link batch => Sys2Proof.Machine.execSettleAck link batch s
  | .batchTimerExpiry => Sys2Proof.Machine.execBatchTimerExpiry s
  | .modemNotReady link => Sys2Proof.Machine.execModemNotReady link s

end Sys2Proof.Machine
end

