-- ==== Sys2Proof/Safety.lean ====
section
/-! DEFINITION. What counts as a safe state and a safe run, and the conditions in whose terms statements are made. No
command faults or is refused, so a run is safe when every state of it keeps the manual's own bounds. -/

namespace Sys2Proof.Machine

/-! ## Conditions of statements -/

/-- The part is powered and the interface holds no request: one that comes up is taken at once (R176). -/
abbrev State.hostFree (s : State) : Prop := s.powered = true ∧ s.mli.work = none ∧ s.mli.input = []

/-- Moreover the power-on scan has ended, so that every request is taken (R177). -/
abbrev State.hostReady (s : State) : Prop := s.hostFree ∧ s.rsc.scanEnded = true

/-- `s` with the counters of cell port `p` changed by `f`, and nothing else. -/
def State.portCounted (p : Fin 6) (f : PortCounters → PortCounters) (s : State) : State :=
  { s with cpc := { s.cpc with ports := s.cpc.ports.set p { s.cpc.ports[p] with counters := f s.cpc.ports[p].counters } } }

/-- `s` after a request of `kind` and `tag` has been taken and answered with status OK and these fields, its effect apart:
the reply is made ready, it carries and clears the overflow indication, and two counters count (R176 to R178, R184). -/
def State.replied (kind tag : Byte) (clamped : Bool) (fields : List Byte) (s : State) : State :=
  { s with mli := { s.mli with
    tx := s.mli.tx ++ [.reply { tag := tag, body := replyHeader kind none s.mli.overflow clamped ++ fields }],
    overflow := false,
    counters := { s.mli.counters with
      taken := bump32 s.mli.counters.taken, repliesOk := bump32 s.mli.counters.repliesOk } } }

/-- `s` after a request of `kind` and `tag` has been taken and refused for a reason, with these fields, `clamped`
telling whether a value was clamped by then (R176 to R178, R184; assumption 57): nothing else changes. -/
def State.turnedAwayClamped (kind tag : Byte) (clamped : Bool) (reason : Reason) (fields : List Byte) (s : State) : State :=
  { s with mli := { s.mli with
    tx := s.mli.tx ++ [.reply { tag := tag, body := replyHeader kind (some reason) s.mli.overflow clamped ++ fields }],
    overflow := false,
    counters := { s.mli.counters with
      taken := bump32 s.mli.counters.taken, refused := bumpAt 8 s.mli.counters.refused reason.place } } }

/-- `State.turnedAwayClamped` where no value was clamped. -/
def State.turnedAway (kind tag : Byte) (reason : Reason) (fields : List Byte) (s : State) : State :=
  s.turnedAwayClamped kind tag false reason fields

/-- The last thing `t` made ready is the OK reply to a request of `kind` and `tag` with these fields. -/
def RepliedOk (kind tag : Byte) (clamped : Bool) (fields : List Byte) (t : State) : Prop :=
  ∃ overflow : Bool, t.mli.tx.getLast? = some (.reply { tag := tag, body := replyHeader kind none overflow clamped ++ fields })

/-! ## Bounds and invariants -/

/-- Record memory has its canonical form. -/
abbrev State.memoryOk (s : State) : Prop := Memory.wf s.rsc.memory = true

/-- The request input holds at most 4 requests (R176) and the notice queue at most 64 notices (R178). -/
abbrev State.queuesOk (s : State) : Prop := s.mli.input.length ≤ 4 ∧ noticeCount s.mli.tx ≤ 64

/-- While the device is UNCONFIGURED or the verdict's policy is QUIET, no cell port is RADIATING (R16). -/
abbrev State.radioOk (s : State) : Prop :=
  ∀ p : Fin 6, (s.port p).state = .radiating → s.running = true ∧ policyOf s.rules? ≠ .quiet

/-- Every handle is either that of one live entry or once in the free-handle FIFO (R46). -/
abbrev State.handlesOk (s : State) : Prop := (s.handles ++ s.table.freeHandles).Perm (List.range 2048)

/-- The swap store never holds more than 524,288 bytes of payload (R112). -/
abbrev State.storeOk (s : State) : Prop := occupancy s.sws.frames ≤ 524288

/-- A non-zero cap is never passed, and an entry is barred exactly when it has a non-zero cap and its total equals it (R148). -/
abbrev Entry.capOk (e : Entry) : Prop := (e.cap ≠ 0 → e.total ≤ e.cap) ∧ (e.barred = true ↔ e.cap ≠ 0 ∧ e.total = e.cap)

/-- Every live entry keeps to its cap (R148), and totals, caps and the default cap are within 32 bits (R43, R182). -/
abbrev State.capsOk (s : State) : Prop :=
  (∀ p ∈ s.table.entries, p.2.capOk ∧ p.2.total ≤ 4294967295 ∧ p.2.cap ≤ 4294967295)
    ∧ s.mli.billing.defaultCap ≤ 4294967295

/-- The write buffer holds at most 32 records, and none while it is disabled, which it is whenever the spare pool holds 16
slots or fewer and before the power-on scan has ended (R161, R162, R171). -/
abbrev State.bufferOk (s : State) : Prop :=
  s.rsc.buffer.length ≤ 32 ∧ (s.rsc.bufferOn = false → s.rsc.buffer = []) ∧ (s.rsc.sparePool ≤ 16 → s.rsc.bufferOn = false)
    ∧ (s.rsc.scanEnded = false → s.rsc.bufferOn = false)

/-- At most 64 exchanges are in flight (R124). -/
abbrev State.exchangesOk (s : State) : Prop := s.rge.inFlight.length ≤ 64

/-- At most one link is ACTIVE; during a swap it is the swap's from-link; and a link is JOINING only as the to-link of the
swap in progress (R98). -/
abbrev State.linksOk (s : State) : Prop :=
  (∀ l l' : Fin 4, (s.link l).state = .active → (s.link l').state = .active → l = l') ∧
  (∀ l : Fin 4, (s.link l).state = .active → s.slm.swap.inProgress = true → s.slm.swap.fromLink = some l) ∧
  (∀ l : Fin 4, (s.link l).state = .joining → s.slm.swap.inProgress = true ∧ s.slm.swap.toLink = some l)

/-- A state within all these bounds. -/
abbrev State.safe (s : State) : Prop :=
  s.memoryOk ∧ s.queuesOk ∧ s.radioOk ∧ s.handlesOk ∧ s.storeOk ∧ s.capsOk ∧ s.bufferOk ∧ s.exchangesOk ∧ s.linksOk

/-- A run of `n` steps that stays safe: every step answers a next state, and every state is within the bounds. -/
def State.safeRun : Nat → State → Prop
  | 0, s => s.safe
  | n + 1, s => s.safe ∧ ∃ t, step s = .next t ∧ t.safeRun n

end Sys2Proof.Machine
end

