-- ==== Sys2Proof/WellFormed.lean ====
section
/-! DEFINITION. Which commands can be written down at all: every number within the field that carries it (00_scope,
Identifiers; R24, R185) and every list within its places. A command whose values its rule refuses or counts as malformed
is well-formed. -/

namespace Sys2Proof.WellFormed

/-- `n` fits in `w` bytes. -/
def fits (w n : Nat) : Bool := decide (n < 256 ^ w)

/-- A home or network code fits in its 20 bits (R185). -/
def codeFits (c : HomeCode) : Bool := decide (c.number < 1048576)

/-- A zone record fits in its 17 bytes (R185). -/
def zoneFits (z : Zone) : Bool :=
  fits 3 z.start && fits 1 z.rules.jurisdiction && fits 1 z.rules.powerCap && fits 1 z.rules.tariffClass
    && decide (z.rules.prefs.length ≤ 4) && z.rules.prefs.all (fits 1) && decide (z.rules.linkOrder.length ≤ 3)

/-- A partner record fits in its 19 + 3n bytes (R185). -/
def partnerFits (p : Partner) : Bool :=
  fits 1 p.index && codeFits p.code && fits 2 p.interval && fits 2 p.markup && decide (p.plans.length = 8)
    && p.plans.all (fits 1) && fits 1 p.codes.length && p.codes.all codeFits

/-- A tariff plan record fits in its 11 bytes (R185). -/
def planFits (t : TariffPlan) : Bool := fits 3 t.increment && fits 3 t.rate1 && fits 3 t.rate2 && fits 2 t.threshold

def loadZonesFits (b : LoadZonesBody) : Bool :=
  fits 3 b.routeLength && fits 2 b.hysteresis && fits 1 b.fixTimeout && fits 2 b.holdTime && fits 1 b.retention
    && fits 1 b.zones.length && b.zones.all zoneFits

/-- A part carries its two settings exactly when it is part 0 (R183). -/
def partFits (b : PartnersPart) : Bool :=
  fits 1 b.part && fits 1 b.records.length && b.records.all partnerFits
    && (match b.settings with
        | some (rate, timer) => b.part == 0 && fits 1 rate && fits 2 timer
        | none => b.part != 0)

def shoreFits (b : ShoreConfig) : Bool :=
  fits 1 b.port && fits 1 b.costRank && (b.rttLimit.all (fits 2)) && fits 2 b.holddown && fits 2 b.reprobe

def pinFits (b : PinBody) : Bool :=
  (b.port.all (fits 1)) && fits 1 b.settleTime && fits 2 b.moveAckTimer && fits 2 b.guardTime && fits 2 b.grace

def billingFits (b : BillingBody) : Bool :=
  fits 4 b.defaultCap && fits 1 b.alertPercent && fits 2 b.maxAge && fits 1 b.exemptList.length
    && b.exemptList.all codeFits

/-- A handle names one of 2,048 entries. -/
def handleFits (h : Nat) : Bool := decide (h < 2048)

/-- A bearer identity names one of 8,192 places. -/
def identityFits (n : Nat) : Bool := decide (n < 8192)

/-- A home code as a head sends it: its number in 3 bytes, its digit count in 1. -/
def askFits (code digits : Nat) : Bool := fits 3 code && fits 1 digits

/-- A kind that the request catalogue lacks (R175). -/
def unknownKind (kind : Byte) : Bool := kind == 0 || decide (0x19 < kind.toNat)

/-- A request whose body, if it is laid out, passes `f`. -/
def bodyFits {α : Type} (r : Request α) (f : α → Bool) : Bool := r.body.all f

end Sys2Proof.WellFormed

namespace Sys2Proof

open WellFormed

/-- The command can be written down. -/
def Instr.wellFormed : Instr → Bool
  | .start _ => true
  | .reset _ => true
  | .resetComplete => true
  | .setTime r => bodyFits r (fits 4)
  | .fix r => bodyFits r fun b => fits 3 b.distance
  | .freezeZone _ => true
  | .thawZone _ => true
  | .loadZones r => bodyFits r loadZonesFits
  | .loadPartnersPart r => bodyFits r partFits
  | .loadPartnersLast r => bodyFits r partFits
  | .configureLinkCell r => bodyFits r fun b => fits 1 b.port && fits 2 b.limit && fits 2 b.portLostTime
  | .configureLinkShore r => bodyFits r shoreFits
  | .pinLink r => bodyFits r pinFits
  | .loadTariffPlan r => bodyFits r fun b => fits 1 b.slot && b.plan.all planFits
  | .commitTariffNow _ => true
  | .commitTariffAtDayRoll _ => true
  | .dayRoll _ => true
  | .setBilling r => bodyFits r billingFits
  | .setCap r => bodyFits r fun b => fits 2 b.who.handle && fits 4 b.cap
  | .setClass r => bodyFits r fun b => fits 2 b.who.handle
  | .evict r => bodyFits r fun b => fits 2 b.handle
  | .queryZone _ => true
  | .queryLinkCell r => bodyFits r (fits 1)
  | .queryLinkShore r => bodyFits r (fits 1)
  | .queryLinkManagement _ => true
  | .querySubscriberSingle r => bodyFits r fun b => match b with | .byHandle h => fits 2 h | .byToken _ => true
  | .querySubscriberSummary _ => true
  | .queryStore _ => true
  | .setDelivery r => bodyFits r fun b => fits 1 b.batchTimer
  | .exportRecords _ => true
  | .confirmExport r => bodyFits r (fits 2)
  | .flushRecords _ => true
  | .flushRecordsDone => true
  | .unknownKindRequest kind _ => unknownKind kind
  | .frameReceived _ => true
  | .frameGap => true
  | .hostClearToSend _ => true
  | .sendFrame => true
  | .powerOn => true
  | .powerOnScanEnd _ unreadable => unreadable.all fun n => decide (n < 32768)
  | .powerLoss => true
  | .fixTimerExpiry => true
  | .holdExpiry => true
  | .retentionExpiry handle => handleFits handle
  | .headHello _ capacity => fits 2 capacity
  | .attachAsk _ _ code digits => askFits code digits
  | .decideAttachAsk => true
  | .depart _ _ => true
  | .headResync _ => true
  | .cellCarrierLost _ => true
  | .portLostExpiry handle => handleFits handle
  | .bearerOpen _ _ slot _ => fits 1 slot
  | .bearerClose _ identity => identityFits identity
  | .upFrame _ identity _ => identityFits identity
  | .localDown identity _ => identityFits identity
  | .localCarrierChange _ => true
  | .shoreDown _ identity _ _ => identityFits identity
  | .meteredAddition handle attach _ bytes => handleFits handle && fits 4 attach && decide (1 ≤ bytes) && decide (bytes ≤ 1536)
  | .ageExpiry handle => handleFits handle
  | .shoreCarrierLost _ => true
  | .shoreCarrierReturn _ => true
  | .modemReady _ => true
  | .probeEchoDue _ => true
  | .echoBack _ linkNumber seq _ => fits 1 linkNumber && fits 2 seq
  | .echoWindowEnd _ seq => fits 2 seq
  | .keepaliveDue _ => true
  | .holddownExpiry _ => true
  | .reprobeExpiry _ => true
  | .settleTimerExpiry => true
  | .moveAck _ number => fits 2 number
  | .moveAckTimerExpiry => true
  | .drainingGuardExpiry _ => true
  | .graceExpiry => true
  | .storeDrain => true
  | .pacerSend => true
  | .regOk _ handle _ partner => fits 2 handle && fits 1 partner
  | .regRefused _ handle _ partner _ => fits 2 handle && fits 1 partner
  | .refreshOk _ handle _ partner => fits 2 handle && fits 1 partner
  | .refreshRefused _ handle _ partner => fits 2 handle && fits 1 partner
  | .exchangeTimerExpiry handle => handleFits handle
  | .refreshDue handle => handleFits handle
  | .acceptRecord => true
  | .writeSlotDone _ => true
  | .mapWriteDone _ => true
  | .verifyReadDone _ => true
  | .readSlotDone _ => true
  | .clearSlotDone _ => true
  | .buildSettleBatch => true
  | .settleAck _ batch => fits 2 batch
  | .batchTimerExpiry => true
  | .modemNotReady _ => true

end Sys2Proof
end

