-- ==== Sys2Proof/Certificates/Slice0/Obligations.lean ====
section
/-! DEFINITION. The statements for the provers, family by family. `s.hostReady` says that a request that comes up is taken
at once; `State.replied` and `State.turnedAway` are a state after the reply, all else as it was (Safety.lean). -/

open Sys2Proof Sys2Proof.Machine

/-! ## The queue, power and the whole machine -/

/-- The command at the front of the queue runs with the queue's rest (the model's own queue, assumption 1).
Every command completes in every state: none faults and none is refused. -/
def Obligations.StepTakesTheFront : Prop :=
  (∀ (c : Instr) (rest : List Instr) (s : State), s.pending = c :: rest → step s = exec c { s with pending := rest }) ∧
  (∀ (c : Instr) (s : State), ∃ t, exec c s = .next t)

/-- The values every block holds at power-on, every counter among them: the tracker's, the cell ports', the table's, the
router's, the links', the swap record's, the swap store's, the engine's, the Rating Unit's, the record store's and the
interface's (R21, R42, R60, R76, R97, R98, R117, R140, R157, R173, R184). Carriers and modems, for which the rules give no
value, are left out, and so is the swap record's Started-at. -/
def Obligations.ResetValues : Prop :=
  let s := State.reset
  (s.tracker.verdict = none ∧ s.tracker.zones = [] ∧ s.tracker.routeLength = 0 ∧ s.tracker.hysteresis = 200 ∧ s.tracker.fixTimeout = 10 ∧
    s.tracker.holdTime = 30 ∧ s.tracker.retentionTime = 20 ∧ s.tracker.frozen = false ∧ s.tracker.forcedFreeze = false ∧
    s.tracker.holdExpiry = none ∧ s.tracker.lastFix = none ∧ s.tracker.lastPosition = none ∧ s.tracker.fixExpiry = none) ∧
  (∀ p : Fin 6, (s.port p).state = .down ∧ (s.port p).headCapacity = 1024 ∧ (s.port p).limit = 512 ∧
    (s.port p).portLostTime = 60 ∧ (s.port p).hold = false ∧ (s.port p).asks = [] ∧
    (s.port p).counters = ⟨0, 0, #v[0, 0, 0, 0], 0, 0, 0, 0, 0, 0, 0⟩) ∧
  s.cpc.lastServed = 5 ∧ s.cpc.storeHold = false ∧
  s.table.entries = [] ∧ s.table.freeHandles = List.range 2048 ∧ s.table.attachCounter = 0 ∧
  s.table.counters = ⟨0, 0, #v[0, 0, 0, 0], 0, 0⟩ ∧
  (let z : Tally := ⟨0, 0⟩
   s.router.totals = {
     upDirect := z, upStored := z, upLocal := z, upPortal := #v[z, z, z, z, z, z], upIsolated := z, upNotOpen := z,
     localPortDiscards := z, localDelivered := z, localDiscards := z, downDelivered := z, downNotOpen := z,
     downStaleBearer := z, downWrongKind := z, downNotEntitled := #v[z, z, z, z, z, z, z], handOffs := z, meteredUp := z,
     meteredDown := z, opens := 0, refusals := #v[0, 0], closes := 0, staleCloses := 0, freedOther := 0 } ∧
   s.router.additions = []) ∧
  (∀ l : Fin 4, let k := s.link l
    (k.type = none ∧ k.enabled = false ∧ k.costRank = 0 ∧ k.rttLimit = none ∧ k.holddownTime = 30 ∧ k.reprobeTime = 60) ∧
    (k.state = .absent ∧ k.longOwed = true ∧ k.probe = none ∧ k.lastProbe = none ∧ k.misses = 0 ∧ k.echoSeq = 0 ∧
      k.openEchoes = [] ∧ k.waiting = []) ∧
    (k.holddownAt = none ∧ k.reprobeAt = none ∧ k.nextEcho = none ∧ k.guardAt = none) ∧
    k.counters = ⟨0, 0, 0, 0, 0, 0, 0, 0, 0, 0, 0, 0, 0, 0, 0⟩) ∧
  (s.slm.pin = none ∧ s.slm.settleTime = 10 ∧ s.slm.moveAckTimer = 3000 ∧ s.slm.guardTime = 2000 ∧ s.slm.grace = 5000 ∧
    s.slm.settle = none ∧ s.slm.counters = ⟨0, 0, 0, 0, 0, 0, 0, 0, 0⟩) ∧
  (s.slm.swap.inProgress = false ∧ s.slm.swap.number = 0 ∧ s.slm.swap.planned = none ∧ s.slm.swap.fromLink = none ∧
    s.slm.swap.toLink = none ∧ s.slm.swap.moveSent = false ∧ s.slm.swap.ackExpiry = none ∧ s.slm.swap.lastOutcome = none) ∧
  (s.slm.isolated = none ∧ s.slm.graceAt = none ∧
    s.slm.cutOff = false ∧ s.sws.frames = [] ∧
    s.sws.counters = ⟨⟨0, 0⟩, ⟨0, 0⟩, ⟨0, 0⟩, #v[⟨0, 0⟩, ⟨0, 0⟩, ⟨0, 0⟩, ⟨0, 0⟩, ⟨0, 0⟩], 0⟩) ∧
  (s.rge.partners = [] ∧ s.rge.pacerRate = 20 ∧ s.rge.exchangeTimer = 5000 ∧ s.rge.bucket = 20000 ∧ s.rge.inFlight = [] ∧
    s.rge.counters = ⟨0, 0, 0, 0, #v[0, 0, 0], 0, 0, 0, 0, 0, 0, 0, 0, 0, 0, 0, 0, 0, 0, 0⟩) ∧
  (s.rtu.active = [] ∧ s.rtu.activeExists = false ∧ s.rtu.bank = [] ∧ s.rtu.armed = false ∧ s.rtu.closeQueue = [] ∧
    s.rtu.waitList = [] ∧
    s.rtu.counters = ⟨0, #v[0, 0, 0, 0, 0, 0, 0, 0, 0, 0, 0, 0], 0, 0, 0, 0, 0, 0, 0, 0, 0, 0, 0, 0, 0, 0, 0⟩) ∧
  (s.rsc.buffer = [] ∧ s.rsc.batch = none ∧ s.rsc.batchNumber = 0 ∧ s.rsc.channel = .shore ∧ s.rsc.batchTimer = 10 ∧
    s.rsc.scanEnded = false ∧
    s.rsc.counters = ⟨0, 0, 0, 0, 0, 0, 0, 0, 0, 0, 0, 0, #v[0, 0, 0, 0, 0], 0, 0, 0, 0, 0, 0⟩) ∧
  (s.mli.device = .unconfigured ∧ s.mli.clock = 0 ∧ s.mli.shipTime = 0 ∧ s.mli.input = [] ∧ s.mli.tx = [] ∧
    s.mli.overflow = false ∧ s.mli.staging = none ∧ s.mli.billing.defaultCap = 0 ∧ s.mli.billing.alertPercent = 80 ∧
    s.mli.billing.maxAge = 900 ∧ s.mli.billing.exemptList = [] ∧
    s.mli.counters = ⟨0, 0, 0, 0, 0, 0, #v[0, 0, 0, 0, 0, 0, 0, 0], 0, 0, 0⟩)

/-- The state after power-on is within every bound of `State.safe`. -/
def Obligations.ResetIsSafe : Prop := State.reset.safe

/-- Only START makes the device RUNNING, and only a RESET, power-on or a power loss makes it UNCONFIGURED (R179).
The verdict changes by the tracker's own commands, START, RESET and power alone; a THAW-ZONE may change it when the hold
time is 0 (R12, R13). -/
def Obligations.DeviceAndVerdictChange : Prop :=
  (∀ (c : Instr) (s t : State), exec c s = .next t → t.mli.device ≠ s.mli.device →
     (t.mli.device = .running ∧ ∃ r, c = .start r) ∨
     (t.mli.device = .unconfigured ∧ (c = .resetComplete ∨ c = .powerOn ∨ c = .powerLoss))) ∧
  (∀ (c : Instr) (s t : State), exec c s = .next t → t.tracker.verdict ≠ s.tracker.verdict →
     (∃ r, c = .fix r) ∨ c = .holdExpiry ∨ (∃ r, c = .loadZones r) ∨ (∃ r, c = .thawZone r ∧ s.tracker.holdTime = 0) ∨
     (∃ r, c = .start r) ∨ c = .resetComplete ∨ c = .powerOn ∨ c = .powerLoss)

/-- Record memory, its map area included, changes only at the end of a write, a clear or a map area write, and where power
cuts such an operation short (R159, R171): every other command leaves every byte of it as it was. -/
def Obligations.RecordMemoryChanges : Prop :=
  ∀ (c : Instr) (s t : State), exec c s = .next t → (t.rsc.memory ≠ s.rsc.memory ∨ t.rsc.mapArea ≠ s.rsc.mapArea) →
    s.powered = true ∧ ((∃ ok, c = .writeSlotDone ok) ∨ (∃ ok, c = .clearSlotDone ok) ∨ (∃ ok, c = .mapWriteDone ok) ∨
      c = .powerOn ∨ c = .powerLoss)

/-- Every setting changes by its own request alone, and where RESET or power takes a block back to its values: the zone
table and the tracker's settings by LOAD-ZONES (R4), the partner table and the pacer's settings by the last part of
LOAD-PARTNERS (R120), the banks by the tariff requests and DAY-ROLL (R142, R144, R145), the billing settings by
SET-BILLING (R182), a link's and a port's settings by CONFIGURE-LINK (R23, R78), the swap settings by PIN-LINK (R93) and
the delivery settings by SET-DELIVERY (R167). -/
def Obligations.SettingsChangeByTheirRequests : Prop :=
  ∀ (c : Instr) (s t : State), exec c s = .next t → c ≠ .resetComplete → c ≠ .powerOn → c ≠ .powerLoss →
    ((∀ r, c ≠ .loadZones r) → t.tracker.zones = s.tracker.zones ∧ t.tracker.routeLength = s.tracker.routeLength ∧
      t.tracker.hysteresis = s.tracker.hysteresis ∧ t.tracker.fixTimeout = s.tracker.fixTimeout ∧
      t.tracker.holdTime = s.tracker.holdTime ∧ t.tracker.retentionTime = s.tracker.retentionTime) ∧
    ((∀ r, c ≠ .loadPartnersLast r) → t.rge.partners = s.rge.partners ∧ t.rge.pacerRate = s.rge.pacerRate ∧
      t.rge.exchangeTimer = s.rge.exchangeTimer) ∧
    ((∀ r, c ≠ .commitTariffNow r) → (∀ r, c ≠ .dayRoll r) →
      t.rtu.active = s.rtu.active ∧ ((∀ r, c ≠ .loadTariffPlan r) → t.rtu.bank = s.rtu.bank) ∧
      ((∀ r, c ≠ .commitTariffAtDayRoll r) → t.rtu.armed = s.rtu.armed)) ∧
    ((∀ r, c ≠ .setBilling r) → t.mli.billing = s.mli.billing) ∧
    ((∀ r, c ≠ .configureLinkShore r) → ∀ l : Fin 4, (t.link l).type = (s.link l).type ∧
      (t.link l).costRank = (s.link l).costRank ∧ (t.link l).rttLimit = (s.link l).rttLimit ∧
      (t.link l).holddownTime = (s.link l).holddownTime ∧ (t.link l).reprobeTime = (s.link l).reprobeTime ∧
      (t.link l).enabled = (s.link l).enabled) ∧
    ((∀ r, c ≠ .configureLinkCell r) → ∀ p : Fin 6, (t.port p).limit = (s.port p).limit ∧
      (t.port p).portLostTime = (s.port p).portLostTime) ∧
    ((∀ r, c ≠ .pinLink r) → t.slm.pin = s.slm.pin ∧ t.slm.settleTime = s.slm.settleTime ∧
      t.slm.moveAckTimer = s.slm.moveAckTimer ∧ t.slm.guardTime = s.slm.guardTime ∧ t.slm.grace = s.slm.grace) ∧
    ((∀ r, c ≠ .setDelivery r) → t.rsc.channel = s.rsc.channel ∧ t.rsc.batchTimer = s.rsc.batchTimer)

/-- What the part sends, it sends for good, and a cell port that is DOWN before and after a command is sent nothing by it
(R27). -/
def Obligations.DownPortIsSentNothing : Prop :=
  ∀ (c : Instr) (s t : State), exec c s = .next t →
    ∃ new : List Sent, t.sent = s.sent ++ new ∧
      ∀ p r, Sent.toHead p r ∈ new → (s.port p).state ≠ .down ∨ (t.port p).state ≠ .down

/-! ## Invariants that every step keeps -/

/-- Record memory keeps its canonical form.
At most 4 requests and 64 notices (R176, R178).
The swap store's occupancy stays within its capacity (R112).
The write buffer keeps its bounds (R161, R162).
At most 64 exchanges in flight (R124). -/
def Obligations.StepKeepsBounds : Prop :=
  (∀ s t : State, s.memoryOk → step s = .next t → t.memoryOk) ∧
  (∀ s t : State, s.queuesOk → step s = .next t → t.queuesOk) ∧
  (∀ s t : State, s.storeOk → step s = .next t → t.storeOk) ∧
  (∀ s t : State, s.bufferOk → step s = .next t → t.bufferOk) ∧
  (∀ s t : State, s.exchangesOk → step s = .next t → t.exchangesOk)

/-- No cell port radiates while the device is UNCONFIGURED or the policy is QUIET (R16). -/
def Obligations.StepKeepsRadioSilence : Prop := ∀ s t : State, s.radioOk → step s = .next t → t.radioOk

/-- Every handle stays with one live entry or once in the free-handle FIFO (R46). -/
def Obligations.StepKeepsHandles : Prop := ∀ s t : State, s.handlesOk → step s = .next t → t.handlesOk

/-- No total passes its cap, and the barred flag stands exactly at the cap (R148); totals, caps and the default cap stay
within 32 bits (R43, R182). -/
def Obligations.StepKeepsCaps : Prop := ∀ s t : State, s.capsOk → step s = .next t → t.capsOk

/-- At most one link is ACTIVE, and a JOINING link is the to-link of the swap in progress (R98). -/
def Obligations.StepKeepsLinks : Prop := ∀ s t : State, s.linksOk → step s = .next t → t.linksOk

/-! ## The route zone tracker -/

/-- FIX while the device is UNCONFIGURED is recorded and not evaluated: the last fix, and but for a NONE fix the last
position, with the distance held to the route length, or to 1,000,000 without a table (R5).
A GOOD or DEGRADED fix while RUNNING is recorded in the same way, restarts the fix timer at the fix timeout, and is
answered with the distance taken (R5).
A NONE fix while RUNNING freezes the verdict, ends any hold and restarts the fix timer; zone and last position stay (R5,
R10).
The fix timer's expiry while RUNNING sets the frozen flag, cancels any hold and leaves the zone; the timer does not run on
(R10). -/
def Obligations.FixesAreRecorded : Prop :=
  (∀ (s : State) (tag : Byte) (d : Nat) (q : Quality), s.hostReady → s.mli.device = .unconfigured →
     let top := if s.tracker.zones = [] then 1000000 else s.tracker.routeLength
     exec (.fix ⟨tag, some ⟨d, q⟩⟩) s = .next
       (({ s with tracker := { s.tracker with
           lastFix := some (q, s.mli.clock),
           lastPosition := if q = .none then s.tracker.lastPosition else some (min top d) } } : State).replied
         Kind.fix tag (decide (top < d)) (le 3 (min top d)))) ∧
  (∀ (s : State) (tag : Byte) (d : Nat) (q : Quality), s.hostReady → s.mli.device = .running → q ≠ .none →
     let top := if s.tracker.zones = [] then 1000000 else s.tracker.routeLength
     ∃ t, exec (.fix ⟨tag, some ⟨d, q⟩⟩) s = .next t ∧ t.tracker.lastFix = some (q, s.mli.clock) ∧
       t.tracker.lastPosition = some (min top d) ∧
       t.tracker.fixExpiry = some (s.mli.clock + s.tracker.fixTimeout * 1000) ∧
       t.tracker.forcedFreeze = s.tracker.forcedFreeze ∧
       RepliedOk Kind.fix tag (decide (top < d)) (le 3 (min top d)) t) ∧
  (∀ (s : State) (tag : Byte) (d : Nat), s.hostReady → s.mli.device = .running →
     let top := if s.tracker.zones = [] then 1000000 else s.tracker.routeLength
     exec (.fix ⟨tag, some ⟨d, .none⟩⟩) s = .next
       (({ s with tracker := { s.tracker with
           lastFix := some (.none, s.mli.clock), fixExpiry := some (s.mli.clock + s.tracker.fixTimeout * 1000),
           frozen := true, holdExpiry := none } } : State).replied Kind.fix tag (decide (top < d)) (le 3 (min top d)))) ∧
  (∀ (s : State) (e : Nat), s.powered = true → s.mli.device = .running → s.tracker.fixExpiry = some e → e ≤ s.mli.clock →
     exec .fixTimerExpiry s = .next
       { s with tracker := { s.tracker with frozen := true, holdExpiry := none, fixExpiry := none } })

/-- From NONE a GOOD fix sets the verdict to the zone it lies in, with no margin test: the frozen flag clears and no hold
begins; while the forced-freeze flag stands the verdict stays NONE (R9). The zone a distance lies in is the one whose
start is at most the distance and whose successor, if any, starts beyond it.
A DEGRADED fix establishes no zone from NONE: it is recorded and the fix timer restarted, the verdict stays NONE and the
frozen flag as it was (R5, R9). -/
def Obligations.FirstFixEstablishesTheZone : Prop :=
  (∀ (s t : State) (tag : Byte) (d : Nat), s.hostReady → s.mli.device = .running → s.tracker.verdict = none →
    s.tracker.zones.head?.map (·.start) = some 0 → exec (.fix ⟨tag, some ⟨d, .good⟩⟩) s = .next t →
    (s.tracker.forcedFreeze = false → ∃ v z, t.tracker.verdict = some v ∧ s.tracker.zones[v.index]? = some z ∧
      v.rules = z.rules ∧ z.start ≤ min s.tracker.routeLength d ∧
      (∀ z', s.tracker.zones[v.index + 1]? = some z' → min s.tracker.routeLength d < z'.start) ∧
      t.tracker.frozen = false ∧ t.tracker.holdExpiry = s.tracker.holdExpiry) ∧
    (s.tracker.forcedFreeze = true → t.tracker.verdict = none)) ∧
  (∀ (s : State) (tag : Byte) (d : Nat), s.hostReady → s.mli.device = .running → s.tracker.verdict = none →
    let top := if s.tracker.zones = [] then 1000000 else s.tracker.routeLength
    exec (.fix ⟨tag, some ⟨d, .degraded⟩⟩) s = .next
      (({ s with tracker := { s.tracker with
          lastFix := some (.degraded, s.mli.clock), lastPosition := some (min top d),
          fixExpiry := some (s.mli.clock + s.tracker.fixTimeout * 1000) } } : State).replied
        Kind.fix tag (decide (top < d)) (le 3 (min top d))))

/-- A GOOD or DEGRADED fix in a stricter zone changes the verdict to it at once, whatever the frozen flag, the
forced-freeze flag and the hold; of these only a GOOD fix that thaws a frozen verdict touches any. The copied fields are
the new zone's (R7).
Under a hold, a freeze or a DEGRADED fix the verdict does not move to an equal or laxer zone; a GOOD fix beyond the margin,
with neither flag standing and no hold running, moves it there (R6, R8).
A fix that changes the verdict to a zone of policy REDUCED or FULL rotates every unfrozen period whose class or
jurisdiction differs and whose serving partner is still eligible: it closes with reason ZONE, and a period opens under the
new zone for an entry that qualifies (R146, R152); without such a difference the period stays. A registration whose
partner is no longer eligible is void; a SERVED entry whose chosen partner differs begins a move; a MOVING entry whose
chosen partner is its serving partner, or that has none, is SERVED again and its REG-ASK is removed, with another chosen
partner it takes that as its candidate and a REG-ASK to any other is removed, and with the same candidate it goes on; an
entry that was REGISTERING or UNROAMED takes its chosen partner, or becomes UNROAMED; a LAPSED or RESTING entry without a
period stays as it was (R134, R135). That the zone check of every entry comes first is assumption 23 (DESIGN CHOICE), that
a candidate chosen again at another place of the list keeps its old place assumption 76 (DEDUCED). -/
def Obligations.FixMovesTheVerdict : Prop :=
  (∀ (s : State) (tag : Byte) (d : Nat) (q : Quality) (v c : VerdictZone), s.hostReady → s.mli.device = .running →
     q ≠ .none → s.tracker.zones ≠ [] → d ≤ s.tracker.routeLength → s.tracker.verdict = some v →
     s.tracker.locate d = some c → c.index ≠ v.index → policyRank c.rules.policy < policyRank v.rules.policy →
     ∃ t, exec (.fix ⟨tag, some ⟨d, q⟩⟩) s = .next t ∧ t.tracker.verdict = some c ∧
       t.tracker.forcedFreeze = s.tracker.forcedFreeze ∧
       (q = .good ∧ s.tracker.frozen = true ∧ s.tracker.forcedFreeze = false ∨
         t.tracker.frozen = s.tracker.frozen ∧ t.tracker.holdExpiry = s.tracker.holdExpiry)) ∧
  (∀ (s t : State) (tag : Byte) (d : Nat) (q : Quality) (v c : VerdictZone), s.hostReady → s.mli.device = .running →
     s.tracker.holdTime ≠ 0 → s.tracker.zones ≠ [] → d ≤ s.tracker.routeLength →
     s.tracker.verdict = some v → s.tracker.locate d = some c → policyRank v.rules.policy ≤ policyRank c.rules.policy →
     (q ≠ .good ∨ s.tracker.frozen = true ∨ s.tracker.forcedFreeze = true ∨ s.tracker.holdExpiry ≠ none ∨
       s.tracker.passesMargin v.index c.index d = false) →
     exec (.fix ⟨tag, some ⟨d, q⟩⟩) s = .next t → t.tracker.verdict = some v) ∧
  (∀ (s : State) (tag : Byte) (d : Nat) (v c : VerdictZone), s.hostReady → s.mli.device = .running →
     s.tracker.zones ≠ [] → d ≤ s.tracker.routeLength → s.tracker.verdict = some v → s.tracker.locate d = some c →
     c.index ≠ v.index → policyRank v.rules.policy ≤ policyRank c.rules.policy → s.tracker.frozen = false →
     s.tracker.forcedFreeze = false → s.tracker.holdExpiry = none → s.tracker.passesMargin v.index c.index d = true →
     ∃ t, exec (.fix ⟨tag, some ⟨d, .good⟩⟩) s = .next t ∧ t.tracker = { s.tracker with
       lastFix := some (.good, s.mli.clock), lastPosition := some d,
       fixExpiry := some (s.mli.clock + s.tracker.fixTimeout * 1000), verdict := some c }) ∧
  (∀ (s t : State) (tag : Byte) (d : Nat) (q : Quality) (c : VerdictZone), s.hostReady → s.mli.device = .running →
     s.handles.Nodup → exec (.fix ⟨tag, some ⟨d, q⟩⟩) s = .next t → t.tracker.verdict = some c →
     s.tracker.verdict ≠ some c → c.rules.policy ≠ .quiet →
     t.handles = s.handles ∧ ∀ h e, s.entry? h = some e → ∃ e', t.entry? h = some e' ∧
       (∀ p i, e.period = some p → e.closing = false → e.serving = some i → s.eligible e.home c.rules i = true →
         let differs := p.tariffClass ≠ c.rules.tariffClass ∨ p.jurisdiction ≠ c.rules.jurisdiction
         (¬ differs → e'.period = some p ∧ e'.closing = false) ∧
         (differs →
           (e'.closing = false ∧ e'.period = (if e.qualifies then t.periodFor? e' else none) ∧
             ∃ r ∈ t.rtu.closeQueue, { r with serial := none } = s.closureRecord e p .zone false) ∨
           (e'.closing = true ∧ e'.period = some p ∧
             ⟨h, e.attach, s.closureRecord e p .zone true⟩ ∈ t.rtu.waitList))) ∧
       (∀ i, e.serving = some i → e.reg = .served ∨ e.reg = .moving →
         (s.eligible e.home c.rules i = true → e'.serving = some i ∧
           (e.reg = .served → (e'.reg, e'.candidate) = match t.chosen e.home with
             | some x => if x.1 = i then (.served, e.candidate) else (.moving, some x)
             | none => (.served, e.candidate)) ∧
           (e.reg = .moving →
             ((∀ x, t.chosen e.home = some x → x.1 = i) → e'.reg = .served ∧ e'.candidate = none ∧
               ∀ y ∈ t.rge.inFlight, y.handle = h → y.kind ≠ .regAsk) ∧
             (∀ x, t.chosen e.home = some x → x.1 ≠ i → e'.reg = .moving ∧
               (e.candidate.map (·.1) = some x.1 → e'.candidate = e.candidate ∧
                 ∀ y ∈ s.rge.inFlight, y.handle = h → y ∈ t.rge.inFlight) ∧
               (e.candidate.map (·.1) ≠ some x.1 → e'.candidate = some x ∧
                 ∀ y ∈ t.rge.inFlight, y.handle = h → y.kind = .regAsk → y.partner = x.1)))) ∧
         (s.eligible e.home c.rules i = false → e'.serving = none ∧ e'.candidate = t.chosen e.home ∧
           e'.reg = (if t.chosen e.home = none then .unroamed else .registering) ∧ e'.regTime = none ∧ e'.balance = 0 ∧
           e'.nextDue = none ∧ (e'.period = none ∨ e'.closing = true))) ∧
       (e.reg = .registering ∨ e.reg = .unroamed →
         e'.reg = (if t.chosen e.home = none then .unroamed else .registering) ∧
         e'.candidate.map (·.1) = if e.reg = .unroamed ∧ t.chosen e.home = none then e.candidate.map (·.1)
           else (t.chosen e.home).map (·.1)) ∧
       (e.reg = .lapsed ∨ e.reg = .resting → e.period = none → e' = e))

/-- A quiet entry: a fix in a QUIET zone from a REDUCED or FULL verdict sends every listening port QUIET and makes every
entry RESTING that was not, with its retention timer started, its bearers and its port-lost marker gone, its period closed
or frozen and its refresh schedule paused: of a registration the time left to the next due is kept, 0 when it has come, and
an entry without one keeps none (R17, R130); that the next due then reads none is assumption 69 (DESIGN CHOICE). Serving
partner, candidate and registration time are kept, the exchanges under way are left alone, and an entry already RESTING
stays as it was (R15, R17, R18). -/
def Obligations.QuietEntryRestsTheEntries : Prop :=
  ∀ (s : State) (tag : Byte) (d : Nat) (q : Quality) (v c : VerdictZone), s.hostReady → s.mli.device = .running →
    s.handles.Nodup → q ≠ .none → s.tracker.zones ≠ [] → d ≤ s.tracker.routeLength → s.tracker.verdict = some v →
    s.tracker.locate d = some c → c.index ≠ v.index → c.rules.policy = .quiet → v.rules.policy ≠ .quiet →
    ∃ t, exec (.fix ⟨tag, some ⟨d, q⟩⟩) s = .next t ∧ t.tracker.verdict = some c ∧ t.handles = s.handles ∧
      (∀ h e, s.entry? h = some e → ∃ e', t.entry? h = some e' ∧ (e.reg = .resting → e' = e) ∧
        (e.reg ≠ .resting → e'.reg = .resting ∧ e'.bearers = [] ∧ e'.portLost = none ∧
          e'.retention = some (s.mli.clock + s.tracker.retentionTime * 60000) ∧ e'.serving = e.serving ∧
          e'.candidate = e.candidate ∧ e'.regTime = e.regTime ∧ e'.balance = e.balance ∧ e'.nextDue = none ∧
          (∀ i due, e.serving = some i → e.nextDue = some due → e'.paused = some (due - s.mli.clock)) ∧
          (e.serving = none → e'.paused = none) ∧ (e'.period = none ∨ e'.closing = true))) ∧
      (∀ p, (s.port p).state ≠ .down → (t.port p).state = .quiet ∧ Sent.toHead p .quiet ∈ t.sent) ∧
      t.rge.inFlight = s.rge.inFlight

/-- FREEZE-ZONE sets the forced-freeze flag and cancels any hold. THAW-ZONE clears the flag; when it stood, the device is
RUNNING, the verdict names a zone and the frozen flag is clear, a hold of the hold time begins; otherwise nothing else
changes (R11). A hold time of 0 ends that hold at once, and then a GOOD last fix is evaluated again (R12): that one case
is left aside, here and in what follows (assumption 21, DEDUCED).
A GOOD fix while the frozen flag stands and the forced-freeze flag does not thaws the verdict: the flag clears and a hold
of the hold time begins, after the fix has moved the verdict to a stricter zone if it lies in one, and to no other (R7,
R12).
A hold ends at its expiry: with a GOOD last fix whose position lies in an equal or laxer zone beyond the margin, neither
flag standing, the verdict relaxes to it; with the last fix not GOOD nothing but the hold ends (R12). -/
def Obligations.FreezeThawAndHold : Prop :=
  (∀ (s : State) (tag : Byte), s.hostReady →
     exec (.freezeZone ⟨tag, some ()⟩) s = .next
       (({ s with tracker := { s.tracker with forcedFreeze := true, holdExpiry := none } } : State).replied
         Kind.freezeZone tag false []) ∧
     (s.tracker.holdTime ≠ 0 ∨ (∀ at_, s.tracker.lastFix ≠ some (.good, at_)) → exec (.thawZone ⟨tag, some ()⟩) s = .next
       (({ s with tracker := { s.tracker with
           forcedFreeze := false,
           holdExpiry := if s.tracker.forcedFreeze = true ∧ s.mli.device = .running ∧ s.tracker.verdict ≠ none ∧
               s.tracker.frozen = false then
               (if s.tracker.holdTime = 0 then none else some (s.mli.clock + s.tracker.holdTime * 1000))
             else s.tracker.holdExpiry } } : State).replied Kind.thawZone tag false []))) ∧
  (∀ (s : State) (tag : Byte) (d : Nat) (v : VerdictZone), s.hostReady → s.mli.device = .running → s.tracker.zones ≠ [] →
     d ≤ s.tracker.routeLength → s.tracker.verdict = some v → s.tracker.frozen = true → s.tracker.forcedFreeze = false →
     s.tracker.holdTime ≠ 0 →
     ∃ t, exec (.fix ⟨tag, some ⟨d, .good⟩⟩) s = .next t ∧ RepliedOk Kind.fix tag false (le 3 d) t ∧
       t.tracker = { s.tracker with
         lastFix := some (.good, s.mli.clock), lastPosition := some d,
         fixExpiry := some (s.mli.clock + s.tracker.fixTimeout * 1000), frozen := false,
         holdExpiry := some (s.mli.clock + s.tracker.holdTime * 1000),
         verdict := match s.tracker.locate d with
           | some c => if c.index ≠ v.index ∧ policyRank c.rules.policy < policyRank v.rules.policy then some c else some v
           | none => some v }) ∧
  (∀ (s : State) (e : Nat), s.powered = true → s.tracker.holdExpiry = some e → e ≤ s.mli.clock →
     ((∀ at_, s.tracker.lastFix ≠ some (.good, at_)) →
       exec .holdExpiry s = .next { s with tracker := { s.tracker with holdExpiry := none } }) ∧
     (∀ (at_ d : Nat) (v c : VerdictZone), s.tracker.lastFix = some (.good, at_) → s.tracker.lastPosition = some d →
       s.tracker.verdict = some v → s.tracker.locate d = some c → c.index ≠ v.index →
       policyRank v.rules.policy ≤ policyRank c.rules.policy → s.tracker.passesMargin v.index c.index d = true →
       s.tracker.frozen = false → s.tracker.forcedFreeze = false →
       ∃ t, exec .holdExpiry s = .next t ∧ t.tracker = { s.tracker with holdExpiry := none, verdict := some c }))

/-- An accepted LOAD-ZONES, every number of it in range, replaces the table and the five settings whole; the verdict is
NONE, the frozen flag clear, no hold runs and the last position is gone; the last fix, the fix timer and the forced-freeze
flag are kept (R4). From a verdict of NONE nothing else changes; from a verdict of policy QUIET, which every berth zone
has, each listening port is QUIET, and no entry, no period and no closure is touched, for the verdict NONE ranks as QUIET
(R3, R6, R15, R17). The reply carries the route length once (assumptions 9 and 49).
LOAD-ZONES is refused MALFORMED, NOT-READY while the power-on scan runs, NOT-AT-BERTH and BAD-TABLE in the order of R177 and
R3, and a refusal changes no part of the device but the interface. Its values are clamped before any check (R2); that every
refusal therefore tells of a value clamped is assumption 57, that MALFORMED comes before NOT-READY assumption 7 (DEDUCED
each). -/
def Obligations.LoadZonesReplacesTheTable : Prop :=
  (∀ (s : State) (tag : Byte) (b : LoadZonesBody), s.hostReady → zonesWellFormed b = true → clampZones b = b →
     s.atBerth = true → s.zonesAccepted b = true →
     let reply := le 1 b.zones.length ++ le 3 b.routeLength ++ le 2 b.hysteresis ++ le 1 b.fixTimeout ++ le 2 b.holdTime
       ++ le 1 b.retention
     let tracker : Tracker := { s.tracker with
       routeLength := b.routeLength, zones := b.zones, hysteresis := b.hysteresis, fixTimeout := b.fixTimeout,
       holdTime := b.holdTime, retentionTime := b.retention, verdict := none, frozen := false, holdExpiry := none,
       lastPosition := none }
     ∃ t, exec (.loadZones ⟨tag, some b⟩) s = .next t ∧ t.tracker = tracker ∧ RepliedOk Kind.loadZones tag false reply t ∧
       (s.tracker.verdict = none → t = ({ s with tracker := tracker } : State).replied Kind.loadZones tag false reply) ∧
       (∀ v, s.tracker.verdict = some v → v.rules.policy = .quiet → t.table = s.table ∧ t.rtu = s.rtu ∧
         t.rge = s.rge ∧ (s.mli.device = .running → ∀ p, (s.port p).state ≠ .down → (t.port p).state = .quiet))) ∧
  (∀ (s : State) (tag : Byte) (b : LoadZonesBody), s.hostReady →
     (zonesWellFormed b = false → exec (.loadZones ⟨tag, some b⟩) s = .next
       (s.turnedAwayClamped Kind.loadZones tag (clampZones b != b) .malformed [])) ∧
     (zonesWellFormed b = true → s.atBerth = false →
       exec (.loadZones ⟨tag, some b⟩) s = .next
         (s.turnedAwayClamped Kind.loadZones tag (clampZones b != b) .notAtBerth [])) ∧
     (zonesWellFormed b = true → s.atBerth = true → s.zonesAccepted (clampZones b) = false →
       exec (.loadZones ⟨tag, some b⟩) s = .next
         (s.turnedAwayClamped Kind.loadZones tag (clampZones b != b) .badTable []))) ∧
  (∀ (s : State) (tag : Byte) (b : LoadZonesBody), s.hostFree → s.rsc.scanEnded = false →
     exec (.loadZones ⟨tag, some b⟩) s = .next (s.turnedAwayClamped Kind.loadZones tag (clampZones b != b)
       (if zonesWellFormed b then .notReady else .malformed) []))

/-! ## The cell ports -/

/-- A HEAD-HELLO on a DOWN port records the capacity and sends the current order: QUIET while UNCONFIGURED or under QUIET,
else RADIATE at the verdict's level, after which HOLD follows while the store hold condition stands (R16, R26, R35).
One on a listening port records the capacity and sends the current order again, which the port's state follows; its asks
and every entry stay, and HOLD is sent after the order when the port's hold flag is set, or when the port so enters
RADIATING while the store hold condition stands (R26, R35).
One with a capacity of 0 or above 1,024 is counted as malformed and changes nothing else (R25), on a DOWN port too
(assumption 50, DESIGN CHOICE). -/
def Obligations.HeadHelloBringsThePortUp : Prop :=
  (∀ (s : State) (p : Fin 6) (capacity : Nat), s.powered = true → (s.port p).state = .down → (s.port p).hold = false →
    1 ≤ capacity → capacity ≤ 1024 →
    exec (.headHello p capacity) s = .next
      (match s.order with
       | none => { s with
          cpc := { s.cpc with
            ports := s.cpc.ports.set p { s.cpc.ports[p] with state := .quiet, headCapacity := capacity } },
          sent := s.sent ++ [.toHead p .quiet] }
       | some level => { s with
          cpc := { s.cpc with ports := s.cpc.ports.set p { s.cpc.ports[p] with
            state := .radiating, headCapacity := capacity, hold := s.cpc.storeHold } },
          sent := s.sent ++ .toHead p (.radiate level) :: if s.cpc.storeHold then [.toHead p .hold] else [] })) ∧
  (∀ (s : State) (p : Fin 6) (capacity : Nat), s.powered = true → (s.port p).state ≠ .down → 1 ≤ capacity →
    capacity ≤ 1024 →
    let held := (s.port p).hold || (s.order.isSome && decide ((s.port p).state ≠ .radiating) && s.cpc.storeHold)
    exec (.headHello p capacity) s = .next
      { s with
        cpc := { s.cpc with ports := s.cpc.ports.set p { s.cpc.ports[p] with
          state := if s.order = none then .quiet else .radiating, headCapacity := capacity, hold := held } },
        sent := s.sent ++ .toHead p (match s.order with | none => .quiet | some level => .radiate level)
          :: if held then [.toHead p .hold] else [] }) ∧
  (∀ (s : State) (p : Fin 6) (capacity : Nat), s.powered = true → capacity = 0 ∨ 1024 < capacity →
    exec (.headHello p capacity) s = .next (s.portCounted p fun c => { c with malformed := bump32 c.malformed }))

/-- An ATTACH-ASK with a code of five or six digits joins the tail of a listening port's pending asks; behind 32 it is
declined UNAVAILABLE and counted; on a DOWN port it is discarded and counted (R25, R28). One with another digit count, or a
code too large for its digits, is counted as malformed on a listening port and changes nothing else (R25); on a DOWN port it
counts as discarded there alone (assumption 50, DESIGN CHOICE).
An ask that a check of R29 turns away is declined with that check's reason; RETRY-LATER carries 60 s, the others 0, and
the table is untouched. -/
def Obligations.AskJoinsOrIsDeclined : Prop :=
  (∀ (s : State) (p : Fin 6) (token : Token) (code digits : Nat), s.powered = true →
     (digits = 5 ∧ code ≤ 99999 ∨ digits = 6 ∧ code ≤ 999999) →
     ((s.port p).state ≠ .down → (s.port p).asks.length < 32 →
       exec (.attachAsk p token code digits) s = .next
         { s with cpc := { s.cpc with ports := s.cpc.ports.set p { s.cpc.ports[p] with
           asks := s.cpc.ports[p].asks ++ [{ token := token, home := { number := code, six := digits == 6 } }] } } }) ∧
     ((s.port p).state ≠ .down → 32 ≤ (s.port p).asks.length →
       exec (.attachAsk p token code digits) s = .next
         { s with
           sent := s.sent ++ [.toHead p (.decline token .unavailable 0)],
           cpc := { s.cpc with ports := s.cpc.ports.set p { s.cpc.ports[p] with
             counters := { s.cpc.ports[p].counters with
               declines := bumpAt 4 s.cpc.ports[p].counters.declines 0 } } } }) ∧
     ((s.port p).state = .down →
       exec (.attachAsk p token code digits) s = .next
         { s with cpc := { s.cpc with ports := s.cpc.ports.set p { s.cpc.ports[p] with
           counters := { s.cpc.ports[p].counters with
             discardedDown := bump32 s.cpc.ports[p].counters.discardedDown } } } })) ∧
  (∀ (s : State) (p : Fin 6) (token : Token) (code digits : Nat), s.powered = true →
     ¬ (digits = 5 ∧ code ≤ 99999 ∨ digits = 6 ∧ code ≤ 999999) →
     exec (.attachAsk p token code digits) s = .next (s.portCounted p fun c =>
       if (s.port p).state = .down then { c with discardedDown := bump32 c.discardedDown }
       else { c with malformed := bump32 c.malformed })) ∧
  (∀ (s : State) (p : Fin 6) (a : Ask) (rest : List Ask), s.powered = true → s.nextAsk = some p →
     (s.port p).asks = a :: rest →
     let declined := fun (reason : DeclineReason) (delay : Nat) =>
       exec .decideAttachAsk s = .next
         { s with
           cpc := { s.cpc with
             lastServed := p,
             ports := s.cpc.ports.set p { s.cpc.ports[p] with
               asks := rest,
               counters := { s.cpc.ports[p].counters with
                 declines := bumpAt 4 s.cpc.ports[p].counters.declines reason.place } } },
           sent := s.sent ++ [.toHead p (.decline a.token reason delay)] }
     (s.mli.device = .unconfigured ∨ (s.port p).state ≠ .radiating → (s.port p).state ≠ .down → declined .unavailable 0) ∧
     (s.mli.device = .running → (s.port p).state = .radiating → s.byToken? a.token = none →
       let limit := min (s.port p).limit (s.port p).headCapacity
       (limit ≤ s.portCount p → declined .portFull 0) ∧
       (s.portCount p < limit → 2048 ≤ s.table.entries.length → declined .tableFull 0) ∧
       (s.portCount p < limit → s.table.entries.length < 2048 → s.rsc.freeLevel < 2048 →
         a.home ∉ s.mli.billing.exemptList → declined .retryLater 60)))

/-- An ask of a device that the table lacks, on a RADIATING port with room, a table with room and a store level or an
exemption that allows it, makes a new entry under the first free handle, and ADMIT goes out (R29, R30, R45, R122). -/
def Obligations.NewDeviceIsAdmitted : Prop :=
  ∀ (s : State) (p : Fin 6) (a : Ask) (rest : List Ask) (h : Nat) (hs : List Nat), s.powered = true → s.nextAsk = some p →
    (s.port p).asks = a :: rest → s.mli.device = .running → (s.port p).state = .radiating → s.byToken? a.token = none →
    s.portCount p < min (s.port p).limit (s.port p).headCapacity → s.table.entries.length < 2048 →
    (2048 ≤ s.rsc.freeLevel ∨ a.home ∈ s.mli.billing.exemptList) → s.table.freeHandles = h :: hs → s.entry? h = none →
    ∃ t e, exec .decideAttachAsk s = .next t ∧ t.entry? h = some e ∧ t.table.freeHandles = hs ∧
      (∀ k, k ≠ h → t.entry? k = s.entry? k) ∧ t.table.attachCounter = bump32 s.table.attachCounter ∧
      (t.port p).asks = rest ∧ t.cpc.lastServed = p ∧
      (e.token = a.token ∧ e.home = a.home ∧ e.attach = s.table.attachCounter ∧ e.port = p ∧ e.portLost = none ∧
        e.cls = (if a.home ∈ s.mli.billing.exemptList then .exempt else .passenger) ∧ e.createdAt = s.mli.clock ∧
        e.serving = none ∧ e.balance = 0 ∧ e.bearers = [] ∧ e.period = none ∧ e.closing = false ∧ e.dayCount = 0 ∧
        e.total = 0 ∧ e.cap = s.mli.billing.defaultCap ∧ e.barred = false ∧ e.storeLoss = 0 ∧
        e.candidate = s.chosen a.home ∧
        e.reg = (if s.chosen a.home = none then .unroamed else .registering)) ∧
      t.sent = s.sent ++ .toHead p (.admitted a.token h) ::
        (if s.chosen a.home = none then [.toHead p (.serveLevel h a.token .onboardOnly)] else [])

/-- An ask of a device that the table knows takes it back on the ask's port: its marker and bearers go, its registration
stays as it is unless it was RESTING, and ADMIT is followed by a serve level once its registration has settled (R31).
A RESTING entry is revived: its retention timer stops and the revival is counted. With a serving partner still eligible it
is SERVED, or MOVING when the chosen partner differs, its refresh schedule resumes with the time that was left, and a
period opens if it qualifies and holds none. With one no longer eligible its registration is void, with a DEREG where one
may go. Without one, or after a void, it is REGISTERING with the chosen partner, or UNROAMED. Exchanges that no longer fit
it are removed (R31, R48, R130, R136, R146); that a void at revival removes these alone, where step 3 of R134 names any
exchange, is the model's choice (assumption 60, DESIGN CHOICE). -/
def Obligations.KnownDeviceIsTakenBack : Prop :=
  ∀ (s : State) (p : Fin 6) (a : Ask) (rest : List Ask) (h : Nat) (e : Entry), s.powered = true → s.nextAsk = some p →
    (s.port p).asks = a :: rest → s.mli.device = .running → (s.port p).state = .radiating →
    s.byToken? a.token = some (h, e) → s.entry? h = some e →
    let back := { e with port := p, portLost := none, bearers := [] }
    let answer := fun (e' : Entry) => Sent.toHead p (.admitted a.token h) ::
      (if e'.reg = .registering then []
       else [.toHead p (.serveLevel h a.token (if s.entitled e' then .full else .onboardOnly))])
    (e.reg ≠ .resting → ∃ t, exec .decideAttachAsk s = .next t ∧ t.entry? h = some back ∧
      (∀ k, k ≠ h → t.entry? k = s.entry? k) ∧ t.table.freeHandles = s.table.freeHandles ∧
      t.sent = s.sent ++ answer back) ∧
    (e.reg = .resting →
      let chosen := s.chosen e.home
      let asks := fun (b : Entry) => { b with
        retention := none, reg := if chosen = none then .unroamed else .registering, candidate := chosen }
      let move := match chosen, e.serving with
        | some x, some i => if x.1 = i then none else some x
        | _, _ => none
      let serves := { back with
        retention := none, reg := if move = none then .served else .moving, candidate := move,
        nextDue := some (s.mli.clock + e.paused.getD 0), paused := none }
      ∃ t e', exec .decideAttachAsk s = .next t ∧ t.entry? h = some e' ∧
        (∀ k, k ≠ h → t.entry? k = s.entry? k) ∧ t.table.freeHandles = s.table.freeHandles ∧
        t.table.counters.revivals = bump32 s.table.counters.revivals ∧
        t.rge.inFlight = s.rge.inFlight.filter (fun x => x.handle != h || e'.fits x) ∧
        (e.serving = none → e' = asks back ∧ t.sent = s.sent ++ answer e') ∧
        (s.servingEligible e = true → e' = { serves with
            period := if serves.qualifies && e.period.isNone && !e.closing && !s.openingStopped then s.periodFor? e
              else e.period } ∧ t.sent = s.sent ++ answer e') ∧
        (∀ i, e.serving = some i → s.servingEligible e = false → e' = asks back.unregistered ∧
          ∃ dereg : List Sent, t.sent = s.sent ++ dereg ++ answer e' ∧
            (∀ l q, s.activeLink? = some l → s.slm.swap.inProgress = false → (s.link l).free = true →
              s.partner? i = some q → dereg = [.toShore l (.dereg h e.token i q.code)]) ∧
            (s.mayCarry = false → dereg = [])))

/-- A removal by DEPART on the entry's own port, by EVICT, or by the port-lost or retention timer that has come, frees the
handle to the FIFO's tail, and leaves every other entry of the table as it was (R19, R32, R38, R50, R52). Its unfrozen
period makes one closure record, with reason DETACH, EVICT or PORT-LOST, in the close queue when that has room and no
closure waits, and else detached in the wait list; at the retention expiry, and without an unfrozen period, none is made
(R19, R49, R50, R151, R154). The entry's exchanges leave the in-flight table (R50, R124). A DEREG goes to its serving
partner when a link is ACTIVE and no swap is in progress, at once or behind what waits at the port, and is dropped and
counted otherwise (R137); records that wait at the ports stay there (assumption 74, DEDUCED). EVICT sends a listening port
a DECLINE, and replies with the state the entry had, whether a period was closed and what became of the DEREG (R52; the
bytes as assumption 9, DEDUCED, reads R185).
A DEPART of a device that the table lacks, or whose entry is on another port, is counted as stale and changes nothing else
(R32). -/
def Obligations.RemovalFreesTheHandle : Prop :=
  (∀ (s : State) (h : Nat) (e : Entry), s.entry? h = some e →
     let queue := fun (l : List ChargeRecord) => l.map fun r => { r with serial := none }
     let removed := fun (cause : Fin 4) (reason : Option CloseReason) (decline : List Sent) (t : State) =>
       (t.entry? h = none ∧ t.table = { s.table with
         entries := s.table.entries.filter (fun p => p.1 != h), freeHandles := s.table.freeHandles ++ [h],
         counters := { s.table.counters with removals := bumpAt 4 s.table.counters.removals cause } }) ∧
       (reason = none ∨ e.period = none ∨ e.closing = true → t.rtu = s.rtu) ∧
       (∀ r p, reason = some r → e.period = some p → e.closing = false →
         (s.rtu.closeQueue.length < 64 → s.rtu.waitList = [] → t.rtu.waitList = [] ∧
           queue t.rtu.closeQueue = queue (s.rtu.closeQueue ++ [s.closureRecord e p r false])) ∧
         (64 ≤ s.rtu.closeQueue.length ∨ s.rtu.waitList ≠ [] → s.rtu.waitList.length < 4096 →
           t.rtu.closeQueue = s.rtu.closeQueue ∧
           t.rtu.waitList = s.rtu.waitList ++ [⟨h, e.attach, s.closureRecord e p r true⟩])) ∧
       t.rge.inFlight = s.rge.inFlight.filter (fun x => x.handle != h) ∧
       (e.serving = none → t.slm = s.slm ∧ t.rge.counters = s.rge.counters ∧ t.sent = s.sent ++ decline) ∧
       (e.serving ≠ none → s.mayCarry = false → t.slm = s.slm ∧ t.sent = s.sent ++ decline ∧
         t.rge.counters = { s.rge.counters with deregsDropped := bump32 s.rge.counters.deregsDropped }) ∧
       (∀ i l q, e.serving = some i → s.activeLink? = some l → s.slm.swap.inProgress = false → s.partner? i = some q →
         t.rge.counters = { s.rge.counters with deregsSent := bump32 s.rge.counters.deregsSent } ∧
         ((s.link l).free = true → t.sent = s.sent ++ .toShore l (.dereg h e.token i q.code) :: decline) ∧
         ((s.link l).free = false → t.sent = s.sent ++ decline ∧
           (t.link l).waiting = (s.link l).waiting ++ [.plain (.dereg h e.token i q.code)]))
     let decline := if (s.port e.port).state = .down then [] else [Sent.toHead e.port (.decline e.token .unavailable 0)]
     (s.powered = true → (s.port e.port).state ≠ .down → s.byToken? e.token = some (h, e) →
       ∃ t, exec (.depart e.port e.token) s = .next t ∧ removed 0 (some .detach) [] t) ∧
     (s.powered = true → ∀ x, e.portLost = some x → x ≤ s.mli.clock →
       ∃ t, exec (.portLostExpiry h) s = .next t ∧ removed 1 (some .portLost) [] t) ∧
     (s.powered = true → ∀ x, e.retention = some x → x ≤ s.mli.clock →
       ∃ t, exec (.retentionExpiry h) s = .next t ∧ removed 2 none [] t) ∧
     (s.hostReady → ∀ tag, ∃ t, exec (.evict ⟨tag, some ⟨h, e.token⟩⟩) s = .next t ∧ removed 3 (some .evict) decline t ∧
       RepliedOk Kind.evict tag false (le 2 h ++ le 1 e.reg.code ++ bFlag (e.period.isSome && !e.closing)
         ++ le 1 (if e.serving = none then 2 else if s.mayCarry && (e.serving.bind s.partner?).isSome then 0 else 1)) t)) ∧
  (∀ (s : State) (p : Fin 6) (token : Token), s.powered = true → (s.port p).state ≠ .down →
     (∀ h e, s.byToken? token = some (h, e) → e.port ≠ p) →
     exec (.depart p token) s = .next
       { s with cpc := { s.cpc with ports := s.cpc.ports.set p { s.cpc.ports[p] with
         counters := { s.cpc.ports[p].counters with staleDeparts := bump32 s.cpc.ports[p].counters.staleDeparts } } } })

/-- A HEAD-RESYNC and a carrier loss drop the port's asks, free the bearers of its entries and mark those not RESTING that
carry no marker yet, with the port's port-lost time; every other entry stays. The resynchronised port is listening again:
it is sent the current order, and HOLD behind a RADIATE while the store hold condition stands, which alone sets its hold
flag. The other is DOWN with capacity 1,024, its hold flag clear, and is sent nothing. HEAD-RESYNC or PORT-LOST is raised
with the entries newly marked and the asks dropped, to 65,535 each, and HEAD-RESYNC with the port's state after the order
(R27, R35, R36, R37, R39, R40).
On a DOWN port a HEAD-RESYNC, a DEPART, a BEARER-OPEN, a BEARER-CLOSE and an UP-FRAME are counted as discarded and change
nothing else (R25), and a carrier loss changes nothing (R27); that a malformed one counts there alone is assumption 50
(DESIGN CHOICE). -/
def Obligations.PortFailureMarksItsEntries : Prop :=
  (∀ (s : State) (p : Fin 6), s.powered = true → (s.port p).state ≠ .down → s.handles.Nodup →
    let marked := fun (t : State) =>
      (∀ h e, s.entry? h = some e → t.entry? h = some (
        if e.port = p then { e with
          bearers := [],
          portLost := if e.reg = .resting ∨ e.portLost ≠ none then e.portLost
            else some (s.mli.clock + (s.port p).portLostTime * 1000) }
        else e)) ∧ t.handles = s.handles ∧ (t.port p).asks = []
    let newly := min 65535 (s.table.entries.countP fun x =>
      decide (x.2.port = p ∧ x.2.reg ≠ .resting ∧ x.2.portLost = none))
    let asks := (s.port p).asks.length
    let counters := { (s.port p).counters with asksDropped := ((s.port p).counters.asksDropped + asks) % 4294967296 }
    let state := if s.order = none then PortState.quiet else .radiating
    let held := s.order.isSome && s.cpc.storeHold
    (∃ t, exec (.headResync p) s = .next t ∧ marked t ∧ (t.port p).state = state ∧ (t.port p).hold = held ∧
      (t.port p).counters = { counters with resyncs := bump32 counters.resyncs } ∧
      t.sent = s.sent ++ .toHead p (match s.order with | none => .quiet | some level => .radiate level)
        :: (if held then [.toHead p .hold] else []) ∧
      t.mli = (s.raise (.headResync p newly (min 65535 asks) state s.mli.shipTime 1)).mli) ∧
    (∃ t, exec (.cellCarrierLost p) s = .next t ∧ marked t ∧ (t.port p).state = .down ∧ (t.port p).headCapacity = 1024 ∧
      (t.port p).hold = false ∧ (t.port p).counters = { counters with portLosses := bump32 counters.portLosses } ∧
      t.sent = s.sent ∧ t.mli = (s.raise (.portLost p newly (min 65535 asks) s.mli.shipTime 1)).mli)) ∧
  (∀ (s : State) (p : Fin 6) (token : Token) (slot identity : Nat) (kind : Option BearerKind) (payload : List Byte),
    s.powered = true → (s.port p).state = .down →
    let discarded := s.portCounted p fun c => { c with discardedDown := bump32 c.discardedDown }
    exec (.headResync p) s = .next discarded ∧ exec (.depart p token) s = .next discarded ∧
    exec (.bearerOpen p token slot kind) s = .next discarded ∧ exec (.bearerClose p identity) s = .next discarded ∧
    exec (.upFrame p identity payload) s = .next discarded ∧ exec (.cellCarrierLost p) s = .next s)

/-! ## The bearer router -/

/-- BEARER-OPEN on the entry's own port, for a slot that holds no bearer, opens it now with counters of 0 and acknowledges
its identity, handle × 4 + slot, whatever the entry's state but RESTING (R62).
BEARER-OPEN is refused UNKNOWN-SUBSCRIBER for a token of no entry, with the value 8,191, or of an entry on another port or
RESTING, and SLOT-BUSY for an open slot, with handle × 4 + slot (R62).
BEARER-CLOSE on the bearer's own port frees it; one that names an empty place, or a bearer of another port, is a stale
close; neither sends anything (R63, R64).
On a listening port a BEARER-OPEN with a slot above 3 or a kind outside its set, and an UP-FRAME whose payload is empty or
longer than 1,536 bytes, is counted as malformed and changes nothing else (R25). -/
def Obligations.BearersOpenAndClose : Prop :=
  (∀ (s : State) (p : Fin 6) (token : Token) (slot : Nat) (kind : BearerKind) (h : Nat) (e : Entry), s.powered = true →
     (s.port p).state ≠ .down → slot ≤ 3 → s.byToken? token = some (h, e) → e.port = p → e.reg ≠ .resting →
     (∀ b ∈ e.bearers, b.slot ≠ slot) →
     exec (.bearerOpen p token slot (some kind)) s = .next
       { s with
         table := { s.table with entries := alterKey h (fun e => { e with
           bearers := insertBearer (newBearer slot kind s.mli.clock) e.bearers }) s.table.entries },
         router := { s.router with totals := { s.router.totals with opens := bump32 s.router.totals.opens } },
         sent := s.sent ++ [.toHead p (.bearerAck (h * 4 + slot))] }) ∧
  (∀ (s : State) (p : Fin 6) (token : Token) (slot : Nat) (kind : BearerKind), s.powered = true →
     (s.port p).state ≠ .down → slot ≤ 3 →
     let refused := fun (identity : Nat) (reason : BearerRefusal) (place : Fin 2) =>
       exec (.bearerOpen p token slot (some kind)) s = .next
         { s with
           router := { s.router with totals := { s.router.totals with
             refusals := bumpAt 2 s.router.totals.refusals place } },
           sent := s.sent ++ [.toHead p (.bearerRefuse identity reason)] }
     (s.byToken? token = none → refused 8191 .unknownSubscriber 0) ∧
     (∀ h e, s.byToken? token = some (h, e) → e.port ≠ p ∨ e.reg = .resting → refused (h * 4 + slot) .unknownSubscriber 0) ∧
     (∀ h e, s.byToken? token = some (h, e) → e.port = p → e.reg ≠ .resting → (∃ b ∈ e.bearers, b.slot = slot) →
       refused (h * 4 + slot) .slotBusy 1)) ∧
  (∀ (s : State) (p : Fin 6) (identity : Nat), s.powered = true → (s.port p).state ≠ .down →
     (∀ h e b, s.bearerAt identity = some (h, e, b) → e.port = p →
       exec (.bearerClose p identity) s = .next
         { s with
           table := { s.table with
             entries := alterKey h (fun e => { e with bearers := e.bearers.filter (fun c => c.slot != b.slot) }) s.table.entries },
           router := { s.router with totals := { s.router.totals with closes := bump32 s.router.totals.closes } } }) ∧
     ((∀ h e b, s.bearerAt identity = some (h, e, b) → e.port ≠ p) →
       exec (.bearerClose p identity) s = .next
         { s with router := { s.router with totals := { s.router.totals with
           staleCloses := bump32 s.router.totals.staleCloses } } })) ∧
  (∀ (s : State) (p : Fin 6), s.powered = true → (s.port p).state ≠ .down →
     let malformed := s.portCounted p fun c => { c with malformed := bump32 c.malformed }
     (∀ token slot kind, 3 < slot ∨ kind = none → exec (.bearerOpen p token slot kind) s = .next malformed) ∧
     (∀ identity payload, payload = [] ∨ 1536 < payload.length → exec (.upFrame p identity payload) s = .next malformed))

/-- An UP-FRAME on a bearer that is not open on its port is discarded and counted, and nothing else happens (R65).
An UP-FRAME on an ONBOARD bearer goes out on the local port as LOCAL-UP, and one on a SHORE bearer of a subscriber with a
cause of its own as PORTAL-UP with the first such cause, in the order port-lost, barred, closing, registration; without
the local carrier it is a local-port discard. It is counted against the bearer and its route, and neither metered nor
stored (R66, R67). One on a SHORE bearer of a subscriber that is not entitled with no cause of its own, which only the
shore cut-off leaves, goes nowhere and is an isolated discard (R53, R66).
The first cause of an entry's own, by rows 3 to 8 of R66.
The local port's carrier is as last reported, and a report changes nothing else (R67); that a report is taken without power
too is assumption 4 (DEDUCED). -/
def Obligations.UpFrameToTheShip : Prop :=
  (∀ (s : State) (p : Fin 6) (identity : Nat) (payload : List Byte), s.powered = true → (s.port p).state ≠ .down →
     1 ≤ payload.length → payload.length ≤ 1536 → (∀ h e b, s.bearerAt identity = some (h, e, b) → e.port ≠ p) →
     exec (.upFrame p identity payload) s = .next
       { s with router := { s.router with totals := { s.router.totals with
         upNotOpen := s.router.totals.upNotOpen.add payload.length } } }) ∧
  (∀ (s : State) (p : Fin 6) (identity : Nat) (payload : List Byte) (h : Nat) (e : Entry) (b : Bearer), s.powered = true →
     (s.port p).state ≠ .down → 1 ≤ payload.length → payload.length ≤ 1536 → s.bearerAt identity = some (h, e, b) →
     e.port = p →
     let n := payload.length
     let sentOr := fun (r : OnboardRecord) (t : RouterTotals) (u : State) =>
       if s.router.localCarrier then { u with router := { s.router with totals := t }, sent := s.sent ++ [.toOnboard r] }
       else { u with router := { s.router with totals := { t with localPortDiscards := t.localPortDiscards.add n } } }
     (b.kind = .onboard → exec (.upFrame p identity payload) s = .next
       (sentOr (.localUp identity h p payload) { s.router.totals with upLocal := s.router.totals.upLocal.add n }
         { s with table := { s.table with entries := alterKey h (fun e => { e with
           bearers := onSlot b.slot (fun b => { b with upLocal := b.upLocal.add n }) e.bearers }) s.table.entries } })) ∧
     (∀ reason, b.kind = .shore → s.entitled e = false → e.portalReason? = some reason →
       exec (.upFrame p identity payload) s = .next
         (sentOr (.portalUp identity h e.token e.home reason payload)
           { s.router.totals with upPortal := addAt 6 n s.router.totals.upPortal reason.place }
           { s with table := { s.table with entries := alterKey h (fun e => { e with
             bearers := onSlot b.slot (fun b => { b with upPortal := b.upPortal.add n }) e.bearers }) s.table.entries } })) ∧
     (b.kind = .shore → s.entitled e = false → e.portalReason? = none → exec (.upFrame p identity payload) s = .next
       { s with
         table := { s.table with entries := alterKey h (fun e => { e with
           bearers := onSlot b.slot (fun b => { b with upLost := b.upLost.add n }) e.bearers }) s.table.entries },
         router := { s.router with totals := { s.router.totals with upIsolated := s.router.totals.upIsolated.add n } } })) ∧
  (∀ e : Entry,
     (e.portLost ≠ none → e.portalReason? = some .portLost) ∧
     (e.portLost = none → e.barred = true → e.portalReason? = some .barred) ∧
     (e.portLost = none → e.barred = false → e.closing = true → e.portalReason? = some .closing) ∧
     (e.portLost = none → e.barred = false → e.closing = false →
       (e.reg = .registering → e.portalReason? = some .registering) ∧ (e.reg = .lapsed → e.portalReason? = some .lapsed) ∧
       (e.reg = .unroamed → e.portalReason? = some .unroamed) ∧
       (e.reg = .served ∨ e.reg = .moving ∨ e.reg = .resting → e.portalReason? = none))) ∧
  (∀ (s : State) (present : Bool),
     exec (.localCarrierChange present) s = .next { s with router := { s.router with localCarrier := present } })

/-- An UP-FRAME of an entitled subscriber goes straight to the ACTIVE link when no swap is in progress, the store is empty
and the modem is ready; it is metered for a PASSENGER and not for an EXEMPT subscriber (R66, R69, R70, R73).
An UP-FRAME routed SHORE that may not go straight enters the swap store behind what waits there; with room for it nothing
is shed, and below the hold level, or while the hold condition stands, nothing is reported; nothing is metered yet (R69,
R112).
The store hold condition begins as a frame brings the occupancy to 393,216 bytes, and every RADIATING port is held (R34).
A frame that finds no room sheds frames from the head, no more than it needs, and enters: each frame shed is counted, is
not metered, and raises the store loss count of its entry, while that lives, and of its open period by 1, to 65,535 at
most; while more than 262,144 bytes are kept the hold condition and every port stay as they are (R35, R112, R149). -/
def Obligations.UpFrameToShore : Prop :=
  (∀ (s : State) (p : Fin 6) (identity : Nat) (payload : List Byte) (h : Nat) (e : Entry) (b : Bearer) (l : Fin 4),
     s.powered = true → (s.port p).state ≠ .down → 1 ≤ payload.length → payload.length ≤ 1536 →
     s.bearerAt identity = some (h, e, b) → e.port = p → b.kind = .shore → s.entitled e = true → s.activeLink? = some l →
     s.slm.swap.inProgress = false → s.sws.frames = [] → (s.link l).modemReady = true → (s.link l).waiting = [] →
     let n := payload.length
     let direct := { s.router.totals with upDirect := s.router.totals.upDirect.add n }
     exec (.upFrame p identity payload) s = .next
       { s with
         table := { s.table with entries := alterKey h (fun e => { e with
           bearers := onSlot b.slot (fun b => { b with upShore := b.upShore.add n }) e.bearers }) s.table.entries },
         router := if e.cls = .passenger then
             { s.router with
               totals := { direct with meteredUp := s.router.totals.meteredUp.add n },
               additions := s.router.additions ++ [{ handle := h, attach := e.attach, dir := .uplink, bytes := n }] }
           else { s.router with totals := direct },
         sent := s.sent ++ [.toShore l (.shoreUp identity e.token payload)] }) ∧
  (∀ (s : State) (p : Fin 6) (identity : Nat) (payload : List Byte) (h : Nat) (e : Entry) (b : Bearer), s.powered = true →
     (s.port p).state ≠ .down → 1 ≤ payload.length → payload.length ≤ 1536 → s.bearerAt identity = some (h, e, b) →
     e.port = p → b.kind = .shore → s.entitled e = true →
     (s.activeLink? = none ∨ s.slm.swap.inProgress = true ∨ s.sws.frames ≠ [] ∨
       ∃ l, s.activeLink? = some l ∧ ((s.link l).modemReady = false ∨ (s.link l).waiting ≠ [])) →
     (s.cpc.storeHold = false ∧ occupancy s.sws.frames + payload.length < 393216 ∨
       s.cpc.storeHold = true ∧ 262144 < occupancy s.sws.frames ∧ occupancy s.sws.frames + payload.length ≤ 524288) →
     let n := payload.length
     let frame : StoredFrame := { identity := identity, handle := h, attach := e.attach, payload := payload }
     exec (.upFrame p identity payload) s = .next
       { s with
         table := { s.table with entries := alterKey h (fun e => { e with
           bearers := onSlot b.slot (fun b => { b with upShore := b.upShore.add n }) e.bearers }) s.table.entries },
         router := { s.router with totals := { s.router.totals with upStored := s.router.totals.upStored.add n } },
         sws := { s.sws with
           frames := s.sws.frames ++ [frame],
           counters := { s.sws.counters with
             entered := s.sws.counters.entered.add n,
             peak := max s.sws.counters.peak (occupancy s.sws.frames + n) } } }) ∧
  (∀ (s t : State) (p : Fin 6) (identity : Nat) (payload : List Byte) (h : Nat) (e : Entry) (b : Bearer), s.powered = true →
     (s.port p).state ≠ .down → 1 ≤ payload.length → payload.length ≤ 1536 → s.bearerAt identity = some (h, e, b) →
     e.port = p → b.kind = .shore → s.entitled e = true → s.sws.frames ≠ [] → s.cpc.storeHold = false →
     393216 ≤ occupancy s.sws.frames + payload.length → occupancy s.sws.frames + payload.length ≤ 524288 →
     exec (.upFrame p identity payload) s = .next t →
     t.cpc.storeHold = true ∧ occupancy t.sws.frames = occupancy s.sws.frames + payload.length ∧
       (∀ q, (t.port q).hold = ((s.port q).hold || decide ((s.port q).state = .radiating))) ∧
       t.sent = s.sent ++ (allPorts.filter fun q => decide ((s.port q).state = .radiating)).map fun q => .toHead q .hold) ∧
  (∀ (s : State) (p : Fin 6) (identity : Nat) (payload : List Byte) (h : Nat) (e : Entry) (b : Bearer)
     (shed kept : List StoredFrame), s.powered = true → (s.port p).state ≠ .down → 1 ≤ payload.length →
     payload.length ≤ 1536 → s.bearerAt identity = some (h, e, b) → e.port = p → b.kind = .shore → s.entitled e = true →
     s.cpc.storeHold = true → s.sws.frames = shed ++ kept → 524288 < occupancy s.sws.frames + payload.length →
     occupancy kept + payload.length ≤ 524288 →
     (∀ before f, shed = before ++ [f] → 524288 < occupancy (f :: kept) + payload.length) →
     ∃ t, exec (.upFrame p identity payload) s = .next t ∧
       t.sws.frames = kept ++ [{ identity := identity, handle := h, attach := e.attach, payload := payload }] ∧
       t.sws.counters.shed = shed.foldl (fun c f => c.add f.payload.length) s.sws.counters.shed ∧
       t.sws.counters.entered = s.sws.counters.entered.add payload.length ∧ t.router.additions = s.router.additions ∧
       (∀ k x, s.entry? k = some x → x.storeLoss ≤ 65535 →
         let lost := shed.countP fun f => f.handle == k && f.attach == x.attach
         ∃ x', t.entry? k = some x' ∧ x'.storeLoss = min 65535 (x.storeLoss + lost) ∧
           ∀ q, x.period = some q → q.storeLoss ≤ 65535 →
             x'.period = some { q with storeLoss := min 65535 (q.storeLoss + lost) }) ∧
       (262144 < occupancy kept → t.cpc = s.cpc ∧ t.sent = s.sent))

/-- A LOCAL-DOWN reaches the head as a DOWN-FRAME whatever the subscriber's standing; without an open bearer, on a DOWN
port or with a payload outside 1 to 1,536 bytes it is a local downlink discard (R68). -/
def Obligations.LocalDownlink : Prop :=
  ∀ (s : State) (identity : Nat) (payload : List Byte), s.powered = true →
    let n := payload.length
    (∀ h e b, s.bearerAt identity = some (h, e, b) → (s.port e.port).state ≠ .down → 1 ≤ n → n ≤ 1536 →
      exec (.localDown identity payload) s = .next
        { s with
          table := { s.table with entries := alterKey h (fun e => { e with
            bearers := onSlot b.slot (fun b => { b with fromLocal := b.fromLocal.add n }) e.bearers }) s.table.entries },
          router := { s.router with totals := { s.router.totals with
            localDelivered := s.router.totals.localDelivered.add n } },
          sent := s.sent ++ [.toHead e.port (.downFrame identity payload)] }) ∧
    ((∀ h e b, s.bearerAt identity = some (h, e, b) → (s.port e.port).state = .down ∨ n = 0 ∨ 1536 < n) →
      exec (.localDown identity payload) s = .next
        { s with router := { s.router with totals := { s.router.totals with
          localDiscards := s.router.totals.localDiscards.add n } } })

/-- A SHORE-DOWN on a link that takes it reaches the head of an entitled subscriber on its SHORE bearer, and is metered
for a PASSENGER; with no open bearer, another token, an ONBOARD bearer or no entitlement it is discarded under its own
total; on a link that does not take it it is out-of-state (R71, R72, R80). -/
def Obligations.ShoreDownlink : Prop :=
  ∀ (s : State) (l : Fin 4) (identity : Nat) (token : Token) (payload : List Byte), s.powered = true →
    1 ≤ payload.length → payload.length ≤ 1536 →
    let n := payload.length
    let counted := fun (t : RouterTotals) =>
      exec (.shoreDown l identity token payload) s = .next { s with router := { s.router with totals := t } }
    (s.takes l = false → exec (.shoreDown l identity token payload) s = .next
      { s with slm := { s.slm with links := s.slm.links.set l { s.slm.links[l] with
        counters := { s.slm.links[l].counters with outOfState := bump32 s.slm.links[l].counters.outOfState } } } }) ∧
    (s.takes l = true → s.bearerAt identity = none →
      counted { s.router.totals with downNotOpen := s.router.totals.downNotOpen.add n }) ∧
    (∀ h e b, s.takes l = true → s.bearerAt identity = some (h, e, b) →
      (e.token ≠ token → counted { s.router.totals with downStaleBearer := s.router.totals.downStaleBearer.add n }) ∧
      (e.token = token → b.kind = .onboard →
        counted { s.router.totals with downWrongKind := s.router.totals.downWrongKind.add n }) ∧
      (e.token = token → b.kind = .shore → s.entitled e = false →
        counted { s.router.totals with downNotEntitled := addAt 7 n s.router.totals.downNotEntitled (downCause e) }) ∧
      (e.token = token → b.kind = .shore → s.entitled e = true → (s.port e.port).state ≠ .down →
        let delivered := { s.router.totals with downDelivered := s.router.totals.downDelivered.add n }
        exec (.shoreDown l identity token payload) s = .next
          { s with
            table := { s.table with entries := alterKey h (fun e => { e with
              bearers := onSlot b.slot (fun b => { b with fromShore := b.fromShore.add n }) e.bearers }) s.table.entries },
            router := if e.cls = .passenger then
                { s.router with
                  totals := { delivered with meteredDown := s.router.totals.meteredDown.add n },
                  additions := s.router.additions ++ [{ handle := h, attach := e.attach, dir := .downlink, bytes := n }] }
              else { s.router with totals := delivered },
            sent := s.sent ++ [.toHead e.port (.downFrame identity payload)] }))

/-! ## The shore links -/

/-- A carrier loss takes the link to ABSENT, owing a long probe, with nothing waiting at its port and no exchange left on
it; when it was the only ACTIVE link of a RUNNING device, isolation stands (R81, R85, R90, R109, R124). When it was the
from-link of a planned swap, the swap goes on without a from-link as an unplanned one, its to-link still JOINING (R104).
When it was the JOINING to-link, the swap fails with cause TARGET-LOST; an ACTIVE link stays ACTIVE, and without one a
READY link, if there is one with a type, becomes the target of a new unplanned swap (R94, R105). That the record of the
failed swap keeps its kind, links and MOVE-sent flag is assumption 59, that its MOVE-ACK expiry then reads absent
assumption 56 (DESIGN CHOICE each).
A carrier that returns to an ABSENT link starts its probe when the link is enabled, long while one is owed; else it is
only recorded (R87).
A holddown's end and a READY link's re-probe timer start a probe, long while one is owed (R83, R86, R88). -/
def Obligations.LinkTimersAndCarriers : Prop :=
  (∀ (s : State) (l : Fin 4), s.powered = true → (s.link l).state ≠ .absent →
     ∃ t, exec (.shoreCarrierLost l) s = .next t ∧ (t.link l).state = .absent ∧ (t.link l).carrier = false ∧
       (t.link l).longOwed = true ∧ (t.link l).probe = none ∧ (t.link l).waiting = [] ∧
       (t.link l).counters.carrierLosses = bump32 (s.link l).counters.carrierLosses ∧ (∀ x ∈ t.rge.inFlight, x.link ≠ l) ∧
       t.tracker = s.tracker ∧
       ((s.link l).state = .active → s.mli.device = .running → (∀ k, k ≠ l → (s.link k).state ≠ .active) →
         t.slm.isolated ≠ none)) ∧
  (∀ (s : State) (l to_ : Fin 4), s.powered = true → (s.link l).state = .active → s.slm.swap.inProgress = true →
     s.slm.swap.fromLink = some l → s.slm.swap.toLink = some to_ → (s.link to_).state = .joining →
     (∀ k, k ≠ l → (s.link k).state ≠ .active) →
     ∃ t, exec (.shoreCarrierLost l) s = .next t ∧
       t.slm.swap = { s.slm.swap with fromLink := none, planned := some false } ∧ (t.link to_).state = .joining ∧
       t.slm.counters.turnedUnplanned = bump32 s.slm.counters.turnedUnplanned ∧
       (s.mli.device = .running → s.slm.isolated = none → t.slm.isolated = some s.mli.clock)) ∧
  (∀ (s : State) (l : Fin 4), s.powered = true → (s.link l).state = .joining → s.slm.swap.inProgress = true →
     s.slm.swap.toLink = some l →
     ∃ t, exec (.shoreCarrierLost l) s = .next t ∧ (t.link l).state = .absent ∧ (t.link l).longOwed = true ∧
       t.slm.counters.failedTarget = bump32 s.slm.counters.failedTarget ∧ t.slm.swap.lastOutcome = some .targetLost ∧
       (∀ a, s.activeLink? = some a → s.slm.settleTime ≠ 0 → (t.link a).state = .active ∧ t.slm.swap = { s.slm.swap with
         inProgress := false, ackExpiry := none, lastOutcome := some .targetLost }) ∧
       (s.activeLink? = none → s.mli.device = .running →
         ((∀ k, (s.link k).state = .ready → (s.link k).type = none) → t.slm.swap.inProgress = false) ∧
         ((∃ k, (s.link k).state = .ready ∧ (s.link k).type ≠ none) → ∃ d, (s.link d).state = .ready ∧
           (t.link d).state = .joining ∧ t.slm.swap = {
             inProgress := true, number := bump16 s.slm.swap.number, planned := some false, fromLink := none,
             toLink := some d, moveSent := (s.link d).free, startedAt := s.mli.clock,
             ackExpiry := some (s.mli.clock + s.slm.moveAckTimer), lastOutcome := some .targetLost }))) ∧
  (∀ (s : State) (l : Fin 4), s.powered = true → (s.link l).state = .absent →
     ((s.link l).enabled = true → ∃ t p, exec (.shoreCarrierReturn l) s = .next t ∧ (t.link l).state = .probing ∧
       (t.link l).carrier = true ∧ (t.link l).probe = some p ∧ p.long = (s.link l).longOwed ∧ p.answered = 0 ∧
       p.timedOut = 0) ∧
     ((s.link l).enabled = false → exec (.shoreCarrierReturn l) s = .next
       { s with slm := { s.slm with links := s.slm.links.set l { s.slm.links[l] with carrier := true } } })) ∧
  (∀ (s : State) (l : Fin 4) (at_ : Nat), s.powered = true → at_ ≤ s.mli.clock →
     let probes := fun (fromReady : Bool) (t : State) =>
       (t.link l).state = .probing ∧ ∃ p, (t.link l).probe = some p ∧ p.long = (s.link l).longOwed ∧ p.answered = 0 ∧
         p.timedOut = 0 ∧ p.fromReady = fromReady
     ((s.link l).state = .holddown → (s.link l).holddownAt = some at_ →
       ∃ t, exec (.holddownExpiry l) s = .next t ∧ probes false t) ∧
     ((s.link l).state = .ready → (s.link l).reprobeAt = some at_ →
       ∃ t, exec (.reprobeExpiry l) s = .next t ∧ probes true t))

/-- A modem that becomes ready takes the record waiting first at its port, one for each report (assumption 17, DESIGN
CHOICE); with none waiting, and when it reports not ready, only the report is recorded (R81).
A waiting echo takes the link's next sequence and this moment as its send time, and its window opens, but for a keepalive
whose successor is due already; a probe's next echo is timed from it (R82, R83, R89). The store's head frame leaves the
store as SHORE-UP and is metered for a living PASSENGER entry, here while no store hold stands (R70, R73, R113; for an
entry that is gone, assumption 26). A MOVE sets the MOVE-sent flag of the swap it announces, ended or not (R99). Any other
record is only sent; that a roaming record, a DEREG or a SETTLE so waiting goes while a swap is in progress too is
assumption 55 (DESIGN CHOICE). -/
def Obligations.ModemTakesTheFirstRecord : Prop :=
  ∀ (s : State) (l : Fin 4), s.powered = true →
    ((s.link l).waiting = [] → exec (.modemReady l) s = .next
      { s with slm := { s.slm with links := s.slm.links.set l { s.slm.links[l] with modemReady := true } } }) ∧
    (∀ r rest, (s.link l).waiting = .plain r :: rest → (∀ n, r ≠ .move n) → exec (.modemReady l) s = .next
      { s with
        slm := { s.slm with links := s.slm.links.set l { s.slm.links[l] with modemReady := true, waiting := rest } },
        sent := s.sent ++ [.toShore l r] }) ∧
    (∀ purpose due rest, (s.link l).waiting = .echo purpose due :: rest →
      let k := s.slm.links[l]
      let isOpen := purpose == .probe || due == k.keepDue
      exec (.modemReady l) s = .next
        { s with
          slm := { s.slm with links := s.slm.links.set l { k with
            modemReady := true, waiting := rest, echoSeq := bump16 k.echoSeq,
            openEchoes := if isOpen then k.openEchoes ++ [⟨k.echoSeq, purpose, s.mli.clock⟩] else k.openEchoes,
            closedEchoes := k.closedEchoes.filter (fun c => c.1 != k.echoSeq)
              ++ (if isOpen then [] else [(k.echoSeq, purpose)]),
            probe := if purpose = .probe then k.probe.map fun p => { p with sent := p.sent + 1 } else k.probe,
            nextEcho := match purpose, k.probe with
              | .probe, some p => if p.sent + 1 < (if p.long then 64 else 8) then some (s.mli.clock + 100) else none
              | _, _ => k.nextEcho,
            counters := match purpose with
              | .probe => { k.counters with probeSent := bump32 k.counters.probeSent }
              | .keepalive => { k.counters with keepSent := bump32 k.counters.keepSent } } },
          sent := s.sent ++ [.toShore l (.echo l.val k.echoSeq purpose)] }) ∧
    (∀ token rest f frames, (s.link l).waiting = .storeFrame token :: rest → s.sws.frames = f :: frames →
      s.cpc.storeHold = false →
      let n := f.payload.length
      let handed := { s.router.totals with handOffs := s.router.totals.handOffs.add n }
      exec (.modemReady l) s = .next
        { s with
          slm := { s.slm with links := s.slm.links.set l { s.slm.links[l] with modemReady := true, waiting := rest } },
          sws := { s.sws with
            frames := frames, offered := false,
            counters := { s.sws.counters with handedOff := s.sws.counters.handedOff.add n } },
          router := if (s.life? f.handle f.attach).map (·.cls) = some .passenger then
              { s.router with
                totals := { handed with meteredUp := s.router.totals.meteredUp.add n },
                additions := s.router.additions ++ [⟨f.handle, f.attach, .uplink, n⟩] }
            else { s.router with totals := handed },
          sent := s.sent ++ [.toShore l (.shoreUp f.identity token f.payload)] }) ∧
    (∀ n rest, (s.link l).waiting = .plain (.move n) :: rest → s.slm.swap.toLink = some l → s.slm.swap.number = n → exec (.modemReady l) s = .next
      { s with
        slm := { s.slm with
          links := s.slm.links.set l { s.slm.links[l] with modemReady := true, waiting := rest },
          swap := { s.slm.swap with moveSent := true } },
        sent := s.sent ++ [.toShore l (.move n)] }) ∧
    exec (.modemNotReady l) s = .next
      { s with slm := { s.slm with links := s.slm.links.set l { s.slm.links[l] with modemReady := false } } }

/-- A probe echo that falls due goes to a ready modem with the link's next sequence, and the next falls due 100 ms later
until all 64 of a long probe or 8 of a short one are sent; a modem that is not ready finds it waiting (R81, R82, R83).
An ECHO-BACK that matches an open echo answers it: a probe's adds to the count and the round trips, a keepalive's clears
the misses. One whose window has closed is late, one that fits no echo is stale, and one on an ABSENT or DRAINING link is
out-of-state; these are only counted (R80, R82, R84, R89). -/
def Obligations.EchoesAreMatched : Prop :=
  (∀ (s : State) (l : Fin 4) (due : Nat) (p : Probe), s.powered = true → (s.link l).state = .probing →
     (s.link l).nextEcho = some due → due ≤ s.mli.clock → (s.link l).probe = some p →
     let k := s.slm.links[l]
     ((s.link l).modemReady = true → (s.link l).waiting = [] → exec (.probeEchoDue l) s = .next
       { s with
         slm := { s.slm with links := s.slm.links.set l { k with
           echoSeq := bump16 k.echoSeq,
           openEchoes := k.openEchoes ++ [⟨k.echoSeq, .probe, s.mli.clock⟩],
           closedEchoes := k.closedEchoes.filter (fun c => c.1 != k.echoSeq),
           probe := some { p with sent := p.sent + 1 },
           nextEcho := if p.sent + 1 < (if p.long then 64 else 8) then some (s.mli.clock + 100) else none,
           counters := { k.counters with probeSent := bump32 k.counters.probeSent } } },
         sent := s.sent ++ [.toShore l (.echo l.val k.echoSeq .probe)] }) ∧
     ((s.link l).modemReady = false → exec (.probeEchoDue l) s = .next
       { s with slm := { s.slm with links := s.slm.links.set l { k with
           nextEcho := none, waiting := k.waiting ++ [.echo .probe 0] } } })) ∧
  (∀ (s : State) (l : Fin 4) (seq : Nat), s.powered = true →
     let k := s.slm.links[l]
     let after := fun (k' : Link) => ({ s with slm := { s.slm with links := s.slm.links.set l k' } } : State)
     (∀ purpose n, (s.link l).state = .absent ∨ (s.link l).state = .draining →
       exec (.echoBack l n seq purpose) s = .next
         (after { k with counters := { k.counters with outOfState := bump32 k.counters.outOfState } })) ∧
     (∀ purpose, (s.link l).state = .probing ∨ (s.link l).state = .ready ∨ (s.link l).state = .active →
       (∀ o ∈ (s.link l).openEchoes, ¬ (o.seq = seq ∧ o.purpose = purpose)) →
       ((seq, purpose) ∈ (s.link l).closedEchoes → exec (.echoBack l l.val seq purpose) s = .next
         (after { k with counters := { k.counters with late := bump32 k.counters.late } })) ∧
       ((seq, purpose) ∉ (s.link l).closedEchoes → exec (.echoBack l l.val seq purpose) s = .next
         (after { k with counters := { k.counters with stale := bump32 k.counters.stale } }))) ∧
     (∀ o p, (s.link l).state = .probing → s.matchEcho l seq .probe = some o → (s.link l).probe = some p →
       p.timedOut ≤ (if p.long then 8 else 1) → p.sent < (if p.long then 64 else 8) →
       exec (.echoBack l l.val seq .probe) s = .next
         (after { k with
           openEchoes := k.openEchoes.filter (fun o => o.seq != seq),
           probe := some { p with answered := p.answered + 1, rttSum := p.rttSum + (s.mli.clock - o.sentAt) },
           counters := { k.counters with probeAnswered := bump32 k.counters.probeAnswered } })) ∧
     (∀ o, (s.link l).state = .active → s.matchEcho l seq .keepalive = some o →
       exec (.echoBack l l.val seq .keepalive) s = .next
         (after { k with
           openEchoes := k.openEchoes.filter (fun o => o.seq != seq), keepAnswered := some true, misses := 0 })))

/-- The answer that completes a probe concludes it: READY when the mean round trip is within the limit, which pays a long
probe that was owed, else HOLDDOWN for the holddown time (R84, R86). A READY link may at once become the to-link of a swap
(R94).
A probe echo whose 2,000 ms end unanswered has timed out; the ninth of a long probe and the second of a short one fail the
probe at once (R82, R84). -/
def Obligations.ProbeConcludes : Prop :=
  (∀ (s : State) (l : Fin 4) (seq : Nat) (o : OpenEcho) (p : Probe) (limit : Nat), s.powered = true →
     (s.link l).state = .probing → s.matchEcho l seq .probe = some o → (s.link l).probe = some p →
     (s.link l).rttLimit = some limit → p.timedOut ≤ (if p.long then 8 else 1) → p.sent = (if p.long then 64 else 8) →
     p.answered + 1 + p.timedOut = p.sent →
     let mean := (p.rttSum + (s.mli.clock - o.sentAt)) / (p.answered + 1)
     ∃ t, exec (.echoBack l l.val seq .probe) s = .next t ∧
       (t.link l).lastProbe = some ⟨p.long, decide (mean ≤ limit), p.answered + 1, mean⟩ ∧
       (mean ≤ limit → ((t.link l).state = .ready ∨ (t.link l).state = .joining ∧ s.mli.device = .running) ∧
         (p.long = true → (t.link l).longOwed = false)) ∧
       (limit < mean → (t.link l).state = .holddown ∧
         (t.link l).holddownAt = some (s.mli.clock + (s.link l).holddownTime * 1000) ∧
         (t.link l).longOwed = (s.link l).longOwed)) ∧
  (∀ (s : State) (l : Fin 4) (seq : Nat) (o : OpenEcho) (p : Probe), s.powered = true → (s.link l).state = .probing →
     (s.link l).openEchoes.find? (fun o => o.seq == seq && o.purpose == .probe) = some o → o.sentAt + 2000 ≤ s.mli.clock →
     (s.link l).probe = some p →
     let k := s.slm.links[l]
     (p.timedOut + 1 ≤ (if p.long then 8 else 1) → p.sent < (if p.long then 64 else 8) →
       exec (.echoWindowEnd l seq) s = .next
         { s with slm := { s.slm with links := s.slm.links.set l { k with
           openEchoes := k.openEchoes.filter (fun o => o.seq != seq), closedEchoes := k.closedEchoes ++ [(seq, .probe)],
           probe := some { p with timedOut := p.timedOut + 1 },
           counters := { k.counters with probeTimedOut := bump32 k.counters.probeTimedOut } } } }) ∧
     ((if p.long then 8 else 1) < p.timedOut + 1 →
       ∃ t, exec (.echoWindowEnd l seq) s = .next t ∧ (t.link l).state = .holddown ∧
         ∃ r, (t.link l).lastProbe = some r ∧ r.passed = false ∧ r.long = p.long ∧ r.answered = p.answered))

/-- A keepalive falls due a second after the last, takes the link's next sequence at a ready modem, and counts a miss when
the one before it stood unanswered; a third miss in a row fails the link to HOLDDOWN instead (R89, R90), and a planned swap
from it goes on without a from-link as an unplanned one (R104). -/
def Obligations.KeepaliveFallsDue : Prop :=
  ∀ (s : State) (l : Fin 4) (due : Nat), s.powered = true → (s.link l).state = .active → (s.link l).nextEcho = some due →
    due ≤ s.mli.clock →
    let k := s.slm.links[l]
    let misses := match k.keepAnswered with
      | none => k.misses
      | some true => 0
      | some false => k.misses + 1
    (misses < 3 → (s.link l).modemReady = true → (s.link l).waiting = [] →
      ∃ t, exec (.keepaliveDue l) s = .next t ∧ t.sent = s.sent ++ [.toShore l (.echo l.val k.echoSeq .keepalive)] ∧
        (t.link l).state = .active ∧ (t.link l).misses = misses ∧ (t.link l).nextEcho = some (due + 1000) ∧
        (t.link l).echoSeq = bump16 k.echoSeq ∧ (t.link l).keepAnswered = some false ∧
        (t.link l).openEchoes = [⟨k.echoSeq, .keepalive, s.mli.clock⟩] ∧ (∀ m, m ≠ l → t.link m = s.link m) ∧
        t = { s with slm := { s.slm with links := t.slm.links }, sent := t.sent }) ∧
    (3 ≤ misses → ∃ t, exec (.keepaliveDue l) s = .next t ∧ (t.link l).state = .holddown ∧
      (t.link l).holddownAt = some (s.mli.clock + (s.link l).holddownTime * 1000) ∧ (t.link l).waiting = [] ∧
      (t.link l).counters.keepaliveFailures = bump32 (s.link l).counters.keepaliveFailures ∧
      (s.slm.swap.inProgress = true → s.slm.swap.fromLink = some l →
        t.slm.swap = { s.slm.swap with fromLink := none, planned := some false }))

/-! ## Selection, swaps and the swap store -/

/-- When the settle time has passed and its link is still desired, a planned swap to it begins: the number advances, the
target is JOINING, the MOVE is sent or waits, and the MOVE-ACK timer runs (R94, R99).
A settle record whose own expiry has not come has replaced the one whose timer expired, and nothing is handed on (R94); that the command
then leaves the clock too is assumption 5 (DESIGN CHOICE). -/
def Obligations.SettleTimerBeginsAPlannedSwap : Prop :=
  (∀ (s : State) (r : Settle) (a : Fin 4), s.powered = true → s.mli.device = .running → s.slm.settle = some r →
    r.expiry ≤ s.mli.clock → s.slm.swap.inProgress = false → s.activeLink? = some a → s.desired = some r.link → a ≠ r.link →
    ∃ t, exec .settleTimerExpiry s = .next t ∧ t.slm.settle = none ∧
      t.slm.swap = {
        inProgress := true, number := bump16 s.slm.swap.number, planned := some true, fromLink := some a,
        toLink := some r.link, moveSent := (s.link r.link).free, startedAt := s.mli.clock,
        ackExpiry := some (s.mli.clock + s.slm.moveAckTimer), lastOutcome := s.slm.swap.lastOutcome } ∧
      (t.link r.link).state = .joining ∧ (t.link a).state = .active ∧
      t.sent = s.sent ++ (if (s.link r.link).free then [.toShore r.link (.move (bump16 s.slm.swap.number))] else [])) ∧
  (∀ (s : State) (r : Settle), s.powered = true → s.slm.settle = some r → s.mli.clock < r.expiry →
    exec .settleTimerExpiry s = .next s)

/-- The MOVE-ACK of the swap in progress makes its to-link ACTIVE and its from-link DRAINING for the guard time, and ends
any isolation and cut-off; without a from-link no other link changes state (R101, R104, R106, R111). At the end of a
cut-off, and only then, serve levels are sent: FULL to every SERVED or MOVING subscriber whose barred flag is clear, on a
listening port and without a port-lost marker (R33, R111), in ascending handle order (assumption 48, DESIGN CHOICE).
LINK-CHANGED is raised for the to-link and then for the from-link, with cause SWAP and each link's type, cost rank and last
probe result; SWAP-DONE with the swap's number, kind and links, its length in milliseconds and what the store holds; and,
when isolation ends, REJOINED (R95, R101, R108, R111).
A MOVE-ACK with no swap in progress or with another number is counted and changes no link's state and no timer (R102). -/
def Obligations.MoveAckCompletesTheSwap : Prop :=
  (∀ (s : State) (l to_ : Fin 4), s.powered = true → s.takes l = true → s.slm.swap.inProgress = true → s.linksOk →
     s.slm.swap.toLink = some to_ → s.slm.swap.fromLink ≠ some to_ →
     let isLevel := fun (x : Sent) => match x with
       | .toHead _ (.serveLevel _ _ _) => true
       | _ => false
     ∃ t, exec (.moveAck l s.slm.swap.number) s = .next t ∧ (t.link to_).state = .active ∧
       (s.handles.Nodup → ∃ new, t.sent = s.sent ++ new ∧ new.filter isLevel =
         if s.slm.isolated ≠ none ∧ s.slm.cutOff = true then s.table.entries.flatMap fun x =>
           if (x.2.reg = .served ∨ x.2.reg = .moving) ∧ x.2.barred = false ∧ x.2.portLost = none ∧
               (s.port x.2.port).state ≠ .down then [.toHead x.2.port (.serveLevel x.1 x.2.token .full)] else []
         else []) ∧
       t.slm.isolated = none ∧ (s.slm.isolated ≠ none → t.slm.cutOff = false) ∧
       t.slm.counters.done = bump32 s.slm.counters.done ∧
       (∀ f, s.slm.swap.fromLink = some f → (t.link f).state = .draining ∧
         (t.link f).guardAt = some (s.mli.clock + s.slm.guardTime)) ∧
       (∀ planned, s.slm.settleTime ≠ 0 → (s.link to_).state = .joining → s.slm.swap.planned = some planned →
         let changed := fun (l : Fin 4) (old new : LinkState) (u : State) =>
           u.raise (.linkChanged l old new .swap (s.link l).type (s.link l).costRank (s.link l).lastProbe s.mli.shipTime 1)
         let arrived := changed to_ .joining .active s
         let left := match s.slm.swap.fromLink with
           | some f => changed f .active .draining arrived
           | none => arrived
         let done := left.raise (.swapDone s.slm.swap.number planned s.slm.swap.fromLink to_
           (s.mli.clock - s.slm.swap.startedAt) (occupancy s.sws.frames) s.sws.frames.length s.mli.shipTime 1)
         t.mli = (match s.slm.isolated with
           | some since => done.raise (.rejoined to_ s.slm.swap.number (s.mli.clock - since) s.slm.cutOff
               (if s.slm.cutOff then s.slm.cutOffShed else ⟨0, 0⟩) s.mli.shipTime 1)
           | none => done).mli) ∧
       (s.slm.settleTime ≠ 0 → t.slm.swap.inProgress = false ∧ t.slm.swap.lastOutcome = some .done ∧
         (s.slm.swap.fromLink = none → ∀ m, m ≠ to_ → (t.link m).state = (s.link m).state))) ∧
  (∀ (s : State) (l : Fin 4) (n : Nat), s.powered = true → s.takes l = true →
     (s.slm.swap.inProgress = false ∨ n ≠ s.slm.swap.number) →
     exec (.moveAck l n) s = .next
       { s with slm := { s.slm with counters := { s.slm.counters with
         staleMoveAcks := bump32 s.slm.counters.staleMoveAcks } } })

/-- The MOVE-ACK timer's expiry sends the to-link to HOLDDOWN and fails the swap with cause TIMEOUT; the ACTIVE link stays
ACTIVE (R103). One that comes before the expiry of the swap in progress is that of a swap done or failed since, whose timer
was cancelled, and changes nothing (R101, R102, R105); that the clock too stays is assumption 5 (DESIGN CHOICE).
A DRAINING link whose guard ends returns to READY; it may at once be the to-link of a new swap (R106, R94). -/
def Obligations.SwapTimersExpire : Prop :=
  (∀ (s : State) (l : Fin 4) (at_ : Nat), s.powered = true → s.slm.swap.inProgress = true → s.slm.swap.ackExpiry = some at_ →
     at_ ≤ s.mli.clock → s.slm.swap.toLink = some l → (s.link l).state = .joining → s.linksOk →
     ∃ t, exec .moveAckTimerExpiry s = .next t ∧ (t.link l).state = .holddown ∧
       t.slm.swap.lastOutcome = some .timeout ∧ t.slm.counters.failedTimeout = bump32 s.slm.counters.failedTimeout ∧
       (∀ f, (s.link f).state = .active → (t.link f).state = .active) ∧
       (s.slm.settleTime ≠ 0 → s.activeLink? ≠ none → t.slm.swap.inProgress = false)) ∧
  (∀ (s : State) (at_ : Nat), s.slm.swap.ackExpiry = some at_ → s.mli.clock < at_ →
     exec .moveAckTimerExpiry s = .next s) ∧
  (∀ (s : State) (l : Fin 4) (at_ : Nat), s.powered = true → (s.link l).state = .draining → (s.link l).guardAt = some at_ →
     at_ ≤ s.mli.clock →
     ∃ t, exec (.drainingGuardExpiry l) s = .next t ∧ (t.link l).guardAt = none ∧
       ((t.link l).state = .ready ∨ (t.link l).state = .joining ∧ t.slm.swap.toLink = some l) ∧
       (s.activeLink? ≠ none → s.slm.settleTime ≠ 0 → (t.link l).state = .ready ∧
         (t.link l).reprobeAt = some (s.mli.clock + (s.link l).reprobeTime * 1000)))

/-- The isolation grace's expiry empties the store, every frame counted as shed, and the shore cut-off stands, so that no
subscriber is entitled (R53, R110, R115). SERVE-LEVEL LOCAL goes to every SERVED or MOVING subscriber on a listening port
and without a port-lost marker, and to no other (R33, R110), in ascending handle order (assumption 48, DESIGN CHOICE). -/
def Obligations.GraceExpiryCutsOff : Prop :=
  ∀ (s : State) (since at_ : Nat), s.powered = true → s.slm.isolated = some since → s.slm.graceAt = some at_ →
    at_ ≤ s.mli.clock →
    ∃ t, exec .graceExpiry s = .next t ∧ t.slm.cutOff = true ∧ t.slm.graceAt = none ∧ t.slm.isolated = some since ∧
      t.sws.frames = [] ∧
      t.sws.counters.shed = s.sws.frames.foldl (fun c f => c.add f.payload.length) s.sws.counters.shed ∧
      (∀ e, t.entitled e = false) ∧
      (let isLevel := fun (x : Sent) => match x with
         | .toHead _ (.serveLevel _ _ _) => true
         | _ => false
       s.handles.Nodup → ∃ new, t.sent = s.sent ++ new ∧ new.filter isLevel = s.table.entries.flatMap fun x =>
         if (x.2.reg = .served ∨ x.2.reg = .moving) ∧ x.2.portLost = none ∧ (s.port x.2.port).state ≠ .down then
           [.toHead x.2.port (.serveLevel x.1 x.2.token .onboardOnly)] else [])

/-- The store's head frame is tested as it reaches the ACTIVE link (R53, R70, R113, R114), here below the hold condition:
an entitled subscriber's goes as SHORE-UP when the modem is ready and is metered for a PASSENGER, else it is offered at
the port; without a living entry it is withdrawn; for one not entitled it is withdrawn and the entry's store loss count
rises.
While the store hold condition stands, a hand-off that brings the occupancy to 262,144 bytes or less ends it: every held
port is sent RESUME and its flag clears; above that the condition and every flag stay (R35, R113). -/
def Obligations.StoreDrains : Prop :=
  (∀ (s : State) (l : Fin 4) (f : StoredFrame) (rest : List StoredFrame), s.powered = true → s.activeLink? = some l →
    s.slm.swap.inProgress = false → s.sws.frames = f :: rest → s.sws.offered = false → s.cpc.storeHold = false →
    let n := f.payload.length
    (s.life? f.handle f.attach = none → exec .storeDrain s = .next
      { s with sws := { s.sws with
        frames := rest,
        counters := { s.sws.counters with withdrawn := addAt 5 n s.sws.counters.withdrawn 0 } } }) ∧
    (∀ e, s.life? f.handle f.attach = some e → s.entitled e = true →
      ((s.link l).free = true → exec .storeDrain s = .next
        { s with
          sws := { s.sws with
            frames := rest, counters := { s.sws.counters with handedOff := s.sws.counters.handedOff.add n } },
          router :=
            let handed := { s.router.totals with handOffs := s.router.totals.handOffs.add n }
            if e.cls = .passenger then
              { s.router with
                totals := { handed with meteredUp := s.router.totals.meteredUp.add n },
                additions := s.router.additions ++ [⟨f.handle, f.attach, .uplink, n⟩] }
            else { s.router with totals := handed },
          sent := s.sent ++ [.toShore l (.shoreUp f.identity e.token f.payload)] }) ∧
      ((s.link l).free = false → exec .storeDrain s = .next
        { s with
          sws := { s.sws with offered := true },
          slm := { s.slm with links := s.slm.links.set l { s.slm.links[l] with
            waiting := s.slm.links[l].waiting ++ [.storeFrame e.token] } } })) ∧
    (∀ e, s.life? f.handle f.attach = some e → s.entitled e = false →
      ∃ t, exec .storeDrain s = .next t ∧ t.sws.frames = rest ∧ t.sent = s.sent ∧ t.router = s.router ∧
        t.sws.counters.withdrawn = addAt 5 n s.sws.counters.withdrawn
          (if e.portLost ≠ none then 1 else if e.barred = true then 2 else if e.closing = true then 3 else 4) ∧
        ∃ e', t.entry? f.handle = some e' ∧ e'.storeLoss = min 65535 (e.storeLoss + 1))) ∧
  (∀ (s : State) (l : Fin 4) (f : StoredFrame) (rest : List StoredFrame) (e : Entry), s.powered = true →
    s.activeLink? = some l → s.slm.swap.inProgress = false → s.sws.frames = f :: rest → s.sws.offered = false →
    s.cpc.storeHold = true → s.life? f.handle f.attach = some e → s.entitled e = true → (s.link l).free = true →
    let up := Sent.toShore l (.shoreUp f.identity e.token f.payload)
    ∃ t, exec .storeDrain s = .next t ∧ t.sws.frames = rest ∧
      (occupancy rest ≤ 262144 → t.cpc.storeHold = false ∧
        (∀ p, t.port p = { s.port p with hold := false }) ∧
        t.sent = s.sent ++ up ::
          (allPorts.filter fun p => (s.port p).hold && decide ((s.port p).state ≠ .down)).map fun p => .toHead p .resume) ∧
      (262144 < occupancy rest → t.cpc = s.cpc ∧ t.sent = s.sent ++ [up]))

/-! ## Roaming -/

/-- A part of LOAD-PARTNERS is staged: part 0 begins the table with its settings, each next part adds its records up to
32.
The last part, which passes the checks at a berth, puts the table in force: the in-flight table is emptied, every entry
keeps its serving partner only under the same index and network code and holds no candidate, and the bucket is cut to the
new depth. A refused last part empties the staging table and changes nothing else (R119, R120, R183).
A part that cannot be read, whose fields fail check 1, with a number other than the next, with none staged before it, or
taking the staged count above 32, and a last part that leaves none staged, is refused MALFORMED, and the staging table is
emptied (R183). During the power-on scan a part that may join is refused NOT-READY and empties it too (R177, R183).
That a clamp in any part taken sets the clamped flag of the last part's reply, and a clamp in a part refused that of its
own, is the model's reading (assumptions 29 and 57, DEDUCED each); that a part is taken behind a part 0 of no records is its choice (assumption 65, DESIGN CHOICE), and
that a record of an exchange so emptied stays at its port its reading (assumption 74, DEDUCED). -/
def Obligations.PartnersAreLoaded : Prop :=
  let emptied := fun (s : State) => ({ s with mli := { s.mli with staging := none } } : State)
  (∀ (s : State) (tag : Byte) (b : PartnersPart) (st : Staging), s.hostFree → partWellFormed b = true →
    (b.settings = none ∧ (∃ old, s.mli.staging = some old ∧ b.part = old.lastPart + 1 ∧
        old.records.length + b.records.length ≤ 32 ∧
        st = { old with
          records := old.records ++ b.records.map clampPartner, lastPart := b.part, clamped := old.clamped || partClamped b }) ∨
      ∃ rate timer, b.settings = some (rate, timer) ∧
        st = ⟨b.records.map clampPartner, max 1 (min 200 rate), max 1000 (min 30000 timer), 0, partClamped b⟩) →
    (s.rsc.scanEnded = true → exec (.loadPartnersPart ⟨tag, some b⟩) s = .next
      (({ s with mli := { s.mli with staging := some st } } : State).replied Kind.loadPartners tag (partClamped b)
        (le 1 st.records.length))) ∧
    (s.rsc.scanEnded = false → exec (.loadPartnersPart ⟨tag, some b⟩) s = .next
      ((emptied s).turnedAwayClamped Kind.loadPartners tag (partClamped b) .notReady [])) ∧
    (st.records = [] → exec (.loadPartnersLast ⟨tag, some b⟩) s = .next
      ((emptied s).turnedAwayClamped Kind.loadPartners tag st.clamped .malformed [])) ∧
    (s.rsc.scanEnded = false → st.records ≠ [] → exec (.loadPartnersLast ⟨tag, some b⟩) s = .next
      ((emptied s).turnedAwayClamped Kind.loadPartners tag st.clamped .notReady [])) ∧
    (s.rsc.scanEnded = true → st.records ≠ [] → s.atBerth = true → s.partnersAccepted st.records = true →
      exec (.loadPartnersLast ⟨tag, some b⟩) s = .next
        (({ s with
          mli := { s.mli with staging := none },
          table := { s.table with
            entries := s.table.entries.map fun p => (p.1, underNewTable s.rge.partners st.records p.2) },
          rge := { s.rge with
            partners := st.records, pacerRate := st.pacerRate, exchangeTimer := st.exchangeTimer, inFlight := [],
            bucket := min s.rge.bucket (st.pacerRate * 1000) } } : State).replied Kind.loadPartners tag st.clamped
          (le 1 st.records.length ++ le 1 st.pacerRate ++ le 2 st.exchangeTimer))) ∧
    (s.rsc.scanEnded = true → st.records ≠ [] → s.atBerth = false → exec (.loadPartnersLast ⟨tag, some b⟩) s = .next
      ((emptied s).turnedAwayClamped Kind.loadPartners tag st.clamped .notAtBerth [])) ∧
    (s.rsc.scanEnded = true → st.records ≠ [] → s.atBerth = true → s.partnersAccepted st.records = false →
      exec (.loadPartnersLast ⟨tag, some b⟩) s = .next
        ((emptied s).turnedAwayClamped Kind.loadPartners tag st.clamped .badTable []))) ∧
  (∀ (s : State) (tag : Byte) (b : PartnersPart), s.hostFree →
    (7 < b.part ∨ 32 < b.records.length ∨ partWellFormed b = false ∨
      b.settings = none ∧ (s.mli.staging = none ∨ ∃ old, s.mli.staging = some old ∧
        (b.part ≠ old.lastPart + 1 ∨ 32 < old.records.length + b.records.length))) →
    let refused := (emptied s).turnedAwayClamped Kind.loadPartners tag (partClamped b) .malformed []
    exec (.loadPartnersPart ⟨tag, some b⟩) s = .next refused ∧ exec (.loadPartnersLast ⟨tag, some b⟩) s = .next refused) ∧
  (∀ (s : State) (tag : Byte), s.hostFree →
    let refused := (emptied s).turnedAway Kind.loadPartners tag .malformed []
    exec (.loadPartnersPart ⟨tag, none⟩) s = .next refused ∧ exec (.loadPartnersLast ⟨tag, none⟩) s = .next refused)

/-- The pacer's next piece of work on a link with a ready modem: a REG-ASK to the candidate or a REFRESH to the serving
partner costs one token and joins the in-flight table with its timer; a LAPSED entry with a chosen partner becomes
REGISTERING and asks at once, one without becomes UNROAMED, with nothing sent and nothing spent (R123 to R127).
The first class of R126 that holds work gives it: fresh registrations before moves, moves before owed refreshes, and
pull-ins only from a full bucket with nothing else to do. Within a class the first is taken: of fresh registrations by the
moment of creation, of moves by registration time, of owed refreshes by balance and then by next due, of pull-ins by next
due, and last by the lower handle. Each class holds the entries R126 gives it; a RESTING entry and one with an exchange in
flight stand in none. -/
def Obligations.PacerSends : Prop :=
  (∀ (s : State) (l : Fin 4) (h : Nat) (e : Entry), s.powered = true → s.pacerOpen = true → s.activeLink? = some l →
     (s.link l).free = true → s.entry? h = some e →
     let sent := fun (kind : ExchangeKind) (partner : Nat) (counters : RoamingCounters) (r : ShoreRecord) =>
       ({ s with
         rge := { s.rge with
           bucket := s.rge.bucket - 1000,
           inFlight := s.rge.inFlight
             ++ [⟨h, e.attach, e.token, kind, partner, l, s.mli.clock + s.rge.exchangeTimer⟩],
           counters := counters },
         sent := s.sent ++ [.toShore l r] } : State)
     let here := (s.rules?.map (·.jurisdiction)).getD 0
     let c := s.rge.counters
     (∀ i pos p, s.nextWork = some (.ask h) → e.reg ≠ .lapsed → e.candidate = some (i, pos) → s.partner? i = some p →
       exec .pacerSend s = .next (sent .regAsk i { c with regAsks := bump32 c.regAsks }
         (.regAsk h e.token e.home i p.code here))) ∧
     (∀ i pos p, s.nextWork = some (.ask h) → e.reg = .lapsed → s.chosen e.home = some (i, pos) → s.partner? i = some p →
       ∃ t, exec .pacerSend s = .next t ∧ t.entry? h = some { e with reg := .registering, candidate := some (i, pos) } ∧
         t.sent = s.sent ++ [.toShore l (.regAsk h e.token e.home i p.code here)] ∧ t.rge.bucket = s.rge.bucket - 1000) ∧
     (s.nextWork = some (.ask h) → e.reg = .lapsed → s.chosen e.home = none →
       ∃ t, exec .pacerSend s = .next t ∧ t.entry? h = some { e with reg := .unroamed, candidate := none } ∧
         t = { s with table := t.table }) ∧
     (∀ owed i, s.nextWork = some (.refresh h owed) → e.serving = some i →
       exec .pacerSend s = .next (sent .refresh i
         (if owed then { c with refreshOwed := bump32 c.refreshOwed } else { c with refreshPullIn := bump32 c.refreshPullIn })
         (.refresh h e.token i)))) ∧
  (∀ s : State,
     (s.freshClass ≠ [] → ∃ h, s.nextWork = some (.ask h) ∧ h ∈ s.freshClass.map (·.1)) ∧
     (s.freshClass = [] → s.moveClass ≠ [] → ∃ h, s.nextWork = some (.ask h) ∧ h ∈ s.moveClass.map (·.1)) ∧
     (s.freshClass = [] → s.moveClass = [] → s.owedClass ≠ [] →
       ∃ h, s.nextWork = some (.refresh h true) ∧ h ∈ s.owedClass.map (·.1)) ∧
     (s.freshClass = [] → s.moveClass = [] → s.owedClass = [] → s.rge.bucket ≠ s.rge.depth → s.nextWork = none) ∧
     (s.freshClass = [] → s.moveClass = [] → s.owedClass = [] → s.rge.bucket = s.rge.depth → s.pullInClass ≠ [] →
       ∃ h, s.nextWork = some (.refresh h false) ∧ h ∈ s.pullInClass.map (·.1))) ∧
  (∀ (s : State) (h k : Nat) (e x : Entry), s.handles.Nodup → s.entry? h = some e → s.entry? k = some x →
     (s.nextWork = some (.ask h) → h ∈ s.freshClass.map (·.1) → k ∈ s.freshClass.map (·.1) →
       e.createdAt < x.createdAt ∨ e.createdAt = x.createdAt ∧ h ≤ k) ∧
     (∀ a b, s.nextWork = some (.ask h) → s.freshClass = [] → k ∈ s.moveClass.map (·.1) → e.regTime = some a →
       x.regTime = some b → a < b ∨ a = b ∧ h ≤ k) ∧
     (∀ a b, s.nextWork = some (.refresh h true) → k ∈ s.owedClass.map (·.1) → e.nextDue = some a → x.nextDue = some b →
       e.balance < x.balance ∨ e.balance = x.balance ∧ (a < b ∨ a = b ∧ h ≤ k)) ∧
     (∀ a b, s.nextWork = some (.refresh h false) → k ∈ s.pullInClass.map (·.1) → e.nextDue = some a →
       x.nextDue = some b → a < b ∨ a = b ∧ h ≤ k)) ∧
  (∀ (s : State) (k : Nat) (x : Entry), s.handles.Nodup → s.entry? k = some x →
     let idle := (∀ y ∈ s.rge.inFlight, y.handle ≠ k) ∧ x.reg ≠ .resting
     (k ∈ s.freshClass.map (·.1) ↔ idle ∧ (x.reg = .registering ∧ x.candidate ≠ none ∨ x.reg = .lapsed)) ∧
     (k ∈ s.moveClass.map (·.1) ↔ idle ∧ x.reg = .moving) ∧
     (k ∈ s.owedClass.map (·.1) ↔ idle ∧ (x.reg = .served ∨ x.reg = .moving) ∧ x.balance < 0) ∧
     (k ∈ s.pullInClass.map (·.1) ↔ idle ∧ (x.reg = .served ∨ x.reg = .moving) ∧ 0 ≤ x.balance ∧ x.balance ≤ 2))

/-- A REG-OK that matches its exchange registers the entry with the partner asked: REGISTERING and MOVING become SERVED
with a balance of 0 and a due one interval ahead; a RESTING entry stays RESTING with its schedule paused, the interval left
(R124, R128, R132), and its next due reads none (assumption 69, DESIGN CHOICE). A MOVING entry's unfrozen period closes with reason PARTNER, or freezes while closures wait (R128, R154). A period
opens for a REGISTERING or MOVING entry that qualifies, holds none and has its closing flag clear (R128, R146). A MOVING or
RESTING entry that held a partner sends that a DEREG, which a link that may not carry drops (R128, R137). A REGISTERING or
MOVING entry is then sent the serve level of its entitlement, a RESTING one none (R33, R128).
A refused or timed-out REG-ASK tries the entry's next candidate, whatever the reason; with none left a REGISTERING entry
becomes UNROAMED and a MOVING one stays SERVED with its serving partner; a RESTING one loses its candidate (R121, R129). -/
def Obligations.RegistrationAnswers : Prop :=
  (∀ (s : State) (l : Fin 4) (h i : Nat) (token : Token) (e : Entry) (x : Exchange), s.powered = true → s.takes l = true →
     s.named? h token = some e → s.exchange? h = some x → x.attach = e.attach → x.kind = .regAsk → x.partner = i →
     e.reg = .registering ∨ e.reg = .moving ∨ e.reg = .resting →
     ∃ t e', exec (.regOk l h token i) s = .next t ∧ t.entry? h = some e' ∧
       (e'.serving = some i ∧ e'.candidate = none ∧ e'.regTime = some s.mli.clock ∧ e'.balance = 0 ∧
         e'.token = e.token ∧ e'.total = e.total ∧ e'.cls = e.cls ∧ e'.port = e.port ∧ e'.bearers = e.bearers) ∧
       (e.reg ≠ .resting → e'.reg = .served ∧ e'.nextDue = some (s.mli.clock + s.intervalOf i) ∧ e'.paused = none) ∧
       (e.reg = .resting → e'.reg = .resting ∧ e'.nextDue = none ∧ e'.paused = some (s.intervalOf i) ∧
         e'.period = e.period) ∧
       (∀ y ∈ t.rge.inFlight, y.handle ≠ h) ∧ t.rge.counters.regOks = bump32 s.rge.counters.regOks ∧
       (let opened := fun (held : Option Period) (closing : Bool) =>
          if e'.qualifies && held.isNone && !closing && !s.openingStopped then s.periodFor? e' else held
        (e.reg = .registering → e'.period = opened e.period e.closing ∧ e'.closing = e.closing) ∧
        (e.reg = .moving →
          (e.period = none ∨ e.closing = true → e'.period = opened e.period e.closing ∧ e'.closing = e.closing) ∧
          (∀ p, e.period = some p → e.closing = false →
            (e'.closing = false ∧ e'.period = opened none false ∧
              ∃ r ∈ t.rtu.closeQueue, { r with serial := none } = s.closureRecord e p .partner false) ∨
            (e'.closing = true ∧ e'.period = some p ∧
              ⟨h, e.attach, s.closureRecord e p .partner true⟩ ∈ t.rtu.waitList)))) ∧
       ∃ dereg : List Sent,
         t.sent = s.sent ++ dereg ++ (if e.reg = .resting ∨ e.portLost ≠ none ∨ (s.port e.port).state = .down then []
           else [.toHead e.port (.serveLevel h e.token (if s.entitled e' then .full else .onboardOnly))]) ∧
         (e.reg = .registering ∨ e.serving = none ∨ s.mayCarry = false → dereg = []) ∧
         (∀ j k q, e.reg ≠ .registering → e.serving = some j → s.activeLink? = some k → s.slm.swap.inProgress = false →
           (s.link k).free = true → s.partner? j = some q → dereg = [.toShore k (.dereg h e.token j q.code)])) ∧
  (∀ (s : State) (l : Fin 4) (h i : Nat) (token : Token) (reason : RefusedReason) (e : Entry) (x : Exchange),
     s.powered = true → s.named? h token = some e → s.exchange? h = some x → x.attach = e.attach → x.kind = .regAsk →
     x.partner = i →
     let next := s.nextCandidate e ((e.candidate.map (·.2)).getD 0)
     let failed := fun (t : State) =>
       (∀ y ∈ t.rge.inFlight, y.handle ≠ h) ∧
       (e.reg = .registering → t.entry? h = some { e with
         candidate := next, reg := if next = none then .unroamed else .registering }) ∧
       (e.reg = .moving → t.entry? h = some { e with candidate := next, reg := if next = none then .served else .moving }) ∧
       (e.reg = .resting → t.entry? h = some { e with candidate := none })
     (s.takes l = true → ∃ t, exec (.regRefused l h token i reason) s = .next t ∧ failed t) ∧
     (x.expiry ≤ s.mli.clock → ∃ t, exec (.exchangeTimerExpiry h) s = .next t ∧ failed t))

/-- A REFRESH-OK credits the balance, to +3 at most. A REFRESH-REFUSED ends the registration: a SERVED or MOVING entry
lapses, a RESTING one stays RESTING without it. A refresh that times out changes nothing of the entry (R131, R133).
A due instant of a SERVED or MOVING entry advances the next due by the partner's interval and debits the balance; at -6
the entry lapses instead: its registration is lost, its refresh fields read their cleared values and it is sent LOCAL
(R130, R132, R133).
An answer that names no live entry by its handle and token is stale at the table, and one that fits no exchange is stale
at the engine; either is only counted, and no field of any entry changes (R55, R138). -/
def Obligations.RefreshesAreKept : Prop :=
  (∀ (s : State) (l : Fin 4) (h i : Nat) (token : Token) (e : Entry) (x : Exchange), s.powered = true →
     s.named? h token = some e → s.exchange? h = some x → x.attach = e.attach → x.kind = .refresh → x.partner = i →
     let left := s.rge.inFlight.filter fun y => y.handle != h
     (s.takes l = true → exec (.refreshOk l h token i) s = .next
       { s with
         table := { s.table with
           entries := alterKey h (fun e => { e with balance := min 3 (e.balance + 1) }) s.table.entries },
         rge := { s.rge with
           inFlight := left, counters := { s.rge.counters with refreshOks := bump32 s.rge.counters.refreshOks } } }) ∧
     (s.takes l = true → ∃ t e', exec (.refreshRefused l h token i) s = .next t ∧ t.entry? h = some e' ∧
       e'.serving = none ∧ e'.regTime = none ∧ e'.balance = 0 ∧ e'.nextDue = none ∧ e'.paused = none ∧
       e'.reg = (if e.reg = .resting then .resting else .lapsed) ∧ e'.total = e.total ∧ t.rge.inFlight = left ∧
       t.rge.counters.lapsesRefused = bump32 s.rge.counters.lapsesRefused) ∧
     (x.expiry ≤ s.mli.clock → exec (.exchangeTimerExpiry h) s = .next
       { s with rge := { s.rge with
         inFlight := left, counters := { s.rge.counters with refreshTimeouts := bump32 s.rge.counters.refreshTimeouts } } })) ∧
  (∀ (s : State) (h due i : Nat) (e : Entry), s.powered = true → s.entry? h = some e → e.nextDue = some due →
     due ≤ s.mli.clock → e.serving = some i → e.reg = .served ∨ e.reg = .moving →
     (-6 < e.balance → exec (.refreshDue h) s = .next
       { s with table := { s.table with
         entries := alterKey h (fun e => { e with
           nextDue := some (due + s.intervalOf i), balance := e.balance - 1 }) s.table.entries } }) ∧
     (e.balance ≤ -6 → ∃ t e', exec (.refreshDue h) s = .next t ∧ t.entry? h = some e' ∧ e'.reg = .lapsed ∧
       e'.serving = none ∧ e'.candidate = none ∧ e'.regTime = none ∧ e'.balance = 0 ∧ e'.nextDue = none ∧
       e'.total = e.total ∧ e'.barred = e.barred ∧ (∀ y ∈ t.rge.inFlight, y.handle ≠ h) ∧
       t.rge.counters.lapsesBalance = bump32 s.rge.counters.lapsesBalance ∧
       ((s.port e.port).state ≠ .down → e.portLost = none →
         t.sent = s.sent ++ [.toHead e.port (.serveLevel h e.token .onboardOnly)]))) ∧
  (∀ (s : State) (l : Fin 4) (h i : Nat) (token : Token) (reason : RefusedReason), s.powered = true → s.takes l = true →
     let atTable : Host.Outcome State Fault Refusal := .next
       { s with table := { s.table with
         counters := { s.table.counters with staleAnswers := bump32 s.table.counters.staleAnswers } } }
     let atEngine : Host.Outcome State Fault Refusal := .next
       { s with rge := { s.rge with
         counters := { s.rge.counters with staleAnswers := bump32 s.rge.counters.staleAnswers } } }
     (s.named? h token = none → exec (.regOk l h token i) s = atTable ∧ exec (.regRefused l h token i reason) s = atTable ∧
       exec (.refreshOk l h token i) s = atTable ∧ exec (.refreshRefused l h token i) s = atTable) ∧
     (∀ e, s.named? h token = some e →
       ((∀ x, s.exchange? h = some x → x.kind ≠ .regAsk ∨ x.partner ≠ i) →
         exec (.regOk l h token i) s = atEngine ∧ exec (.regRefused l h token i reason) s = atEngine) ∧
       ((∀ x, s.exchange? h = some x → x.kind ≠ .refresh ∨ x.partner ≠ i) →
         exec (.refreshOk l h token i) s = atEngine ∧ exec (.refreshRefused l h token i) s = atEngine)))

/-! ## Rating -/

/-- LOAD-TARIFF-PLAN puts the plan, each field held in its range and the increment rounded down to a multiple of 1,024, in
the slot of the pending bank, or empties the slot; a slot above 63 is MALFORMED, and while a commit is armed it is refused
PENDING-ARMED and changes nothing. Nothing else changes, the active bank and the open periods among it, in either device
state (R142). -/
def Obligations.TariffPlanIsLoaded : Prop :=
  ∀ (s : State) (tag : Byte) (slot : Nat) (plan : Option TariffPlan), s.hostReady →
    let taken := plan.map fun p => ({
      increment := max 1024 (min p.increment 1048576) / 1024 * 1024, rate1 := min p.rate1 1000000,
      rate2 := min p.rate2 1000000, threshold := min p.threshold 65535 } : TariffPlan)
    let clamped := match plan with
      | some p => decide (p.increment < 1024) || decide (1048576 < p.increment) || decide (1000000 < p.rate1)
          || decide (1000000 < p.rate2) || decide (65535 < p.threshold)
      | none => false
    (64 ≤ slot → exec (.loadTariffPlan ⟨tag, some ⟨slot, plan⟩⟩) s = .next
      (s.turnedAway Kind.loadTariffPlan tag .malformed [])) ∧
    (slot < 64 → s.rtu.armed = true → exec (.loadTariffPlan ⟨tag, some ⟨slot, plan⟩⟩) s = .next
      (s.turnedAway Kind.loadTariffPlan tag .pendingArmed [])) ∧
    (slot < 64 → s.rtu.armed = false → ∃ bank, exec (.loadTariffPlan ⟨tag, some ⟨slot, plan⟩⟩) s = .next
        (({ s with rtu := { s.rtu with bank := bank } } : State).replied Kind.loadTariffPlan tag clamped
          (slotPlanBytes slot taken)) ∧
      lookupKey slot bank = taken ∧ ∀ k, k ≠ slot → lookupKey k bank = lookupKey k s.rtu.bank)

/-- COMMIT-TARIFF is refused BAD-TABLE while the pending bank is empty or lacks a plan that a partner names; AT-DAY-ROLL
arms the commit and changes nothing else; NOW makes the pending bank the active one, empties the pending bank and disarms,
and every unfrozen period that stands afterwards was opened by it (R143, R144).
DAY-ROLL sets every entry's day count to 0, closes every unfrozen period and opens those that stand afterwards, and
applies an armed commit that passes its checks or disarms one that does not, keeping the pending bank (R145).
Each unfrozen period yields one closure record, with reason TARIFF or DAY, in ascending handle order: the close queue takes
as many as it has room for when no closure waits, and the rest wait, delayed, their periods frozen (R144, R145, R151, R154;
here while the wait list has room for all). A frozen period stays as it was. Afterwards every entry that qualifies and
whose closing flag is clear has the period that opens under the active bank, and any other such entry has none (R146). -/
def Obligations.TariffTakesEffect : Prop :=
  let queue := fun (l : List ChargeRecord) => l.map fun r => { r with serial := none }
  let unfrozen := fun (s : State) => s.table.entries.filterMap fun x =>
    if x.2.closing then none else x.2.period.map fun p => (x.1, x.2, p)
  let room := fun (s : State) => if s.rtu.waitList = [] then 64 - s.rtu.closeQueue.length else 0
  let rotated := fun (reason : CloseReason) (after : Entry → Entry) (s t : State) =>
    (s.rtu.waitList.length + (unfrozen s).length ≤ 4096 →
      queue t.rtu.closeQueue = queue (s.rtu.closeQueue
        ++ ((unfrozen s).take (room s)).map fun x => s.closureRecord x.2.1 x.2.2 reason false) ∧
      t.rtu.waitList = s.rtu.waitList
        ++ ((unfrozen s).drop (room s)).map fun x => ⟨x.1, x.2.1.attach, s.closureRecord x.2.1 x.2.2 reason true⟩) ∧
    (∀ h e, s.entry? h = some e →
      let waits := e.closing || decide (h ∈ ((unfrozen s).drop (room s)).map (·.1))
      t.entry? h = some (after { e with
        closing := waits,
        period := if waits then e.period else if e.qualifies then t.periodFor? e else none }))
  (∀ (s : State) (tag : Byte), s.hostReady →
     (s.bankPasses = false →
       exec (.commitTariffNow ⟨tag, some ()⟩) s = .next (s.turnedAway Kind.commitTariff tag .badTable []) ∧
       exec (.commitTariffAtDayRoll ⟨tag, some ()⟩) s = .next (s.turnedAway Kind.commitTariff tag .badTable [])) ∧
     (s.bankPasses = true →
       exec (.commitTariffAtDayRoll ⟨tag, some ()⟩) s = .next
         (({ s with rtu := { s.rtu with armed := true } } : State).replied Kind.commitTariff tag false []) ∧
       (s.handles.Nodup → ∃ t, exec (.commitTariffNow ⟨tag, some ()⟩) s = .next t ∧
         t.rtu.active = s.rtu.bank ∧ t.rtu.activeExists = true ∧ t.rtu.bank = [] ∧ t.rtu.armed = false ∧
         t.handles = s.handles ∧
         (∀ h e p, t.entry? h = some e → e.closing = false → e.period = some p →
           p.startTime = s.mli.shipTime ∧ p.up = 0 ∧ p.down = 0 ∧ p.charge = 0 ∧
           (lookupKey p.plan s.rtu.bank).isSome = true) ∧
         rotated .tariff id s t ∧
         RepliedOk Kind.commitTariff tag false (le 2 s.openPeriods ++ le 2 t.openPeriods) t))) ∧
  (∀ (s : State) (tag : Byte), s.hostReady → s.handles.Nodup →
     let applied := s.rtu.armed && s.bankPasses
     ∃ t, exec (.dayRoll ⟨tag, some ()⟩) s = .next t ∧ t.handles = s.handles ∧
       (∀ h e, s.entry? h = some e → ∃ e', t.entry? h = some e' ∧ e'.dayCount = 0 ∧ e'.total = e.total ∧ e'.cap = e.cap ∧
         e'.reg = e.reg ∧ e'.serving = e.serving ∧
         ∀ p, e'.closing = false → e'.period = some p → p.startTime = s.mli.shipTime ∧ p.up = 0 ∧ p.charge = 0) ∧
       t.rtu.armed = false ∧ t.rtu.active = (if applied then s.rtu.bank else s.rtu.active) ∧
       t.rtu.bank = (if applied then [] else s.rtu.bank) ∧
       t.rtu.counters.dayRolls = bump32 s.rtu.counters.dayRolls ∧
       rotated .day (fun e => { e with dayCount := 0 }) s t ∧
       RepliedOk Kind.dayRoll tag false (le 2 s.openPeriods ++ le 2 t.openPeriods
         ++ le 1 (if s.rtu.armed = false then 0 else if s.bankPasses then 1 else 2)) t)

/-- A metered addition is taken off its way; without a living entry it is dropped at the table, without an unfrozen period
it is unrated, and neither changes a volume, a total or a count. For an uncapped subscriber, and for one whose total stays
below the cap, where nothing saturates, the volume rises by its bytes, every increment started is charged at its tier's
rate, and period charge, total and day count rise together; a capped one whose total thereby reaches the alert level, with
its alert not yet sent, is alerted by a BILL-ALERT (R56, R147, R148, R149). That an addition named without being on its way is treated alike is assumption 33 (DESIGN
CHOICE), and that a charge or total of exactly the largest value does not saturate is assumption 25 (DEDUCED). -/
def Obligations.AdditionIsRated : Prop :=
  ∀ (s : State) (h a b : Nat) (dir : Direction), s.powered = true →
    let router := { s.router with additions := s.router.additions.erase ⟨h, a, dir, b⟩ }
    (s.life? h a = none → exec (.meteredAddition h a dir b) s = .next
      { s with
        router := router,
        table := { s.table with counters := { s.table.counters with
          droppedInFlight := bump32 s.table.counters.droppedInFlight } } }) ∧
    (∀ e, s.life? h a = some e → e.period = none → exec (.meteredAddition h a dir b) s = .next
      { s with
        router := router,
        rtu := { s.rtu with counters := { s.rtu.counters with unratedNone := bump32 s.rtu.counters.unratedNone } } }) ∧
    (∀ e p, s.life? h a = some e → e.period = some p → e.closing = true → exec (.meteredAddition h a dir b) s = .next
      { s with
        router := router,
        rtu := { s.rtu with counters := { s.rtu.counters with
          unratedFrozen := bump32 s.rtu.counters.unratedFrozen } } }) ∧
    (∀ e p, s.life? h a = some e → e.period = some p → e.closing = false →
      let up := if dir = .uplink then p.up + b else p.up
      let down := if dir = .downlink then p.down + b else p.down
      let n := (up + down + p.increment - 1) / p.increment - (p.inc1 + p.inc2)
      let n1 := min n (p.threshold - e.dayCount)
      let charge := n1 * p.rate1 + (n - n1) * p.rate2
      let level := e.cap * s.mli.billing.alertPercent / 100
      let alert := e.cap != 0 && !e.alertSent && decide (level ≤ e.total + charge)
      e.cap = 0 ∨ e.total + charge < e.cap → up < 1099511627775 → down < 1099511627775 → e.dayCount + n ≤ 65535 →
      e.total + charge ≤ 4294967295 → p.charge + charge ≤ 4294967295 →
      ∃ t, exec (.meteredAddition h a dir b) s = .next t ∧
        t.entry? h = some { e with
          total := e.total + charge, dayCount := e.dayCount + n, alertSent := e.alertSent || alert,
          period := some { p with
            up := up, down := down, inc1 := p.inc1 + n1, inc2 := p.inc2 + (n - n1), charge := p.charge + charge } } ∧
        (∀ k, k ≠ h → t.entry? k = s.entry? k) ∧
        t.rtu.counters.alerts = (if alert then bump32 s.rtu.counters.alerts else s.rtu.counters.alerts) ∧
        t = { s with
          router := router, table := { s.table with entries := t.table.entries },
          rtu := { s.rtu with counters := t.rtu.counters },
          mli := if alert then (s.raise (.billAlert h e.token e.cap level (e.total + charge) s.mli.shipTime)).mli
            else s.mli })

/-- Charging that would carry the total to its cap or past it holds it at the cap. The increments are charged in turn up to
the first that reaches the cap, and no further; the clamped flag is set when that one was cut. The subscriber is barred,
alerted if it was not, and its period closes with reason CAP, carrying the flag: the record joins the close queue when that
has room and no closure waits, else it waits, delayed, and the period stays frozen. BILL-ALERT, if due, and then
SUBSCRIBER-CAPPED are raised, here where the memory port is busy or the write buffer enabled, and SERVE-LEVEL LOCAL is sent
on a listening port to an entry that is not RESTING and carries no port-lost marker (R33, R147, R148, R151, R154, R155).
That a charge of exactly the largest value does not saturate is assumption 25 (DEDUCED). -/
def Obligations.ChargingStopsAtTheCap : Prop :=
  ∀ (s : State) (h a b : Nat) (dir : Direction) (e : Entry) (p : Period), s.powered = true → s.life? h a = some e →
    e.period = some p → e.closing = false → e.total < e.cap → e.cap ≤ 4294967295 → s.mli.billing.alertPercent ≤ 100 →
    let up := if dir = .uplink then p.up + b else p.up
    let down := if dir = .downlink then p.down + b else p.down
    let n := (up + down + p.increment - 1) / p.increment - (p.inc1 + p.inc2)
    let tier1 := fun (k : Nat) => min k (p.threshold - e.dayCount)
    let total := fun (k : Nat) => e.total + tier1 k * p.rate1 + (k - tier1 k) * p.rate2
    let queue := fun (l : List ChargeRecord) => l.map fun r => { r with serial := none }
    up ≤ 1099511627775 → down ≤ 1099511627775 → e.dayCount + n ≤ 65535 → e.cap ≤ total n →
    ∃ t k, exec (.meteredAddition h a dir b) s = .next t ∧ 1 ≤ k ∧ k ≤ n ∧ e.cap ≤ total k ∧ (∀ j < k, total j < e.cap) ∧
      (let final : Period := { p with
         up := up, down := down, inc1 := p.inc1 + tier1 k, inc2 := p.inc2 + (k - tier1 k),
         charge := min 4294967295 (p.charge + (e.cap - e.total)), clamped := p.clamped || decide (e.cap < total k),
         saturated := p.saturated || decide (4294967295 < p.charge + (e.cap - e.total)) }
       let capped : Entry := { e with
         total := e.cap, dayCount := e.dayCount + k, barred := true, alertSent := true, period := none }
       (s.rtu.closeQueue.length < 64 → s.rtu.waitList = [] → t.entry? h = some capped ∧ t.rtu.waitList = [] ∧
         queue t.rtu.closeQueue = queue (s.rtu.closeQueue ++ [s.closureRecord e final .cap false])) ∧
       (64 ≤ s.rtu.closeQueue.length ∨ s.rtu.waitList ≠ [] →
         t.entry? h = some { capped with closing := true, period := some final } ∧
         t.rtu.closeQueue = s.rtu.closeQueue ∧
         (s.rtu.waitList.length < 4096 →
           t.rtu.waitList = s.rtu.waitList ++ [⟨h, e.attach, s.closureRecord e final .cap true⟩])) ∧
       (s.rsc.op ≠ none ∨ s.rsc.bufferOn = true → s.rtu.waitList.length < 4096 → p.clamped = false →
         let level := e.cap * s.mli.billing.alertPercent / 100
         let alerted := if e.alertSent then s else s.raise (.billAlert h e.token e.cap level e.cap s.mli.shipTime)
         t.mli = (alerted.raise (.subscriberCapped h e.token e.cap e.cap (decide (e.cap < total k)) s.mli.shipTime)).mli)) ∧
      (∀ j, j ≠ h → t.entry? j = s.entry? j) ∧ t.rtu.counters.capsReached = bump32 s.rtu.counters.capsReached ∧
      t.sent = s.sent ++ (if e.portLost = none ∧ e.reg ≠ .resting ∧ (s.port e.port).state ≠ .down then
        [.toHead e.port (.serveLevel h e.token .onboardOnly)] else [])

/-- At its age expiry an unfrozen period closes with reason AGE. Its record joins the close queue when that holds fewer
than 64 and no closure waits, and a period opens again if the entry qualifies; otherwise the closure waits, delayed, and
the period stays frozen under the closing flag (R151, R153, R154).
A period opens with the partner, zone and class of its moment and the plan's rates under the partner's markup in permille,
rounded half up (R146). -/
def Obligations.AgedPeriodCloses : Prop :=
  (∀ (s : State) (h : Nat) (e : Entry) (p : Period), s.powered = true → s.entry? h = some e → e.period = some p →
     e.closing = false → p.ageExpiry ≤ s.mli.clock →
     let record := fun (delayed : Bool) => ({
       serial := none, token := e.token, home := e.home, partner := p.partner, partnerCode := p.partnerCode,
       jurisdiction := p.jurisdiction, zone := p.zone, tariffClass := p.tariffClass, plan := p.plan, rate1 := p.rate1,
       rate2 := p.rate2, startTime := p.startTime, endTime := s.mli.shipTime, up := p.up, down := p.down, inc1 := p.inc1,
       inc2 := p.inc2, charge := p.charge, reason := .age, clamped := p.clamped, saturated := p.saturated,
       delayed := delayed, storeLoss := p.storeLoss } : ChargeRecord)
     (s.rtu.closeQueue.length < 64 → s.rtu.waitList = [] → s.rsc.op ≠ none ∨ s.rsc.bufferOn = true →
       ∃ t, exec (.ageExpiry h) s = .next t ∧ t.rtu.closeQueue = s.rtu.closeQueue ++ [record false] ∧ t.rtu.waitList = [] ∧
         t.entry? h = some { e with period := if e.qualifies && !s.openingStopped then s.periodFor? e else none } ∧
         (∀ k, k ≠ h → t.entry? k = s.entry? k)) ∧
     (64 ≤ s.rtu.closeQueue.length ∨ s.rtu.waitList ≠ [] → s.rtu.waitList.length < 4096 →
       ∃ t, exec (.ageExpiry h) s = .next t ∧ t.rtu.closeQueue = s.rtu.closeQueue ∧
         t.rtu.waitList = s.rtu.waitList ++ [⟨h, e.attach, record true⟩] ∧ t.entry? h = some { e with closing := true } ∧
         (∀ k, k ≠ h → t.entry? k = s.entry? k))) ∧
  (∀ (s : State) (e : Entry) (p : Period), s.periodFor? e = some p →
     ∃ (v : VerdictZone) (q : Partner) (t : TariffPlan), s.tracker.verdict = some v ∧
       e.serving.bind s.partner? = some q ∧ q.plans[v.rules.tariffClass]? = some p.plan ∧
       lookupKey p.plan s.rtu.active = some t ∧
       p.rate1 = (t.rate1 * (1000 + q.markup) + 500) / 1000 ∧ p.rate2 = (t.rate2 * (1000 + q.markup) + 500) / 1000 ∧
       p.increment = t.increment ∧ p.threshold = t.threshold ∧ p.startTime = s.mli.shipTime ∧ p.partner = q.index ∧
       p.partnerCode = q.code ∧ p.zone = v.index ∧ p.jurisdiction = v.rules.jurisdiction ∧
       p.tariffClass = v.rules.tariffClass ∧ p.up = 0 ∧ p.down = 0 ∧ p.charge = 0 ∧
       p.ageExpiry = s.mli.clock + s.mli.billing.maxAge * 1000)

/-- SET-CAP in its three ways: 0 takes cap, bar and alert away; a value at most the total becomes the total and bars; a
value above the total is the cap, unbars, and sets the alert-sent flag by its new level. The total stays, and the reply
carries the cap taken (R150).
SET-CLASS: RESTING is refused WRONG-STATE; the same class changes nothing; to EXEMPT an unfrozen period closes or freezes;
to PASSENGER a period opens for an entry on shore that is not barred and holds none (R57). Either reply says whether an
unfrozen period stood before and does not after, and whether one stands that did not, in a flag byte each (assumption 51,
DESIGN CHOICE); the bytes of the replies are as assumption 9 (DEDUCED) reads R185. -/
def Obligations.CapAndClassAreSet : Prop :=
  (∀ (s : State) (tag : Byte) (h v : Nat) (e : Entry), s.hostReady → v ≤ 4294967295 → s.named? h e.token = some e →
     let level := v * s.mli.billing.alertPercent / 100
     ∃ t e', exec (.setCap ⟨tag, some ⟨⟨h, e.token⟩, v⟩⟩) s = .next t ∧ t.entry? h = some e' ∧ e'.total = e.total ∧
       (v = 0 → e'.cap = 0 ∧ e'.barred = false ∧ e'.alertSent = false) ∧
       (v ≠ 0 → v ≤ e.total → e'.cap = e.total ∧ e'.barred = true ∧ (e.barred = false → e'.alertSent = true) ∧
         (e.barred = false → e'.period = none ∨ e'.closing = true)) ∧
       (e.total < v → e'.cap = v ∧ e'.barred = false ∧ e'.alertSent = decide (level ≤ e.total)) ∧
       (∀ k, k ≠ h → t.entry? k = s.entry? k) ∧
       RepliedOk Kind.setCap tag (decide (e'.cap ≠ v)) (le 4 e'.cap ++ le 4 e.total ++ bFlag e'.barred
         ++ bFlag (s.hasUnfrozen h && !t.hasUnfrozen h) ++ bFlag (!s.hasUnfrozen h && t.hasUnfrozen h)) t) ∧
  (∀ (s : State) (tag : Byte) (h : Nat) (cls : SubClass) (e : Entry), s.hostReady → s.named? h e.token = some e →
     let c : Instr := .setClass ⟨tag, some ⟨⟨h, e.token⟩, cls⟩⟩
     let answered := fun (t : State) => RepliedOk Kind.setClass tag false (le 1 cls.code
       ++ bFlag (s.hasUnfrozen h && !t.hasUnfrozen h) ++ bFlag (!s.hasUnfrozen h && t.hasUnfrozen h)) t
     (e.reg = .resting → exec c s = .next (s.turnedAway Kind.setClass tag .wrongState [])) ∧
     (e.reg ≠ .resting → e.cls = cls → exec c s = .next
       (s.replied Kind.setClass tag false (le 1 cls.code ++ [0, 0]))) ∧
     (e.reg ≠ .resting → e.cls = .passenger → cls = .exempt → ∃ t e', exec c s = .next t ∧ t.entry? h = some e' ∧
       e'.cls = .exempt ∧ e'.cap = e.cap ∧ e'.total = e.total ∧ e'.dayCount = e.dayCount ∧ e'.barred = e.barred ∧
       (e'.period = none ∨ e'.closing = true) ∧ answered t ∧ ∀ k, k ≠ h → t.entry? k = s.entry? k) ∧
     (e.reg ≠ .resting → e.cls = .exempt → cls = .passenger → ∃ t, exec c s = .next t ∧ answered t ∧
       t.entry? h = some { e with
         cls := .passenger,
         period := if (e.reg = .served ∨ e.reg = .moving) ∧ e.barred = false ∧ e.period = none ∧ e.closing = false
           then s.periodFor? e else e.period } ∧ ∀ k, k ≠ h → t.entry? k = s.entry? k))

/-! ## Charge records and record memory -/

/-- The close queue's head enters the enabled write buffer at once while that holds fewer than 32 and the free level is at
least 1, but for a RESET whose flush has ended STALLED; a record without a serial takes the next one (R158, R161).
A slot write that succeeds leaves the record's 64 bytes in its slot and every other byte of record memory as it was. A
slot that is no candidate commits it: it joins the tail of the ring, undelivered, and leaves the buffer, or the close queue
when it was written directly; then the closure waiting first, if there is room, enters the close queue, and its live entry
loses the frozen period and may open one, here while no RESET is in progress, since a stalled one would lose what is queued; a
candidate is read back first (R154, R161, R162, R164).
A candidate slot that reads back commits its record and leaves the list; one that does not fails as a write does (R164),
and the write-failure counter counts it beside that of failed verifies (assumption 40, DEDUCED).
With the write buffer off, the free port and a free slot, the close queue's head is written directly: it takes its serial
as the write begins and stays in the queue (R158, R162). The failed write that leaves 16 spares turns the buffer off: its
records return to the head of the close queue, the write in progress goes on as a direct one, and WRITE-BUFFER-OFF is
raised, here with the low condition in step (R162, R172). -/
def Obligations.RecordIsCommitted : Prop :=
  (∀ (s : State) (c : ChargeRecord) (rest : List ChargeRecord), s.powered = true → s.rsc.scanEnded = true →
     s.rsc.bufferOn = true → s.rtu.closeQueue = c :: rest → s.rsc.buffer.length < 32 → 1 ≤ s.rsc.freeLevel →
     s.rtu.waitList = [] → (∀ n lost, s.mli.work ≠ some (.resetting n (some lost))) →
     ∃ t, exec .acceptRecord s = .next t ∧ t.rtu.closeQueue = rest ∧ t.table = s.table ∧ t.rsc.memory = s.rsc.memory ∧
       t.rsc.ring = s.rsc.ring ∧
       (c.serial = none → t.rsc.buffer = s.rsc.buffer ++ [{ c with serial := some s.rsc.nextSerial }] ∧
         t.rsc.nextSerial = bump32 s.rsc.nextSerial) ∧
       (c.serial ≠ none → t.rsc.buffer = s.rsc.buffer ++ [c] ∧ t.rsc.nextSerial = s.rsc.nextSerial)) ∧
  (∀ (s : State) (slot : Nat) (j : WriteJob), s.powered = true → s.memoryOk → s.rsc.op = some (.write slot) →
     s.rsc.job = some j → j.slot = slot →
     let queue := fun (l : List ChargeRecord) => l.map fun r => { r with serial := none }
     ∃ t, exec (.writeSlotDone true) s = .next t ∧ t.rsc.slotContents slot = j.record.bytes ∧
       (∀ a, a < slotAddress s.rsc.remaps slot ∨ slotAddress s.rsc.remaps slot + 64 ≤ a →
         readByte t.rsc.memory a = readByte s.rsc.memory a) ∧
       (slot ∉ s.rsc.candidates →
         t.rsc.ring = s.rsc.ring ++ [⟨j.record.serial.getD 0, slot, false⟩] ∧
         t.rsc.counters.committed = bump32 s.rsc.counters.committed ∧
         t.rsc.buffer = (if j.direct then s.rsc.buffer else s.rsc.buffer.tail) ∧
         (j.direct = false → s.openingStopped = false → queue t.rtu.closeQueue = queue s.rtu.closeQueue) ∧
         (j.direct = true → s.openingStopped = false →
           (s.rtu.waitList = [] → queue t.rtu.closeQueue = queue s.rtu.closeQueue.tail ∧ t.table = s.table) ∧
           (∀ w rest, s.rtu.waitList = w :: rest → s.rtu.closeQueue.tail.length < 64 → t.rtu.waitList = rest ∧
             queue t.rtu.closeQueue = queue (s.rtu.closeQueue.tail ++ [w.record]) ∧
             ∀ e, s.life? w.handle w.attach = some e → e.closing = true → t.entry? w.handle = some { e with
               closing := false, period := if e.qualifies then s.periodFor? e else none }))) ∧
       (slot ∈ s.rsc.candidates → t.rsc.op = some (.verify slot) ∧ t.rsc.ring = s.rsc.ring ∧ t.rsc.buffer = s.rsc.buffer ∧
         t.rtu = s.rtu)) ∧
  (∀ (s : State) (slot : Nat) (j : WriteJob), s.powered = true → s.rsc.op = some (.verify slot) → s.rsc.job = some j →
     (s.rsc.readable slot = true → ∃ t, exec (.verifyReadDone true) s = .next t ∧
       t.rsc.ring = s.rsc.ring ++ [⟨j.record.serial.getD 0, j.slot, false⟩] ∧ slot ∉ t.rsc.candidates ∧
       t.rsc.buffer = (if j.direct then s.rsc.buffer else s.rsc.buffer.tail) ∧ t.rsc.memory = s.rsc.memory ∧
       t.rsc.counters.verifiesPassed = bump32 s.rsc.counters.verifiesPassed) ∧
     (∃ t, exec (.verifyReadDone false) s = .next t ∧ t.rsc.ring = s.rsc.ring ∧ slot ∉ t.rsc.candidates ∧
       t.rsc.counters.verifiesFailed = bump32 s.rsc.counters.verifiesFailed ∧
       t.rsc.counters.writeFailures = bump32 s.rsc.counters.writeFailures)) ∧
  (∀ (s : State) (slot : Nat) (c : ChargeRecord) (rest : List ChargeRecord), s.rsc.scanEnded = true → s.rsc.op = none →
     s.resetWaits = false → s.rsc.bufferOn = false → s.rsc.job = none → s.rsc.clearList = [] → s.rsc.nextRead = none →
     s.rtu.closeQueue = c :: rest → 1 ≤ s.rsc.freeLevel → s.rsc.nextFree = some slot →
     let taken := { c with serial := some (c.serial.getD s.rsc.nextSerial) }
     s.arbitrate.rsc.op = some (.write slot) ∧ s.arbitrate.rsc.job = some ⟨taken, slot, true⟩ ∧
       s.arbitrate.rtu.closeQueue = taken :: rest ∧ s.arbitrate.rsc.ring = s.rsc.ring ∧
       s.arbitrate.rsc.nextSerial = (if c.serial = none then bump32 s.rsc.nextSerial else s.rsc.nextSerial)) ∧
  (∀ (s : State) (slot : Nat) (j : WriteJob), s.powered = true → s.rsc.op = some (.write slot) → s.rsc.job = some j →
     j.direct = false → s.rsc.bufferOn = true → s.rsc.buffer ≠ [] → s.rsc.usedSpares.length = 1007 →
     ∃ t, exec (.writeSlotDone false) s = .next t ∧ t.rsc.bufferOn = false ∧ t.rsc.buffer = [] ∧
       t.rtu.closeQueue = s.rsc.buffer ++ s.rtu.closeQueue ∧ t.rsc.job = some { j with direct := true } ∧
       t.rsc.sparePool = 16 ∧
       (s.rsc.lowStands = decide (s.rsc.freeLevel < 2048) → t.mli = (s.raise (.storeFault .writeBufferOff 16
         s.rsc.dead.length s.rsc.capacity s.rsc.counters.lostClosures none s.mli.shipTime 1)).mli))

/-- A failed slot write gives the slot a spare that no remap has used while one is left, and kills the slot otherwise,
which the dead set then holds once; either change is written to the map area, and every byte outside the slot stays (R160,
R163). What the failed write left in the slot is open; that it touches no byte outside the slot, and a failed clear none
but the state byte, is the model's choice (assumption 3, DESIGN CHOICE). A remapped slot leaves the candidate list
(R164); that a killed one does is assumption 62 (DEDUCED).
The map area holds a remap, or a dead slot, once its write succeeds, and after a remap the record's write goes on; a failed
map area write is repeated once, and a second failure leaves the map area as it was and raises STORE-FAULT with reason
MAP-WRITE and the slot, while the record's write goes on all the same (R163, R172). After a kill, whether its map write
succeeded or has failed twice, the record is written to the slot the allocation pointer gives next; with no slot free it
stays in the close queue and its write waits, here while no RESET is in progress (R160, R163).
A clear that succeeds leaves byte 0 of the slot reading CLEARED and every other byte as it was, the serial among them; one
that fails makes the slot a candidate; either way the slot leaves the clear list (R158, R165, R185). -/
def Obligations.RecordMemoryFailures : Prop :=
  (∀ (s : State) (slot : Nat) (j : WriteJob), s.powered = true → s.rsc.op = some (.write slot) → s.rsc.job = some j →
     ∃ t, exec (.writeSlotDone false) s = .next t ∧
       (∀ a, a < slotAddress s.rsc.remaps slot ∨ slotAddress s.rsc.remaps slot + 64 ≤ a →
         readByte t.rsc.memory a = readByte s.rsc.memory a) ∧
       t.rsc.ring = s.rsc.ring ∧ t.rsc.counters.writeFailures = bump32 s.rsc.counters.writeFailures ∧
       slot ∉ t.rsc.candidates ∧
       (s.rsc.usedSpares.length < 1024 → ∃ spare, spare < 1024 ∧ spare ∉ s.rsc.usedSpares ∧
         t.rsc.op = some (.mapWrite (.remap slot spare) false) ∧ lookupKey slot t.rsc.remaps = some spare ∧
         t.rsc.usedSpares = s.rsc.usedSpares ++ [spare] ∧ t.rsc.dead = s.rsc.dead) ∧
       (1024 ≤ s.rsc.usedSpares.length → t.rsc.op = some (.mapWrite (.kill slot) false) ∧
         t.rsc.dead = (if slot ∈ s.rsc.dead then s.rsc.dead else s.rsc.dead ++ [slot]) ∧ t.rsc.remaps = s.rsc.remaps)) ∧
  (∀ (s : State) (slot spare : Nat) (again : Bool), s.powered = true →
     s.rsc.op = some (.mapWrite (.remap slot spare) again) →
     exec (.mapWriteDone true) s = .next
       { s with rsc := { s.rsc with
         mapArea := { s.rsc.mapArea with remaps := putKey slot spare s.rsc.mapArea.remaps }, op := some (.write slot) } } ∧
     (again = false → exec (.mapWriteDone false) s = .next
       { s with rsc := { s.rsc with
         op := some (.mapWrite (.remap slot spare) true),
         counters := { s.rsc.counters with mapFailures := bump32 s.rsc.counters.mapFailures } } }) ∧
     (again = true → exec (.mapWriteDone false) s = .next
       { s with
         rsc := { s.rsc with
           op := some (.write slot),
           counters := { s.rsc.counters with mapFailures := bump32 s.rsc.counters.mapFailures } },
         mli := (s.raise (.storeFault .mapWrite s.rsc.sparePool s.rsc.dead.length s.rsc.capacity s.rsc.counters.lostClosures
           (some slot) s.mli.shipTime 1)).mli })) ∧
  (∀ (s : State) (slot : Nat) (again : Bool), s.powered = true → s.rsc.op = some (.mapWrite (.kill slot) again) →
     let held := { s.rsc.mapArea with
       dead := if slot ∈ s.rsc.mapArea.dead then s.rsc.mapArea.dead else s.rsc.mapArea.dead ++ [slot] }
     let failed := { s.rsc.counters with mapFailures := bump32 s.rsc.counters.mapFailures }
     let fault := (s.raise (.storeFault .mapWrite s.rsc.sparePool s.rsc.dead.length s.rsc.capacity
       s.rsc.counters.lostClosures (some slot) s.mli.shipTime 1)).mli
     (∃ t, exec (.mapWriteDone true) s = .next t ∧ t.rsc.mapArea = held) ∧
     (again = false → exec (.mapWriteDone false) s = .next
       { s with rsc := { s.rsc with op := some (.mapWrite (.kill slot) true), counters := failed } }) ∧
     (∀ k, s.rsc.nextFree = some k →
       let job := s.rsc.job.map fun j => { j with slot := k }
       exec (.mapWriteDone true) s = .next
         { s with rsc := { s.rsc with mapArea := held, op := some (.write k), job := job, lastGiven := k } } ∧
       (again = true → exec (.mapWriteDone false) s = .next
         { s with rsc := { s.rsc with op := some (.write k), job := job, lastGiven := k, counters := failed }, mli := fault })) ∧
     (∀ j, s.rsc.nextFree = none → s.rsc.job = some j → j.slot = slot → slot ∈ s.rsc.dead → s.openingStopped = false →
       let waits := fun (t : State) => t.rsc.job = none ∧ (∀ k, t.rsc.op ≠ some (.write k)) ∧
         t.rtu.closeQueue = s.rtu.closeQueue ∧ t.rsc.ring = s.rsc.ring ∧ t.rsc.buffer = s.rsc.buffer
       (∃ t, exec (.mapWriteDone true) s = .next t ∧ t.rsc.mapArea = held ∧ waits t) ∧
       (again = true → ∃ t, exec (.mapWriteDone false) s = .next t ∧ t.rsc.mapArea = s.rsc.mapArea ∧
         t.rsc.counters = failed ∧ waits t))) ∧
  (∀ (s : State) (slot : Nat), s.powered = true → s.rsc.op = some (.clear slot) →
     let a := slotAddress s.rsc.remaps slot
     (∃ t, exec (.clearSlotDone true) s = .next t ∧ readByte t.rsc.memory a = 0x00 ∧
       (∀ b, b ≠ a → readByte t.rsc.memory b = readByte s.rsc.memory b) ∧ t.rsc.clearList = s.rsc.clearList.erase slot ∧
       t.rsc.ring = s.rsc.ring) ∧
     (∃ t, exec (.clearSlotDone false) s = .next t ∧
       (∀ b, b ≠ a → readByte t.rsc.memory b = readByte s.rsc.memory b) ∧ t.rsc.clearList = s.rsc.clearList.erase slot ∧
       slot ∈ t.rsc.candidates ∧ t.rsc.candidates.length ≤ max 32 s.rsc.candidates.length ∧ t.rsc.ring = s.rsc.ring))

/-- On SHORE a settle batch is read, oldest undelivered record first, up to 16; the read that ends it takes the next batch
number, puts the records read in flight and queues a SETTLE on the ACTIVE link with its timer started (R160, R167).
A record that cannot be read leaves the ring; its slot becomes a candidate and owes a clear, and RECORD-UNREADABLE is
raised with its serial, here with the write buffer enabled, the low condition in step and no RESET in progress. The batch or export being built
goes on with the next record, or ends with what it has read (R165, R169, R172). A failed read whose build was abandoned
drops its record all the same (assumption 19, DEDUCED).
A SETTLE-ACK, and on LOCAL a CONFIRM-EXPORT, that names the batch in flight confirms it: its records leave the ring and
their slots owe clears in serial order. Any other SETTLE-ACK is stale, any other CONFIRM-EXPORT is refused WRONG-STATE
(R168, R169). Either confirms the batch it names, whichever channel made it (assumption 20, DEDUCED). The batch timer's
expiry returns the batch whole (R168). -/
def Obligations.BatchesAreSettled : Prop :=
  (∀ (s : State) (l : Fin 4), s.powered = true →
     (s.mayBuild = true → ∃ t, exec .buildSettleBatch s = .next t ∧ t.rsc.build = some ⟨.settle, false, []⟩ ∧
       t.rsc.ring = s.rsc.ring ∧ t.rsc.batch = none ∧ (s.rsc.op ≠ none → t.rsc.op = s.rsc.op)) ∧
     (∀ purpose got p, s.rsc.build = some ⟨purpose, false, got⟩ → got.length < 16 →
       (s.rsc.nextRead = some p ↔ ∃ older younger, s.rsc.ring = older ++ p :: younger ∧ p.inFlight = false ∧
         p.serial ∉ got.map (·.1) ∧ ∀ q ∈ older, q.inFlight = true ∨ q.serial ∈ got.map (·.1))) ∧
     (∀ serial slot got, s.rsc.op = some (.read serial slot .settle) → s.rsc.build = some ⟨.settle, false, got⟩ →
       s.rsc.nextRead = some ⟨serial, slot, false⟩ → s.rsc.readable slot = true →
       let read := got ++ [(serial, holdsRecord :: (s.rsc.slotContents slot).tail)]
       let number := bump16 s.rsc.batchNumber
       (read.length < 16 → (∃ q ∈ s.rsc.ring, q.inFlight = false ∧ q.serial ∉ read.map (·.1)) →
         ∃ t, exec (.readSlotDone true) s = .next t ∧ t.rsc.build = some ⟨.settle, false, read⟩ ∧
           t.rsc.ring = s.rsc.ring ∧ t.rsc.batch = s.rsc.batch ∧ t.sent = s.sent) ∧
       (read.length = 16 ∨ (∀ q ∈ s.rsc.ring, q.inFlight = true ∨ q.serial ∈ read.map (·.1)) → s.activeLink? = some l →
         (s.link l).free = true → ∃ t, exec (.readSlotDone true) s = .next t ∧ t.rsc.build = none ∧
           t.rsc.batchNumber = number ∧
           t.rsc.ring = s.rsc.ring.map (fun q => { q with inFlight := q.inFlight || decide (q.serial ∈ read.map (·.1)) }) ∧
           t.rsc.batch = some ⟨number, some (s.mli.clock + s.rsc.batchTimer * 1000), some l⟩ ∧
           t.sent = s.sent ++ [.toShore l (.settle number (read.map (·.2)))]))) ∧
  (∀ (s : State) (serial slot : Nat) (purpose : ReadFor), s.powered = true → s.rsc.op = some (.read serial slot purpose) →
     (∃ p ∈ s.rsc.ring, p.serial = serial ∧ p.slot = slot) →
     let left := s.rsc.ring.filter fun p => p.serial != serial
     let number := bump16 s.rsc.batchNumber
     let dropped := fun (t : State) => slot ∈ t.rsc.candidates ∧ t.rsc.clearList = s.rsc.clearList ++ [slot] ∧
       t.rsc.memory = s.rsc.memory ∧ t.rsc.counters.unreadable = bump32 s.rsc.counters.unreadable
     let reported := fun (t : State) => s.openingStopped = false → s.rsc.bufferOn = true → s.rsc.lowStands = decide (s.rsc.freeLevel < 2048) →
       t.mli = (s.raise (.recordUnreadable serial slot purpose s.mli.shipTime 1)).mli
     (s.rsc.build = none → ∃ t, exec (.readSlotDone false) s = .next t ∧ dropped t ∧ reported t ∧ t.rsc.ring = left ∧
       t.rsc.build = none) ∧
     (∀ kind got, s.rsc.build = some ⟨kind, false, got⟩ → got.length < 16 →
       (∃ q ∈ left, q.inFlight = false ∧ q.serial ∉ got.map (·.1)) →
       ∃ t, exec (.readSlotDone false) s = .next t ∧ dropped t ∧ reported t ∧ t.rsc.ring = left ∧
         t.rsc.build = s.rsc.build ∧ t.sent = s.sent) ∧
     (∀ kind got, s.rsc.build = some ⟨kind, false, got⟩ →
       (∀ q ∈ left, q.inFlight = true ∨ q.serial ∈ got.map (·.1)) →
       let flagged := left.map fun q => { q with inFlight := q.inFlight || decide (q.serial ∈ got.map (·.1)) }
       (kind = .settle → got = [] → ∃ t, exec (.readSlotDone false) s = .next t ∧ dropped t ∧ reported t ∧
         t.rsc.ring = left ∧ t.rsc.build = none ∧ t.rsc.batch = s.rsc.batch ∧ t.sent = s.sent) ∧
       (∀ l, kind = .settle → got ≠ [] → s.activeLink? = some l → (s.link l).free = true →
         ∃ t, exec (.readSlotDone false) s = .next t ∧ dropped t ∧ reported t ∧ t.rsc.ring = flagged ∧
           t.rsc.build = none ∧ t.rsc.batchNumber = number ∧
           t.sent = s.sent ++ [.toShore l (.settle number (got.map (·.2)))]) ∧
       (∀ tag, kind = .hostCopy → got ≠ [] → s.mli.input.head? = some (.exportRecords ⟨tag, some ()⟩) →
         ∃ t overflow, exec (.readSlotDone false) s = .next t ∧ dropped t ∧ t.rsc.ring = flagged ∧ t.rsc.build = none ∧
           t.rsc.batch = some ⟨number, none, none⟩ ∧ t.mli.input = s.mli.input.tail ∧
           .reply ⟨tag, replyHeader Kind.exportRecords none overflow false
             ++ (le 2 number ++ le 1 got.length ++ got.flatMap (·.2))⟩ ∈ t.mli.tx))) ∧
  (∀ (s : State) (l : Fin 4) (tag : Byte) (n : Nat), s.powered = true →
     let inFlight := s.rsc.ring.filter (·.inFlight)
     let confirmed := fun (t : State) =>
       t.rsc.batch = none ∧ t.rsc.ring = s.rsc.ring.filter (fun p => !p.inFlight) ∧
       t.rsc.clearList = s.rsc.clearList ++ inFlight.map (·.slot) ∧
       t.rsc.counters.confirmed = (s.rsc.counters.confirmed + inFlight.length) % 4294967296
     (∀ b, s.rsc.batch = some b → b.number = n → s.rsc.build = none →
       (s.takes l = true → ∃ t, exec (.settleAck l n) s = .next t ∧ confirmed t) ∧
       (s.hostReady → ∃ t, exec (.confirmExport ⟨tag, some n⟩) s = .next t ∧ confirmed t ∧
         RepliedOk Kind.confirmExport tag false (le 1 inFlight.length) t)) ∧
     ((∀ b, s.rsc.batch = some b → b.number ≠ n) →
       (s.takes l = true → exec (.settleAck l n) s = .next
         { s with rsc := { s.rsc with counters := { s.rsc.counters with staleAcks := bump32 s.rsc.counters.staleAcks } } }) ∧
       (s.hostReady → exec (.confirmExport ⟨tag, some n⟩) s = .next (s.turnedAway Kind.confirmExport tag .wrongState []))) ∧
     (∀ b at_, s.rsc.batch = some b → b.expiry = some at_ → at_ ≤ s.mli.clock → s.rsc.build = none →
       exec .batchTimerExpiry s = .next
         { s with rsc := { s.rsc with
           batch := none, ring := s.rsc.ring.map (fun p => { p with inFlight := false }),
           counters := { s.rsc.counters with returned := bumpAt 5 s.rsc.counters.returned 0 } } }))

/-- EXPORT-RECORDS is refused WRONG-STATE on SHORE. On LOCAL with records undelivered it holds the head of the input and
begins to read them, or the batch in flight again; with neither it replies at once with a count of 0, and no batch is made
(R169). The read that ends an export makes a batch of the records read, which no timer watches, and its reply carries the
number, the count and the 64 bytes of each (R169, R185). A port that is free while a write stands ready, which the arbiter
never leaves so, is set aside (R159).
FLUSH-RECORDS holds the head of the input; once the close queue and the write buffer are empty it is answered EMPTY, and
while a write waits for a free slot STALLED, with the records still in the close queue and the wait list; either leaves all
else as it was (R170, R176). A write waits when a record is queued, the free level is 0, the buffer empty and none in
progress (assumption 12, DEDUCED). The taken counter rises as a request joins the input (assumption 37, DEDUCED). The
bytes of the replies are as assumption 9 (DEDUCED) reads R185; that the count in FLUSH-RECORDS' reply has a presence byte,
and so stands as zeros with EMPTY, is assumption 72, and that the 2-byte number in an EXPORT-RECORDS reply of count 0 is
free is assumption 18, the model's choices (DESIGN CHOICE each). -/
def Obligations.ExportAndFlush : Prop :=
  (∀ (s : State) (tag : Byte), s.hostReady →
     (s.rsc.channel = .shore →
       exec (.exportRecords ⟨tag, some ()⟩) s = .next (s.turnedAway Kind.exportRecords tag .wrongState [])) ∧
     (s.rsc.channel = .onHost → s.rsc.ring = [] → s.rsc.batch = none → (s.rsc.op = none → s.writeReady = false) →
       ∃ t number, exec (.exportRecords ⟨tag, some ()⟩) s = .next t ∧ t.rsc.batch = none ∧
         t.rsc.batchNumber = s.rsc.batchNumber ∧ t.mli.work = none ∧ t.mli.input = [] ∧ number.length = 2 ∧
         RepliedOk Kind.exportRecords tag false (number ++ [0]) t) ∧
     (∀ p rest, s.rsc.channel = .onHost → s.rsc.ring = p :: rest → s.rsc.batch.isSome = p.inFlight →
       (s.rsc.op = none → s.writeReady = false) → ∃ t, exec (.exportRecords ⟨tag, some ()⟩) s = .next t ∧ t.mli.work = some .exporting ∧
         t.mli.input = [.exportRecords ⟨tag, some ()⟩] ∧ t.rsc.build = some ⟨.hostCopy, p.inFlight, []⟩ ∧
         t.rsc.ring = s.rsc.ring ∧ t.mli.tx = s.mli.tx)) ∧
  (∀ (s : State) (tag : Byte) (serial slot : Nat) (got : List (Nat × List Byte)), s.powered = true →
     s.mli.input.head? = some (.exportRecords ⟨tag, some ()⟩) → s.rsc.op = some (.read serial slot .hostCopy) →
     s.rsc.build = some ⟨.hostCopy, false, got⟩ → s.rsc.nextRead = some ⟨serial, slot, false⟩ →
     s.rsc.readable slot = true →
     let read := got ++ [(serial, holdsRecord :: (s.rsc.slotContents slot).tail)]
     let number := bump16 s.rsc.batchNumber
     (read.length = 16 ∨ ∀ q ∈ s.rsc.ring, q.inFlight = true ∨ q.serial ∈ read.map (·.1)) →
     ∃ t overflow, exec (.readSlotDone true) s = .next t ∧ t.rsc.build = none ∧ t.rsc.batchNumber = number ∧
       t.rsc.batch = some ⟨number, none, none⟩ ∧
       t.rsc.ring = s.rsc.ring.map (fun q => { q with inFlight := q.inFlight || decide (q.serial ∈ read.map (·.1)) }) ∧
       t.mli.work = none ∧ t.mli.input = s.mli.input.tail ∧
       .reply ⟨tag, replyHeader Kind.exportRecords none overflow false
         ++ (le 2 number ++ le 1 read.length ++ read.flatMap (·.2))⟩ ∈ t.mli.tx) ∧
  (∀ (s : State) (tag : Byte),
     (s.hostReady → exec (.flushRecords ⟨tag, some ()⟩) s = .next
       { s with mli := { s.mli with
         input := [.flushRecords ⟨tag, some ()⟩], work := some .flushing,
         counters := { s.mli.counters with taken := bump32 s.mli.counters.taken } } }) ∧
     (s.powered = true → s.mli.work = some .flushing → s.mli.input.head? = some (.flushRecords ⟨tag, some ()⟩) →
       s.rtu.closeQueue = [] → s.rsc.buffer = [] → ∃ t, exec .flushRecordsDone s = .next t ∧
         t.mli.work = none ∧ t.mli.input = s.mli.input.tail ∧ RepliedOk Kind.flushRecords tag false [0, 0, 0, 0] t ∧
         t = { s with mli := t.mli }) ∧
     (s.powered = true → s.mli.work = some .flushing → s.mli.input.head? = some (.flushRecords ⟨tag, some ()⟩) →
       s.rtu.closeQueue ≠ [] → s.rsc.freeLevel = 0 → s.rsc.buffer = [] → s.rsc.job = none →
       ∃ t, exec .flushRecordsDone s = .next t ∧ t.mli.work = none ∧ t.mli.input = s.mli.input.tail ∧
         RepliedOk Kind.flushRecords tag false
           ([1, 1] ++ le 2 (s.rtu.closeQueue.length + s.rtu.waitList.length)) t ∧ t = { s with mli := t.mli }))

/-! ## The management link, START, RESET and power -/

/-- CONFIGURE-LINK naming a CELL port takes the per-port limit and the port-lost time, each held in its range, and changes
nothing else (R23).
CONFIGURE-LINK naming a SHORE port takes the link's settings, each number held in its range and an absent RTT limit by the
type; while UNCONFIGURED, with the enabled flag as it was, nothing else changes. Enabling an ABSENT link with a carrier
starts its probe; disabling takes a link to ABSENT, owing a long probe (R78, R83, R94).
PIN-LINK takes the pin and the four timings, each held in its range; while UNCONFIGURED nothing else changes (R93).
SET-DELIVERY takes the channel and the batch timer, held to 2 to 60 s; a change of channel returns a batch in flight, and
with none it abandons a settle batch that is being read and changes nothing else (R167, R168).
SET-TIME sets ship time at once, with the next second a whole second away; SET-BILLING replaces the four settings, numbers
held in their ranges, and a list with a code twice is refused BAD-TABLE, with the clamped flag of the numbers held (R181,
R182; assumption 57, DEDUCED). The bytes of each reply are as assumption 9 (DEDUCED) reads R185. -/
def Obligations.SettingsAreTaken : Prop :=
  (∀ (s : State) (tag : Byte) (p : Fin 6) (limit time : Nat), s.hostReady →
     let l := min limit 2048
     let m := max 10 (min time 600)
     exec (.configureLinkCell ⟨tag, some ⟨p.val, limit, time⟩⟩) s = .next
       (({ s with cpc := { s.cpc with ports := s.cpc.ports.set p { s.cpc.ports[p] with limit := l, portLostTime := m } } }
         : State).replied Kind.configureLink tag (decide (l ≠ limit) || decide (m ≠ time)) (le 2 l ++ le 2 m))) ∧
  (∀ (s : State) (tag : Byte) (l : Fin 4) (ty : LinkType) (rank : Nat) (rtt : Option Nat) (hold reprobe : Nat) (on : Bool),
     s.hostReady →
     let r := min rank 15
     let m := match rtt with
       | some v => max 50 (min v 5000)
       | none => match ty with | .satellite => 900 | .coastal => 200 | .harbour => 50
     let h := max 5 (min hold 300)
     let p := max 10 (min reprobe 600)
     let clamped := (match rtt with | some v => decide (m ≠ v) | none => false) || decide (r ≠ rank) || decide (h ≠ hold)
       || decide (p ≠ reprobe)
     let c : Instr := .configureLinkShore ⟨tag, some ⟨l.val, ty, rank, rtt, hold, reprobe, on⟩⟩
     let fields := le 1 ty.code ++ le 1 r ++ le 2 m ++ le 2 h ++ le 2 p ++ bFlag on
     (s.mli.device = .unconfigured → on = (s.link l).enabled → exec c s = .next
       (({ s with slm := { s.slm with links := s.slm.links.set l { s.slm.links[l] with
           type := some ty, costRank := r, rttLimit := some m, holddownTime := h, reprobeTime := p, enabled := on } } }
         : State).replied Kind.configureLink tag clamped fields)) ∧
     ∃ t, exec c s = .next t ∧ RepliedOk Kind.configureLink tag clamped fields t ∧
       (t.link l).type = some ty ∧ (t.link l).costRank = r ∧ (t.link l).rttLimit = some m ∧ (t.link l).holddownTime = h ∧
       (t.link l).reprobeTime = p ∧ (t.link l).enabled = on ∧
       (on = true → (s.link l).enabled = false → (s.link l).state = .absent → (s.link l).carrier = true →
         (t.link l).state = .probing) ∧
       (on = false → (s.link l).enabled = true → (t.link l).state = .absent ∧ (t.link l).longOwed = true)) ∧
  (∀ (s : State) (tag : Byte) (pin : Option (Fin 4)) (settle ack guardTime grace : Nat), s.hostReady →
     let a := min settle 120
     let b := max 500 (min ack 30000)
     let c := max 500 (min guardTime 10000)
     let d := min grace 60000
     let clamped := decide (a ≠ settle) || decide (b ≠ ack) || decide (c ≠ guardTime) || decide (d ≠ grace)
     let fields := le 1 a ++ le 2 b ++ le 2 c ++ le 2 d
     ∃ t, exec (.pinLink ⟨tag, some ⟨pin.map (·.val), settle, ack, guardTime, grace⟩⟩) s = .next t ∧
       (t.slm.pin = pin ∧ t.slm.settleTime = a ∧ t.slm.moveAckTimer = b ∧ t.slm.guardTime = c ∧ t.slm.grace = d) ∧
       RepliedOk Kind.pinLink tag clamped fields t ∧
       (s.mli.device = .unconfigured → t = ({ s with slm := { s.slm with
           pin := pin, settleTime := a, moveAckTimer := b, guardTime := c, grace := d } } : State).replied
         Kind.pinLink tag clamped fields)) ∧
  (∀ (s : State) (tag : Byte) (channel : Channel) (timer : Nat), s.hostReady →
     let v := max 2 (min timer 60)
     let fields := le 1 channel.code ++ le 1 v
     (s.rsc.channel = channel → exec (.setDelivery ⟨tag, some ⟨channel, timer⟩⟩) s = .next
       (({ s with rsc := { s.rsc with batchTimer := v } } : State).replied Kind.setDelivery tag (decide (v ≠ timer)) fields)) ∧
     (∀ b, s.rsc.channel ≠ channel → s.rsc.batch = some b → s.rsc.build = none →
       exec (.setDelivery ⟨tag, some ⟨channel, timer⟩⟩) s = .next
         (({ s with rsc := { s.rsc with
             channel := channel, batchTimer := v, batch := none,
             ring := s.rsc.ring.map (fun p => { p with inFlight := false }),
             counters := { s.rsc.counters with returned := bumpAt 5 s.rsc.counters.returned 3 } } } : State).replied
           Kind.setDelivery tag (decide (v ≠ timer)) fields)) ∧
     (s.rsc.channel ≠ channel → s.rsc.batch = none → (∀ b, s.rsc.build = some b → b.purpose = .settle) →
       exec (.setDelivery ⟨tag, some ⟨channel, timer⟩⟩) s = .next
         (({ s with rsc := { s.rsc with channel := channel, batchTimer := v, build := none } } : State).replied
           Kind.setDelivery tag (decide (v ≠ timer)) fields))) ∧
  (∀ (s : State) (tag : Byte), s.hostReady →
     (∀ v, v ≤ 4294967295 → exec (.setTime ⟨tag, some v⟩) s = .next
       (({ s with mli := { s.mli with shipTime := v, shipPhase := 0 } } : State).replied Kind.setTime tag false (le 4 v))) ∧
     (∀ cap percent age codes, codes.length ≤ 16 → codes.all codeOk = true →
       let c : Instr := .setBilling ⟨tag, some ⟨cap, percent, age, codes⟩⟩
       let taken : Billing := ⟨min cap 4294967295, max 50 (min percent 100), max 60 (min age 3600), codes⟩
       let clamped := decide (taken.defaultCap ≠ cap) || decide (taken.alertPercent ≠ percent) || decide (taken.maxAge ≠ age)
       (codes.Nodup → exec c s = .next
         (({ s with mli := { s.mli with billing := taken } } : State).replied Kind.setBilling tag clamped
           (le 4 taken.defaultCap ++ le 1 taken.alertPercent ++ le 2 taken.maxAge ++ bList 1 HomeCode.bytes codes))) ∧
       (¬ codes.Nodup → exec c s = .next (s.turnedAwayClamped Kind.setBilling tag clamped .badTable []))))

/-- START without zones, partners or an active bank is refused WRONG-STATE with one byte that says which; RUNNING it is
refused WRONG-STATE without one. Accepted, the device is RUNNING, the verdict NONE, the frozen flag clear, no hold running
and the fix timer started; last fix, last position and the forced-freeze flag are kept, and without an ACTIVE link
isolation stands (R20, R109, R179).
RESET closes every unfrozen period, opens none, and holds the head of the input. When its flush and the memory operation
have ended, the listening ports are sent QUIET, the carrier is withheld on every cell port until the reset is complete,
every block takes its reset values, record memory and the ring stay, and the requests behind it wait on (R41, R60, R157,
R173, R180, R184). A flush that ends STALLED, at once or when a commit or a kill leaves a write waiting, loses the closures
that wait at that moment, before the memory operation in flight has ended: the close queue and the wait list are emptied,
each closure is counted as lost and CLOSURE-LOST is raised, here with the low condition standing (R170, R180). The reply
carries the outcome and the numbers of periods closed, closures lost and notices discarded (R180; when a flush has stalled
is assumption 12, that the carriers show within RESET_COMPLETE assumption 44, the bytes of the reply assumption 9, DEDUCED
each; the additions on their way go uncounted by assumption 52, and the swap record's
Started-at reads 0 by assumption 56, DESIGN CHOICE each). -/
def Obligations.StartAndReset : Prop :=
  let lostAtOnce := fun (closed lost : Nat) (s t : State) =>
    t.mli.work = some (.resetting closed (some lost)) ∧ t.rtu.closeQueue = [] ∧ t.rtu.waitList = [] ∧
    t.rsc.counters.lostClosures = (s.rsc.counters.lostClosures + lost) % 4294967296 ∧
    t.mli.tx = (s.raise (.storeFault .closureLost s.rsc.sparePool s.rsc.dead.length s.rsc.capacity
      ((s.rsc.counters.lostClosures + lost) % 4294967296) none s.mli.shipTime 1)).mli.tx
  (∀ (s : State) (tag : Byte), s.hostReady →
     let c : Instr := .start ⟨tag, some ()⟩
     let missing := (if s.tracker.zones = [] then 1 else 0) + (if s.rge.partners = [] then 2 else 0)
       + (if s.rtu.activeExists then 0 else 4)
     (s.mli.device = .running → exec c s = .next (s.turnedAway Kind.start tag .wrongState [])) ∧
     (s.mli.device = .unconfigured → missing ≠ 0 →
       exec c s = .next (s.turnedAway Kind.start tag .wrongState (le 1 missing))) ∧
     (s.mli.device = .unconfigured → missing = 0 → ∃ t, exec c s = .next t ∧ t.mli.device = .running ∧
       t.tracker = { s.tracker with
         verdict := none, frozen := false, holdExpiry := none,
         fixExpiry := some (s.mli.clock + s.tracker.fixTimeout * 1000) } ∧
       (s.activeLink? = none → t.slm.isolated = some s.mli.clock) ∧ t.handles = s.handles)) ∧
  (∀ (s : State) (tag : Byte),
     (s.hostReady → s.handles.Nodup → ∃ t, exec (.reset ⟨tag, some ()⟩) s = .next t ∧
       t.mli.input = [.reset ⟨tag, some ()⟩] ∧ t.openPeriods = 0 ∧
       t.handles = s.handles ∧ t.mli.device = s.mli.device ∧ t.tracker = s.tracker ∧
       (let stalls := s.rsc.freeLevel = 0 ∧ s.rsc.buffer = [] ∧ s.rsc.job = none ∧
          (s.rtu.closeQueue ≠ [] ∨ s.openPeriods ≠ 0 ∧ s.rtu.waitList = [])
        (¬ stalls → t.mli.work = some (.resetting s.openPeriods none)) ∧
        (stalls → s.rtu.waitList.length + s.openPeriods ≤ 4096 →
          lostAtOnce s.openPeriods (s.rtu.closeQueue.length + s.rtu.waitList.length + s.openPeriods) s t))) ∧
     (∀ closed slot j, s.powered = true → s.mli.work = some (.resetting closed none) → s.rsc.freeLevel = 0 →
       s.rsc.op = some (.write slot) → s.rsc.job = some j → slot ∉ s.rsc.candidates → s.rsc.lowStands = true →
       let queue := if j.direct then s.rtu.closeQueue.tail else s.rtu.closeQueue
       queue ≠ [] → (if j.direct then s.rsc.buffer = [] else s.rsc.buffer.length = 1) →
       ∃ t, exec (.writeSlotDone true) s = .next t ∧ t.rsc.op = none ∧
         lostAtOnce closed (queue.length + s.rtu.waitList.length) s t) ∧
     (∀ closed slot j again, s.powered = true → s.mli.work = some (.resetting closed none) → s.rsc.nextFree = none →
       s.rsc.op = some (.mapWrite (.kill slot) again) → s.rsc.job = some j → s.rsc.lowStands = true →
       s.rtu.closeQueue ≠ [] → s.rsc.buffer = [] → ({ s.rsc with job := none } : Rsc).freeLevel = 0 →
       ∃ t, exec (.mapWriteDone true) s = .next t ∧ t.rsc.op = none ∧
         lostAtOnce closed (s.rtu.closeQueue.length + s.rtu.waitList.length) s t) ∧
     (∀ closed lost, s.powered = true → s.mli.work = some (.resetting closed lost) →
       s.mli.input.head? = some (.reset ⟨tag, some ()⟩) → s.rsc.op = none →
       let wiped := fun (t : State) => t.tracker = Tracker.initial ∧ t.cpc = Cpc.initial ∧ t.table = Table.initial ∧
         t.rge = Rge.initial ∧ t.rtu = Rtu.initial ∧ t.sws = SwapStore.initial ∧ t.router.additions = [] ∧
         (∀ l, (t.link l).state = .absent ∧ (t.link l).longOwed = true) ∧ t.slm.swap = Swap.initial ∧
         t.mli.device = .unconfigured ∧ t.mli.clock = 0 ∧ t.mli.shipTime = 0 ∧ t.mli.work = none ∧
         t.mli.input = s.mli.input.tail ∧ t.rsc.memory = s.rsc.memory ∧ t.rsc.mapArea = s.rsc.mapArea ∧
         t.rsc.ring = s.rsc.ring.map (fun p => { p with inFlight := false }) ∧ t.rsc.nextSerial = s.rsc.nextSerial ∧
         t.rsc.batch = none ∧ t.rsc.counters = RecordCounters.zero ∧
         t.sent = s.sent ++ ((allPorts.filter fun p => decide ((s.port p).state ≠ .down)).map fun p => .toHead p .quiet)
           ++ (allPorts.map fun p => .cellCarrier p false) ++ allPorts.map fun p => .cellCarrier p true
       let reply := fun (outcome lost discarded : Nat) =>
         RepliedOk Kind.reset tag false (le 1 outcome ++ le 2 closed ++ le 2 lost ++ le 1 discarded)
       lost ≠ none ∨ s.rtu.closeQueue = [] ∧ s.rsc.buffer = [] →
         ∃ t, exec .resetComplete s = .next t ∧ wiped t ∧
           reply (if lost = none then 0 else 1) (lost.getD 0) (noticeCount s.mli.tx) t) ∧
     (∀ closed lost, s.mli.work = some (.resetting closed lost) →
       s.rsc.op ≠ none ∨ lost = none ∧ (s.rtu.closeQueue ≠ [] ∨ s.rsc.buffer ≠ []) → exec .resetComplete s = .next s))

/-- Power on takes every block to its power-on values with the scan still to come; a power loss on an idle memory port
keeps record memory alone; the end of the scan of a blank memory finds no record, gives the next serial 0 and enables the
write buffer while more than 16 spares are left (R161, R171).
The scan of any memory looks at every logical slot that is not dead, in ascending order, under the remaps of the map area;
an unreadable map area makes every slot native and none dead, with no spare left (assumption 42, DEDUCED). The ring gets
one place for each serial of a HOLDS-RECORD slot, in ascending order of serials, or, when they lie on both sides of the
wrap, the upper half first; the lowest slot of a serial keeps it, the others owe a clear and are counted as duplicates. The
next serial is one more than the last of all serials found, of cleared slots too. Slots that cannot be read become
candidates, the last 32 of them. MAP-UNREADABLE and WRITE-BUFFER-OFF are raised as they apply (R162, R164, R171, R172).
The spare pool counted from the remaps of the map area is assumption 11 (DESIGN CHOICE).
Without power a part sends nothing, and its record memory and its requests stay as they are (assumption 4, DEDUCED). That
a POWER_ON on a powered part is a power cycle is assumption 43; that carriers, modems and clear-to-send keep what was last
reported, and what the controller reads before its scan, is assumption 2; that a blank memory is the empty list is
assumption 8 (DESIGN CHOICE each). -/
def Obligations.PowerAndScan : Prop :=
  (∀ s : State, s.rsc.op = none →
     let started := fun (on : Bool) (t : State) =>
       t.powered = on ∧ t.tracker = Tracker.initial ∧ t.cpc = Cpc.initial ∧ t.table = Table.initial ∧ t.rge = Rge.initial ∧
       t.rtu = Rtu.initial ∧ t.router = Router.initial s.router.localCarrier ∧
       t.slm = Slm.initial (Vector.ofFn fun l => Link.initial (s.link l).carrier (s.link l).modemReady) ∧
       t.sws = SwapStore.initial ∧ t.rsc = Rsc.atPowerOn s.rsc.memory s.rsc.mapArea ∧
       t.mli = Mli.initial s.mli.hostCts ∧ t.sent = s.sent
     (∃ t, exec .powerOn s = .next t ∧ started true t) ∧
     (s.powered = true → ∃ t, exec .powerLoss s = .next t ∧ started false t) ∧
     (s.powered = true → s.rsc.scanEnded = false → s.rsc.memory = [] → s.rsc.job = none → s.rsc.buffer = [] →
       s.rtu.closeQueue = [] → s.rsc.mapArea.dead = [] → s.rsc.mapArea.remaps = [] →
       ∃ t, exec (.powerOnScanEnd true []) s = .next t ∧ t.rsc.scanEnded = true ∧ t.rsc.ring = [] ∧ t.rsc.nextSerial = 0 ∧
         t.rsc.lastGiven = 32767 ∧ t.rsc.bufferOn = true ∧ t.rsc.freeLevel = 32768 ∧ t.rsc.candidates = [] ∧
         t.rsc.clearList = [] ∧ t.mli.tx = s.mli.tx)) ∧
  (∀ (s : State) (ok : Bool) (unreadable : List Nat), s.powered = true → s.rsc.scanEnded = false → s.rsc.job = none →
     s.rsc.buffer = [] → s.rtu.closeQueue = [] →
     let remaps := if ok then s.rsc.mapArea.remaps else []
     let dead := if ok then s.rsc.mapArea.dead else []
     let pool := if ok then 1024 - remaps.length else 0
     let slots := (List.range 32768).filter fun k => !dead.contains k
     let header := fun (k : Nat) => if k ∈ unreadable then Header.unreadable
       else headerOf (readBytes s.rsc.memory (slotAddress remaps k) 64)
     let serials := slots.filterMap fun k => match header k with
       | .holds n => some n
       | .cleared n => some n
       | _ => none
     let wrap := (serials.any fun n => decide (2147483648 ≤ n)) && serials.any fun n => decide (n < 2147483648)
     let place := fun (n : Nat) => if wrap = true ∧ n < 2147483648 then n + 4294967296 else n
     let bad := slots.filter fun k => header k == .unreadable
     let fault := fun (reason : StoreFault) => TxItem.notice (.storeFault reason pool dead.length (32768 - dead.length)
       s.rsc.counters.lostClosures none s.mli.shipTime 1)
     ∃ t, exec (.powerOnScanEnd ok unreadable) s = .next t ∧ t.rsc.scanEnded = true ∧ t.rsc.memory = s.rsc.memory ∧
       t.rsc.remaps = remaps ∧ t.rsc.dead = dead ∧ t.rsc.sparePool = pool ∧ t.rsc.bufferOn = decide (16 < pool) ∧
       (∀ p, p ∈ t.rsc.ring ↔ p.inFlight = false ∧ p.slot ∈ slots ∧ header p.slot = .holds p.serial ∧
         ∀ k ∈ slots, k < p.slot → header k ≠ .holds p.serial) ∧
       t.rsc.ring.Pairwise (fun p q => place p.serial < place q.serial) ∧
       t.rsc.lastGiven = (t.rsc.ring.getLast?.map (·.slot)).getD 32767 ∧
       t.rsc.clearList = slots.filter (fun k => match header k with
         | .holds n => slots.any fun m => decide (m < k) && header m == .holds n
         | _ => false) ∧
       t.rsc.counters.duplicates = t.rsc.clearList.length ∧ t.rsc.candidates = bad.drop (bad.length - 32) ∧
       (serials = [] → t.rsc.nextSerial = 0) ∧
       (∀ n ∈ serials, (∀ m ∈ serials, place m ≤ place n) → t.rsc.nextSerial = bump32 n) ∧
       (s.mli.tx = [] → ∃ rest, t.mli.tx = (if ok then [] else [fault .mapUnreadable])
         ++ (if 16 < pool then [] else [fault .writeBufferOff]) ++ rest)) ∧
  (∀ (c : Instr) (s t : State), s.powered = false → exec c s = .next t → c ≠ .powerOn →
     t.sent = s.sent ∧ t.rsc = s.rsc ∧ t.table = s.table ∧ t.tracker = s.tracker ∧ t.rge = s.rge ∧ t.rtu = s.rtu ∧
       t.sws = s.sws ∧ t.cpc = s.cpc ∧ t.mli.input = s.mli.input ∧ t.mli.tx = s.mli.tx ∧ t.powered = false)

/-- The receiver and the transmitter: a frame with a good CRC becomes the request that its kind, tag and body spell and
joins the input; a gap discards a partial frame; an unknown kind is refused UNKNOWN-KIND; while the host gives its
clear-to-send the next item made ready is sent, a notice in kind 0x81 and a reply in kind 0x80 (R174 to R178).
A request of any kind, its body laid out, waits its turn: behind another it only joins the input, and when that holds 4 it
is an overrun (R175, R176).
While the power-on scan runs, a request that is no query is refused NOT-READY, or MALFORMED when its fields make it so in
any state; a part of LOAD-PARTNERS so refused empties the staging table too (R177, R183; that MALFORMED comes first is
assumption 7, that LOAD-ZONES and LOAD-PARTNERS tell of a value clamped there is assumption 57, DEDUCED each).
A notice raised replaces the first standing one of its kind and subject in its place, combined as its rule says, here for
ZONE-CHANGED, PORT-LOST and RECORD-UNREADABLE; else it joins the tail while fewer than 64 stand; else it is lost, counted,
and the overflow indication is set, which the next reply made ready carries in bit 0 of its flags and clears (R13, R39,
R172, R178).
That a request command joins the input or overruns is assumption 6 (DESIGN CHOICE), that the taken counter rises then is
assumption 37 (DEDUCED), that one SEND_FRAME sends one whole frame is assumption 34 (DESIGN CHOICE), that a clear-to-send is
taken without power too is assumption 4 (DEDUCED), and the bit order of the CRC is assumption 10 (PRESUMED). -/
def Obligations.InterfaceMovesFrames : Prop :=
  (∀ s : State,
     (∀ kind tag body, s.powered = true → s.mli.rx = [] → s.mli.input.length < 4 → body.length ≤ 1098 →
       exec (.frameReceived (frameBytes kind tag body)) s = .next
         { s with mli := { s.mli with
           rx := [], gapLeft := 50, input := s.mli.input ++ [Decode.request kind tag body],
           counters := { s.mli.counters with taken := bump32 s.mli.counters.taken } } }) ∧
     (s.powered = true → s.mli.rx ≠ [] → s.mli.input.length < 4 → s.mli.gapLeft = 0 →
       ∃ t, exec .frameGap s = .next t ∧ t.mli.rx = [] ∧ t.mli.gapLeft = 50 ∧
         t.mli.counters.gaps = bump32 s.mli.counters.gaps ∧ t.mli.input = s.mli.input ∧ t.tracker = s.tracker) ∧
     (∀ kind tag, s.hostFree → exec (.unknownKindRequest kind tag) s = .next (s.turnedAway kind tag .unknownKind [])) ∧
     (∀ given, exec (.hostClearToSend given) s = .next { s with mli := { s.mli with hostCts := given } }) ∧
     (∀ r rest, s.powered = true → s.mli.hostCts = true → s.mli.tx = .reply r :: rest → exec .sendFrame s = .next
       { s with
         mli := { s.mli with tx := rest },
         sent := s.sent ++ [.toHost (frameBytes 0x80 r.tag r.body)] }) ∧
     (∀ n rest, s.powered = true → s.mli.hostCts = true → s.mli.tx = .notice n :: rest → exec .sendFrame s = .next
       { s with
         mli := { s.mli with
           tx := rest, counters := { s.mli.counters with noticesSent := bump32 s.mli.counters.noticesSent } },
         sent := s.sent ++ [.toHost (frameBytes 0x81 0 n.body)] })) ∧
  (∀ (s : State) (i : Instr) (kind tag : Byte) (body : List Byte), s.powered = true →
     Decode.encode i = some (kind, tag, body) →
     (s.mli.work ≠ none ∨ (∃ first rest, s.mli.input = first :: rest ∧ first ≠ i) →
       (s.mli.input.length < 4 → exec i s = .next
         { s with mli := { s.mli with
           input := s.mli.input ++ [i], counters := { s.mli.counters with taken := bump32 s.mli.counters.taken } } }) ∧
       (4 ≤ s.mli.input.length → exec i s = .next
         { s with mli := { s.mli with
           counters := { s.mli.counters with overruns := bump32 s.mli.counters.overruns } } })) ∧
     (s.hostFree → s.rsc.scanEnded = false →
       (kind ∉ [Kind.loadPartners, Kind.loadZones, Kind.queryZone, Kind.queryLink, Kind.querySubscriber, Kind.queryStore] →
         exec i s = .next (s.turnedAway kind tag .notReady []) ∨
         exec i s = .next (s.turnedAway kind tag .malformed []) ∧
           ∀ t : State, t.hostReady → exec i t = .next (t.turnedAway kind tag .malformed [])) ∧
       (kind ∈ [Kind.start, Kind.reset, Kind.setTime, Kind.fix, Kind.freezeZone, Kind.thawZone, Kind.commitTariff,
           Kind.dayRoll, Kind.setCap, Kind.setClass, Kind.evict, Kind.setDelivery, Kind.exportRecords, Kind.confirmExport,
           Kind.flushRecords] → exec i s = .next (s.turnedAway kind tag .notReady [])) ∧
       (kind = Kind.loadZones → ∃ clamped reason, (reason = .notReady ∨ reason = .malformed) ∧ exec i s = .next
         (s.turnedAwayClamped kind tag clamped reason [])) ∧
       (kind = Kind.loadPartners → ∃ clamped reason, (reason = .notReady ∨ reason = .malformed) ∧ exec i s = .next
         (({ s with mli := { s.mli with staging := none } } : State).turnedAwayClamped kind tag clamped reason [])))) ∧
  (∀ (s : State) (n : Notice),
     (∀ before o behind, s.mli.tx = before ++ .notice o :: behind → o.sameSubject n = true →
       (∀ k, .notice k ∈ before → k.sameSubject n = false) →
       s.raise n = { s with mli := { s.mli with
         tx := before ++ .notice (o.combine n) :: behind,
         counters := { s.mli.counters with noticesReplaced := bump32 s.mli.counters.noticesReplaced } } }) ∧
     ((∀ k, .notice k ∈ s.mli.tx → k.sameSubject n = false) →
       (noticeCount s.mli.tx < 64 → s.raise n = { s with mli := { s.mli with tx := s.mli.tx ++ [.notice n] } }) ∧
       (64 ≤ noticeCount s.mli.tx → s.raise n = { s with mli := { s.mli with
         overflow := true,
         counters := { s.mli.counters with noticesLost := bump32 s.mli.counters.noticesLost } } }))) ∧
  (∀ a b a' b' r r' c c' d d' t t' n, (Notice.zoneChanged a b r c d t n).combine (.zoneChanged a' b' r' c' d' t' 1) =
     .zoneChanged a b' r' c' d' t' (min 255 (n + 1))) ∧
  (∀ p m m' d d' t t' n, (Notice.portLost p m d t n).combine (.portLost p m' d' t' 1) =
     .portLost p (min 65535 (m + m')) (min 65535 (d + d')) t' (min 255 (n + 1))) ∧
  (∀ i i' x x' p p' t t' n, (Notice.recordUnreadable i x p t n).combine (.recordUnreadable i' x' p' t' 1) =
     .recordUnreadable i' x' p' t' (min 65535 (n + 1))) ∧
  (∀ (s : State) (kind tag : Byte), s.hostFree → ∃ t body, exec (.unknownKindRequest kind tag) s = .next t ∧
     t.mli.tx = s.mli.tx ++ [.reply ⟨tag, body⟩] ∧ body[3]? = some (if s.mli.overflow then 1 else 0) ∧
     t.mli.overflow = false)

/-- QUERY-ZONE answers in either device state and while the scan runs with the verdict and every copied field, the two
flags, the milliseconds left of a hold, the last fix and its age, the last position, the table's length and count and the
other four settings, and changes no state (R14). The widths are R185's; the presence bytes and the counts of the copied
lists are as assumption 9 (DEDUCED) reads it; that each copied field and each value of the last fix has a presence byte of
its own is assumption 67, that the route length goes once assumption 49 (DESIGN CHOICE each). -/
def Obligations.ZoneIsQueried : Prop :=
  ∀ (s : State) (tag : Byte), s.hostFree →
    let t := s.tracker
    let rules := t.verdict.map (·.rules)
    let verdict := bOpt 1 (t.verdict.map (·.index)) ++ bOpt 1 (rules.map (·.policy.code)) ++ bOpt 1 (rules.map (·.powerCap))
      ++ bOpt 1 (rules.map fun r => if r.berth then 1 else 0) ++ bOpt 1 (rules.map (·.jurisdiction))
      ++ bFlag rules.isSome ++ bList 1 (le 1) ((rules.map (·.prefs)).getD [])
      ++ bFlag rules.isSome ++ bList 1 (fun k => le 1 (LinkType.code k)) ((rules.map (·.linkOrder)).getD [])
      ++ bOpt 1 (rules.map (·.tariffClass))
    let flags := bFlag t.frozen ++ bFlag t.forcedFreeze ++ le 8 (match t.holdExpiry with | some x => x - s.mli.clock | none => 0)
    let fix := bOpt 1 (t.lastFix.map (·.1.code)) ++ bOpt 8 (t.lastFix.map fun f => s.mli.clock - f.2) ++ bOpt 3 t.lastPosition
    exec (.queryZone ⟨tag, some ()⟩) s = .next (s.replied Kind.queryZone tag false
      (verdict ++ flags ++ fix ++ le 3 t.routeLength ++ le 1 t.zones.length ++ le 2 t.hysteresis ++ le 1 t.fixTimeout
        ++ le 2 t.holdTime ++ le 1 t.retentionTime))

/-- The other queries answer in either device state and while the scan runs, and change no state; a subscriber that no
live entry is named by is refused NO-SUCH-SUBSCRIBER (R23, R58, R59, R96, R173, R177, R184), a handle above 2,047 too
(assumption 73, DESIGN CHOICE). The MANAGEMENT reply counts the query itself as taken (assumption 37, DEDUCED). -/
def Obligations.QueriesChangeNothing : Prop :=
  ∀ (s : State) (tag : Byte), s.hostFree →
    (∀ p : Fin 6, exec (.queryLinkCell ⟨tag, some p.val⟩) s = .next (s.replied Kind.queryLink tag false (s.cellReply p))) ∧
    (∀ l : Fin 4, exec (.queryLinkShore ⟨tag, some l.val⟩) s = .next (s.replied Kind.queryLink tag false
      (s.linkReply (s.link l) ++ s.selectionReply ++ s.swapReply ++ s.storeReply))) ∧
    exec (.queryLinkManagement ⟨tag, some ()⟩) s = .next (s.replied Kind.queryLink tag false
      ({ s with mli := { s.mli with counters := { s.mli.counters with taken := bump32 s.mli.counters.taken } } }
        : State).managementReply) ∧
    (∀ name, exec (.querySubscriberSingle ⟨tag, some name⟩) s = .next (match s.entryNamed name with
      | some (h, e) => s.replied Kind.querySubscriber tag false (s.entryReply h e)
      | none => s.turnedAway Kind.querySubscriber tag .noSuchSubscriber [])) ∧
    exec (.querySubscriberSummary ⟨tag, some ()⟩) s = .next (s.replied Kind.querySubscriber tag false
      (s.tableReply ++ s.routerReply ++ s.engineReply ++ s.ratingReply)) ∧
    exec (.queryStore ⟨tag, some ()⟩) s = .next (s.replied Kind.queryStore tag false s.recordsReply)

/-! ## Encoding -/

/-- Every request that a host can write down, sent in the layouts of R174 and R185, is read back as itself: no field of it
is lost.
A committed charge record is found by the scan with its serial, and its 64 bytes pass their check (R158, R171, R185).
The layouts are as assumptions 9 and 28 (DEDUCED) read R185, the reader's strictness is assumption 27 (DEDUCED), and the
bit order of the CRC is assumption 10 (PRESUMED). -/
def Obligations.RequestsReadBackAsSent : Prop :=
  (∀ (i : Instr) (kind tag : Byte) (body : List Byte), i.wellFormed = true → Decode.encode i = some (kind, tag, body) →
     Decode.request kind tag body = i) ∧
  (∀ r : ChargeRecord, r.bytes.length = 64 ∧ ∀ n, r.serial = some n → n ≤ 4294967295 → headerOf r.bytes = .holds n)
end

