-- ==== Sys2Proof/Laws/State.lean ====
section
/-! SUPPORT. What each update of the state does to each of its fields, true by definition, so that no proof unfolds a
record update. -/

namespace Sys2Proof.Machine

/-! ### onTracker -/

@[simp] theorem State.onTracker_powered (f : Tracker → Tracker) (s : State) : (s.onTracker f).powered = s.powered := rfl
@[simp] theorem State.onTracker_tracker (f : Tracker → Tracker) (s : State) : (s.onTracker f).tracker = f s.tracker := rfl
@[simp] theorem State.onTracker_cpc (f : Tracker → Tracker) (s : State) : (s.onTracker f).cpc = s.cpc := rfl
@[simp] theorem State.onTracker_table (f : Tracker → Tracker) (s : State) : (s.onTracker f).table = s.table := rfl
@[simp] theorem State.onTracker_router (f : Tracker → Tracker) (s : State) : (s.onTracker f).router = s.router := rfl
@[simp] theorem State.onTracker_slm (f : Tracker → Tracker) (s : State) : (s.onTracker f).slm = s.slm := rfl
@[simp] theorem State.onTracker_sws (f : Tracker → Tracker) (s : State) : (s.onTracker f).sws = s.sws := rfl
@[simp] theorem State.onTracker_rge (f : Tracker → Tracker) (s : State) : (s.onTracker f).rge = s.rge := rfl
@[simp] theorem State.onTracker_rtu (f : Tracker → Tracker) (s : State) : (s.onTracker f).rtu = s.rtu := rfl
@[simp] theorem State.onTracker_rsc (f : Tracker → Tracker) (s : State) : (s.onTracker f).rsc = s.rsc := rfl
@[simp] theorem State.onTracker_mli (f : Tracker → Tracker) (s : State) : (s.onTracker f).mli = s.mli := rfl
@[simp] theorem State.onTracker_sent (f : Tracker → Tracker) (s : State) : (s.onTracker f).sent = s.sent := rfl
@[simp] theorem State.onTracker_openCount (f : Tracker → Tracker) (s : State) : (s.onTracker f).openCount = s.openCount := rfl
@[simp] theorem State.onTracker_pending (f : Tracker → Tracker) (s : State) : (s.onTracker f).pending = s.pending := rfl
@[simp] theorem State.onTracker_onTracker (f g : Tracker → Tracker) (s : State) : (s.onTracker f).onTracker g = s.onTracker (fun x => g (f x)) := rfl

/-! ### onCpc -/

@[simp] theorem State.onCpc_powered (f : Cpc → Cpc) (s : State) : (s.onCpc f).powered = s.powered := rfl
@[simp] theorem State.onCpc_tracker (f : Cpc → Cpc) (s : State) : (s.onCpc f).tracker = s.tracker := rfl
@[simp] theorem State.onCpc_cpc (f : Cpc → Cpc) (s : State) : (s.onCpc f).cpc = f s.cpc := rfl
@[simp] theorem State.onCpc_table (f : Cpc → Cpc) (s : State) : (s.onCpc f).table = s.table := rfl
@[simp] theorem State.onCpc_router (f : Cpc → Cpc) (s : State) : (s.onCpc f).router = s.router := rfl
@[simp] theorem State.onCpc_slm (f : Cpc → Cpc) (s : State) : (s.onCpc f).slm = s.slm := rfl
@[simp] theorem State.onCpc_sws (f : Cpc → Cpc) (s : State) : (s.onCpc f).sws = s.sws := rfl
@[simp] theorem State.onCpc_rge (f : Cpc → Cpc) (s : State) : (s.onCpc f).rge = s.rge := rfl
@[simp] theorem State.onCpc_rtu (f : Cpc → Cpc) (s : State) : (s.onCpc f).rtu = s.rtu := rfl
@[simp] theorem State.onCpc_rsc (f : Cpc → Cpc) (s : State) : (s.onCpc f).rsc = s.rsc := rfl
@[simp] theorem State.onCpc_mli (f : Cpc → Cpc) (s : State) : (s.onCpc f).mli = s.mli := rfl
@[simp] theorem State.onCpc_sent (f : Cpc → Cpc) (s : State) : (s.onCpc f).sent = s.sent := rfl
@[simp] theorem State.onCpc_openCount (f : Cpc → Cpc) (s : State) : (s.onCpc f).openCount = s.openCount := rfl
@[simp] theorem State.onCpc_pending (f : Cpc → Cpc) (s : State) : (s.onCpc f).pending = s.pending := rfl
@[simp] theorem State.onCpc_onCpc (f g : Cpc → Cpc) (s : State) : (s.onCpc f).onCpc g = s.onCpc (fun x => g (f x)) := rfl

/-! ### onTable -/

@[simp] theorem State.onTable_powered (f : Table → Table) (s : State) : (s.onTable f).powered = s.powered := rfl
@[simp] theorem State.onTable_tracker (f : Table → Table) (s : State) : (s.onTable f).tracker = s.tracker := rfl
@[simp] theorem State.onTable_cpc (f : Table → Table) (s : State) : (s.onTable f).cpc = s.cpc := rfl
@[simp] theorem State.onTable_table (f : Table → Table) (s : State) : (s.onTable f).table = f s.table := rfl
@[simp] theorem State.onTable_router (f : Table → Table) (s : State) : (s.onTable f).router = s.router := rfl
@[simp] theorem State.onTable_slm (f : Table → Table) (s : State) : (s.onTable f).slm = s.slm := rfl
@[simp] theorem State.onTable_sws (f : Table → Table) (s : State) : (s.onTable f).sws = s.sws := rfl
@[simp] theorem State.onTable_rge (f : Table → Table) (s : State) : (s.onTable f).rge = s.rge := rfl
@[simp] theorem State.onTable_rtu (f : Table → Table) (s : State) : (s.onTable f).rtu = s.rtu := rfl
@[simp] theorem State.onTable_rsc (f : Table → Table) (s : State) : (s.onTable f).rsc = s.rsc := rfl
@[simp] theorem State.onTable_mli (f : Table → Table) (s : State) : (s.onTable f).mli = s.mli := rfl
@[simp] theorem State.onTable_sent (f : Table → Table) (s : State) : (s.onTable f).sent = s.sent := rfl
@[simp] theorem State.onTable_openCount (f : Table → Table) (s : State) : (s.onTable f).openCount = s.openCount := rfl
@[simp] theorem State.onTable_pending (f : Table → Table) (s : State) : (s.onTable f).pending = s.pending := rfl
@[simp] theorem State.onTable_onTable (f g : Table → Table) (s : State) : (s.onTable f).onTable g = s.onTable (fun x => g (f x)) := rfl

/-! ### onRouter -/

@[simp] theorem State.onRouter_powered (f : Router → Router) (s : State) : (s.onRouter f).powered = s.powered := rfl
@[simp] theorem State.onRouter_tracker (f : Router → Router) (s : State) : (s.onRouter f).tracker = s.tracker := rfl
@[simp] theorem State.onRouter_cpc (f : Router → Router) (s : State) : (s.onRouter f).cpc = s.cpc := rfl
@[simp] theorem State.onRouter_table (f : Router → Router) (s : State) : (s.onRouter f).table = s.table := rfl
@[simp] theorem State.onRouter_router (f : Router → Router) (s : State) : (s.onRouter f).router = f s.router := rfl
@[simp] theorem State.onRouter_slm (f : Router → Router) (s : State) : (s.onRouter f).slm = s.slm := rfl
@[simp] theorem State.onRouter_sws (f : Router → Router) (s : State) : (s.onRouter f).sws = s.sws := rfl
@[simp] theorem State.onRouter_rge (f : Router → Router) (s : State) : (s.onRouter f).rge = s.rge := rfl
@[simp] theorem State.onRouter_rtu (f : Router → Router) (s : State) : (s.onRouter f).rtu = s.rtu := rfl
@[simp] theorem State.onRouter_rsc (f : Router → Router) (s : State) : (s.onRouter f).rsc = s.rsc := rfl
@[simp] theorem State.onRouter_mli (f : Router → Router) (s : State) : (s.onRouter f).mli = s.mli := rfl
@[simp] theorem State.onRouter_sent (f : Router → Router) (s : State) : (s.onRouter f).sent = s.sent := rfl
@[simp] theorem State.onRouter_openCount (f : Router → Router) (s : State) : (s.onRouter f).openCount = s.openCount := rfl
@[simp] theorem State.onRouter_pending (f : Router → Router) (s : State) : (s.onRouter f).pending = s.pending := rfl
@[simp] theorem State.onRouter_onRouter (f g : Router → Router) (s : State) : (s.onRouter f).onRouter g = s.onRouter (fun x => g (f x)) := rfl

/-! ### onSlm -/

@[simp] theorem State.onSlm_powered (f : Slm → Slm) (s : State) : (s.onSlm f).powered = s.powered := rfl
@[simp] theorem State.onSlm_tracker (f : Slm → Slm) (s : State) : (s.onSlm f).tracker = s.tracker := rfl
@[simp] theorem State.onSlm_cpc (f : Slm → Slm) (s : State) : (s.onSlm f).cpc = s.cpc := rfl
@[simp] theorem State.onSlm_table (f : Slm → Slm) (s : State) : (s.onSlm f).table = s.table := rfl
@[simp] theorem State.onSlm_router (f : Slm → Slm) (s : State) : (s.onSlm f).router = s.router := rfl
@[simp] theorem State.onSlm_slm (f : Slm → Slm) (s : State) : (s.onSlm f).slm = f s.slm := rfl
@[simp] theorem State.onSlm_sws (f : Slm → Slm) (s : State) : (s.onSlm f).sws = s.sws := rfl
@[simp] theorem State.onSlm_rge (f : Slm → Slm) (s : State) : (s.onSlm f).rge = s.rge := rfl
@[simp] theorem State.onSlm_rtu (f : Slm → Slm) (s : State) : (s.onSlm f).rtu = s.rtu := rfl
@[simp] theorem State.onSlm_rsc (f : Slm → Slm) (s : State) : (s.onSlm f).rsc = s.rsc := rfl
@[simp] theorem State.onSlm_mli (f : Slm → Slm) (s : State) : (s.onSlm f).mli = s.mli := rfl
@[simp] theorem State.onSlm_sent (f : Slm → Slm) (s : State) : (s.onSlm f).sent = s.sent := rfl
@[simp] theorem State.onSlm_openCount (f : Slm → Slm) (s : State) : (s.onSlm f).openCount = s.openCount := rfl
@[simp] theorem State.onSlm_pending (f : Slm → Slm) (s : State) : (s.onSlm f).pending = s.pending := rfl
@[simp] theorem State.onSlm_onSlm (f g : Slm → Slm) (s : State) : (s.onSlm f).onSlm g = s.onSlm (fun x => g (f x)) := rfl

/-! ### onSws -/

@[simp] theorem State.onSws_powered (f : SwapStore → SwapStore) (s : State) : (s.onSws f).powered = s.powered := rfl
@[simp] theorem State.onSws_tracker (f : SwapStore → SwapStore) (s : State) : (s.onSws f).tracker = s.tracker := rfl
@[simp] theorem State.onSws_cpc (f : SwapStore → SwapStore) (s : State) : (s.onSws f).cpc = s.cpc := rfl
@[simp] theorem State.onSws_table (f : SwapStore → SwapStore) (s : State) : (s.onSws f).table = s.table := rfl
@[simp] theorem State.onSws_router (f : SwapStore → SwapStore) (s : State) : (s.onSws f).router = s.router := rfl
@[simp] theorem State.onSws_slm (f : SwapStore → SwapStore) (s : State) : (s.onSws f).slm = s.slm := rfl
@[simp] theorem State.onSws_sws (f : SwapStore → SwapStore) (s : State) : (s.onSws f).sws = f s.sws := rfl
@[simp] theorem State.onSws_rge (f : SwapStore → SwapStore) (s : State) : (s.onSws f).rge = s.rge := rfl
@[simp] theorem State.onSws_rtu (f : SwapStore → SwapStore) (s : State) : (s.onSws f).rtu = s.rtu := rfl
@[simp] theorem State.onSws_rsc (f : SwapStore → SwapStore) (s : State) : (s.onSws f).rsc = s.rsc := rfl
@[simp] theorem State.onSws_mli (f : SwapStore → SwapStore) (s : State) : (s.onSws f).mli = s.mli := rfl
@[simp] theorem State.onSws_sent (f : SwapStore → SwapStore) (s : State) : (s.onSws f).sent = s.sent := rfl
@[simp] theorem State.onSws_openCount (f : SwapStore → SwapStore) (s : State) : (s.onSws f).openCount = s.openCount := rfl
@[simp] theorem State.onSws_pending (f : SwapStore → SwapStore) (s : State) : (s.onSws f).pending = s.pending := rfl
@[simp] theorem State.onSws_onSws (f g : SwapStore → SwapStore) (s : State) : (s.onSws f).onSws g = s.onSws (fun x => g (f x)) := rfl

/-! ### onRge -/

@[simp] theorem State.onRge_powered (f : Rge → Rge) (s : State) : (s.onRge f).powered = s.powered := rfl
@[simp] theorem State.onRge_tracker (f : Rge → Rge) (s : State) : (s.onRge f).tracker = s.tracker := rfl
@[simp] theorem State.onRge_cpc (f : Rge → Rge) (s : State) : (s.onRge f).cpc = s.cpc := rfl
@[simp] theorem State.onRge_table (f : Rge → Rge) (s : State) : (s.onRge f).table = s.table := rfl
@[simp] theorem State.onRge_router (f : Rge → Rge) (s : State) : (s.onRge f).router = s.router := rfl
@[simp] theorem State.onRge_slm (f : Rge → Rge) (s : State) : (s.onRge f).slm = s.slm := rfl
@[simp] theorem State.onRge_sws (f : Rge → Rge) (s : State) : (s.onRge f).sws = s.sws := rfl
@[simp] theorem State.onRge_rge (f : Rge → Rge) (s : State) : (s.onRge f).rge = f s.rge := rfl
@[simp] theorem State.onRge_rtu (f : Rge → Rge) (s : State) : (s.onRge f).rtu = s.rtu := rfl
@[simp] theorem State.onRge_rsc (f : Rge → Rge) (s : State) : (s.onRge f).rsc = s.rsc := rfl
@[simp] theorem State.onRge_mli (f : Rge → Rge) (s : State) : (s.onRge f).mli = s.mli := rfl
@[simp] theorem State.onRge_sent (f : Rge → Rge) (s : State) : (s.onRge f).sent = s.sent := rfl
@[simp] theorem State.onRge_openCount (f : Rge → Rge) (s : State) : (s.onRge f).openCount = s.openCount := rfl
@[simp] theorem State.onRge_pending (f : Rge → Rge) (s : State) : (s.onRge f).pending = s.pending := rfl
@[simp] theorem State.onRge_onRge (f g : Rge → Rge) (s : State) : (s.onRge f).onRge g = s.onRge (fun x => g (f x)) := rfl

/-! ### onRtu -/

@[simp] theorem State.onRtu_powered (f : Rtu → Rtu) (s : State) : (s.onRtu f).powered = s.powered := rfl
@[simp] theorem State.onRtu_tracker (f : Rtu → Rtu) (s : State) : (s.onRtu f).tracker = s.tracker := rfl
@[simp] theorem State.onRtu_cpc (f : Rtu → Rtu) (s : State) : (s.onRtu f).cpc = s.cpc := rfl
@[simp] theorem State.onRtu_table (f : Rtu → Rtu) (s : State) : (s.onRtu f).table = s.table := rfl
@[simp] theorem State.onRtu_router (f : Rtu → Rtu) (s : State) : (s.onRtu f).router = s.router := rfl
@[simp] theorem State.onRtu_slm (f : Rtu → Rtu) (s : State) : (s.onRtu f).slm = s.slm := rfl
@[simp] theorem State.onRtu_sws (f : Rtu → Rtu) (s : State) : (s.onRtu f).sws = s.sws := rfl
@[simp] theorem State.onRtu_rge (f : Rtu → Rtu) (s : State) : (s.onRtu f).rge = s.rge := rfl
@[simp] theorem State.onRtu_rtu (f : Rtu → Rtu) (s : State) : (s.onRtu f).rtu = f s.rtu := rfl
@[simp] theorem State.onRtu_rsc (f : Rtu → Rtu) (s : State) : (s.onRtu f).rsc = s.rsc := rfl
@[simp] theorem State.onRtu_mli (f : Rtu → Rtu) (s : State) : (s.onRtu f).mli = s.mli := rfl
@[simp] theorem State.onRtu_sent (f : Rtu → Rtu) (s : State) : (s.onRtu f).sent = s.sent := rfl
@[simp] theorem State.onRtu_openCount (f : Rtu → Rtu) (s : State) : (s.onRtu f).openCount = s.openCount := rfl
@[simp] theorem State.onRtu_pending (f : Rtu → Rtu) (s : State) : (s.onRtu f).pending = s.pending := rfl
@[simp] theorem State.onRtu_onRtu (f g : Rtu → Rtu) (s : State) : (s.onRtu f).onRtu g = s.onRtu (fun x => g (f x)) := rfl

/-! ### onRsc -/

@[simp] theorem State.onRsc_powered (f : Rsc → Rsc) (s : State) : (s.onRsc f).powered = s.powered := rfl
@[simp] theorem State.onRsc_tracker (f : Rsc → Rsc) (s : State) : (s.onRsc f).tracker = s.tracker := rfl
@[simp] theorem State.onRsc_cpc (f : Rsc → Rsc) (s : State) : (s.onRsc f).cpc = s.cpc := rfl
@[simp] theorem State.onRsc_table (f : Rsc → Rsc) (s : State) : (s.onRsc f).table = s.table := rfl
@[simp] theorem State.onRsc_router (f : Rsc → Rsc) (s : State) : (s.onRsc f).router = s.router := rfl
@[simp] theorem State.onRsc_slm (f : Rsc → Rsc) (s : State) : (s.onRsc f).slm = s.slm := rfl
@[simp] theorem State.onRsc_sws (f : Rsc → Rsc) (s : State) : (s.onRsc f).sws = s.sws := rfl
@[simp] theorem State.onRsc_rge (f : Rsc → Rsc) (s : State) : (s.onRsc f).rge = s.rge := rfl
@[simp] theorem State.onRsc_rtu (f : Rsc → Rsc) (s : State) : (s.onRsc f).rtu = s.rtu := rfl
@[simp] theorem State.onRsc_rsc (f : Rsc → Rsc) (s : State) : (s.onRsc f).rsc = f s.rsc := rfl
@[simp] theorem State.onRsc_mli (f : Rsc → Rsc) (s : State) : (s.onRsc f).mli = s.mli := rfl
@[simp] theorem State.onRsc_sent (f : Rsc → Rsc) (s : State) : (s.onRsc f).sent = s.sent := rfl
@[simp] theorem State.onRsc_openCount (f : Rsc → Rsc) (s : State) : (s.onRsc f).openCount = s.openCount := rfl
@[simp] theorem State.onRsc_pending (f : Rsc → Rsc) (s : State) : (s.onRsc f).pending = s.pending := rfl
@[simp] theorem State.onRsc_onRsc (f g : Rsc → Rsc) (s : State) : (s.onRsc f).onRsc g = s.onRsc (fun x => g (f x)) := rfl

/-! ### onMli -/

@[simp] theorem State.onMli_powered (f : Mli → Mli) (s : State) : (s.onMli f).powered = s.powered := rfl
@[simp] theorem State.onMli_tracker (f : Mli → Mli) (s : State) : (s.onMli f).tracker = s.tracker := rfl
@[simp] theorem State.onMli_cpc (f : Mli → Mli) (s : State) : (s.onMli f).cpc = s.cpc := rfl
@[simp] theorem State.onMli_table (f : Mli → Mli) (s : State) : (s.onMli f).table = s.table := rfl
@[simp] theorem State.onMli_router (f : Mli → Mli) (s : State) : (s.onMli f).router = s.router := rfl
@[simp] theorem State.onMli_slm (f : Mli → Mli) (s : State) : (s.onMli f).slm = s.slm := rfl
@[simp] theorem State.onMli_sws (f : Mli → Mli) (s : State) : (s.onMli f).sws = s.sws := rfl
@[simp] theorem State.onMli_rge (f : Mli → Mli) (s : State) : (s.onMli f).rge = s.rge := rfl
@[simp] theorem State.onMli_rtu (f : Mli → Mli) (s : State) : (s.onMli f).rtu = s.rtu := rfl
@[simp] theorem State.onMli_rsc (f : Mli → Mli) (s : State) : (s.onMli f).rsc = s.rsc := rfl
@[simp] theorem State.onMli_mli (f : Mli → Mli) (s : State) : (s.onMli f).mli = f s.mli := rfl
@[simp] theorem State.onMli_sent (f : Mli → Mli) (s : State) : (s.onMli f).sent = s.sent := rfl
@[simp] theorem State.onMli_openCount (f : Mli → Mli) (s : State) : (s.onMli f).openCount = s.openCount := rfl
@[simp] theorem State.onMli_pending (f : Mli → Mli) (s : State) : (s.onMli f).pending = s.pending := rfl
@[simp] theorem State.onMli_onMli (f g : Mli → Mli) (s : State) : (s.onMli f).onMli g = s.onMli (fun x => g (f x)) := rfl

/-! ### emit -/

@[simp] theorem State.emit_powered (r : Sent) (s : State) : (s.emit r).powered = s.powered := rfl
@[simp] theorem State.emit_tracker (r : Sent) (s : State) : (s.emit r).tracker = s.tracker := rfl
@[simp] theorem State.emit_cpc (r : Sent) (s : State) : (s.emit r).cpc = s.cpc := rfl
@[simp] theorem State.emit_table (r : Sent) (s : State) : (s.emit r).table = s.table := rfl
@[simp] theorem State.emit_router (r : Sent) (s : State) : (s.emit r).router = s.router := rfl
@[simp] theorem State.emit_slm (r : Sent) (s : State) : (s.emit r).slm = s.slm := rfl
@[simp] theorem State.emit_sws (r : Sent) (s : State) : (s.emit r).sws = s.sws := rfl
@[simp] theorem State.emit_rge (r : Sent) (s : State) : (s.emit r).rge = s.rge := rfl
@[simp] theorem State.emit_rtu (r : Sent) (s : State) : (s.emit r).rtu = s.rtu := rfl
@[simp] theorem State.emit_rsc (r : Sent) (s : State) : (s.emit r).rsc = s.rsc := rfl
@[simp] theorem State.emit_mli (r : Sent) (s : State) : (s.emit r).mli = s.mli := rfl
@[simp] theorem State.emit_sent (r : Sent) (s : State) : (s.emit r).sent = s.sent ++ [r] := rfl
@[simp] theorem State.emit_openCount (r : Sent) (s : State) : (s.emit r).openCount = s.openCount := rfl
@[simp] theorem State.emit_pending (r : Sent) (s : State) : (s.emit r).pending = s.pending := rfl

/-! ### Ports, links and entries as updates of their block -/

@[simp] theorem State.onPort_frame (p : Fin 6) (f : CellPort → CellPort) (s : State) :
    (s.onPort p f).powered = s.powered ∧ (s.onPort p f).tracker = s.tracker ∧ (s.onPort p f).table = s.table ∧
      (s.onPort p f).router = s.router ∧ (s.onPort p f).slm = s.slm ∧ (s.onPort p f).sws = s.sws ∧
      (s.onPort p f).rge = s.rge ∧ (s.onPort p f).rtu = s.rtu ∧ (s.onPort p f).rsc = s.rsc ∧
      (s.onPort p f).mli = s.mli ∧ (s.onPort p f).sent = s.sent ∧ (s.onPort p f).openCount = s.openCount ∧
      (s.onPort p f).pending = s.pending := by
  exact ⟨rfl, rfl, rfl, rfl, rfl, rfl, rfl, rfl, rfl, rfl, rfl, rfl, rfl⟩

@[simp] theorem State.onLink_frame (l : Fin 4) (f : Link → Link) (s : State) :
    (s.onLink l f).powered = s.powered ∧ (s.onLink l f).tracker = s.tracker ∧ (s.onLink l f).cpc = s.cpc ∧
      (s.onLink l f).table = s.table ∧ (s.onLink l f).router = s.router ∧ (s.onLink l f).sws = s.sws ∧
      (s.onLink l f).rge = s.rge ∧ (s.onLink l f).rtu = s.rtu ∧ (s.onLink l f).rsc = s.rsc ∧
      (s.onLink l f).mli = s.mli ∧ (s.onLink l f).sent = s.sent ∧ (s.onLink l f).openCount = s.openCount ∧
      (s.onLink l f).pending = s.pending := by
  exact ⟨rfl, rfl, rfl, rfl, rfl, rfl, rfl, rfl, rfl, rfl, rfl, rfl, rfl⟩

@[simp] theorem State.onEntry_frame (h : Nat) (f : Entry → Entry) (s : State) :
    (s.onEntry h f).powered = s.powered ∧ (s.onEntry h f).tracker = s.tracker ∧ (s.onEntry h f).cpc = s.cpc ∧
      (s.onEntry h f).router = s.router ∧ (s.onEntry h f).slm = s.slm ∧ (s.onEntry h f).sws = s.sws ∧
      (s.onEntry h f).rge = s.rge ∧ (s.onEntry h f).rtu = s.rtu ∧ (s.onEntry h f).rsc = s.rsc ∧
      (s.onEntry h f).mli = s.mli ∧ (s.onEntry h f).sent = s.sent ∧ (s.onEntry h f).openCount = s.openCount ∧
      (s.onEntry h f).pending = s.pending := by
  exact ⟨rfl, rfl, rfl, rfl, rfl, rfl, rfl, rfl, rfl, rfl, rfl, rfl, rfl⟩

@[simp] theorem State.countPort_eq (p : Fin 6) (f : PortCounters → PortCounters) (s : State) :
    s.countPort p f = s.onPort p fun q => { q with counters := f q.counters } := rfl
@[simp] theorem State.countLink_eq (l : Fin 4) (f : LinkCounters → LinkCounters) (s : State) :
    s.countLink l f = s.onLink l fun k => { k with counters := f k.counters } := rfl

/-- A changed port reads as changed, and every other port as before. -/
@[simp] theorem State.port_onPort (p q : Fin 6) (f : CellPort → CellPort) (s : State) :
    (s.onPort p f).port q = if p = q then f (s.port p) else s.port q := by
  simp only [State.port, State.onPort, State.onCpc_cpc]
  by_cases h : p = q
  · subst h; simp
  · have hv : p.val ≠ q.val := fun e => h (Fin.ext e)
    simp [h, hv]

/-- A changed link reads as changed, and every other link as before. -/
@[simp] theorem State.link_onLink (l k : Fin 4) (f : Link → Link) (s : State) :
    (s.onLink l f).link k = if l = k then f (s.link l) else s.link k := by
  simp only [State.link, State.onLink, State.onSlm_slm]
  by_cases h : l = k
  · subst h; simp
  · have hv : l.val ≠ k.val := fun e => h (Fin.ext e)
    simp [h, hv]

/-! ### What blocks read of one another -/

@[simp] theorem State.onTracker_reads (f : Tracker → Tracker) (s : State) :
    (∀ p, (s.onTracker f).port p = s.port p) ∧ (∀ l, (s.onTracker f).link l = s.link l) ∧
      (∀ h, (s.onTracker f).entry? h = s.entry? h) ∧ (s.onTracker f).handles = s.handles ∧
      (∀ t, (s.onTracker f).byToken? t = s.byToken? t) ∧ (s.onTracker f).running = s.running ∧
      (s.onTracker f).now = s.now ∧ (s.onTracker f).activeLink? = s.activeLink? ∧
      (∀ h, (s.onTracker f).partner? h = s.partner? h) :=
  ⟨fun _ => rfl, fun _ => rfl, fun _ => rfl, rfl, fun _ => rfl, rfl, rfl, rfl, fun _ => rfl⟩

@[simp] theorem State.onCpc_reads (f : Cpc → Cpc) (s : State) :
    (∀ l, (s.onCpc f).link l = s.link l) ∧ (∀ h, (s.onCpc f).entry? h = s.entry? h) ∧
      (s.onCpc f).handles = s.handles ∧ (∀ t, (s.onCpc f).byToken? t = s.byToken? t) ∧
      (s.onCpc f).running = s.running ∧ (s.onCpc f).now = s.now ∧ (s.onCpc f).rules? = s.rules? ∧
      (s.onCpc f).activeLink? = s.activeLink? ∧ (∀ h, (s.onCpc f).partner? h = s.partner? h) :=
  ⟨fun _ => rfl, fun _ => rfl, rfl, fun _ => rfl, rfl, rfl, rfl, rfl, fun _ => rfl⟩

@[simp] theorem State.onTable_reads (f : Table → Table) (s : State) :
    (∀ p, (s.onTable f).port p = s.port p) ∧ (∀ l, (s.onTable f).link l = s.link l) ∧
      (s.onTable f).running = s.running ∧ (s.onTable f).now = s.now ∧ (s.onTable f).rules? = s.rules? ∧
      (s.onTable f).activeLink? = s.activeLink? ∧ (∀ h, (s.onTable f).partner? h = s.partner? h) :=
  ⟨fun _ => rfl, fun _ => rfl, rfl, rfl, rfl, rfl, fun _ => rfl⟩

@[simp] theorem State.onRouter_reads (f : Router → Router) (s : State) :
    (∀ p, (s.onRouter f).port p = s.port p) ∧ (∀ l, (s.onRouter f).link l = s.link l) ∧
      (∀ h, (s.onRouter f).entry? h = s.entry? h) ∧ (s.onRouter f).handles = s.handles ∧
      (∀ t, (s.onRouter f).byToken? t = s.byToken? t) ∧ (s.onRouter f).running = s.running ∧
      (s.onRouter f).now = s.now ∧ (s.onRouter f).rules? = s.rules? ∧ (s.onRouter f).activeLink? = s.activeLink? ∧
      (∀ h, (s.onRouter f).partner? h = s.partner? h) :=
  ⟨fun _ => rfl, fun _ => rfl, fun _ => rfl, rfl, fun _ => rfl, rfl, rfl, rfl, rfl, fun _ => rfl⟩

@[simp] theorem State.onSlm_reads (f : Slm → Slm) (s : State) :
    (∀ p, (s.onSlm f).port p = s.port p) ∧ (∀ h, (s.onSlm f).entry? h = s.entry? h) ∧
      (s.onSlm f).handles = s.handles ∧ (∀ t, (s.onSlm f).byToken? t = s.byToken? t) ∧
      (s.onSlm f).running = s.running ∧ (s.onSlm f).now = s.now ∧ (s.onSlm f).rules? = s.rules? ∧
      (∀ h, (s.onSlm f).partner? h = s.partner? h) :=
  ⟨fun _ => rfl, fun _ => rfl, rfl, fun _ => rfl, rfl, rfl, rfl, fun _ => rfl⟩

@[simp] theorem State.onSws_reads (f : SwapStore → SwapStore) (s : State) :
    (∀ p, (s.onSws f).port p = s.port p) ∧ (∀ l, (s.onSws f).link l = s.link l) ∧
      (∀ h, (s.onSws f).entry? h = s.entry? h) ∧ (s.onSws f).handles = s.handles ∧
      (∀ t, (s.onSws f).byToken? t = s.byToken? t) ∧ (s.onSws f).running = s.running ∧ (s.onSws f).now = s.now ∧
      (s.onSws f).rules? = s.rules? ∧ (s.onSws f).activeLink? = s.activeLink? ∧
      (∀ h, (s.onSws f).partner? h = s.partner? h) :=
  ⟨fun _ => rfl, fun _ => rfl, fun _ => rfl, rfl, fun _ => rfl, rfl, rfl, rfl, rfl, fun _ => rfl⟩

@[simp] theorem State.onRge_reads (f : Rge → Rge) (s : State) :
    (∀ p, (s.onRge f).port p = s.port p) ∧ (∀ l, (s.onRge f).link l = s.link l) ∧
      (∀ h, (s.onRge f).entry? h = s.entry? h) ∧ (s.onRge f).handles = s.handles ∧
      (∀ t, (s.onRge f).byToken? t = s.byToken? t) ∧ (s.onRge f).running = s.running ∧ (s.onRge f).now = s.now ∧
      (s.onRge f).rules? = s.rules? ∧ (s.onRge f).activeLink? = s.activeLink? :=
  ⟨fun _ => rfl, fun _ => rfl, fun _ => rfl, rfl, fun _ => rfl, rfl, rfl, rfl, rfl⟩

@[simp] theorem State.onRtu_reads (f : Rtu → Rtu) (s : State) :
    (∀ p, (s.onRtu f).port p = s.port p) ∧ (∀ l, (s.onRtu f).link l = s.link l) ∧
      (∀ h, (s.onRtu f).entry? h = s.entry? h) ∧ (s.onRtu f).handles = s.handles ∧
      (∀ t, (s.onRtu f).byToken? t = s.byToken? t) ∧ (s.onRtu f).running = s.running ∧ (s.onRtu f).now = s.now ∧
      (s.onRtu f).rules? = s.rules? ∧ (s.onRtu f).activeLink? = s.activeLink? ∧
      (∀ h, (s.onRtu f).partner? h = s.partner? h) :=
  ⟨fun _ => rfl, fun _ => rfl, fun _ => rfl, rfl, fun _ => rfl, rfl, rfl, rfl, rfl, fun _ => rfl⟩

@[simp] theorem State.onRsc_reads (f : Rsc → Rsc) (s : State) :
    (∀ p, (s.onRsc f).port p = s.port p) ∧ (∀ l, (s.onRsc f).link l = s.link l) ∧
      (∀ h, (s.onRsc f).entry? h = s.entry? h) ∧ (s.onRsc f).handles = s.handles ∧
      (∀ t, (s.onRsc f).byToken? t = s.byToken? t) ∧ (s.onRsc f).running = s.running ∧ (s.onRsc f).now = s.now ∧
      (s.onRsc f).rules? = s.rules? ∧ (s.onRsc f).activeLink? = s.activeLink? ∧
      (∀ h, (s.onRsc f).partner? h = s.partner? h) :=
  ⟨fun _ => rfl, fun _ => rfl, fun _ => rfl, rfl, fun _ => rfl, rfl, rfl, rfl, rfl, fun _ => rfl⟩

@[simp] theorem State.onMli_reads (f : Mli → Mli) (s : State) :
    (∀ p, (s.onMli f).port p = s.port p) ∧ (∀ l, (s.onMli f).link l = s.link l) ∧
      (∀ h, (s.onMli f).entry? h = s.entry? h) ∧ (s.onMli f).handles = s.handles ∧
      (∀ t, (s.onMli f).byToken? t = s.byToken? t) ∧ (s.onMli f).rules? = s.rules? ∧
      (s.onMli f).activeLink? = s.activeLink? ∧ (∀ h, (s.onMli f).partner? h = s.partner? h) :=
  ⟨fun _ => rfl, fun _ => rfl, fun _ => rfl, rfl, fun _ => rfl, rfl, rfl, fun _ => rfl⟩

@[simp] theorem State.emit_reads (r : Sent) (s : State) :
    (∀ p, (s.emit r).port p = s.port p) ∧ (∀ l, (s.emit r).link l = s.link l) ∧
      (∀ h, (s.emit r).entry? h = s.entry? h) ∧ (s.emit r).handles = s.handles ∧
      (∀ t, (s.emit r).byToken? t = s.byToken? t) ∧ (s.emit r).running = s.running ∧ (s.emit r).now = s.now ∧
      (s.emit r).rules? = s.rules? ∧ (s.emit r).activeLink? = s.activeLink? ∧
      (∀ h, (s.emit r).partner? h = s.partner? h) :=
  ⟨fun _ => rfl, fun _ => rfl, fun _ => rfl, rfl, fun _ => rfl, rfl, rfl, rfl, rfl, fun _ => rfl⟩

@[simp] theorem State.onPort_reads (q : Fin 6) (f : CellPort → CellPort) (s : State) :
    (∀ l, (s.onPort q f).link l = s.link l) ∧ (∀ h, (s.onPort q f).entry? h = s.entry? h) ∧
      (s.onPort q f).handles = s.handles ∧ (∀ t, (s.onPort q f).byToken? t = s.byToken? t) ∧
      (s.onPort q f).running = s.running ∧ (s.onPort q f).now = s.now ∧ (s.onPort q f).rules? = s.rules? ∧
      (s.onPort q f).activeLink? = s.activeLink? ∧ (∀ h, (s.onPort q f).partner? h = s.partner? h) :=
  ⟨fun _ => rfl, fun _ => rfl, rfl, fun _ => rfl, rfl, rfl, rfl, rfl, fun _ => rfl⟩

@[simp] theorem State.onLink_reads (k : Fin 4) (f : Link → Link) (s : State) :
    (∀ p, (s.onLink k f).port p = s.port p) ∧ (∀ h, (s.onLink k f).entry? h = s.entry? h) ∧
      (s.onLink k f).handles = s.handles ∧ (∀ t, (s.onLink k f).byToken? t = s.byToken? t) ∧
      (s.onLink k f).running = s.running ∧ (s.onLink k f).now = s.now ∧ (s.onLink k f).rules? = s.rules? ∧
      (∀ h, (s.onLink k f).partner? h = s.partner? h) :=
  ⟨fun _ => rfl, fun _ => rfl, rfl, fun _ => rfl, rfl, rfl, rfl, fun _ => rfl⟩

@[simp] theorem State.onEntry_reads (k : Nat) (f : Entry → Entry) (s : State) :
    (∀ p, (s.onEntry k f).port p = s.port p) ∧ (∀ l, (s.onEntry k f).link l = s.link l) ∧
      (s.onEntry k f).running = s.running ∧ (s.onEntry k f).now = s.now ∧ (s.onEntry k f).rules? = s.rules? ∧
      (s.onEntry k f).activeLink? = s.activeLink? ∧ (∀ h, (s.onEntry k f).partner? h = s.partner? h) :=
  ⟨fun _ => rfl, fun _ => rfl, rfl, rfl, rfl, rfl, fun _ => rfl⟩

/-! ### Entries by handle -/

theorem lookupKey_alterKey {α : Type} (h k : Nat) (f : α → α) (l : List (Nat × α)) :
    lookupKey k (alterKey h f l) = if h = k then (lookupKey k l).map f else lookupKey k l := by
  induction l with
  | nil => simp [alterKey, lookupKey]
  | cons p rest ih =>
    obtain ⟨a, e⟩ := p
    by_cases hk : h = k
    · subst hk
      by_cases ha : a = h <;> simp_all [alterKey, lookupKey]
    · by_cases ha : a = h
      · subst ha; simp [alterKey, lookupKey, hk]
      · by_cases hb : a = k <;> simp_all [alterKey, lookupKey]

/-- A changed entry reads as changed, and every other entry as before. -/
@[simp] theorem State.entry?_onEntry (h k : Nat) (f : Entry → Entry) (s : State) :
    (s.onEntry h f).entry? k = if h = k then (s.entry? k).map f else s.entry? k := by
  simp [State.entry?, State.onEntry, lookupKey_alterKey]

@[simp] theorem keys_alterKey {α : Type} (h : Nat) (f : α → α) (l : List (Nat × α)) :
    (alterKey h f l).map (·.1) = l.map (·.1) := by
  induction l with
  | nil => rfl
  | cons p rest ih => obtain ⟨a, e⟩ := p; by_cases ha : a = h <;> simp_all [alterKey]

/-- Changing an entry changes no handle. -/
@[simp] theorem State.handles_onEntry (h : Nat) (f : Entry → Entry) (s : State) : (s.onEntry h f).handles = s.handles := by
  simp [State.handles, State.onEntry]

end Sys2Proof.Machine
end

