-- ==== Sys2Proof/Laws/Kept.lean ====
section
/-! SUPPORT. What the shared operations leave alone. `State.kept` gathers the parts of a state that only a few commands
touch; for each shared operation one lemma says that it keeps all of them, so that a proof about a command looks at that
command's own writes alone. -/

namespace Sys2Proof.Machine

/-- The parts of a state that most operations leave alone. `accounts` gives for each live entry its handle, cap, total and
barred flag; `noticesFit` says that the notice queue holds at most 64. -/
structure Kept where
  powered     : Bool
  openCount   : Nat
  pending     : List Instr
  tracker     : Tracker
  device      : DeviceState
  input       : List Instr
  work        : Option HeadWork
  billing     : Billing
  memory      : List Host.Cell
  mapArea     : MapArea
  buffer      : List ChargeRecord
  bufferOn    : Bool
  usedSpares  : List Nat
  accounts    : List (Nat × Nat × Nat × Bool)
  freeHandles : List Nat
  portStates  : List PortState
  noticesFit  : Bool

/-- An entry's handle, cap, total and barred flag. -/
def account (p : Nat × Entry) : Nat × Nat × Nat × Bool := (p.1, p.2.cap, p.2.total, p.2.barred)

def State.kept (s : State) : Kept :=
  { powered := s.powered, openCount := s.openCount, pending := s.pending, tracker := s.tracker, device := s.mli.device,
    input := s.mli.input, work := s.mli.work, billing := s.mli.billing, memory := s.rsc.memory, mapArea := s.rsc.mapArea,
    buffer := s.rsc.buffer, bufferOn := s.rsc.bufferOn, usedSpares := s.rsc.usedSpares,
    accounts := s.table.entries.map account, freeHandles := s.table.freeHandles,
    portStates := allPorts.map fun p => (s.port p).state, noticesFit := (noticeCount s.mli.tx).ble 64 }

/-! ### Updates of one block -/

@[simp] theorem State.onRouter_kept (f : Router → Router) (s : State) : (s.onRouter f).kept = s.kept := rfl
@[simp] theorem State.onSlm_kept (f : Slm → Slm) (s : State) : (s.onSlm f).kept = s.kept := rfl
@[simp] theorem State.onSws_kept (f : SwapStore → SwapStore) (s : State) : (s.onSws f).kept = s.kept := rfl
@[simp] theorem State.onRge_kept (f : Rge → Rge) (s : State) : (s.onRge f).kept = s.kept := rfl
@[simp] theorem State.onRtu_kept (f : Rtu → Rtu) (s : State) : (s.onRtu f).kept = s.kept := rfl
@[simp] theorem State.onLink_kept (l : Fin 4) (f : Link → Link) (s : State) : (s.onLink l f).kept = s.kept := rfl
@[simp] theorem State.emit_kept (r : Sent) (s : State) : (s.emit r).kept = s.kept := rfl

@[simp] theorem State.onRsc_kept (f : Rsc → Rsc) (s : State)
    (h : (f s.rsc).memory = s.rsc.memory ∧ (f s.rsc).mapArea = s.rsc.mapArea ∧ (f s.rsc).buffer = s.rsc.buffer ∧
      (f s.rsc).bufferOn = s.rsc.bufferOn ∧ (f s.rsc).usedSpares = s.rsc.usedSpares) : (s.onRsc f).kept = s.kept := by
  obtain ⟨h1, h2, h3, h4, h5⟩ := h
  simp [State.kept, h1, h2, h3, h4, h5]

@[simp] theorem State.onMli_kept (f : Mli → Mli) (s : State)
    (h : (f s.mli).device = s.mli.device ∧ (f s.mli).input = s.mli.input ∧ (f s.mli).work = s.mli.work ∧
      (f s.mli).billing = s.mli.billing ∧ (noticeCount (f s.mli).tx).ble 64 = (noticeCount s.mli.tx).ble 64) :
    (s.onMli f).kept = s.kept := by
  obtain ⟨h1, h2, h3, h4, h5⟩ := h
  simp [State.kept, h1, h2, h3, h4, h5]

@[simp] theorem State.onPort_kept (p : Fin 6) (f : CellPort → CellPort) (s : State) (h : (f (s.port p)).state = (s.port p).state) :
    (s.onPort p f).kept = s.kept := by
  have hp : ∀ q, (if p = q then f (s.port p) else s.port q).state = (s.port q).state := by
    intro q
    by_cases hq : p = q
    · subst hq; simp [h]
    · simp [hq]
  simp [State.kept, hp]

@[simp] theorem State.countPort_kept (p : Fin 6) (f : PortCounters → PortCounters) (s : State) :
    (s.countPort p f).kept = s.kept := State.onPort_kept p _ s rfl

@[simp] theorem State.onCpc_kept (f : Cpc → Cpc) (s : State) (h : (f s.cpc).ports = s.cpc.ports) : (s.onCpc f).kept = s.kept := by
  simp [State.kept, State.port, h]

@[simp] theorem account_alterKey (h : Nat) (f : Entry → Entry) (l : List (Nat × Entry))
    (hf : ∀ e, (f e).cap = e.cap ∧ (f e).total = e.total ∧ (f e).barred = e.barred) :
    (alterKey h f l).map account = l.map account := by
  induction l with
  | nil => rfl
  | cons p rest ih =>
    obtain ⟨a, e⟩ := p
    by_cases ha : a = h
    · simp [alterKey, ha, account, hf]
    · simpa [alterKey, ha, account] using ih

@[simp] theorem State.onEntry_kept (h : Nat) (f : Entry → Entry) (s : State)
    (hf : ∀ e, (f e).cap = e.cap ∧ (f e).total = e.total ∧ (f e).barred = e.barred) : (s.onEntry h f).kept = s.kept := by
  simp [State.kept, State.onEntry, State.port, hf]

theorem State.eachOf_kept {α : Type} (l : List α) (f : α → State → State) (hf : ∀ a s, (f a s).kept = s.kept) (s : State) :
    (s.eachOf l f).kept = s.kept := by
  unfold State.eachOf
  induction l generalizing s with
  | nil => rfl
  | cons a rest ih => rw [List.foldl_cons, ih, hf]

theorem State.eachEntry_kept (f : Nat → State → State) (hf : ∀ a s, (f a s).kept = s.kept) (s : State) :
    (s.eachEntry f).kept = s.kept := State.eachOf_kept s.handles f hf s

/-! ### Counters -/

@[simp] theorem State.countRge_kept (f : RoamingCounters → RoamingCounters) (s : State) : (s.countRge f).kept = s.kept := rfl
@[simp] theorem State.countRtu_kept (f : RatingCounters → RatingCounters) (s : State) : (s.countRtu f).kept = s.kept := rfl
@[simp] theorem State.countRouter_kept (f : RouterTotals → RouterTotals) (s : State) : (s.countRouter f).kept = s.kept := rfl
@[simp] theorem State.countLink_kept (l : Fin 4) (f : LinkCounters → LinkCounters) (s : State) :
    (s.countLink l f).kept = s.kept := rfl
@[simp] theorem State.countRsc_kept (f : RecordCounters → RecordCounters) (s : State) : (s.countRsc f).kept = s.kept := rfl

/-! ### Notices and records sent -/

theorem noticeCount_replace (n : Notice) (l m : List TxItem) (h : replaceNotice n l = some m) :
    noticeCount m = noticeCount l := by
  induction l generalizing m with
  | nil => simp [replaceNotice] at h
  | cons i rest ih =>
    cases i with
    | notice o =>
      simp only [replaceNotice] at h
      split at h
      · cases h
        rfl
      · simp only [Option.map_eq_some_iff] at h
        obtain ⟨m', hm, rfl⟩ := h
        have := ih m' hm
        simp only [noticeCount, List.countP_cons, TxItem.isNotice] at this ⊢
        omega
    | reply r =>
      simp only [replaceNotice, Option.map_eq_some_iff] at h
      obtain ⟨m', hm, rfl⟩ := h
      have := ih m' hm
      simp only [noticeCount, List.countP_cons, TxItem.isNotice] at this ⊢
      omega

@[simp] theorem State.raise_kept (n : Notice) (s : State) : (s.raise n).kept = s.kept := by
  unfold State.raise
  apply State.onMli_kept
  split
  · rename_i tx h
    simp [noticeCount_replace n _ _ h]
  · split
    · rename_i h
      refine ⟨rfl, rfl, rfl, rfl, ?_⟩
      have h2 : noticeCount (s.mli.tx ++ [TxItem.notice n]) = noticeCount s.mli.tx + 1 := by
        simp [noticeCount, TxItem.isNotice]
      simp only [h2, Limits.notices] at h ⊢
      rw [Nat.ble_eq_true_of_le (by omega), Nat.ble_eq_true_of_le (by omega)]
    · exact ⟨rfl, rfl, rfl, rfl, rfl⟩

@[simp] theorem State.toHead_kept (p : Fin 6) (r : HeadRecord) (s : State) : (s.toHead p r).kept = s.kept := by
  unfold State.toHead; split <;> simp

@[simp] theorem State.sendLevel_kept (h : Nat) (level : ServeLevel) (s : State) : (s.sendLevel h level).kept = s.kept := by
  unfold State.sendLevel
  split
  · rfl
  · split <;> simp

@[simp] theorem State.sendLevelByEntitlement_kept (h : Nat) (s : State) : (s.sendLevelByEntitlement h).kept = s.kept := by
  unfold State.sendLevelByEntitlement
  split <;> simp

@[simp] theorem State.sendHold_kept (p : Fin 6) (s : State) : (s.sendHold p).kept = s.kept := by
  unfold State.sendHold
  simp

@[simp] theorem State.storeFault_kept (r : StoreFault) (slot : Option Nat) (s : State) :
    (s.storeFault r slot).kept = s.kept := State.raise_kept _ s

@[simp] theorem State.linkChanged_kept (l : Fin 4) (a b : LinkState) (c : LinkCause) (s : State) :
    (s.linkChanged l a b c).kept = s.kept := State.raise_kept _ s

/-! ### The record store -/

@[simp] theorem State.checkLow_kept (s : State) : s.checkLow.kept = s.kept := by
  unfold State.checkLow
  dsimp only
  split
  · split
    · rfl
    · simp
  · simp

@[simp] theorem State.beginWrite_kept (s : State) : s.beginWrite.kept = s.kept := by
  unfold State.beginWrite
  split
  · rfl
  · split
    · split
      · rfl
      · simp
    · split
      · rfl
      · dsimp only
        simp

@[simp] theorem State.beginOther_kept (s : State) : s.beginOther.kept = s.kept := by
  unfold State.beginOther
  split
  · simp
  · split
    · simp
    · rfl

@[simp] theorem State.arbitrate_kept (s : State) : s.arbitrate.kept = s.kept := by
  unfold State.arbitrate
  dsimp only
  split
  · rfl
  · split
    · simp
    · split <;> simp

@[simp] theorem State.returnBatch_kept (c : ReturnCause) (s : State) : (s.returnBatch c).kept = s.kept := by
  unfold State.returnBatch
  apply State.onRsc_kept
  dsimp only
  split <;> exact ⟨rfl, rfl, rfl, rfl, rfl⟩

@[simp] theorem State.batchLinkLeft_kept (l : Fin 4) (s : State) : (s.batchLinkLeft l).kept = s.kept := by
  unfold State.batchLinkLeft
  split
  · split <;> simp
  · simp

/-! ### Periods -/

@[simp] theorem State.openPeriod_kept (h : Nat) (s : State) : (s.openPeriod h).kept = s.kept := by
  unfold State.openPeriod
  split
  · rfl
  · split
    · split
      · rfl
      · simp
    · rfl

@[simp] theorem State.closuresLost_kept (n : Nat) (s : State) : (s.closuresLost n).kept = s.kept := by
  unfold State.closuresLost
  simp

@[simp] theorem State.makeRoom_kept (s : State) : s.makeRoom.kept = s.kept := by
  unfold State.makeRoom
  split
  · rfl
  · split <;> simp

@[simp] theorem State.joinWaitList_kept (w : WaitingClosure) (s : State) : (s.joinWaitList w).kept = s.kept := by
  unfold State.joinWaitList
  simp

@[simp] theorem State.closePeriod_kept (r : CloseReason) (h : Nat) (s : State) : (s.closePeriod r h).kept = s.kept := by
  unfold State.closePeriod
  split
  · rfl
  · split
    · rfl
    · split
      · rfl
      · dsimp only
        split
        · simp
        · simp

@[simp] theorem State.feedQueue_kept (s : State) : s.feedQueue.kept = s.kept := by
  unfold State.feedQueue
  split
  · rfl
  · split
    · dsimp only
      split
      · simp
      · split
        · simp
        · simp
    · rfl

@[simp] theorem State.raiseLoss_kept (h a : Nat) (s : State) : (s.raiseLoss h a).kept = s.kept := by
  unfold State.raiseLoss
  split
  · rfl
  · dsimp only
    split
    · simp
    · simp

/-- What the end of a RESET's flush does: nothing, or the closures that wait are lost, which only the work in progress shows
here. -/
theorem State.endFlush_kept (s : State) : s.endFlush.kept = { s.kept with work := s.endFlush.mli.work } := by
  unfold State.endFlush
  split
  · split
    · rw [show ∀ (s : State) (w : Option HeadWork), (s.onMli fun m => { m with work := w }).kept = { s.kept with work := w }
        from fun _ _ => rfl]
      simp [State.onMli]
    · rfl
  · rfl

/-- Choosing the next memory operation leaves these parts alone but for the work in progress, which a stalled RESET notes. -/
theorem State.nextOperation_kept (s : State) :
    s.nextOperation.kept = { s.kept with work := s.checkLow.endFlush.mli.work } := by
  unfold State.nextOperation
  rw [State.arbitrate_kept, State.endFlush_kept, State.checkLow_kept]

/-! ### The swap store and the shore ports -/

@[simp] theorem State.reportRise_kept (s : State) : s.reportRise.kept = s.kept := by
  unfold State.reportRise
  split
  · rw [State.eachOf_kept _ _ (fun p s => by split <;> simp)]
    simp
  · rfl

@[simp] theorem State.reportFall_kept (s : State) : s.reportFall.kept = s.kept := by
  unfold State.reportFall
  split
  · rw [State.eachOf_kept _ _ (fun p s => by
      split
      · simp
      · rfl)]
    simp
  · rfl

@[simp] theorem State.makeAddition_kept (a : Addition) (s : State) : (s.makeAddition a).kept = s.kept := rfl
@[simp] theorem State.popFrame_kept (s : State) : s.popFrame.kept = s.kept := rfl

@[simp] theorem State.withdrawOffer_kept (s : State) : s.withdrawOffer.kept = s.kept := by
  unfold State.withdrawOffer
  split
  · rw [State.eachOf_kept _ _ (fun l s => by simp), State.onSws_kept]
  · rfl

@[simp] theorem State.shedHead_kept (s : State) : s.shedHead.kept = s.kept := by
  unfold State.shedHead
  split <;> simp

@[simp] theorem State.shedFor_kept (len n : Nat) (s : State) : (s.shedFor len n).kept = s.kept := by
  induction n generalizing s with
  | zero => rfl
  | succ n ih => unfold State.shedFor; split <;> simp [ih]

@[simp] theorem State.storeFrame_kept (f : StoredFrame) (s : State) : (s.storeFrame f).kept = s.kept := by
  unfold State.storeFrame
  simp

@[simp] theorem State.shedAll_kept (n : Nat) (s : State) : (s.shedAll n).kept = s.kept := by
  induction n generalizing s with
  | zero => rfl
  | succ n ih => unfold State.shedAll; simp [ih]

@[simp] theorem State.handOffStored_kept (l : Fin 4) (t : Token) (s : State) : (s.handOffStored l t).kept = s.kept := by
  unfold State.handOffStored
  split
  · rfl
  · dsimp only
    split
    · split <;> simp
    · simp

@[simp] theorem State.takeEcho_kept (l : Fin 4) (p : Purpose) (d : Nat) (s : State) : (s.takeEcho l p d).kept = s.kept := by
  unfold State.takeEcho
  simp

@[simp] theorem State.modemTakes_kept (l : Fin 4) (w : Waiting) (s : State) : (s.modemTakes l w).kept = s.kept := by
  unfold State.modemTakes
  split <;> simp

@[simp] theorem State.offer_kept (l : Fin 4) (w : Waiting) (s : State) : (s.offer l w).kept = s.kept := by
  unfold State.offer
  split <;> simp

/-! ### Links -/

@[simp] theorem State.requeue_kept (l : Fin 4) (s : State) : (s.requeue l).kept = s.kept := rfl
@[simp] theorem State.enterState_kept (l : Fin 4) (n : LinkState) (s : State) : (s.enterState l n).kept = s.kept := rfl

@[simp] theorem State.dropWaiting_kept (l : Fin 4) (failed : Bool) (s : State) : (s.dropWaiting l failed).kept = s.kept := by
  unfold State.dropWaiting
  dsimp only
  split
  · split <;> simp
  · simp

@[simp] theorem State.startProbe_kept (l : Fin 4) (c : LinkCause) (s : State) : (s.startProbe l c).kept = s.kept := by
  unfold State.startProbe
  dsimp only
  split <;> simp

@[simp] theorem State.leaveFor_kept (l : Fin 4) (n : LinkState) (c : LinkCause) (q : Bool) (s : State) :
    (s.leaveFor l n c q).kept = s.kept := by
  unfold State.leaveFor
  dsimp only
  split <;> split <;> simp

/-! ### Roaming -/

@[simp] theorem State.sendDereg_kept (h : Nat) (t : Token) (i : Nat) (s : State) : (s.sendDereg h t i).kept = s.kept := by
  unfold State.sendDereg
  split <;> simp

@[simp] theorem State.dropExchange_kept (h : Nat) (s : State) : (s.dropExchange h).kept = s.kept := rfl
@[simp] theorem State.dropRegAsk_kept (h : Nat) (k : Option Nat) (s : State) : (s.dropRegAsk h k).kept = s.kept := rfl

@[simp] theorem State.giveCandidate_kept (h : Nat) (s : State) : (s.giveCandidate h).kept = s.kept := by
  unfold State.giveCandidate
  split
  · rfl
  · split <;> simp

/-- The registration's loss and gain leave the account alone. -/
@[simp] theorem Entry.unregistered_account (e : Entry) :
    e.unregistered.cap = e.cap ∧ e.unregistered.total = e.total ∧ e.unregistered.barred = e.barred := ⟨rfl, rfl, rfl⟩
@[simp] theorem Entry.registered_account (e : Entry) (i now : Nat) :
    (e.registered i now).cap = e.cap ∧ (e.registered i now).total = e.total ∧ (e.registered i now).barred = e.barred :=
  ⟨rfl, rfl, rfl⟩

@[simp] theorem State.lapse_kept (h : Nat) (r : Bool) (s : State) : (s.lapse h r).kept = s.kept := by
  unfold State.lapse
  split
  · rfl
  · simp

@[simp] theorem State.voidRegistration_kept (h : Nat) (s : State) : (s.voidRegistration h).kept = s.kept := by
  unfold State.voidRegistration
  split
  · rfl
  · dsimp only
    repeat' split
    all_goals simp

@[simp] theorem State.beginMove_kept (h : Nat) (c : Nat × Nat) (s : State) : (s.beginMove h c).kept = s.kept := by
  unfold State.beginMove
  simp

@[simp] theorem State.moveCheck_kept (h : Nat) (s : State) : (s.moveCheck h).kept = s.kept := by
  unfold State.moveCheck
  split
  · rfl
  · dsimp only
    repeat' split
    all_goals simp

@[simp] theorem State.askFailed_kept (h : Nat) (s : State) : (s.askFailed h).kept = s.kept := by
  unfold State.askFailed
  split
  · rfl
  · dsimp only
    split <;> simp

@[simp] theorem State.dropUnfit_kept (h : Nat) (s : State) : (s.dropUnfit h).kept = s.kept := by
  unfold State.dropUnfit
  split <;> simp

@[simp] theorem State.sendExchange_kept (l : Fin 4) (h : Nat) (e : Entry) (k : ExchangeKind) (p : Nat) (r : ShoreRecord)
    (s : State) : (s.sendExchange l h e k p r).kept = s.kept := by
  unfold State.sendExchange
  simp

@[simp] theorem State.sendAsk_kept (l : Fin 4) (h : Nat) (s : State) : (s.sendAsk l h).kept = s.kept := by
  unfold State.sendAsk
  split
  · rfl
  · split <;> simp

/-! ### Swaps, selection and isolation -/

@[simp] theorem State.beginSwap_kept (l : Fin 4) (p : Bool) (s : State) : (s.beginSwap l p).kept = s.kept := by
  unfold State.beginSwap
  simp

@[simp] theorem State.workOut_kept (s : State) : s.workOut.kept = s.kept := by
  unfold State.workOut
  repeat' split
  all_goals simp

@[simp] theorem State.beginCutOff_kept (s : State) : s.beginCutOff.kept = s.kept := by
  unfold State.beginCutOff
  dsimp only
  rw [State.eachOf_kept _ _ (fun h s => by simp)]
  simp

@[simp] theorem State.beginIsolation_kept (l : Option (Fin 4)) (c : LossCause) (s : State) :
    (s.beginIsolation l c).kept = s.kept := by
  unfold State.beginIsolation
  dsimp only
  repeat' split
  all_goals simp

@[simp] theorem State.endIsolation_kept (l : Fin 4) (s : State) : (s.endIsolation l).kept = s.kept := by
  unfold State.endIsolation
  split
  · rfl
  · dsimp only
    split
    · rw [State.eachOf_kept _ _ (fun h s => by simp)]; simp
    · simp

@[simp] theorem State.failSwap_kept (lost : Bool) (s : State) : (s.failSwap lost).kept = s.kept := by
  unfold State.failSwap
  simp

@[simp] theorem State.completeSwap_kept (l : Fin 4) (s : State) : (s.completeSwap l).kept = s.kept := by
  unfold State.completeSwap
  dsimp only
  split <;> simp

@[simp] theorem State.activeFails_kept (l : Fin 4) (n : LinkState) (c : LossCause) (s : State) :
    (s.activeFails l n c).kept = s.kept := by
  unfold State.activeFails
  dsimp only
  split <;> split <;> simp

@[simp] theorem State.goAbsent_kept (l : Fin 4) (c : LossCause) (s : State) : (s.goAbsent l c).kept = s.kept := by
  unfold State.goAbsent
  dsimp only
  repeat' split
  all_goals simp

/-! ### Entries -/

@[simp] theorem State.freeBearers_kept (h : Nat) (s : State) : (s.freeBearers h).kept = s.kept := by
  unfold State.freeBearers
  split
  · rfl
  · simp

@[simp] theorem State.rest_kept (h : Nat) (s : State) : (s.rest h).kept = s.kept := by
  unfold State.rest
  split
  · rfl
  · split
    · rfl
    · dsimp only
      simp

@[simp] theorem State.markLost_kept (h : Nat) (s : State) : (s.markLost h).kept = s.kept := by
  unfold State.markLost
  split
  · rfl
  · dsimp only
    split
    · simp
    · simp

@[simp] theorem State.rotatePeriod_kept (h : Nat) (s : State) : (s.rotatePeriod h).kept = s.kept := by
  unfold State.rotatePeriod
  split
  · split
    · rfl
    · split <;> simp
  · rfl

@[simp] theorem State.revive_kept (h : Nat) (s : State) : (s.revive h).kept = s.kept := by
  have ht : ∀ (s : State), (s.onTable fun t => { t with
      counters := { t.counters with revivals := bump32 t.counters.revivals } }).kept = s.kept := fun s => rfl
  unfold State.revive
  split
  · rfl
  · dsimp only
    repeat' split
    all_goals simp [ht, Entry.unregistered]

@[simp] theorem State.reAttach_kept (p : Fin 6) (h : Nat) (e : Entry) (s : State) : (s.reAttach p h e).kept = s.kept := by
  unfold State.reAttach
  dsimp only
  repeat' split
  all_goals simp

/-! ### Rating -/

@[simp] theorem State.closeAll_kept (r : CloseReason) (s : State) : (s.closeAll r).kept = s.kept :=
  State.eachEntry_kept _ (fun h s => State.closePeriod_kept r h s) s

@[simp] theorem State.openAll_kept (s : State) : s.openAll.kept = s.kept :=
  State.eachEntry_kept _ (fun h s => State.openPeriod_kept h s) s

@[simp] theorem State.billAlert_kept (h : Nat) (s : State) : (s.billAlert h).kept = s.kept := by
  unfold State.billAlert
  split
  · rfl
  · dsimp only
    simp

@[simp] theorem State.unbarred_kept (h : Nat) (s : State) : (s.unbarred h).kept = s.kept := by
  unfold State.unbarred
  dsimp only
  simp
  split
  · split <;> simp
  · rfl

end Sys2Proof.Machine
end

