-- ==== Sys2Proof/Laws/Memory.lean ====
section
/-! SUPPORT. Record memory: a read after a write gives what was written, every other byte stays, and every memory
operation keeps the canonical form. -/

namespace Sys2Proof.Machine

theorem risesFrom_mono {lo hi : Nat} (h : lo ≤ hi) {m : List Host.Cell} (hm : Memory.risesFrom hi m = true) :
    Memory.risesFrom lo m = true := by
  cases m with
  | nil => rfl
  | cons c rest =>
    obtain ⟨k, v⟩ := c
    simp only [Memory.risesFrom, Bool.and_eq_true, decide_eq_true_eq] at hm ⊢
    exact ⟨⟨by omega, hm.1.2⟩, hm.2⟩

/-- Below the first cell nothing is listed. -/
theorem readByte_below {lo a : Nat} {m : List Host.Cell} (hm : Memory.risesFrom lo m = true) (h : a < lo) :
    readByte m a = blankByte := by
  induction m generalizing lo with
  | nil => rfl
  | cons c rest ih =>
    obtain ⟨k, v⟩ := c
    simp only [Memory.risesFrom, Bool.and_eq_true, decide_eq_true_eq] at hm
    have hk : k ≠ a := by omega
    simp only [readByte, lookupKey, hk, if_false]
    exact ih hm.2 (by omega)

/-- A write keeps the canonical form, from any address at or below the one written. -/
theorem writeByte_risesFrom {lo a : Nat} (b : Byte) {m : List Host.Cell} (hm : Memory.risesFrom lo m = true) (h : lo ≤ a) :
    Memory.risesFrom lo (writeByte a b m) = true := by
  induction m generalizing lo with
  | nil =>
    by_cases hb : b = blankByte <;> simp [writeByte, hb, Memory.risesFrom, h]
  | cons c rest ih =>
    obtain ⟨k, v⟩ := c
    have hm' := hm
    simp only [Memory.risesFrom, Bool.and_eq_true, decide_eq_true_eq] at hm'
    obtain ⟨⟨hk, hv⟩, hr⟩ := hm'
    unfold writeByte
    split
    · split
      · exact hm
      · rename_i hb
        have hr' : Memory.risesFrom (a + 1) ((k, v) :: rest) = true := by
          simp only [Memory.risesFrom, Bool.and_eq_true, decide_eq_true_eq]
          exact ⟨⟨by omega, hv⟩, hr⟩
        rw [Memory.risesFrom, hr']
        simp [h, hb]
    · split
      · rename_i ha
        split
        · exact risesFrom_mono (by omega) hr
        · rename_i hb
          subst ha
          simp [Memory.risesFrom, h, hb, hr]
      · have := ih (lo := k + 1) hr (by omega)
        simp only [Memory.risesFrom, Bool.and_eq_true, decide_eq_true_eq]
        exact ⟨⟨hk, hv⟩, this⟩

/-- A write keeps the canonical form. -/
theorem writeByte_wf (a : Nat) (b : Byte) {m : List Host.Cell} (hm : Memory.wf m = true) :
    Memory.wf (writeByte a b m) = true := writeByte_risesFrom b hm (Nat.zero_le a)

/-- Writes of several bytes keep the canonical form. -/
theorem writeBytes_wf (a : Nat) (bs : List Byte) {m : List Host.Cell} (hm : Memory.wf m = true) :
    Memory.wf (writeBytes a bs m) = true := by
  induction bs generalizing a m with
  | nil => exact hm
  | cons b bs ih => exact ih (a + 1) (writeByte_wf a b hm)

/-- A read after a write: the byte written at its address, every other byte as before. -/
theorem readByte_writeByte_from {lo a : Nat} (b : Byte) (k : Nat) {m : List Host.Cell}
    (hm : Memory.risesFrom lo m = true) : readByte (writeByte a b m) k = if k = a then b else readByte m k := by
  induction m generalizing lo with
  | nil =>
    by_cases hb : b = blankByte
    · by_cases hk : k = a <;> simp [writeByte, hb, readByte, lookupKey, hk]
    · by_cases hk : k = a
      · simp [writeByte, hb, readByte, lookupKey, hk]
      · have hk' : ¬ a = k := fun h => hk h.symm
        simp [writeByte, hb, readByte, lookupKey, hk, hk']
  | cons c rest ih =>
    obtain ⟨j, v⟩ := c
    have hm' := hm
    simp only [Memory.risesFrom, Bool.and_eq_true, decide_eq_true_eq] at hm'
    obtain ⟨⟨hj, hv⟩, hr⟩ := hm'
    unfold writeByte
    split
    · rename_i haj
      have below : readByte ((j, v) :: rest) a = blankByte :=
        readByte_below (lo := a + 1) (by
          simp only [Memory.risesFrom, Bool.and_eq_true, decide_eq_true_eq]
          exact ⟨⟨by omega, hv⟩, hr⟩) (by omega)
      split
      · rename_i hb
        by_cases hk : k = a
        · rw [if_pos hk, hk, below, hb]
        · rw [if_neg hk]
      · by_cases hk : k = a
        · simp [readByte, lookupKey, hk]
        · have hk' : ¬ a = k := fun h => hk h.symm
          simp [readByte, lookupKey, hk, hk']
    · split
      · rename_i haj
        subst haj
        split
        · rename_i hb
          by_cases hk : k = a
          · rw [if_pos hk, hk, readByte_below hr (by omega), hb]
          · have hk' : ¬ a = k := fun h => hk h.symm
            simp [readByte, lookupKey, hk, hk']
        · by_cases hk : k = a
          · simp [readByte, lookupKey, hk]
          · have hk' : ¬ a = k := fun h => hk h.symm
            simp [readByte, lookupKey, hk, hk']
      · have := ih (lo := j + 1) hr
        by_cases hjk : j = k
        · subst hjk
          rename_i h1 h2
          simp [readByte, lookupKey, show ¬ j = a from fun h => h2 h.symm]
        · simpa [readByte, lookupKey, hjk] using this

/-- A read after a write: the byte written at its address, every other byte as before. -/
theorem readByte_writeByte (a k : Nat) (b : Byte) {m : List Host.Cell} (hm : Memory.wf m = true) :
    readByte (writeByte a b m) k = if k = a then b else readByte m k := readByte_writeByte_from b k hm

/-- A read after a write of several bytes: the byte written at each address of theirs, every other byte as before. -/
theorem readByte_writeBytes (a k : Nat) (bs : List Byte) {m : List Host.Cell} (hm : Memory.wf m = true) :
    readByte (writeBytes a bs m) k = if a ≤ k then bs[k - a]?.getD (readByte m k) else readByte m k := by
  induction bs generalizing a m with
  | nil => simp [writeBytes]
  | cons b bs ih =>
    rw [writeBytes, ih (a + 1) (writeByte_wf a b hm), readByte_writeByte a k b hm]
    by_cases h1 : k = a
    · subst h1; simp
    · by_cases h2 : a + 1 ≤ k
      · have h3 : a ≤ k := by omega
        have h4 : k - a = (k - (a + 1)) + 1 := by omega
        simp [h1, h2, h3, h4]
      · have h3 : ¬ a ≤ k := by omega
        simp [h1, h2, h3]

/-- The bytes just written are read back. -/
theorem readBytes_writeBytes (a : Nat) (bs : List Byte) {m : List Host.Cell} (hm : Memory.wf m = true) :
    readBytes (writeBytes a bs m) a bs.length = bs := by
  suffices h : ∀ (n : Nat) (m : List Host.Cell) (a : Nat), (readBytes m a n).length = n ∧
      ∀ i < n, (readBytes m a n)[i]? = some (readByte m (a + i)) by
    apply List.ext_getElem?
    intro i
    by_cases hi : i < bs.length
    · rw [(h _ _ _).2 i hi, readByte_writeBytes a (a + i) bs hm]
      simp [hi]
    · rw [List.getElem?_eq_none (by rw [(h _ _ _).1]; omega), List.getElem?_eq_none (by omega)]
  intro n
  induction n with
  | zero => intro m a; exact ⟨rfl, by omega⟩
  | succ n ih =>
    intro m a
    refine ⟨by simp [readBytes, (ih m (a + 1)).1], ?_⟩
    intro i hi
    cases i with
    | zero => simp [readBytes]
    | succ i =>
      have := (ih m (a + 1)).2 i (by omega)
      simpa [readBytes, Nat.add_assoc, Nat.add_comm 1 i] using this

/-- A scrambled slot keeps the canonical form, whatever the free values. -/
theorem State.scrambleSlot_wf (slot : Nat) {s : State} (hm : Memory.wf s.rsc.memory = true) :
    Memory.wf (s.scrambleSlot slot).rsc.memory = true := by
  have h : (s.scrambleSlot slot).rsc.memory =
      writeBytes (slotAddress s.rsc.remaps slot) (openBytes s.openCount slotBytes) s.rsc.memory := by
    simp only [State.scrambleSlot]
  rw [h]
  exact writeBytes_wf _ _ hm

/-- A scrambled slot state keeps the canonical form, whatever the free value. -/
theorem State.scrambleState_wf (slot : Nat) {s : State} (hm : Memory.wf s.rsc.memory = true) :
    Memory.wf (s.scrambleState slot).rsc.memory = true := by
  unfold State.scrambleState
  exact writeByte_wf _ _ hm

/-- The dead set gains the slot and no other. -/
theorem mem_joinDead {slot d : Nat} {l : List Nat} : d ∈ joinDead slot l ↔ d = slot ∨ d ∈ l := by
  unfold joinDead
  split
  · rename_i h
    rw [List.contains_iff_mem] at h
    exact ⟨.inr, fun h' => h'.elim (· ▸ h) id⟩
  · simp [or_comm]

/-- The dead set holds no slot twice, so that its length is its size. -/
theorem joinDead_nodup (slot : Nat) {l : List Nat} (hl : l.Nodup) : (joinDead slot l).Nodup := by
  unfold joinDead
  split
  · exact hl
  · rename_i h
    rw [List.contains_iff_mem] at h
    exact List.nodup_append.2 ⟨hl, by simp, by rintro a ha b hb rfl; simp_all⟩

/-- The memory at reset has the canonical form. -/
theorem State.reset_memory_wf : Memory.wf State.reset.rsc.memory = true := rfl

end Sys2Proof.Machine
end

