-- ==== Sys2Proof/Laws/Ops.lean ====
section
/-! SUPPORT. One lemma for each shared operation of Ops.lean: all that it can do. -/

namespace Sys2Proof.Machine

/-! ### Outcomes -/

/-- A command whose effect is `f` answers a next state: `f`'s with power, the same state without. -/
theorem whenPowered_eq (s : State) (f : State → State) :
    whenPowered s f = .next (if s.powered = true then f s else s) := by
  unfold whenPowered done; split <;> rfl

@[simp] theorem whenPowered_on {s : State} (f : State → State) (h : s.powered = true) : whenPowered s f = .next (f s) := by
  simp [whenPowered_eq, h]

@[simp] theorem whenPowered_off {s : State} (f : State → State) (h : s.powered = false) : whenPowered s f = .next s := by
  simp [whenPowered_eq, h]

/-- A request that comes up answers a next state: unpowered nothing happens; into an idle interface it is taken and
carried out; as the head not yet begun it is carried out; behind another it joins the input. -/
theorem takeRequest_cases (c : Instr) (s : State) (f : State → State) :
    (s.powered = false ∧ takeRequest c s f = .next s) ∨
    (s.powered = true ∧ s.mli.work = none ∧ s.mli.input = [] ∧ takeRequest c s f = .next (f (s.joinInput c))) ∨
    (s.powered = true ∧ s.mli.work = none ∧ s.mli.input.head? = some c ∧ takeRequest c s f = .next (f s)) ∨
    (s.powered = true ∧ takeRequest c s f = .next (s.joinInput c)) := by
  cases hp : s.powered with
  | false => exact .inl ⟨rfl, whenPowered_off _ hp⟩
  | true =>
    right
    rw [takeRequest, whenPowered_on _ hp]
    by_cases h1 : (s.mli.work.isNone && s.mli.input.isEmpty) = true
    · left
      simp only [h1, if_true]
      simp only [Bool.and_eq_true, Option.isNone_iff_eq_none, List.isEmpty_iff] at h1
      exact ⟨trivial, h1.1, h1.2, trivial⟩
    · right
      by_cases h2 : (s.mli.work.isNone && s.mli.input.head? == some c) = true
      · left
        simp only [h1, h2, if_true]
        simp only [Bool.and_eq_true, Option.isNone_iff_eq_none, beq_iff_eq] at h2
        exact ⟨trivial, h2.1, h2.2, by simp⟩
      · right
        simp [h1, h2]

/-- A request into an idle, powered interface is taken and carried out. -/
theorem takeRequest_free {c : Instr} {s : State} (f : State → State) (hp : s.powered = true) (hw : s.mli.work = none)
    (hi : s.mli.input = []) : takeRequest c s f = .next (f (s.joinInput c)) := by
  simp [takeRequest, hp, hw, hi]

/-- A request that joins an empty input is its only one, and is counted as taken. -/
theorem State.joinInput_empty {s : State} (c : Instr) (h : s.mli.input = []) :
    s.joinInput c = s.onMli fun m => { m with
      input := [c], counters := { m.counters with taken := bump32 m.counters.taken } } := by
  simp [State.joinInput, State.onMli, h, Limits.input]

/-- The input never grows beyond 4, and a request that finds it full is an overrun. -/
theorem State.joinInput_length (c : Instr) (s : State) (h : s.mli.input.length ≤ 4) :
    (s.joinInput c).mli.input.length ≤ 4 := by
  simp only [State.joinInput, State.onMli_mli, Limits.input]
  by_cases hl : s.mli.input.length < 4
  · simp only [hl, if_true, List.length_append, List.length_cons, List.length_nil]; omega
  · simpa only [hl, if_false] using h

/-! ### The checks of a request -/

/-- A request passes the checks of R177 to its own rule, or is refused as MALFORMED or NOT-READY. -/
theorem checkedClamped_cases {α : Type} (kind : Byte) (r : Request α) (query : Bool) (cl wf : α → Bool)
    (own : α → State → State) (s : State) :
    checkedClamped kind r query cl wf own s = s.refuseClamped kind r.tag (r.body.any cl) .malformed ∨
    (s.rsc.scanEnded = false ∧ query = false ∧
      checkedClamped kind r query cl wf own s = s.refuseClamped kind r.tag (r.body.any cl) .notReady) ∨
    ∃ b, r.body = some b ∧ wf b = true ∧ (s.rsc.scanEnded = true ∨ query = true) ∧
      checkedClamped kind r query cl wf own s = own b s := by
  unfold checkedClamped
  cases hb : r.body with
  | none => exact .inl rfl
  | some b =>
    by_cases hw : wf b = true
    · by_cases hq : (!s.rsc.scanEnded && !query) = true
      · right; left
        simp only [hw, hq]
        simp only [Bool.and_eq_true, Bool.not_eq_true'] at hq
        exact ⟨hq.1, hq.2, rfl⟩
      · right; right
        refine ⟨b, rfl, hw, ?_, ?_⟩
        · revert hq; cases s.rsc.scanEnded <;> cases query <;> simp
        · simp [hw, hq]
    · exact .inl (by simp [hw])

/-- A body that passes the checks is taken to the request's own rule. -/
theorem checkedClamped_ready {α : Type} {kind : Byte} {r : Request α} {query : Bool} {cl wf : α → Bool}
    {own : α → State → State} {s : State} {b : α} (hb : r.body = some b) (hw : wf b = true) (hs : s.rsc.scanEnded = true) :
    checkedClamped kind r query cl wf own s = own b s := by
  simp [checkedClamped, hb, hw, hs]

/-- `checkedClamped_cases` where nothing is clamped before these checks. -/
theorem checked_cases {α : Type} (kind : Byte) (r : Request α) (query : Bool) (wf : α → Bool) (own : α → State → State)
    (s : State) :
    checked kind r query wf own s = s.refuse kind r.tag .malformed ∨
    (s.rsc.scanEnded = false ∧ query = false ∧ checked kind r query wf own s = s.refuse kind r.tag .notReady) ∨
    ∃ b, r.body = some b ∧ wf b = true ∧ (s.rsc.scanEnded = true ∨ query = true) ∧ checked kind r query wf own s = own b s := by
  have none_clamped : r.body.any (fun _ => false) = false := by cases r.body <;> rfl
  have h := checkedClamped_cases kind r query (fun _ => false) wf own s
  rwa [none_clamped] at h

/-- A laid-out, well-formed request is taken to its own rule once the scan has ended. -/
theorem checked_ready {α : Type} {kind : Byte} {r : Request α} {query : Bool} {wf : α → Bool} {own : α → State → State}
    {s : State} {b : α} (hb : r.body = some b) (hw : wf b = true) (hs : s.rsc.scanEnded = true) :
    checked kind r query wf own s = own b s := by
  simp [checked, checkedClamped, hb, hw, hs]

/-- A query is taken while the scan runs. -/
theorem checked_query {α : Type} {kind : Byte} {r : Request α} {wf : α → Bool} {own : α → State → State} {s : State} {b : α}
    (hb : r.body = some b) (hw : wf b = true) : checked kind r true wf own s = own b s := by
  simp [checked, checkedClamped, hb, hw]

/-! ### Replies -/

/-- Completing the head request touches the interface alone. -/
theorem State.complete_frame (kind tag : Byte) (reason : Option Reason) (clamped : Bool) (fields : List Byte)
    (s : State) : s.complete kind tag reason clamped fields =
      { s with mli := (s.complete kind tag reason clamped fields).mli } := rfl

/-- What completing the head request does to the interface: its reply joins what is ready, carrying and clearing the
overflow indication, and the request leaves the input. -/
theorem State.complete_mli (kind tag : Byte) (reason : Option Reason) (clamped : Bool) (fields : List Byte) (s : State) :
    (s.complete kind tag reason clamped fields).mli.tx =
      s.mli.tx ++ [.reply { tag := tag, body := replyHeader kind reason s.mli.overflow clamped ++ fields }] ∧
    (s.complete kind tag reason clamped fields).mli.overflow = false ∧
    (s.complete kind tag reason clamped fields).mli.input = s.mli.input.tail ∧
    (s.complete kind tag reason clamped fields).mli.work = none := ⟨rfl, rfl, rfl, rfl⟩

/-! ### The clocks -/

/-- The passing of time touches the interface's clocks and the pacer's bucket alone. -/
theorem State.pass_frame (n : Nat) (s : State) :
    s.pass n = { s with
      mli := { s.mli with
        clock := (s.pass n).mli.clock, shipTime := (s.pass n).mli.shipTime, shipPhase := (s.pass n).mli.shipPhase,
        gapLeft := (s.pass n).mli.gapLeft },
      rge := { s.rge with bucket := (s.pass n).rge.bucket } } := rfl

/-- An expiry before its moment leaves the state as it is; at or after it, the timer acts on that state. -/
theorem State.atExpiry_cases (t : Nat) (act : State → State) (s : State) :
    (s.mli.clock < t ∧ s.atExpiry t act = s) ∨ (t ≤ s.mli.clock ∧ s.atExpiry t act = act s) := by
  unfold State.atExpiry State.now
  split
  · exact .inl ⟨by assumption, rfl⟩
  · exact .inr ⟨by omega, rfl⟩

/-- The bucket never holds more than its depth after time has passed (R125). -/
theorem State.pass_bucket (n : Nat) (s : State) : (s.pass n).rge.bucket ≤ s.rge.pacerRate * 1000 := by
  simp [State.pass]

/-! ### Notices and records sent -/

/-- A notice touches the interface alone: its queue, the overflow indication and two counters. -/
theorem State.raise_frame (n : Notice) (s : State) :
    s.raise n = { s with mli := { s.mli with
      tx := (s.raise n).mli.tx, overflow := (s.raise n).mli.overflow, counters := (s.raise n).mli.counters } } := by
  simp only [State.raise, State.onMli]
  split
  · rfl
  · split <;> rfl

/-- A record to a head is sent, or not when the port is DOWN; nothing else changes. -/
theorem State.toHead_cases (p : Fin 6) (r : HeadRecord) (s : State) :
    ((s.port p).listening = true ∧ s.toHead p r = s.emit (.toHead p r)) ∨
    ((s.port p).listening = false ∧ s.toHead p r = s) := by
  unfold State.toHead
  cases h : (s.port p).listening <;> simp

/-- What is sent for each of a list goes out in the list's order, and nothing else changes. -/
theorem State.eachOf_emit {α : Type} (f : α → Sent) (l : List α) (s : State) :
    s.eachOf l (fun a s => s.emit (f a)) = { s with sent := s.sent ++ l.map f } := by
  unfold State.eachOf
  induction l generalizing s with
  | nil => simp
  | cons a l ih => rw [List.foldl_cons, ih]; simp [State.emit]

/-- The carriers of all cell ports are withheld or restored in port order, and nothing else changes. -/
theorem State.cellCarriers_eq (given : Bool) (s : State) :
    s.cellCarriers given = { s with sent := s.sent ++ allPorts.map (.cellCarrier · given) } :=
  State.eachOf_emit _ _ _

/-! ### Lists by key -/

/-- What is put under a key is found there, and every other key as before, in a list of rising keys. -/
theorem lookupKey_putKey {α : Type} (k j : Nat) (v : α) (l : List (Nat × α)) (hl : (l.map (·.1)).Pairwise (· < ·)) :
    lookupKey j (putKey k v l) = if j = k then some v else lookupKey j l := by
  induction l with
  | nil =>
    by_cases h : j = k
    · simp [putKey, lookupKey, h]
    · have h' : ¬ k = j := fun e => h e.symm
      simp [putKey, lookupKey, h, h']
  | cons p rest ih =>
    obtain ⟨a, e⟩ := p
    simp only [List.map_cons, List.pairwise_cons] at hl
    unfold putKey
    split
    · by_cases h : j = k
      · simp [lookupKey, h]
      · have h' : ¬ k = j := fun e => h e.symm
        simp [lookupKey, h, h']
    · split
      · rename_i ha
        subst ha
        by_cases h : j = a
        · simp [lookupKey, h]
        · have h' : ¬ a = j := fun e => h e.symm
          simp [lookupKey, h, h']
      · rename_i h1 h2
        by_cases h : a = j
        · subst h; simp [lookupKey, h2]
        · simp [lookupKey, h, ih hl.2]

/-- An erased key is found no more, and every other key as before. -/
theorem lookupKey_eraseKey {α : Type} (k j : Nat) (l : List (Nat × α)) :
    lookupKey j (eraseKey k l) = if j = k then none else lookupKey j l := by
  induction l with
  | nil => simp [eraseKey, lookupKey]
  | cons p rest ih =>
    obtain ⟨a, e⟩ := p
    by_cases ha : a = k
    · subst ha
      have he : eraseKey a ((a, e) :: rest) = eraseKey a rest := by simp [eraseKey]
      rw [he, ih]
      by_cases h : j = a
      · simp [h]
      · have h' : ¬ a = j := fun e => h e.symm
        simp [lookupKey, h, h']
    · have he : eraseKey k ((a, e) :: rest) = (a, e) :: eraseKey k rest := by simp [eraseKey, ha]
      rw [he]
      by_cases h : a = j
      · subst h; simp [lookupKey, ha]
      · simp [lookupKey, h, ih]

end Sys2Proof.Machine
end

