-- ==== Sys2Proof/Laws/Replies.lean ====
section
/-! SUPPORT. What a request answered at once leaves: the states that the statements name, `State.replied` and
`State.turnedAwayClamped`, are what the shared operations of Ops.lean make of an idle interface. -/

namespace Sys2Proof.Machine

/-- A refusal completes the request with its reason and nothing else. -/
theorem State.refuse_eq (kind tag : Byte) (r : Reason) (s : State) :
    s.refuse kind tag r = s.complete kind tag (some r) false [] := rfl

theorem State.turnedAway_eq (kind tag : Byte) (r : Reason) (fields : List Byte) (s : State) :
    s.turnedAway kind tag r fields = s.turnedAwayClamped kind tag false r fields := rfl

/-- A request taken into an idle interface and answered OK leaves `State.replied`. -/
theorem State.taken_ok {c : Instr} {s : State} (kind tag : Byte) (clamped : Bool) (fields : List Byte)
    (hw : s.mli.work = none) (hi : s.mli.input = []) :
    (s.joinInput c).ok kind tag clamped fields = s.replied kind tag clamped fields := by
  rw [State.joinInput_empty c hi]
  obtain ⟨_, _, _, _, _, _, _, _, _, _, m, _, _, _⟩ := s
  obtain ⟨_, _, _, _, _, _, _, _, _, _, _, _, _, _⟩ := m
  simp only at hw hi
  subst hw hi
  rfl

/-- A request taken into an idle interface and refused leaves `State.turnedAwayClamped`. -/
theorem State.taken_refused {c : Instr} {s : State} (kind tag : Byte) (clamped : Bool) (r : Reason) (fields : List Byte)
    (hw : s.mli.work = none) (hi : s.mli.input = []) :
    (s.joinInput c).complete kind tag (some r) clamped fields = s.turnedAwayClamped kind tag clamped r fields := by
  rw [State.joinInput_empty c hi]
  obtain ⟨_, _, _, _, _, _, _, _, _, _, m, _, _, _⟩ := s
  obtain ⟨_, _, _, _, _, _, _, _, _, _, _, _, _, _⟩ := m
  simp only at hw hi
  subst hw hi
  rfl

end Sys2Proof.Machine
end

