-- ==== Sys2Proof/Tests/Slice0.lean ====
section
/-! SUPPORT. The model's own tests: a small ship at sea, the well-formedness smoke tests, one or two small theorems per
command on values that the manual gives or that follow from it by hand, and for each statement a state that meets its
hypotheses. -/

namespace Sys2Proof.Tests

open Sys2Proof Sys2Proof.Machine

/-! ## A small ship -/

/-- Zone rules with two preferred partners and the link order COASTAL, SATELLITE. -/
def water (jurisdiction : Nat) (policy : Policy) (cap : Nat) (berth : Bool) (cls : Nat) : ZoneRules :=
  ⟨jurisdiction, policy, cap, berth, cls, [1, 2], [.coastal, .satellite]⟩

def quay : ZoneRules := water 0 .quiet 1 true 0
def sea : ZoneRules := water 0 .full 1 false 0
def strait : ZoneRules := water 1 .reduced 3 false 1

/-- A route of 10,000 with a berth zone, a FULL zone from 1,000 and a REDUCED zone from 5,000; the verdict is the FULL zone. -/
def course : Tracker :=
  { Tracker.initial with
    routeLength := 10000, zones := [⟨0, quay⟩, ⟨1000, sea⟩, ⟨5000, strait⟩], verdict := some ⟨1, sea⟩,
    lastFix := some (.good, 15000), lastPosition := some 1500, fixExpiry := some 25000 }

def homeA : HomeCode := ⟨12345, false⟩
def homeB : HomeCode := ⟨123456, true⟩

/-- Two partners that serve jurisdiction 0 and home code 12345; the first has a markup of 175 permille. -/
def partners : List Partner :=
  [⟨1, ⟨20001, false⟩, 1, 60, 175, [0, 0, 0, 0, 0, 0, 0, 0], [homeA]⟩,
   ⟨2, ⟨20002, false⟩, 3, 60, 0, [0, 0, 0, 0, 0, 0, 0, 0], [homeA]⟩]

def plan : TariffPlan := ⟨102400, 2500, 1000, 50⟩

/-- A SERVED passenger on port 2 with a SHORE bearer in slot 0 and an ONBOARD bearer in slot 1. -/
def alice : Entry :=
  { attach := 0, token := 1, home := homeA, cls := .passenger, createdAt := 0, retention := none, port := 2,
    portLost := none, reg := .served, serving := some 1, candidate := none, regTime := some 10, balance := 0,
    nextDue := some 19000, paused := none, bearers := [newBearer 0 .shore 0, newBearer 1 .onboard 0],
    period := some {
      startTime := 5, partner := 1, partnerCode := ⟨20001, false⟩, jurisdiction := 0, zone := 1, tariffClass := 0, plan := 0,
      rate1 := 2938, rate2 := 1175, increment := 102400, threshold := 50, up := 0, down := 0, inc1 := 0, inc2 := 0,
      charge := 0, clamped := false, saturated := false, storeLoss := 0, ageExpiry := 900000 },
    closing := false, dayCount := 0, total := 0, cap := 0, alertSent := false, barred := false, storeLoss := 0 }

/-- A REGISTERING passenger on port 3 whose candidate is partner 2, at position 2. -/
def bob : Entry :=
  { alice with
    attach := 1, token := 2, port := 3, reg := .registering, serving := none, candidate := some (2, 2), regTime := none,
    nextDue := none, bearers := [], period := none }

def upLink : Link :=
  { Link.initial true true with
    type := some .coastal, enabled := true, costRank := 3, rttLimit := some 200, state := .active, longOwed := false,
    nextEcho := some 20000, keepAnswered := some true }

def spareLink : Link :=
  { upLink with type := some .satellite, rttLimit := some 900, state := .ready, nextEcho := none, reprobeAt := some 60000 }

def cell (state : PortState) : CellPort := { CellPort.initial with state := state, headCapacity := 300 }

/-- The ship at sea, RUNNING: ports 2 and 3 RADIATING, link 1 ACTIVE, link 0 READY. -/
def demo : State :=
  { State.reset with
    tracker := course,
    cpc := { Cpc.initial with ports := #v[cell .down, cell .down, cell .radiating, cell .radiating, cell .down, cell .down] },
    table := { Table.initial with entries := [(0, alice), (1, bob)], freeHandles := [2, 3], attachCounter := 2 },
    slm := Slm.initial #v[spareLink, upLink, Link.initial false true, Link.initial false true],
    rge := { Rge.initial with partners := partners },
    rtu := { Rtu.initial with active := [(0, plan)], activeExists := true },
    rsc := { Rsc.atPowerOn [] ⟨[], []⟩ with scanEnded := true, bufferOn := true },
    mli := { Mli.initial true with device := .running, clock := 20000, shipTime := 100 } }

/-- The same ship before START. -/
def moored : State := demo.onMli fun m => { m with device := .unconfigured }

/-- The state after a command. -/
def after (c : Instr) (s : State) : State :=
  match exec c s with
  | .next t => t
  | _ => s

/-- A request of tag 7. -/
def rq {α : Type} (a : α) : Request α := ⟨7, some a⟩

/-- The body of the reply that was made ready last. -/
def lastReply (s : State) : List Byte :=
  match s.mli.tx.getLast? with
  | some (.reply r) => r.body
  | _ => []

/-! ## Well-formedness: each check refuses a command that cannot be written down -/

theorem test_wf_start : (Instr.fix (rq ⟨16777216, .good⟩)).wellFormed = false := by decide
theorem test_wf_time : (Instr.setTime (rq 4294967296)).wellFormed = false := by decide
theorem test_wf_zone : (Instr.loadZones (rq ⟨10000, 0, 10, 30, 20, [⟨0, { quay with prefs := [1, 2, 3, 4, 5] }⟩]⟩)).wellFormed
    = false := by decide
theorem test_wf_zones : (Instr.loadZones (rq ⟨16777216, 0, 10, 30, 20, [⟨0, quay⟩]⟩)).wellFormed = false := by decide
theorem test_wf_part_settings : (Instr.loadPartnersPart (rq ⟨1, [], some (20, 5000)⟩)).wellFormed = false := by decide
theorem test_wf_partner_plans : (Instr.loadPartnersLast (rq ⟨1, [⟨1, homeA, 1, 60, 0, [0], [homeA]⟩], none⟩)).wellFormed
    = false := by decide
theorem test_wf_cell : (Instr.configureLinkCell (rq ⟨0, 65536, 60⟩)).wellFormed = false := by decide
theorem test_wf_shore : (Instr.configureLinkShore (rq ⟨0, .coastal, 256, none, 30, 60, true⟩)).wellFormed = false := by decide
theorem test_wf_pin : (Instr.pinLink (rq ⟨some 256, 10, 3000, 2000, 5000⟩)).wellFormed = false := by decide
theorem test_wf_plan : (Instr.loadTariffPlan (rq ⟨0, some ⟨16777216, 0, 0, 0⟩⟩)).wellFormed = false := by decide
theorem test_wf_billing : (Instr.setBilling (rq ⟨0, 80, 900, [⟨1048576, true⟩]⟩)).wellFormed = false := by decide
theorem test_wf_cap : (Instr.setCap (rq ⟨⟨65536, 1⟩, 0⟩)).wellFormed = false := by decide
theorem test_wf_class : (Instr.setClass (rq ⟨⟨65536, 1⟩, .exempt⟩)).wellFormed = false := by decide
theorem test_wf_evict : (Instr.evict (rq ⟨65536, 1⟩)).wellFormed = false := by decide
theorem test_wf_query : (Instr.queryLinkCell (rq 256)).wellFormed = false := by decide
theorem test_wf_subscriber : (Instr.querySubscriberSingle (rq (.byHandle 65536))).wellFormed = false := by decide
theorem test_wf_delivery : (Instr.setDelivery (rq ⟨.shore, 256⟩)).wellFormed = false := by decide
theorem test_wf_confirm : (Instr.confirmExport (rq 65536)).wellFormed = false := by decide
theorem test_wf_kind : (Instr.unknownKindRequest 0x19 0).wellFormed = false := by decide
theorem test_wf_scan : (Instr.powerOnScanEnd true [32768]).wellFormed = false := by decide
theorem test_wf_handle : (Instr.retentionExpiry 2048).wellFormed = false := by decide
theorem test_wf_hello : (Instr.headHello 0 65536).wellFormed = false := by decide
theorem test_wf_ask : (Instr.attachAsk 0 1 12345 256).wellFormed = false := by decide
theorem test_wf_slot : (Instr.bearerOpen 0 1 256 none).wellFormed = false := by decide
theorem test_wf_identity : (Instr.upFrame 0 8192 []).wellFormed = false := by decide
theorem test_wf_bytes : (Instr.meteredAddition 0 0 .uplink 1537).wellFormed = false := by decide
theorem test_wf_echo : (Instr.echoBack 0 256 0 .probe).wellFormed = false := by decide
theorem test_wf_window : (Instr.echoWindowEnd 0 65536).wellFormed = false := by decide
theorem test_wf_move : (Instr.moveAck 0 65536).wellFormed = false := by decide
theorem test_wf_answer : (Instr.regOk 0 65536 1 0).wellFormed = false := by decide
theorem test_wf_batch : (Instr.settleAck 0 65536).wellFormed = false := by decide
theorem test_wf_fix_ok : (Instr.fix (rq ⟨16777215, .good⟩)).wellFormed = true := by decide

/-! ## Requests written out byte by byte from R174 and R185 -/

/-- FIX, kind 0x04: the distance 1,500 in 3 bytes, least significant first, and DEGRADED, the second quality. -/
theorem test_decode_fix : Decode.request 0x04 7 [0xDC, 0x05, 0x00, 0x01] = .fix (rq ⟨1500, .degraded⟩) := by decide

/-- LOAD-ZONES, kind 0x07, one berth zone of 17 bytes with partners 1 and 2 and COASTAL before SATELLITE. -/
theorem test_decode_load_zones : Decode.request 0x07 7
    [0x10, 0x27, 0x00, 0x64, 0x00, 0x0A, 0x1E, 0x00, 0x14, 0x01,
     0x00, 0x00, 0x00, 0x00, 0x00, 0x01, 0x01, 0x00, 0x02, 0x01, 0x02, 0xFF, 0xFF, 0x02, 0x01, 0x00, 0xFF]
    = .loadZones (rq ⟨10000, 100, 10, 30, 20, [⟨0, quay⟩]⟩) := by decide

/-- LOAD-TARIFF-PLAN, kind 0x0B: slot 3, defined, increment 102,400, rates 2,500 and 1,000, threshold 50. -/
theorem test_decode_tariff : Decode.request 0x0B 7
    [0x03, 0x01, 0x00, 0x90, 0x01, 0xC4, 0x09, 0x00, 0xE8, 0x03, 0x00, 0x32, 0x00]
    = .loadTariffPlan (rq ⟨3, some plan⟩) := by decide

/-- A body that is too short is kept as a request without a body, which R177 refuses as MALFORMED. -/
theorem test_decode_short : Decode.request 0x04 7 [0xDC, 0x05, 0x00] = .fix ⟨7, none⟩ := by decide

/-- A kind that the catalogue lacks. -/
theorem test_decode_unknown : Decode.request 0x1A 7 [] = .unknownKindRequest 0x1A 7 := by decide

/-- The CRC of "123456789" by the polynomial 0x1021 from 0xFFFF is 0x29B1. -/
theorem test_crc : crc16 [0x31, 0x32, 0x33, 0x34, 0x35, 0x36, 0x37, 0x38, 0x39] = 0x29B1 := by decide +kernel

/-- No table word spells a command. -/
theorem test_table_word : decodeTableWord 8 0x04 = none := by decide +kernel

/-- A six-digit code sets bit 20 of its 3 bytes (R185): 123,456 is 0x01E240. -/
theorem test_code_bytes : homeB.bytes = [0x40, 0xE2, 0x11] := by decide

/-! ## The tracker -/

theorem test_fix_stricter_at_once : (after (.fix (rq ⟨5000, .degraded⟩)) demo).tracker.verdict = some ⟨2, strait⟩ := by decide
theorem test_fix_laxer_needs_margin :
    (after (.fix (rq ⟨4901, .good⟩)) (demo.onTracker fun t => { t with verdict := some ⟨2, strait⟩ })).tracker.verdict
      = some ⟨2, strait⟩ := by decide
theorem test_fix_laxer_at_margin :
    (after (.fix (rq ⟨4800, .good⟩)) (demo.onTracker fun t => { t with verdict := some ⟨2, strait⟩, hysteresis := 200 })).tracker.verdict
      = some ⟨1, sea⟩ := by decide
theorem test_fix_into_berth_rests :
    ((after (.fix (rq ⟨500, .good⟩)) demo).entry? 0).map (fun e => (e.reg, e.retention, e.bearers)) =
      some (.resting, some 1220000, []) := by decide
theorem test_fix_timer_freezes :
    (after .fixTimerExpiry (demo.onMli fun m => { m with clock := 25000 })).tracker.frozen = true := by decide
theorem test_freeze : (after (.freezeZone (rq ())) demo).tracker.forcedFreeze = true := by decide
theorem test_thaw_begins_hold :
    (after (.thawZone (rq ())) (demo.onTracker fun t => { t with forcedFreeze := true })).tracker.holdExpiry = some 50000 := by decide
theorem test_hold_end_relaxes :
    (after .holdExpiry (demo.onTracker fun t => { t with verdict := some ⟨2, strait⟩, holdExpiry := some 20000 })).tracker.verdict
      = some ⟨1, sea⟩ := by decide
theorem test_load_zones :
    (after (.loadZones (rq ⟨8000, 100, 10, 30, 20, [⟨0, quay⟩]⟩)) moored).tracker.routeLength = 8000 := by decide
theorem test_load_zones_at_sea :
    lastReply (after (.loadZones (rq ⟨8000, 100, 10, 30, 20, [⟨0, quay⟩]⟩)) demo)
      = replyHeader Kind.loadZones (some .notAtBerth) false false := by decide

/-- A hold time of 400 s is held to 300 before the berth check, and the refusal says so (R3, R177). -/
theorem test_load_zones_clamped :
    lastReply (after (.loadZones (rq ⟨8000, 100, 10, 400, 20, [⟨0, quay⟩]⟩)) demo)
      = replyHeader Kind.loadZones (some .notAtBerth) false true := by decide

/-! ## Cell ports and the table -/

theorem test_head_hello : (after (.headHello 0 200) demo).sent = [.toHead 0 (.radiate 8)] := by decide
theorem test_head_hello_malformed : (after (.headHello 0 1025) demo).sent = [] := by decide
theorem test_attach_ask : ((after (.attachAsk 3 9 12345 5) demo).port 3).asks = [⟨9, homeA⟩] := by decide
theorem test_decide_admits :
    (after .decideAttachAsk (after (.attachAsk 3 9 12345 5) demo)).sent = [.toHead 3 (.admitted 9 2)] := by decide
theorem test_decide_declines :
    (after .decideAttachAsk (after (.attachAsk 3 9 12345 5) (demo.onPort 3 fun k => { k with limit := 1 }))).sent
      = [.toHead 3 (.decline 9 .portFull 0)] := by decide
theorem test_depart : (after (.depart 2 1) demo).table.freeHandles = [2, 3, 0] := by decide
theorem test_evict : (after (.evict (rq ⟨1, 2⟩)) demo).handles = [0] := by decide
theorem test_retention :
    (after (.retentionExpiry 1) (demo.onEntry 1 fun e => { e with reg := .resting, retention := some 20000 })).handles = [0] := by decide
theorem test_port_lost :
    (after (.portLostExpiry 1) (demo.onEntry 1 fun e => { e with portLost := some 20000 })).handles = [0] := by decide
theorem test_head_resync : ((after (.headResync 2) demo).entry? 0).map (·.portLost) = some (some 80000) := by decide
theorem test_cell_carrier : ((after (.cellCarrierLost 2) demo).port 2).state = .down := by decide
theorem test_configure_cell : ((after (.configureLinkCell (rq ⟨2, 3000, 5⟩)) demo).port 2).limit = 2048 := by decide

/-! ## Bearers and frames -/

theorem test_bearer_open : (after (.bearerOpen 2 1 3 (some .shore)) demo).sent = [.toHead 2 (.bearerAck 3)] := by decide
theorem test_bearer_busy :
    (after (.bearerOpen 2 1 0 (some .shore)) demo).sent = [.toHead 2 (.bearerRefuse 0 .slotBusy)] := by decide
theorem test_bearer_close : ((after (.bearerClose 2 1) demo).entry? 0).map (·.bearers.length) = some 1 := by decide
theorem test_up_frame_shore : (after (.upFrame 2 0 [9]) demo).sent = [.toShore 1 (.shoreUp 0 1 [9])] := by decide
theorem test_up_frame_local : (after (.upFrame 2 1 [9]) demo).sent = [.toOnboard (.localUp 1 0 2 [9])] := by decide
theorem test_local_down : (after (.localDown 1 [9]) demo).sent = [.toHead 2 (.downFrame 1 [9])] := by decide
theorem test_local_carrier : (after (.localCarrierChange false) demo).router.localCarrier = false := by decide
theorem test_shore_down :
    (after (.shoreDown 1 0 1 [9]) demo).router.additions = [⟨0, 0, .downlink, 1⟩] := by decide

/-! ## Links, selection and swaps -/

theorem test_configure_shore :
    ((after (.configureLinkShore (rq ⟨2, .harbour, 3, none, 30, 60, true⟩)) demo).link 2).rttLimit = some 50 := by decide
theorem test_pin : (after (.pinLink (rq ⟨none, 121, 100, 2000, 5000⟩)) demo).slm.moveAckTimer = 500 := by decide
theorem test_carrier_lost : ((after (.shoreCarrierLost 1) demo).link 1).state = .absent := by decide
theorem test_carrier_lost_isolates : (after (.shoreCarrierLost 1) demo).slm.isolated = some 20000 := by decide
theorem test_carrier_return :
    ((after (.shoreCarrierReturn 2) (demo.onLink 2 fun k => { k with enabled := true, type := some .harbour, rttLimit := some 50 })).link 2).state
      = .probing := by decide
theorem test_modem_ready :
    (after (.modemReady 1) (demo.onLink 1 fun k => { k with modemReady := false, waiting := [.plain (.settle 4 [])] })).sent
      = [.toShore 1 (.settle 4 [])] := by decide
theorem test_modem_not_ready : ((after (.modemNotReady 1) demo).link 1).modemReady = false := by decide

/-- Link 2 in a short probe that has sent 7 of its 8 echoes and has 6 answers. -/
def probing : State :=
  demo.onLink 2 fun k => { k with
    type := some .harbour, rttLimit := some 50, enabled := true, carrier := true, state := .probing,
    probe := some ⟨false, 7, 6, 0, 240, false⟩, nextEcho := some 20000, openEchoes := [⟨5, .probe, 19900⟩, ⟨6, .probe, 17900⟩], echoSeq := 7 }

/-- The probe with its last echo sent and all but one answered. -/
def probed : State :=
  probing.onLink 2 fun k => { k with
    probe := some ⟨false, 8, 7, 0, 280, false⟩, nextEcho := none, openEchoes := [⟨7, .probe, 19960⟩], echoSeq := 8 }

theorem test_probe_echo : (after (.probeEchoDue 2) probing).sent = [.toShore 2 (.echo 2 7 .probe)] := by decide
theorem test_echo_window : ((after (.echoWindowEnd 2 6) probing).link 2).probe.map (·.timedOut) = some 1 := by decide

/-- The eighth answer after 40 ms makes a mean of 320 / 8 = 40 ms, within 50: the probe passes (R84). -/
theorem test_echo_back_passes : ((after (.echoBack 2 2 7 .probe) probed).link 2).lastProbe = some ⟨false, true, 8, 40⟩ := by decide
theorem test_keepalive : (after (.keepaliveDue 1) demo).sent = [.toShore 1 (.echo 1 0 .keepalive)] := by decide
theorem test_keepalive_third_miss :
    ((after (.keepaliveDue 1) (demo.onLink 1 fun k => { k with misses := 2, keepAnswered := some false })).link 1).state
      = .holddown := by decide
theorem test_holddown_end :
    ((after (.holddownExpiry 0) (demo.onLink 0 fun k => { k with state := .holddown, holddownAt := some 20000 })).link 0).state
      = .probing := by decide
theorem test_reprobe :
    ((after (.reprobeExpiry 0) (demo.onLink 0 fun k => { k with reprobeAt := some 20000 })).link 0).probe.map (·.long)
      = some false := by decide

/-- Link 0 pinned, its settle time over. -/
def settled : State :=
  demo.onSlm fun m => { m with pin := some 0, settle := some ⟨0, 10000, 20000⟩ }

theorem test_settle_begins : (after .settleTimerExpiry settled).sent = [.toShore 0 (.move 1)] := by decide
theorem test_settle_waits : (after .settleTimerExpiry (demo.onSlm fun m => { m with settle := some ⟨0, 20000, 20001⟩ })).sent = [] := by decide

/-- A planned swap from link 1 to link 0, its MOVE sent. -/
def swapping : State :=
  (demo.onLink 0 fun k => { k with state := .joining, reprobeAt := none }).onSlm fun m => { m with
    pin := some 0,
    swap := ⟨true, 4, some true, some 1, some 0, true, 19000, some 20000, none⟩ }

theorem test_move_ack : ((after (.moveAck 0 4) swapping).link 0).state = .active := by decide
theorem test_move_ack_drains : ((after (.moveAck 0 4) swapping).link 1).guardAt = some 22000 := by decide
theorem test_move_ack_timer : (after .moveAckTimerExpiry swapping).slm.swap.lastOutcome = some .timeout := by decide
theorem test_guard :
    ((after (.drainingGuardExpiry 0) (demo.onLink 0 fun k => { k with state := .draining, guardAt := some 20000 })).link 0).state
      = .ready := by decide

/-- Isolated since 15,000 ms, with one frame in the swap store. -/
def isolated : State :=
  ((demo.onLink 1 fun k => { k with state := .absent }).onSlm fun m => { m with
    isolated := some 15000, graceAt := some 20000 }).onSws fun w => { w with frames := [⟨0, 0, 0, [9]⟩] }

theorem test_grace : (after .graceExpiry isolated).sws.counters.shed = ⟨1, 1⟩ := by decide
theorem test_store_drain :
    (after .storeDrain (demo.onSws fun w => { w with frames := [⟨0, 0, 0, [9]⟩] })).sent = [.toShore 1 (.shoreUp 0 1 [9])] := by decide

/-! ## Roaming -/

theorem test_partners_part :
    (after (.loadPartnersPart (rq ⟨0, partners, some (20, 5000)⟩)) moored).mli.staging.map (·.records.length) = some 2 := by decide
theorem test_partners_last :
    (after (.loadPartnersLast (rq ⟨0, partners, some (201, 5000)⟩)) moored).rge.pacerRate = 200 := by decide

/-- Part 1 into an empty staging table is MALFORMED, and a refresh interval of 10 s was clamped by then (R119, R183). -/
theorem test_partners_clamped :
    lastReply (after (.loadPartnersPart (rq ⟨1, [⟨1, homeA, 1, 10, 0, [0, 0, 0, 0, 0, 0, 0, 0], [homeA]⟩], none⟩)) moored)
      = replyHeader Kind.loadPartners (some .malformed) false true := by decide
theorem test_pacer :
    (after .pacerSend demo).sent = [.toShore 1 (.regAsk 1 2 homeA 2 ⟨20002, false⟩ 0)] := by decide

/-- Bob's REG-ASK to partner 2 is in flight. -/
def asking : State := after .pacerSend demo

/-- Alice's REFRESH to partner 1 is in flight. -/
def refreshing : State := demo.onRge fun g => { g with inFlight := [⟨0, 0, 1, .refresh, 1, 1, 20000⟩] }

theorem test_reg_ok : ((after (.regOk 1 1 2 2) asking).entry? 1).map (fun e => (e.reg, e.nextDue)) = some (.served, some 80000) := by decide
theorem test_reg_refused :
    ((after (.regRefused 1 1 2 2 .blocked) asking).entry? 1).map (·.reg) = some .unroamed := by decide
theorem test_refresh_ok : ((after (.refreshOk 1 0 1 1) refreshing).entry? 0).map (·.balance) = some 1 := by decide
theorem test_refresh_refused : ((after (.refreshRefused 1 0 1 1) refreshing).entry? 0).map (·.reg) = some .lapsed := by decide
theorem test_exchange_timer : (after (.exchangeTimerExpiry 0) refreshing).rge.inFlight = [] := by decide
theorem test_refresh_due :
    ((after (.refreshDue 0) demo).entry? 0).map (fun e => (e.nextDue, e.balance)) = some (some 79000, -1) := by decide

/-! ## Rating: the manual's own figures -/

/-- 2,500 and 1,000 under a markup of 175 permille are 2,938 and 1,175 (R146). -/
theorem test_period_rates : (demo.periodFor? alice).map (fun p => (p.rate1, p.rate2)) = some (2938, 1175) := by decide

/-- One byte past the first increment starts the second: two increments at the first tier's rate. -/
theorem test_addition : ((after (.meteredAddition 0 0 .uplink 102401) demo).entry? 0).map (·.total) = some 5876 := by decide

/-- A cap inside the second increment holds the total at it and bars the subscriber (R147, R148). -/
theorem test_addition_capped :
    ((after (.meteredAddition 0 0 .uplink 102401) (demo.onEntry 0 fun e => { e with cap := 5000 })).entry? 0).map
      (fun e => (e.total, e.barred)) = some (5000, true) := by decide
theorem test_age :
    (after (.ageExpiry 0) (demo.onMli fun m => { m with clock := 900000 })).rtu.closeQueue.map (·.reason) = [.age] := by decide
theorem test_age_waits : (after (.ageExpiry 0) demo).rtu.closeQueue = [] := by decide
theorem test_tariff_plan :
    lookupKey 3 (after (.loadTariffPlan (rq ⟨3, some ⟨103423, 1, 1, 1⟩⟩)) demo).rtu.bank = some ⟨102400, 1, 1, 1⟩ := by decide
theorem test_commit_now :
    (after (.commitTariffNow (rq ())) (demo.onRtu fun u => { u with bank := [(0, plan)] })).rtu.bank = [] := by decide
theorem test_commit_at_roll :
    (after (.commitTariffAtDayRoll (rq ())) (demo.onRtu fun u => { u with bank := [(0, plan)] })).rtu.armed = true := by decide
theorem test_day_roll :
    ((after (.dayRoll (rq ())) (demo.onEntry 0 fun e => { e with dayCount := 60 })).entry? 0).map (·.dayCount) = some 0 := by decide
theorem test_set_cap :
    ((after (.setCap (rq ⟨⟨0, 1⟩, 100⟩)) (demo.onEntry 0 fun e => { e with total := 300 })).entry? 0).map
      (fun e => (e.cap, e.barred)) = some (300, true) := by decide
theorem test_set_class : ((after (.setClass (rq ⟨⟨0, 1⟩, .exempt⟩)) demo).entry? 0).map (·.cls) = some .exempt := by decide
theorem test_set_billing : (after (.setBilling (rq ⟨7, 20, 900, []⟩)) demo).mli.billing.alertPercent = 50 := by decide

/-! ## Charge records and record memory -/

/-- A closed charge record. -/
def record : ChargeRecord :=
  { serial := some 258, token := 1, home := homeA, partner := 1, partnerCode := ⟨20001, false⟩, jurisdiction := 2, zone := 1,
    tariffClass := 3, plan := 0, rate1 := 2938, rate2 := 1175, startTime := 5, endTime := 100, up := 7, down := 0, inc1 := 1,
    inc2 := 0, charge := 2938, reason := .age, clamped := true, saturated := false, delayed := false, storeLoss := 0 }

/-- The head of the record as R185 lays it out: HOLDS-RECORD, the serial, the token. -/
theorem test_record_head : record.bytes.take 13 = [0x5A, 2, 1, 0, 0, 1, 0, 0, 0, 0, 0, 0, 0] := by decide

/-- Jurisdiction 2 and class 3 share byte 20; byte 23 holds reason AGE, the eighth, with the clamped bit. -/
theorem test_record_bits : (record.bytes[20]?, record.bytes[23]?) = (some 0x32, some 0x17) := by decide

/-- The record is being written to slot 5. -/
def writing : State :=
  demo.onRsc fun r => { r with buffer := [record], job := some ⟨record, 5, false⟩, op := some (.write 5) }

theorem test_accept :
    (after .acceptRecord (demo.onRtu fun u => { u with closeQueue := [{ record with serial := none }] })).rsc.nextSerial = 1 := by decide
theorem test_write : (after (.writeSlotDone true) writing).rsc.ring = [⟨258, 5, false⟩] := by decide
theorem test_write_fails : (after (.writeSlotDone false) writing).rsc.remaps = [(5, 0)] := by decide +kernel
theorem test_map_write :
    (after (.mapWriteDone true) (writing.onRsc fun r => { r with op := some (.mapWrite (.remap 5 0) false) })).rsc.mapArea.remaps
      = [(5, 0)] := by decide +kernel
theorem test_verify_fails :
    (after (.verifyReadDone false) (writing.onRsc fun r => { r with op := some (.verify 5), candidates := [5] })).rsc.counters.verifiesFailed
      = 1 := by decide

/-- The record stands in slot 5, undelivered, and nothing is in progress. -/
def stored : State := after (.writeSlotDone true) writing

theorem test_build :
    (after .buildSettleBatch (stored.onRsc fun r => { r with op := none, build := none })).rsc.op = some (.read 258 5 .settle) := by decide
theorem test_read_settles :
    ((after (.readSlotDone true) (stored.onRsc fun r => { r with
      op := some (.read 258 5 .settle), build := some ⟨.settle, false, []⟩ })).rsc.batch).map (·.number) = some 1 := by decide +kernel
theorem test_clear :
    readByte (after (.clearSlotDone true) (stored.onRsc fun r => { r with op := some (.clear 5), clearList := [5] })).rsc.memory 320
      = 0x00 := by decide

/-- Batch 3, which holds the record, is in flight. -/
def settling : State :=
  stored.onRsc fun r => { r with
    op := some (.clear 9), build := none, ring := [⟨258, 5, true⟩], batch := some ⟨3, some 20000, some 1⟩ }

theorem test_settle_ack : (after (.settleAck 1 3) settling).rsc.clearList = [5] := by decide
theorem test_batch_timer : (after .batchTimerExpiry settling).rsc.ring = [⟨258, 5, false⟩] := by decide
theorem test_set_delivery : (after (.setDelivery (rq ⟨.onHost, 1⟩)) settling).rsc.batchTimer = 2 := by decide
theorem test_export_on_shore :
    lastReply (after (.exportRecords (rq ())) stored) = replyHeader Kind.exportRecords (some .wrongState) false false := by decide
theorem test_confirm : (after (.confirmExport (rq 3)) settling).rsc.batch = none := by decide
theorem test_flush : (after (.flushRecords (rq ())) demo).mli.work = some .flushing := by decide
theorem test_flush_done :
    (after .flushRecordsDone (after (.flushRecords (rq ())) demo)).mli.input = [] := by decide

/-! ## The interface, START, RESET and power -/

theorem test_start : (after (.start (rq ())) moored).mli.device = .running := by decide

/-- With no zones and no partners the WRONG-STATE reply says 3. -/
theorem test_start_missing :
    (lastReply (after (.start (rq ())) ((moored.onTracker fun t => { t with zones := [] }).onRge fun g => { g with partners := [] }))).getLast?
      = some 3 := by decide
theorem test_reset_holds : (after (.reset (rq ())) demo).mli.work = some (.resetting 1 none) := by decide

/-- RESET has flushed and waits for nothing. -/
def resetting : State :=
  demo.onMli fun m => { m with work := some (.resetting 1 none), input := [.reset (rq ())] }

theorem test_reset_complete : (after .resetComplete resetting).mli.device = .unconfigured := by decide

/-- QUIET goes to the two listening ports, and the six carriers are withheld and then restored (R41). -/
theorem test_reset_carriers : (after .resetComplete resetting).sent =
    [.toHead 2 .quiet, .toHead 3 .quiet] ++ allPorts.map (.cellCarrier · false) ++ allPorts.map (.cellCarrier · true) := by decide
theorem test_set_time : (after (.setTime (rq 5000)) demo).mli.shipTime = 5000 := by decide
theorem test_power_loss : (after .powerLoss demo).powered = false := by decide
theorem test_power_on : (after .powerOn (after .powerLoss demo)).mli.device = .unconfigured := by decide
theorem test_scan_end : (after (.powerOnScanEnd true []) State.reset).rsc.bufferOn = true := by decide +kernel

/-- Serials on both sides of the wrap: the lower values follow the higher, and the next is one more than the last (R171). -/
theorem test_scan_wrap :
    let r := State.reset.rsc.takeScan ⟨[(0, 3), (4294967295, 9)], [], [], 0, [0, 4294967295]⟩
    r.ring = [⟨4294967295, 9, false⟩, ⟨0, 3, false⟩] ∧ r.nextSerial = 1 ∧ r.lastGiven = 3 := by decide

/-- A second slot with the same serial owes a clear and counts as a duplicate (R171). -/
theorem test_scan_duplicate :
    (Scan.take ⟨[(258, 5)], [], [], 0, [258]⟩ 6 (.holds 258)).clears = [6] := by decide

/-- A frame with START of tag 7 and a good CRC joins the input. -/
theorem test_frame : (after (.frameReceived (frameBytes 0x01 7 [])) demo).mli.input = [.start (rq ())] := by decide +kernel

/-- A frame whose CRC fails is discarded and counted (R175). -/
theorem test_frame_crc :
    (after (.frameReceived [0x7E, 0x02, 0x00, 0x01, 0x07, 0x00, 0x00]) demo).mli.counters.crcErrors = 1 := by decide +kernel
theorem test_frame_gap :
    (after .frameGap (demo.onMli fun m => { m with rx := [0x7E, 0x02], gapLeft := 0 })).mli.rx = [] := by decide
theorem test_clear_to_send : (after (.hostClearToSend false) demo).mli.hostCts = false := by decide
theorem test_send_frame :
    (after .sendFrame (demo.onMli fun m => { m with tx := [.reply ⟨7, [1]⟩] })).sent = [.toHost (frameBytes 0x80 7 [1])] := by decide +kernel
theorem test_unknown_kind :
    lastReply (after (.unknownKindRequest 0x1A 7) demo) = replyHeader 0x1A (some .unknownKind) false false := by decide
/-- Zone 1, FULL (the third policy), cap 1 behind the 4-byte header, each after its presence byte (R14, R185). -/
theorem test_query_zone : ((lastReply (after (.queryZone (rq ())) demo)).drop 4).take 6 = [1, 1, 1, 2, 1, 1] := by decide
theorem test_query_cell : (after (.queryLinkCell (rq 6)) demo).mli.counters.refused = #v[0, 1, 0, 0, 0, 0, 0, 0] := by decide
theorem test_query_shore : (after (.queryLinkShore (rq 3)) demo).mli.counters.repliesOk = 1 := by decide
theorem test_query_management : (after (.queryLinkManagement (rq ())) demo).mli.counters.repliesOk = 1 := by decide
theorem test_query_subscriber :
    lastReply (after (.querySubscriberSingle (rq (.byToken 9))) demo)
      = replyHeader Kind.querySubscriber (some .noSuchSubscriber) false false := by decide
theorem test_query_summary : (after (.querySubscriberSummary (rq ())) demo).mli.counters.repliesOk = 1 := by decide
theorem test_query_store : (after (.queryStore (rq ())) State.reset).mli.counters.repliesOk = 1 := by decide
theorem test_idle_ticks : (match step { State.reset with pending := [] } with | .next t => t.mli.clock | _ => 0) = 1 := by decide

/-! ## States that meet the hypotheses of the statements, clause by clause -/

theorem witness_StepTakesTheFront : ∃ s : State, s.pending = [.graceExpiry] := ⟨{ demo with pending := [.graceExpiry] }, rfl⟩

/-- A verdict and a device state that change. -/
theorem witness_DeviceAndVerdictChange : exec (.start (rq ())) moored = .next (after (.start (rq ())) moored) ∧
    (after (.start (rq ())) moored).mli.device ≠ moored.mli.device ∧
    (after (.start (rq ())) moored).tracker.verdict ≠ moored.tracker.verdict := ⟨rfl, by decide, by decide⟩
theorem witness_RecordMemoryChanges : exec (.writeSlotDone true) writing = .next stored ∧
    stored.rsc.memory ≠ writing.rsc.memory := ⟨rfl, by decide⟩
theorem witness_SettingsChangeByTheirRequests : exec .sendFrame demo = .next (after .sendFrame demo) ∧
    Instr.sendFrame ≠ .resetComplete ∧ Instr.sendFrame ≠ .powerOn ∧ Instr.sendFrame ≠ .powerLoss :=
  ⟨rfl, by decide, by decide, by decide⟩
theorem witness_StepKeepsBounds : demo.memoryOk ∧ demo.queuesOk ∧ demo.storeOk ∧ demo.bufferOk ∧ demo.exchangesOk ∧
    step demo = .next { demo with pending := demo.dueCommands.take 1 } ∧ demo.dueCommands ≠ [] :=
  ⟨by decide, by decide, by decide, by decide, by decide, rfl, by decide⟩
theorem witness_StepKeepsRadioSilence : demo.radioOk ∧ ∃ t, step { demo with pending := [.headHello 0 5] } = .next t :=
  ⟨by decide, _, rfl⟩
theorem witness_StepKeepsHandles : State.reset.handlesOk ∧ ∃ t, step State.reset = .next t := ⟨by decide +kernel, _, rfl⟩
theorem witness_StepKeepsCaps : demo.capsOk ∧ ∃ t, step { demo with pending := [.ageExpiry 0] } = .next t := ⟨by decide, _, rfl⟩
theorem witness_StepKeepsLinks : swapping.linksOk ∧ ∃ t, step { swapping with pending := [.moveAck 0 4] } = .next t :=
  ⟨by decide, _, rfl⟩

/-! ### The tracker -/

theorem witness_FixesAreRecorded_unconfigured : moored.hostReady ∧ moored.mli.device = .unconfigured := by decide
theorem witness_FixesAreRecorded_none : demo.hostReady ∧ demo.mli.device = .running := by decide
theorem witness_FixesAreRecorded_running : demo.hostReady ∧ demo.mli.device = .running ∧ Quality.degraded ≠ .none ∧
    State.reset.tracker.zones = [] := by decide
theorem witness_FixesAreRecorded_timer : demo.powered = true ∧ demo.mli.device = .running ∧
    (demo.onMli fun m => { m with clock := 25000 }).tracker.fixExpiry = some 25000 := by decide
theorem witness_FirstFix : let s := demo.onTracker fun t => { t with verdict := none }
    s.hostReady ∧ s.mli.device = .running ∧ s.tracker.verdict = none ∧ s.tracker.zones.head?.map (·.start) = some 0 ∧
      s.tracker.forcedFreeze = false ∧ (after (.fix (rq ⟨1000, .good⟩)) s).tracker.verdict = some ⟨1, sea⟩ := by decide
theorem witness_FirstFix_frozen : (after (.fix (rq ⟨1000, .good⟩)) (demo.onTracker fun t => { t with
    verdict := none, forcedFreeze := true })).tracker.verdict = none := by decide
theorem witness_FirstFix_degraded : let s := demo.onTracker fun t => { t with verdict := none, frozen := true }
    s.hostReady ∧ s.mli.device = .running ∧ s.tracker.verdict = none ∧ s.tracker.zones ≠ [] ∧
      (after (.fix (rq ⟨1000, .degraded⟩)) s).tracker.frozen = true := by decide
theorem witness_FixMovesTheVerdict_stricter : demo.hostReady ∧ demo.mli.device = .running ∧ Quality.degraded ≠ .none ∧
    demo.tracker.zones ≠ [] ∧ 10000 ≤ demo.tracker.routeLength ∧ demo.tracker.verdict = some ⟨1, sea⟩ ∧
    demo.tracker.locate 10000 = some ⟨2, strait⟩ ∧ policyRank strait.policy < policyRank sea.policy := by decide
theorem witness_FixMovesTheVerdict_laxer : let s := demo.onTracker fun t => { t with verdict := some ⟨2, strait⟩ }
    s.hostReady ∧ s.tracker.holdTime ≠ 0 ∧ s.tracker.locate 4999 = some ⟨1, sea⟩ ∧
      policyRank strait.policy ≤ policyRank sea.policy ∧ s.tracker.passesMargin 2 1 4999 = false := by decide
theorem witness_FixMovesTheVerdict_relaxes : let s := demo.onTracker fun t => { t with verdict := some ⟨2, strait⟩ }
    s.hostReady ∧ s.mli.device = .running ∧ 4800 ≤ s.tracker.routeLength ∧ s.tracker.locate 4800 = some ⟨1, sea⟩ ∧
      policyRank strait.policy ≤ policyRank sea.policy ∧ s.tracker.frozen = false ∧ s.tracker.forcedFreeze = false ∧
      s.tracker.holdExpiry = none ∧ s.tracker.passesMargin 2 1 4800 = true := by decide

/-- Alice under partner 2, which serves the strait too; `abreast` has a strait of the sea's class and jurisdiction. -/
def twoServes : State := demo.onEntry 0 fun e => { e with serving := some 2 }
def abreast : State := twoServes.onTracker fun t => { t with zones := [⟨0, quay⟩, ⟨1000, sea⟩, ⟨5000, { sea with policy := .reduced }⟩] }

theorem witness_FixMovesTheVerdict_rotates : twoServes.hostReady ∧ twoServes.mli.device = .running ∧
    twoServes.handles.Nodup ∧ (after (.fix (rq ⟨5000, .good⟩)) twoServes).tracker.verdict = some ⟨2, strait⟩ ∧
    twoServes.tracker.verdict ≠ some ⟨2, strait⟩ ∧ strait.policy ≠ .quiet ∧
    twoServes.entry? 0 = some { alice with serving := some 2 } ∧ twoServes.eligible homeA strait 2 = true ∧
    alice.period.map (·.jurisdiction) = some 0 ∧ 0 ≠ strait.jurisdiction := by decide
theorem witness_FixMovesTheVerdict_keeps : (after (.fix (rq ⟨5000, .good⟩)) abreast).tracker.verdict
      = some ⟨2, { sea with policy := .reduced }⟩ ∧
    alice.period.map (fun p => (p.tariffClass, p.jurisdiction)) = some (sea.tariffClass, sea.jurisdiction) ∧
    (after (.fix (rq ⟨5000, .good⟩)) abreast).rtu.closeQueue = [] := by decide
theorem witness_FixMovesTheVerdict_voids : demo.entry? 0 = some alice ∧ alice.serving = some 1 ∧ alice.reg = .served ∧
    demo.eligible homeA strait 1 = false ∧ demo.entry? 1 = some bob ∧ bob.reg = .registering ∧
    (let s := demo.onEntry 1 fun e => { e with reg := .lapsed }
     s.entry? 1 = some { bob with reg := .lapsed } ∧ bob.period = none) := by decide

/-- Alice MOVING under partner 2, with a candidate. -/
def moving (s : State) (candidate : Nat × Nat) : State :=
  (s.onEntry 0 fun e => { e with serving := some 2, reg := .moving, candidate := some candidate }).onRge fun g => { g with
    inFlight := [⟨0, 0, 1, .regAsk, candidate.1, 1, 25000⟩] }

theorem witness_FixMovesTheVerdict_moving : let s := moving demo (1, 1)
    let t := after (.fix (rq ⟨5000, .good⟩)) s
    s.hostReady ∧ s.handles.Nodup ∧ t.tracker.verdict = some ⟨2, strait⟩ ∧ s.eligible homeA strait 2 = true ∧
      t.chosen homeA = some (2, 2) ∧ (t.entry? 0).map (·.reg) = some .served ∧ t.rge.inFlight = [] := by decide
theorem witness_FixMovesTheVerdict_moves_on :
    let fix := Instr.fix (rq ⟨5000, .good⟩)
    let t := after fix (moving abreast (1, 1))
    let u := after fix (moving abreast (3, 1))
    (moving abreast (1, 1)).hostReady ∧ t.tracker.verdict = some ⟨2, { sea with policy := .reduced }⟩ ∧
      (moving abreast (1, 1)).eligible homeA sea 2 = true ∧ t.chosen homeA = some (1, 1) ∧ t.rge.inFlight.length = 1 ∧
      u.chosen homeA = some (1, 1) ∧ (u.entry? 0).map (·.candidate) = some (some (1, 1)) ∧ u.rge.inFlight = [] := by decide
theorem witness_QuietEntry : demo.hostReady ∧ demo.handles.Nodup ∧ demo.tracker.locate 0 = some ⟨0, quay⟩ ∧ 0 ≠ 1 ∧
    quay.policy = .quiet ∧ sea.policy ≠ .quiet ∧ demo.tracker.verdict = some ⟨1, sea⟩ := by decide
theorem witness_QuietEntry_schedule : demo.entry? 0 = some alice ∧ alice.reg ≠ .resting ∧ alice.serving = some 1 ∧
    alice.nextDue = some 19000 ∧ demo.entry? 1 = some bob ∧ bob.reg ≠ .resting ∧ bob.serving = none := by decide
theorem witness_FreezeThaw : demo.hostReady ∧ demo.tracker.holdTime ≠ 0 := by decide
theorem witness_FreezeThaw_fix : let s := demo.onTracker fun t => { t with frozen := true }
    s.hostReady ∧ s.mli.device = .running ∧ s.tracker.zones ≠ [] ∧ 10000 ≤ s.tracker.routeLength ∧
      s.tracker.verdict = some ⟨1, sea⟩ ∧ s.tracker.frozen = true ∧ s.tracker.forcedFreeze = false ∧ s.tracker.holdTime ≠ 0 ∧
      (after (.fix (rq ⟨10000, .good⟩)) s).tracker.verdict = some ⟨2, strait⟩ ∧
      (after (.fix (rq ⟨500, .good⟩)) s).tracker.holdExpiry = some 50000 := by decide
theorem witness_HoldEnds : let s := demo.onTracker fun t => { t with verdict := some ⟨2, strait⟩, holdExpiry := some 20000 }
    s.powered = true ∧ s.tracker.holdExpiry = some 20000 ∧ 20000 ≤ s.mli.clock ∧ s.tracker.lastFix = some (.good, 15000) ∧
      s.tracker.lastPosition = some 1500 ∧ s.tracker.locate 1500 = some ⟨1, sea⟩ ∧ s.tracker.passesMargin 2 1 1500 = true ∧
      s.tracker.frozen = false ∧ s.tracker.forcedFreeze = false := by decide
theorem witness_HoldEnds_noFix : ∀ at_, (demo.onTracker fun t => { t with lastFix := none }).tracker.lastFix ≠ some (.good, at_) := by
  intro _ h
  cases h

/-- A table that LOAD-ZONES takes as it stands. -/
def newCourse : LoadZonesBody := ⟨10000, 100, 10, 30, 20, [⟨0, quay⟩, ⟨1000, sea⟩]⟩

theorem witness_LoadZones : moored.hostReady ∧ zonesWellFormed newCourse = true ∧ clampZones newCourse = newCourse ∧
    moored.atBerth = true ∧ moored.zonesAccepted newCourse = true := by decide
theorem witness_LoadZones_quiet : let s := demo.onTracker fun t => { t with verdict := some ⟨0, quay⟩ }
    s.hostReady ∧ s.atBerth = true ∧ s.zonesAccepted newCourse = true ∧ quay.policy = .quiet ∧ s.mli.device = .running ∧
      (s.port 2).state ≠ .down := by decide
theorem witness_LoadZones_refusals : zonesWellFormed { newCourse with zones := [] } = false ∧ demo.atBerth = false ∧
    moored.zonesAccepted (clampZones { newCourse with routeLength := 1000 }) = false := by decide
theorem witness_LoadZones_scan : State.reset.hostFree ∧ State.reset.rsc.scanEnded = false ∧
    (clampZones { newCourse with hysteresis := 3000 } != { newCourse with hysteresis := 3000 }) = true ∧
    lastReply (after (.loadZones (rq { newCourse with hysteresis := 3000 })) State.reset)
      = replyHeader Kind.loadZones (some .notReady) false true ∧
    lastReply (after (.loadZones (rq { newCourse with hysteresis := 3000, zones := [] })) moored)
      = replyHeader Kind.loadZones (some .malformed) false true := by decide

/-! ### Cell ports -/

theorem witness_HeadHello : demo.powered = true ∧ (demo.port 0).state = .down ∧ (demo.port 0).hold = false ∧
    demo.order = some 8 ∧ moored.order = none := by decide
theorem witness_HeadHello_again : demo.powered = true ∧ (demo.port 2).state = .radiating ∧
    (let s := { demo with cpc := { demo.cpc with storeHold := true } }
     let q := s.onPort 2 fun k => { k with state := .quiet }
     (after (.headHello 2 7) q).sent = [.toHead 2 (.radiate 8), .toHead 2 .hold] ∧
     (after (.headHello 2 7) s).sent = [.toHead 2 (.radiate 8)]) := by decide
theorem witness_MalformedHead : (demo.port 0).state = .down ∧ (demo.port 3).state ≠ .down ∧
    ¬ ((4 : Nat) = 5 ∧ 12345 ≤ 99999 ∨ (4 : Nat) = 6 ∧ 12345 ≤ 999999) ∧
    (after (.headHello 0 0) demo).cpc.ports[0].counters.malformed = 1 := by decide
theorem witness_AskJoins : demo.powered = true ∧ (demo.port 3).state ≠ .down ∧ (demo.port 3).asks.length < 32 ∧
    (demo.port 0).state = .down := by decide
theorem witness_AskJoins_full : 32 ≤ ((demo.onPort 3 fun k => { k with asks := List.replicate 32 ⟨9, homeA⟩ }).port 3).asks.length := by
  decide

/-- A new device asks on port 3. -/
def asked : State := demo.onPort 3 fun k => { k with asks := [⟨9, homeA⟩] }

theorem witness_AskIsDeclined : asked.nextAsk = some 3 ∧ (asked.port 3).asks = [⟨9, homeA⟩] ∧ asked.byToken? 9 = none ∧
    (asked.onPort 3 fun k => { k with state := .quiet }).nextAsk = some 3 ∧
    (let s := asked.onPort 3 fun k => { k with limit := 1 }
     min (s.port 3).limit (s.port 3).headCapacity ≤ s.portCount 3) := by decide
theorem witness_AskIsDeclined_store : asked.portCount 3 < 300 ∧
    (asked.onRsc fun r => { r with dead := List.replicate 30721 0 }).rsc.freeLevel < 2048 := by decide +kernel
theorem witness_NewDevice : asked.powered = true ∧ asked.nextAsk = some 3 ∧ asked.mli.device = .running ∧
    (asked.port 3).state = .radiating ∧ asked.byToken? 9 = none ∧
    asked.portCount 3 < min (asked.port 3).limit (asked.port 3).headCapacity ∧ asked.table.entries.length < 2048 ∧
    2048 ≤ asked.rsc.freeLevel ∧ asked.table.freeHandles = [2, 3] ∧ asked.entry? 2 = none := by decide

/-- Alice asks again, on port 3. -/
def askedAgain : State := demo.onPort 3 fun k => { k with asks := [⟨1, homeA⟩] }

theorem witness_KnownDevice : askedAgain.nextAsk = some 3 ∧ askedAgain.byToken? 1 = some (0, alice) ∧
    askedAgain.entry? 0 = some alice ∧ alice.reg ≠ .resting := by decide

/-- Alice, RESTING, asks again on port 3. -/
def revived (f : Entry → Entry) : State := askedAgain.onEntry 0 fun e => f { e with reg := .resting, period := none, nextDue := none }

theorem witness_KnownDevice_revival :
    ((revived id).entry? 0).map (fun e => (e.reg, e.serving, (revived id).servingEligible e)) = some (.resting, some 1, true) ∧
    (let s := revived fun e => { e with serving := none }
     (s.entry? 0).map (·.serving) = some none) ∧
    (let s := (revived id).onTracker fun t => { t with verdict := some ⟨2, strait⟩ }
     (s.entry? 0).map s.servingEligible = some false ∧ s.nextAsk = some 3 ∧ (s.port 3).state = .radiating ∧
      s.activeLink? = some 1 ∧ (s.link 1).free = true ∧ (s.partner? 1).isSome = true) ∧
    (let s := revived fun e => { e with serving := some 9 }
     (s.onSlm fun m => { m with swap := { m.swap with inProgress := true } }).mayCarry = false) := by decide
theorem witness_Removal : demo.entry? 0 = some alice ∧ (demo.port alice.port).state ≠ .down ∧
    demo.byToken? alice.token = some (0, alice) ∧ demo.hostReady := by decide
theorem witness_Removal_timers : let s := demo.onEntry 0 fun e => { e with portLost := some 20000, retention := some 20000 }
    ((s.entry? 0).bind (·.portLost), (s.entry? 0).bind (·.retention)) = (some 20000, some 20000) ∧ 20000 ≤ s.mli.clock := by decide
theorem witness_Removal_closure : alice.period ≠ none ∧ alice.closing = false ∧ demo.rtu.closeQueue.length < 64 ∧
    demo.rtu.waitList = [] ∧ bob.period = none ∧
    (let s := demo.onRtu fun u => { u with closeQueue := List.replicate 64 record }
     64 ≤ s.rtu.closeQueue.length ∧ s.rtu.waitList.length < 4096 ∧ s.hostReady ∧ s.entry? 0 = some alice) := by decide
theorem witness_Removal_dereg : alice.serving = some 1 ∧ demo.activeLink? = some 1 ∧ demo.slm.swap.inProgress = false ∧
    (demo.partner? 1).isSome = true ∧ (demo.link 1).free = true ∧ swapping.mayCarry = false ∧ bob.serving = none ∧
    (let s := demo.onLink 1 fun k => { k with modemReady := false, waiting := [.echo .probe 0] }
     (s.link 1).free = false ∧ s.activeLink? = some 1 ∧ s.entry? 0 = some alice) := by decide
theorem witness_Removal_exchange : asking.entry? 1 = some bob ∧ asking.rge.inFlight.map (·.handle) = [1] := by decide
theorem witness_StaleDepart : demo.byToken? 9 = none ∧ demo.byToken? 1 = some (0, alice) ∧ alice.port ≠ 3 := by decide
theorem witness_PortFailure : demo.powered = true ∧ (demo.port 2).state ≠ .down ∧ demo.handles.Nodup ∧
    (demo.port 0).state = .down ∧ demo.order.isSome = true := by decide

/-! ### Bearers -/

theorem witness_BearerOpens : demo.byToken? 1 = some (0, alice) ∧ alice.port = 2 ∧ alice.reg ≠ .resting ∧
    (∀ b ∈ alice.bearers, b.slot ≠ 3) ∧ (∃ b ∈ alice.bearers, b.slot = 0) ∧ demo.byToken? 9 = none := by decide
theorem witness_BearerCloses : demo.bearerAt 0 = some (0, alice, newBearer 0 .shore 0) ∧ demo.bearerAt 2 = none := by decide
theorem witness_UpFrameToTheShip_onboard : demo.bearerAt 1 = some (0, alice, newBearer 1 .onboard 0) ∧ alice.port = 2 ∧
    (newBearer 1 .onboard 0).kind = .onboard := by decide

/-- Alice on SHORE while her registration has lapsed. -/
def lapsed : State := demo.onEntry 0 fun e => { e with reg := .lapsed }

theorem witness_UpFrameToTheShip_portal : lapsed.entitled { alice with reg := .lapsed } = false ∧
    { alice with reg := .lapsed }.portalReason? = some .lapsed ∧
    lapsed.bearerAt 0 = some (0, { alice with reg := .lapsed }, newBearer 0 .shore 0) := by decide
theorem witness_UpFrameToTheShip_isolated : let s := demo.onSlm fun m => { m with cutOff := true }
    s.entitled alice = false ∧ alice.portalReason? = none ∧ s.bearerAt 0 = some (0, alice, newBearer 0 .shore 0) := by decide
theorem witness_UpFrameToShore_straight : demo.entitled alice = true ∧ demo.activeLink? = some 1 ∧
    demo.slm.swap.inProgress = false ∧ demo.sws.frames = [] ∧ (demo.link 1).modemReady = true ∧ (demo.link 1).waiting = [] := by decide
theorem witness_UpFrameToShore_store : swapping.entitled alice = true ∧ swapping.slm.swap.inProgress = true ∧
    swapping.cpc.storeHold = false ∧ occupancy swapping.sws.frames + 1536 < 393216 := by decide

/-- The swap store one frame short of the hold level. -/
def filling : State := demo.onSws fun w => { w with frames := List.replicate 255 ⟨0, 0, 0, List.replicate 1536 0⟩ }

theorem witness_UpFrameToShore_hold : filling.sws.frames ≠ [] ∧ filling.cpc.storeHold = false ∧
    393216 ≤ occupancy filling.sws.frames + 1536 ∧ occupancy filling.sws.frames + 1536 ≤ 524288 := by decide +kernel
/-- The hold condition stands, with these frames in the store. -/
def held (frames : List StoredFrame) : State :=
  { demo with sws := { demo.sws with frames := frames }, cpc := { demo.cpc with storeHold := true } }

theorem witness_UpFrameToShore_held : let s := held (List.replicate 171 ⟨0, 0, 0, List.replicate 1536 0⟩)
    s.sws.frames ≠ [] ∧ s.cpc.storeHold = true ∧ 262144 < occupancy s.sws.frames ∧
      occupancy s.sws.frames + 1536 ≤ 524288 := by decide +kernel

/-- A full store: one byte more sheds the first frame and no other. -/
def fullKept : List StoredFrame := List.replicate 340 ⟨0, 0, 0, List.replicate 1536 0⟩ ++ [⟨0, 0, 0, List.replicate 512 0⟩]
def fullFirst : StoredFrame := ⟨0, 0, 0, List.replicate 1536 0⟩

theorem witness_UpFrameToShore_shed : let s := held ([fullFirst] ++ fullKept)
    s.entitled alice = true ∧ s.cpc.storeHold = true ∧ s.bearerAt 0 = some (0, alice, newBearer 0 .shore 0) ∧
      524288 < occupancy s.sws.frames + 1 ∧ occupancy fullKept + 1 ≤ 524288 ∧ 262144 < occupancy fullKept := by
  decide +kernel
theorem witness_UpFrameToShore_shed_no_more (before : List StoredFrame) (f : StoredFrame)
    (h : [fullFirst] = before ++ [f]) : 524288 < occupancy (f :: fullKept) + 1 := by
  have : f = fullFirst := by
    cases before with
    | nil => simpa using h.symm
    | cons _ b => simp at h
  subst this
  decide +kernel
theorem witness_LocalDownlink : demo.bearerAt 1 = some (0, alice, newBearer 1 .onboard 0) ∧ (demo.port 2).state ≠ .down ∧
    demo.bearerAt 2 = none := by decide
theorem witness_ShoreDownlink : demo.takes 1 = true ∧ demo.takes 2 = false ∧ demo.bearerAt 2 = none ∧
    demo.bearerAt 0 = some (0, alice, newBearer 0 .shore 0) ∧ alice.token ≠ 9 ∧ demo.entitled alice = true ∧
    (demo.port alice.port).state ≠ .down ∧ lapsed.entitled { alice with reg := .lapsed } = false := by decide

/-! ### Links and swaps -/

theorem witness_LinkTimersAndCarriers_loss : (demo.link 1).state = .active ∧ demo.mli.device = .running ∧
    ∀ k : Fin 4, k ≠ 1 → (demo.link k).state ≠ .active := by decide
theorem witness_LinkTimersAndCarriers_return : (demo.link 2).state = .absent ∧ (demo.link 2).enabled = false ∧
    ((demo.onLink 2 fun k => { k with enabled := true }).link 2).enabled = true := by decide
theorem witness_LinkTimersAndCarriers_from : (swapping.link 1).state = .active ∧ swapping.slm.swap.inProgress = true ∧
    swapping.slm.swap.fromLink = some 1 ∧ swapping.slm.swap.toLink = some 0 ∧ (swapping.link 0).state = .joining ∧
    (∀ k : Fin 4, k ≠ 1 → (swapping.link k).state ≠ .active) ∧ swapping.mli.device = .running ∧
    swapping.slm.isolated = none := by decide

/-- The swap's from-link gone; then with link 2 READY too. -/
def fromLost : State := swapping.onLink 1 fun k => { k with state := .absent }
def thirdReady : State := fromLost.onLink 2 fun k => { k with state := .ready, type := some .harbour }

theorem witness_LinkTimersAndCarriers_to : swapping.activeLink? = some 1 ∧ swapping.slm.settleTime ≠ 0 ∧
    (fromLost.link 0).state = .joining ∧ fromLost.slm.swap.toLink = some 0 ∧ fromLost.activeLink? = none ∧
    fromLost.mli.device = .running ∧ (∀ k : Fin 4, (fromLost.link k).state ≠ .ready) ∧ thirdReady.activeLink? = none ∧
    (thirdReady.link 2).state = .ready ∧ (thirdReady.link 2).type ≠ none ∧
    ((after (.shoreCarrierLost 0) thirdReady).link 2).state = .joining := by decide
theorem witness_LinkTimersAndCarriers_timers :
    let s := demo.onLink 0 fun k => { k with state := .holddown, holddownAt := some 20000 }
    (s.link 0).state = .holddown ∧ (s.link 0).holddownAt = some 20000 ∧ 20000 ≤ s.mli.clock ∧ (demo.link 0).state = .ready := by
  decide

/-- The record `w` waits at link 1, whose modem was not ready. -/
def waitingFor (w : Waiting) : State := demo.onLink 1 fun k => { k with modemReady := false, waiting := [w] }

theorem witness_ModemTakesTheFirstRecord : (demo.link 1).waiting = [] ∧
    ((waitingFor (.plain (.settle 4 []))).link 1).waiting = [.plain (.settle 4 [])] ∧
    (let s := (waitingFor (.plain (.move 4))).onSlm fun m => { m with swap := { m.swap with toLink := some 1, number := 4 } }
     (s.link 1).waiting = [.plain (.move 4)] ∧ s.slm.swap.toLink = some 1 ∧ s.slm.swap.number = 4) ∧
    ((waitingFor (.echo .keepalive 0)).link 1).waiting = [.echo .keepalive 0] ∧
    (let s := (waitingFor (.storeFrame 1)).onSws fun w => { w with frames := [⟨0, 0, 0, [9]⟩], offered := true }
     (s.link 1).waiting = [.storeFrame 1] ∧ s.sws.frames = [⟨0, 0, 0, [9]⟩] ∧ s.cpc.storeHold = false) := by decide
theorem witness_EchoesAreMatched_due : (probing.link 2).state = .probing ∧ (probing.link 2).nextEcho = some 20000 ∧
    (probing.link 2).probe = some ⟨false, 7, 6, 0, 240, false⟩ ∧ (probing.link 2).modemReady = true ∧
    (probing.link 2).waiting = [] ∧ probing.matchEcho 2 5 .probe = some ⟨5, .probe, 19900⟩ := by decide
theorem witness_EchoesAreMatched_other : (probing.link 3).state = .absent ∧
    (∀ o ∈ (probing.link 2).openEchoes, ¬ (o.seq = 4 ∧ o.purpose = .probe)) ∧
    (let s := demo.onLink 1 fun k => { k with openEchoes := [⟨0, .keepalive, 19990⟩], closedEchoes := [(9, .keepalive)] }
     s.matchEcho 1 0 .keepalive = some ⟨0, .keepalive, 19990⟩ ∧ (9, Purpose.keepalive) ∈ (s.link 1).closedEchoes) := by decide
theorem witness_ProbeConcludes : (probed.link 2).state = .probing ∧ probed.matchEcho 2 7 .probe = some ⟨7, .probe, 19960⟩ ∧
    (probed.link 2).probe = some ⟨false, 8, 7, 0, 280, false⟩ ∧ (probed.link 2).rttLimit = some 50 ∧ 7 + 1 + 0 = 8 ∧
    (probing.link 2).openEchoes.find? (fun o => o.seq == 6 && o.purpose == .probe) = some ⟨6, .probe, 17900⟩ ∧
    17900 + 2000 ≤ probing.mli.clock := by decide

/-- A short probe whose second echo times out has failed. -/
theorem witness_ProbeConcludes_fails :
    let s := probing.onLink 2 fun k => { k with probe := some ⟨false, 7, 5, 1, 200, false⟩ }
    (after (.echoWindowEnd 2 6) s).link 2 ≠ s.link 2 ∧ ((after (.echoWindowEnd 2 6) s).link 2).state = .holddown := by decide
theorem witness_Keepalive : (demo.link 1).state = .active ∧ (demo.link 1).nextEcho = some 20000 ∧
    (demo.link 1).keepAnswered = some true ∧ (demo.link 1).modemReady = true ∧
    ((demo.onLink 1 fun k => { k with misses := 2, keepAnswered := some false }).link 1).misses + 1 = 3 := by decide
theorem witness_Keepalive_swap :
    let s := swapping.onLink 1 fun k => { k with misses := 2, keepAnswered := some false, nextEcho := some 20000 }
    (s.link 1).state = .active ∧ (s.link 1).misses + 1 = 3 ∧ s.slm.swap.fromLink = some 1 ∧
      (after (.keepaliveDue 1) s).slm.swap.planned = some false := by decide
theorem witness_Settle : settled.slm.settle = some ⟨0, 10000, 20000⟩ ∧ settled.slm.swap.inProgress = false ∧
    settled.activeLink? = some 1 ∧ settled.desired = some 0 ∧ settled.mli.device = .running := by decide
theorem witness_Settle_replaced : let s := demo.onSlm fun m => { m with settle := some ⟨0, 20000, 30000⟩ }
    s.slm.settle = some ⟨0, 20000, 30000⟩ ∧ s.mli.clock < 30000 := by decide
theorem witness_MoveAck : swapping.takes 0 = true ∧ swapping.slm.swap.inProgress = true ∧ swapping.linksOk ∧
    swapping.slm.swap.toLink = some 0 ∧ swapping.slm.swap.fromLink ≠ some 0 ∧ swapping.slm.settleTime ≠ 0 ∧
    3 ≠ swapping.slm.swap.number ∧ demo.slm.swap.inProgress = false ∧ demo.takes 1 = true := by decide
theorem witness_MoveAck_notices : (swapping.link 0).state = .joining ∧ swapping.slm.swap.planned = some true ∧
    swapping.slm.swap.fromLink = some 1 ∧ swapping.slm.isolated = none ∧
    noticeCount (after (.moveAck 0 swapping.slm.swap.number) swapping).mli.tx = noticeCount swapping.mli.tx + 3 := by decide
theorem witness_MoveAck_noFrom : let s := fromLost.onSlm fun m => { m with swap := { m.swap with fromLink := none } }
    s.takes 0 = true ∧ s.linksOk ∧ s.slm.swap.toLink = some 0 ∧ s.slm.swap.fromLink = none ∧ s.slm.settleTime ≠ 0 := by decide

/-- The swap goes on without a from-link after the cut-off began. -/
def cutOffSwap : State :=
  fromLost.onSlm fun m => { m with swap := { m.swap with fromLink := none }, isolated := some 15000, cutOff := true }

theorem witness_MoveAck_levels : cutOffSwap.handles.Nodup ∧ cutOffSwap.takes 0 = true ∧ cutOffSwap.linksOk ∧
    cutOffSwap.slm.swap.inProgress = true ∧ cutOffSwap.slm.swap.toLink = some 0 ∧ cutOffSwap.slm.isolated ≠ none ∧
    (0, alice) ∈ cutOffSwap.table.entries ∧ alice.reg = .served ∧ alice.barred = false ∧ alice.portLost = none ∧
    (cutOffSwap.port alice.port).state ≠ .down ∧
    .toHead 2 (.serveLevel 0 1 .full) ∈ (after (.moveAck 0 cutOffSwap.slm.swap.number) cutOffSwap).sent := by decide

/-- The timer of a swap whose to-link was lost does nothing to the unplanned swap begun at once in its place (R105). -/
theorem witness_SwapTimers_early : let t := after (.shoreCarrierLost 0) thirdReady
    t.slm.swap.inProgress = true ∧ t.slm.swap.ackExpiry = some 23000 ∧ t.mli.clock < 23000 ∧
      (after .moveAckTimerExpiry t).slm = t.slm := by decide
theorem witness_SwapTimers : swapping.slm.swap.ackExpiry = some 20000 ∧ (swapping.link 0).state = .joining ∧
    swapping.linksOk ∧ swapping.activeLink? ≠ none ∧
    (let s := demo.onLink 0 fun k => { k with state := .draining, guardAt := some 20000 }
     (s.link 0).state = .draining ∧ (s.link 0).guardAt = some 20000 ∧ s.activeLink? ≠ none) := by decide
theorem witness_Grace : isolated.slm.isolated = some 15000 ∧ isolated.slm.graceAt = some 20000 ∧ 20000 ≤ isolated.mli.clock := by decide
theorem witness_Grace_levels : isolated.handles.Nodup ∧ (0, alice) ∈ isolated.table.entries ∧
    (isolated.port alice.port).state ≠ .down ∧ .toHead 2 (.serveLevel 0 1 .onboardOnly) ∈ (after .graceExpiry isolated).sent := by
  decide

/-- A frame of Alice's waits in the swap store. -/
def draining : State := demo.onSws fun w => { w with frames := [⟨0, 0, 0, [9]⟩] }

theorem witness_StoreDrains : draining.activeLink? = some 1 ∧ draining.slm.swap.inProgress = false ∧
    draining.sws.frames = [⟨0, 0, 0, [9]⟩] ∧ draining.sws.offered = false ∧ draining.cpc.storeHold = false ∧
    draining.life? 0 0 = some alice ∧ draining.entitled alice = true ∧ (draining.link 1).free = true ∧
    draining.life? 0 5 = none ∧ ((draining.onLink 1 fun k => { k with modemReady := false }).link 1).free = false ∧
    lapsed.entitled { alice with reg := .lapsed } = false := by decide

theorem witness_StoreDrains_hold : let s := draining.onCpc fun c => { c with storeHold := true }
    s.cpc.storeHold = true ∧ s.life? 0 0 = some alice ∧ s.entitled alice = true ∧ (s.link 1).free = true ∧
    occupancy [] ≤ 262144 ∧ 262144 < occupancy (List.replicate 171 ⟨0, 0, 0, List.replicate 1536 0⟩) := by decide +kernel

/-! ### Roaming -/

theorem witness_PartnersAreLoaded : moored.hostReady ∧ partWellFormed ⟨0, partners, some (20, 5000)⟩ = true ∧
    moored.atBerth = true ∧ moored.partnersAccepted (partners.map clampPartner) = true ∧ demo.atBerth = false ∧
    moored.partnersAccepted [] = false := by decide
theorem witness_PartnersAreLoaded_next :
    let old : Staging := ⟨partners, 20, 5000, 0, false⟩
    (moored.onMli fun m => { m with staging := some old }).mli.staging = some old ∧ 1 = old.lastPart + 1 ∧
      partWellFormed ⟨1, [], none⟩ = true := by decide
theorem witness_PartnersAreLoaded_malformed : demo.hostFree ∧ demo.mli.staging = none ∧
    partWellFormed ⟨1, [], none⟩ = true ∧ partWellFormed ⟨8, [], none⟩ = false ∧ 32 < (List.replicate 33 (0 : Nat)).length ∧
    (let s := moored.onMli fun m => { m with staging := some ⟨partners, 20, 5000, 0, false⟩ }
     s.hostFree ∧ (2 : Nat) ≠ 0 + 1 ∧ (after (.loadPartnersPart (rq ⟨2, [], none⟩)) s).mli.staging = none) ∧
    (let s := moored.onRsc fun r => { r with scanEnded := false }
     s.hostFree ∧ partWellFormed ⟨0, [], some (20, 5000)⟩ = true) := by decide
theorem witness_Pacer : demo.pacerOpen = true ∧ demo.activeLink? = some 1 ∧ (demo.link 1).free = true ∧
    demo.nextWork = some (.ask 1) ∧ demo.entry? 1 = some bob ∧ bob.candidate = some (2, 2) ∧
    (demo.partner? 2).map (·.code) = some ⟨20002, false⟩ := by decide

/-- Bob alone, lapsed; then Alice alone, who owes a refresh. -/
def bobLapsed : State := demo.onEntry 1 fun e => { e with reg := .lapsed, candidate := none }
def aliceOwes : State := (demo.onEntry 1 fun e => { e with reg := .unroamed, candidate := none }).onEntry 0 fun e => { e with balance := -1 }

theorem witness_Pacer_lapsed : bobLapsed.nextWork = some (.ask 1) ∧ bobLapsed.chosen bob.home = some (1, 1) ∧
    (let s := bobLapsed.onEntry 1 fun e => { e with home := homeB }
     s.nextWork = some (.ask 1) ∧ s.chosen homeB = none) := by decide
theorem witness_Pacer_refresh : aliceOwes.nextWork = some (.refresh 0 true) ∧ alice.serving = some 1 := by decide
theorem witness_Pacer_classes : demo.freshClass ≠ [] ∧ aliceOwes.freshClass = [] ∧ aliceOwes.moveClass = [] ∧
    aliceOwes.owedClass ≠ [] ∧
    (let s := demo.onEntry 1 fun e => { e with reg := .unroamed, candidate := none }
     s.owedClass = [] ∧ s.rge.bucket = s.rge.depth ∧ s.pullInClass ≠ []) ∧
    (let s := demo.onEntry 0 fun e => { e with reg := .moving, candidate := some (2, 2) }
     s.moveClass ≠ []) := by decide

/-- Alice and Bob in one class of the pacer, each with the later handle first in one key. -/
def twoFresh : State := demo.onEntry 0 fun e => { e with reg := .lapsed }
def twoMoving : State := (demo.onEntry 0 fun e => { e with reg := .moving, candidate := some (2, 2) }).onEntry 1 fun e =>
  { e with reg := .moving, serving := some 1, regTime := some 9 }
def twoOwed (balance : Int) : State :=
  (demo.onEntry 0 fun e => { e with balance := balance }).onEntry 1 fun e => { e with
    reg := .served, serving := some 1, candidate := none, balance := balance, nextDue := some 18000 }

theorem witness_Pacer_order_fresh : twoFresh.handles.Nodup ∧ twoFresh.freshClass.map (·.1) = [0, 1] ∧
    twoFresh.nextWork = some (.ask 0) := by decide
theorem witness_Pacer_order_moves : twoMoving.freshClass = [] ∧ twoMoving.nextWork = some (.ask 1) ∧
    (∀ k ∈ [0, 1], k ∈ twoMoving.moveClass.map (·.1) ∧ ((twoMoving.entry? k).bind (·.regTime)).isSome = true) := by decide
theorem witness_Pacer_order_refreshes : (twoOwed (-1)).nextWork = some (.refresh 1 true) ∧
    (twoOwed 0).nextWork = some (.refresh 1 false) ∧
    (∀ k ∈ [0, 1], k ∈ (twoOwed (-1)).owedClass.map (·.1) ∧ k ∈ (twoOwed 0).pullInClass.map (·.1) ∧
      (((twoOwed 0).entry? k).bind (·.nextDue)).isSome = true) := by decide
theorem witness_RegistrationAnswers : asking.takes 1 = true ∧ asking.named? 1 2 = some bob ∧
    (asking.exchange? 1).map (fun x => (x.attach, x.kind, x.partner)) = some (1, .regAsk, 2) ∧ bob.reg = .registering ∧
    (∀ x, asking.exchange? 1 = some x → x.expiry = 25000) := by
  refine ⟨by decide, by decide, by decide, by decide, ?_⟩
  intro x h
  cases h
  rfl

/-- Alice's REG-ASK to partner 2 is in flight while she is served by partner 1. -/
def moveAsk (reg : RegState) : State :=
  (demo.onEntry 0 fun e => { e with reg := reg, candidate := some (2, 2) }).onRge fun g => { g with
    inFlight := [⟨0, 0, 1, .regAsk, 2, 1, 25000⟩] }

theorem witness_RegistrationAnswers_moving : let s := moveAsk .moving
    let t := after (.regOk 1 0 1 2) s
    s.takes 1 = true ∧ (s.named? 0 1).map (·.reg) = some .moving ∧ (s.exchange? 0).map (·.partner) = some 2 ∧
      s.activeLink? = some 1 ∧ (s.link 1).free = true ∧ (s.partner? 1).isSome = true ∧
      t.rtu.closeQueue.map (·.reason) = [.partner] ∧ (t.entry? 0).map (fun e => e.period.map (·.partner)) = some (some 2) ∧
      t.sent = [.toShore 1 (.dereg 0 1 1 ⟨20001, false⟩), .toHead 2 (.serveLevel 0 1 .full)] := by decide
theorem witness_RegistrationAnswers_waits :
    let s := (moveAsk .moving).onRtu fun u => { u with closeQueue := List.replicate 64 record }
    ((after (.regOk 1 0 1 2) s).entry? 0).map (fun e => (e.closing, e.period.map (·.partner))) = some (true, some 1) ∧
    (after (.regOk 1 0 1 2) (moveAsk .resting)).sent = [.toShore 1 (.dereg 0 1 1 ⟨20001, false⟩)] := by decide
theorem witness_RefreshesAreKept : refreshing.named? 0 1 = some alice ∧
    refreshing.exchange? 0 = some ⟨0, 0, 1, .refresh, 1, 1, 20000⟩ ∧ refreshing.takes 1 = true ∧
    20000 ≤ refreshing.mli.clock ∧ demo.entry? 0 = some alice ∧ alice.nextDue = some 19000 ∧ alice.serving = some 1 ∧
    alice.reg = .served ∧ -6 < alice.balance := by decide
theorem witness_RefreshesAreKept_lapse : ((demo.onEntry 0 fun e => { e with balance := -6 }).entry? 0).map (·.balance) = some (-6) := by
  decide
theorem witness_RefreshesAreKept_stale : demo.named? 0 9 = none ∧ demo.named? 0 1 = some alice ∧ demo.exchange? 0 = none := by decide

/-! ### Rating -/

theorem witness_TariffPlanIsLoaded : demo.hostReady ∧ demo.rtu.armed = false ∧ (63 : Nat) < 64 := by decide
theorem witness_TariffTakesEffect : demo.bankPasses = false ∧ (demo.onRtu fun u => { u with bank := [(0, plan)] }).bankPasses = true ∧
    demo.handles.Nodup := by decide
theorem witness_TariffTakesEffect_rotates : alice.period ≠ none ∧ alice.closing = false ∧ alice.qualifies = true ∧
    bob.period = none ∧ demo.rtu.waitList = [] ∧ demo.rtu.closeQueue.length < 64 ∧
    (let s := (demo.onRtu fun u => { u with bank := [(0, plan)], closeQueue := List.replicate 64 record })
     s.bankPasses = true ∧ s.rtu.closeQueue.length = 64 ∧ s.entry? 0 = some alice) := by decide
theorem witness_AdditionIsRated : demo.life? 0 7 = none ∧ demo.life? 1 1 = some bob ∧ bob.period = none ∧
    demo.life? 0 0 = some alice ∧ alice.closing = false ∧ alice.cap = 0 ∧
    ((demo.onEntry 0 fun e => { e with closing := true }).life? 0 0).map (·.closing) = some true := by decide
theorem witness_AdditionIsRated_period : alice.period.map (fun p => p.up + 1536 < 1099511627775) = some True := by
  simp [alice]
theorem witness_ChargingStopsAtTheCap :
    let s := demo.onEntry 0 fun e => { e with cap := 5000 }
    s.life? 0 0 = some { alice with cap := 5000 } ∧ s.mli.billing.alertPercent ≤ 100 ∧ 5000 ≤ 0 + 2 * 2938 + 0 * 1175 := by decide
theorem witness_ChargingStopsAtTheCap_closure : alice.period.map (·.clamped) = some false ∧ demo.rsc.bufferOn = true ∧
    demo.rtu.closeQueue.length < 64 ∧ demo.rtu.waitList = [] ∧
    (let s := (demo.onEntry 0 fun e => { e with cap := 5000 }).onRtu fun u => { u with closeQueue := List.replicate 64 record }
     64 ≤ s.rtu.closeQueue.length ∧ s.rtu.waitList.length < 4096 ∧ s.life? 0 0 = some { alice with cap := 5000 }) := by decide

/-- One increment at 2,938 stays below a cap of 3,000 and reaches its alert level of 80 percent, 2,400; under a cap of
5,000 it does not reach 4,000 (R148). -/
theorem witness_AdditionIsRated_capped :
    let s := fun (cap : Nat) => demo.onEntry 0 fun e => { e with cap := cap }
    (s 3000).life? 0 0 = some { alice with cap := 3000 } ∧ 0 + 1 * 2938 < 3000 ∧ 3000 * 80 / 100 ≤ 2938 ∧
      ((after (.meteredAddition 0 0 .uplink 1) (s 3000)).entry? 0).map (·.alertSent) = some true ∧
      ((after (.meteredAddition 0 0 .uplink 1) (s 5000)).entry? 0).map (·.alertSent) = some false := by decide
theorem witness_AgedPeriodCloses :
    let s := demo.onMli fun m => { m with clock := 900000 }
    s.entry? 0 = some alice ∧ alice.period.map (·.ageExpiry) = some 900000 ∧ s.rtu.closeQueue.length < 64 ∧ s.rtu.waitList = [] ∧
      s.rsc.bufferOn = true ∧ 64 ≤ (s.onRtu fun u => { u with closeQueue := List.replicate 64 record }).rtu.closeQueue.length ∧
      (s.periodFor? alice).isSome = true := by decide
theorem witness_CapAndClass : demo.named? 0 1 = some alice ∧ demo.hostReady ∧ alice.reg ≠ .resting ∧ alice.cls = .passenger ∧
    alice.barred = false ∧ (demo.onEntry 0 fun e => { e with reg := .resting }).named? 0 1 = some { alice with reg := .resting } ∧
    (demo.onEntry 0 fun e => { e with cls := .exempt }).named? 0 1 = some { alice with cls := .exempt } := by decide

/-! ### Record memory -/

theorem witness_RecordIsCommitted_accept :
    let s := demo.onRtu fun u => { u with closeQueue := [record] }
    s.rsc.scanEnded = true ∧ s.rsc.bufferOn = true ∧ s.rtu.closeQueue = [record] ∧ s.rsc.buffer.length < 32 ∧
      1 ≤ s.rsc.freeLevel ∧ s.rtu.waitList = [] ∧ s.mli.work = none := by decide
theorem witness_RecordIsCommitted_write : writing.rsc.op = some (.write 5) ∧ writing.rsc.job = some ⟨record, 5, false⟩ ∧
    5 ∉ writing.rsc.candidates ∧ writing.memoryOk := by decide

/-- The record is being written directly, with Alice's frozen period waiting behind it. -/
def writingDirect : State :=
  ((writing.onRsc fun r => { r with buffer := [], bufferOn := false, job := some ⟨record, 5, true⟩ }).onRtu fun u => { u with
    closeQueue := [record], waitList := [⟨0, 0, { record with serial := none }⟩] }).onEntry 0 fun e => { e with closing := true }

theorem witness_RecordIsCommitted_direct : writingDirect.memoryOk ∧ writingDirect.rsc.op = some (.write 5) ∧
    writingDirect.rsc.job = some ⟨record, 5, true⟩ ∧ writingDirect.rtu.closeQueue.tail.length < 64 ∧
    (writingDirect.life? 0 0).map (·.closing) = some true ∧
    ((after (.writeSlotDone true) writingDirect).entry? 0).map (·.closing) = some false := by decide

/-- A record queued while the write buffer is off and the port is free. -/
def queued : State := (demo.onRsc fun r => { r with bufferOn := false }).onRtu fun u => { u with closeQueue := [record] }

theorem witness_RecordIsCommitted_begins : queued.rsc.scanEnded = true ∧ queued.rsc.op = none ∧ queued.resetWaits = false ∧
    queued.rsc.bufferOn = false ∧ queued.rsc.job = none ∧ queued.rsc.clearList = [] ∧ queued.rsc.nextRead = none ∧
    1 ≤ queued.rsc.freeLevel ∧ queued.rsc.nextFree = some 0 := by decide
theorem witness_RecordIsCommitted_buffer_off : let s := writing.onRsc fun r => { r with usedSpares := List.range 1007 }
    s.rsc.op = some (.write 5) ∧ s.rsc.bufferOn = true ∧ s.rsc.buffer ≠ [] ∧ s.rsc.usedSpares.length = 1007 ∧
      s.rsc.lowStands = decide (s.rsc.freeLevel < 2048) ∧
      (after (.writeSlotDone false) s).rtu.closeQueue = [record] := by decide +kernel
theorem witness_RecordIsCommitted_verify :
    let s := stored.onRsc fun r => { r with op := some (.verify 5), job := some ⟨record, 5, false⟩, candidates := [5] }
    s.rsc.op = some (.verify 5) ∧ s.rsc.job = some ⟨record, 5, false⟩ ∧ s.rsc.readable 5 = true := by decide +kernel
theorem witness_RecordMemoryFailures : writing.rsc.usedSpares.length < 1024 ∧
    1024 ≤ (writing.onRsc fun r => { r with usedSpares := List.range 1024 }).rsc.usedSpares.length ∧
    (writing.onRsc fun r => { r with op := some (.mapWrite (.remap 5 0) true) }).rsc.op = some (.mapWrite (.remap 5 0) true) ∧
    (writing.onRsc fun r => { r with op := some (.mapWrite (.kill 5) false) }).rsc.op = some (.mapWrite (.kill 5) false) ∧
    settling.rsc.op = some (.clear 9) := by decide +kernel
/-- Slot 5 is dead and its map write under way, the spares used up; the other slots are as given. -/
def killing (again : Bool) (dead : List Nat) : State := writing.onRsc fun r => { r with
  op := some (.mapWrite (.kill 5) again), usedSpares := List.range 1024, dead := dead, lastGiven := 5 }

theorem witness_RecordMemoryFailures_kill : (killing true [5]).rsc.op = some (.mapWrite (.kill 5) true) ∧
    (killing false [5]).rsc.op = some (.mapWrite (.kill 5) false) ∧ (killing true [5]).rsc.nextFree = some 6 := by decide
theorem searchFree_of_all_dead (r : Rsc) (h : r.dead = List.range Limits.slots) :
    ∀ fuel slot, slot < Limits.slots → r.searchFree fuel slot = none
  | 0, _, _ => rfl
  | fuel + 1, slot, bound => by
    have taken : r.slotFree slot = false := by simp [Rsc.slotFree, h, bound]
    rw [Rsc.searchFree, if_neg (by simp [taken])]
    exact searchFree_of_all_dead r h fuel _ (Nat.mod_lt _ (by decide))
theorem killing_rsc (again : Bool) (dead : List Nat) : (killing again dead).rsc.dead = dead ∧
    (killing again dead).rsc.op = some (.mapWrite (.kill 5) again) ∧
    (killing again dead).rsc.job = some ⟨record, 5, false⟩ := ⟨rfl, rfl, rfl⟩
theorem witness_RecordMemoryFailures_kill_full : ∃ dead, (killing true dead).rsc.nextFree = none ∧
    5 ∈ (killing true dead).rsc.dead := by
  refine ⟨List.range Limits.slots, searchFree_of_all_dead _ (killing_rsc _ _).1 _ _ (Nat.mod_lt _ (by decide)), ?_⟩
  rw [(killing_rsc _ _).1]
  exact List.mem_range.2 (by decide)
theorem witness_BatchesAreSettled_build : (stored.onRsc fun r => { r with op := none, build := none }).mayBuild = true := by decide
theorem witness_BatchesAreSettled_read :
    let s := stored.onRsc fun r => { r with op := some (.read 258 5 .settle), build := some ⟨.settle, false, []⟩ }
    s.rsc.ring = [⟨258, 5, false⟩] ∧ s.rsc.readable 5 = true ∧ s.activeLink? = some 1 ∧ (s.link 1).free = true := by decide +kernel
theorem witness_BatchesAreSettled_unread :
    let s := stored.onRsc fun r => { r with op := some (.read 258 5 .settle), build := none }
    s.rsc.build = none ∧ ∃ p ∈ s.rsc.ring, p.serial = 258 ∧ p.slot = 5 := by decide

/-- Records 258 and 259 stand in slots 5 and 6, and the first is being read. -/
def twoRecords (kind : ReadFor) (got : List (Nat × List Byte)) (ring : List RingPlace) : State :=
  stored.onRsc fun r => { r with ring := ring, op := some (.read 258 5 kind), build := some ⟨kind, false, got⟩ }

theorem witness_BatchesAreSettled_next :
    let s := twoRecords .settle [] [⟨258, 5, false⟩, ⟨259, 6, false⟩]
    s.rsc.build = some ⟨.settle, false, []⟩ ∧ s.rsc.nextRead = some ⟨258, 5, false⟩ ∧ s.rsc.readable 5 = true ∧
      (∃ q ∈ s.rsc.ring, q.inFlight = false ∧ q.serial ∉ [258]) ∧ s.rsc.bufferOn = true ∧
      s.rsc.lowStands = decide (s.rsc.freeLevel < 2048) ∧
      (∃ q ∈ s.rsc.ring.filter fun p => p.serial != 258, q.inFlight = false ∧ q.serial ∉ []) := by decide +kernel
theorem witness_BatchesAreSettled_last :
    (∀ q ∈ (twoRecords .settle [] [⟨258, 5, false⟩]).rsc.ring.filter fun p => p.serial != 258, q.inFlight = true) ∧
    (let s := twoRecords .settle [(257, [])] [⟨257, 4, false⟩, ⟨258, 5, false⟩]
     (∀ q ∈ s.rsc.ring.filter fun p => p.serial != 258, q.serial ∈ [257]) ∧ s.activeLink? = some 1 ∧
      (s.link 1).free = true) ∧
    (let s := (twoRecords .hostCopy [(257, [])] [⟨257, 4, false⟩, ⟨258, 5, false⟩]).onMli fun m => { m with
       input := [.exportRecords (rq ())], work := some .exporting }
     s.mli.input.head? = some (.exportRecords ⟨7, some ()⟩) ∧ s.rsc.op = some (.read 258 5 .hostCopy)) := by decide +kernel
theorem witness_BatchesAreSettled_ends : settling.rsc.batch = some ⟨3, some 20000, some 1⟩ ∧ settling.rsc.build = none ∧
    settling.takes 1 = true ∧ settling.hostReady ∧ demo.rsc.batch = none ∧ 20000 ≤ settling.mli.clock := by decide

/-- The record waits on the LOCAL channel. -/
def onHost : State := stored.onRsc fun r => { r with channel := .onHost, op := none, build := none }

theorem witness_ExportAndFlush : stored.rsc.channel = .shore ∧ onHost.hostReady ∧ onHost.rsc.ring = [⟨258, 5, false⟩] ∧
    onHost.rsc.batch = none ∧ onHost.writeReady = false ∧
    (demo.onRsc fun r => { r with channel := .onHost }).rsc.ring = [] ∧ demo.writeReady = false := by decide
theorem witness_ExportAndFlush_done :
    let s := demo.onMli fun m => { m with input := [.flushRecords (rq ())], work := some .flushing }
    s.mli.input.head? = some (.flushRecords (rq ())) ∧ s.rtu.closeQueue = [] ∧ s.rsc.buffer = [] := by decide
theorem witness_ExportAndFlush_read :
    let s := (twoRecords .hostCopy [] [⟨258, 5, false⟩]).onMli fun m => { m with input := [.exportRecords (rq ())] }
    s.mli.input.head? = some (.exportRecords ⟨7, some ()⟩) ∧ s.rsc.op = some (.read 258 5 .hostCopy) ∧
      s.rsc.build = some ⟨.hostCopy, false, []⟩ ∧ s.rsc.nextRead = some ⟨258, 5, false⟩ ∧ s.rsc.readable 5 = true ∧
      ∀ q ∈ s.rsc.ring, q.serial ∈ [258] := by decide +kernel

/-- A record is queued and no slot is free. -/
def stalled (work : HeadWork) (request : Instr) : State :=
  ((demo.onRtu fun u => { u with closeQueue := [record] }).onRsc fun r => { r with clearList := List.replicate 32768 0, op := none }).onMli
    fun m => { m with input := [request], work := some work }

/-- Every slot owes a clear, the first of which is in flight; at most one write is in progress. -/
def fullStore (jobs : List WriteJob) : State :=
  demo.onRsc fun r => { r with clearList := List.replicate 32768 0, op := some (.clear 0), job := jobs.head? }

theorem witness_ExportAndFlush_stalled : let s := stalled .flushing (.flushRecords (rq ()))
    s.mli.work = some .flushing ∧ s.mli.input.head? = some (.flushRecords (rq ())) ∧ s.rtu.closeQueue ≠ [] ∧
      s.rsc.freeLevel = 0 ∧ s.rsc.buffer = [] ∧ s.rsc.job = none := by decide +kernel

/-! ### The interface -/

theorem witness_SettingsAreTaken : demo.hostReady ∧ moored.hostReady ∧ moored.mli.device = .unconfigured ∧
    settling.rsc.channel ≠ .onHost ∧ settling.rsc.batch = some ⟨3, some 20000, some 1⟩ ∧ settling.rsc.build = none ∧
    [homeA, homeB].Nodup ∧ ¬ [homeA, homeA].Nodup ∧ [homeA, homeB].all codeOk = true := by decide
theorem witness_SettingsAreTaken_channel : demo.rsc.channel ≠ .onHost ∧ demo.rsc.batch = none ∧ demo.rsc.build = none := by decide
theorem witness_SettingsAreTaken_enable :
    let s := demo.onLink 2 fun k => { k with carrier := true }
    (s.link 2).enabled = false ∧ (s.link 2).state = .absent ∧ (s.link 2).carrier = true ∧ (s.link 1).enabled = true := by decide
theorem witness_StartAndReset : moored.hostReady ∧ moored.mli.device = .unconfigured ∧ moored.tracker.zones ≠ [] ∧
    moored.rge.partners ≠ [] ∧ moored.rtu.activeExists = true ∧ demo.handles.Nodup ∧
    State.reset.tracker.zones = [] := by decide
theorem witness_StartAndReset_complete : resetting.mli.work = some (.resetting 1 none) ∧
    resetting.mli.input.head? = some (.reset (rq ())) ∧ resetting.rtu.closeQueue = [] ∧ resetting.rsc.buffer = [] ∧
    resetting.rsc.op = none := by decide
theorem witness_StartAndReset_stalled : let s := stalled (.resetting 1 (some 2)) (.reset (rq ()))
    s.mli.work = some (.resetting 1 (some 2)) ∧ s.mli.input.head? = some (.reset (rq ())) ∧ s.rsc.op = none := by decide

/-- A full store with a clear in flight, and a record queued. -/
def clearing : State := (fullStore []).onRtu fun u => { u with closeQueue := [record] }

theorem witness_StartAndReset_stalls : clearing.hostReady ∧ clearing.handles.Nodup ∧ clearing.rsc.freeLevel = 0 ∧
    clearing.rsc.buffer = [] ∧ clearing.rsc.job = none ∧ clearing.rtu.closeQueue ≠ [] ∧
    clearing.rtu.waitList.length + clearing.openPeriods = 1 ∧ clearing.rsc.op = some (.clear 0) := by decide +kernel

/-- RESET loses the closure queued and Alice's at once, and the host may be sent CLOSURE-LOST while the clear goes on (R170;
R180, steps 2 and 3). -/
theorem test_reset_stalls : let t := after (.reset (rq ())) clearing
    t.mli.work = some (.resetting 1 (some 2)) ∧ t.rtu.closeQueue = [] ∧ t.rsc.op = some (.clear 0) ∧
      noticeCount t.mli.tx = 1 ∧ (after .resetComplete t).mli.work = some (.resetting 1 (some 2)) := by decide +kernel

/-- A RESET whose last write ends with a record queued behind it and no slot free. -/
def lastWrite (op : MemOp) : State :=
  (((fullStore [⟨record, 5, true⟩]).onRsc fun r => { r with op := some op, lowStands := true, bufferOn := false }).onRtu fun u =>
    { u with closeQueue := [record, record] }).onMli fun m => { m with
      work := some (.resetting 1 none), input := [.reset (rq ())] }

theorem witness_StartAndReset_commit : let s := lastWrite (.write 5)
    s.powered = true ∧ s.mli.work = some (.resetting 1 none) ∧ s.rsc.freeLevel = 0 ∧ s.rsc.op = some (.write 5) ∧
      s.rsc.job = some ⟨record, 5, true⟩ ∧ 5 ∉ s.rsc.candidates ∧ s.rsc.lowStands = true ∧ s.rtu.closeQueue.tail ≠ [] ∧
      s.rsc.buffer = [] := by decide +kernel
theorem witness_StartAndReset_commit_buffered :
    let s := (lastWrite (.write 5)).onRsc fun r => { r with job := some ⟨record, 5, false⟩, buffer := [record], bufferOn := true }
    s.rsc.freeLevel = 0 ∧ s.rsc.buffer.length = 1 ∧ s.rtu.closeQueue ≠ [] := by decide +kernel
theorem freeLevel_of_all_dead (r : Rsc) (h : r.dead = List.range Limits.slots) : r.freeLevel = 0 := by
  simp [Rsc.freeLevel, Rsc.capacity, h]
def killed (dead : List Nat) : State := (lastWrite (.mapWrite (.kill 5) false)).onRsc fun r => { r with dead := dead }
theorem killed_full (dead : List Nat) (h : dead = List.range Limits.slots) :
    (killed dead).rsc.nextFree = none ∧ ({ (killed dead).rsc with job := none } : Rsc).freeLevel = 0 ∧
      (killed dead).rsc.lowStands = true ∧ (killed dead).rsc.job = some ⟨record, 5, true⟩ ∧
      (killed dead).rtu.closeQueue ≠ [] ∧ (killed dead).rsc.buffer = [] :=
  ⟨searchFree_of_all_dead _ h _ _ (Nat.mod_lt _ (by decide)), freeLevel_of_all_dead _ h, rfl, rfl, List.cons_ne_nil _ _, rfl⟩
theorem witness_StartAndReset_kill : (killed (List.range Limits.slots)).rsc.nextFree = none ∧
    ({ (killed (List.range Limits.slots)).rsc with job := none } : Rsc).freeLevel = 0 :=
  ⟨(killed_full _ rfl).1, (killed_full _ rfl).2.1⟩
theorem witness_PowerAndScan : demo.rsc.op = none ∧ State.reset.rsc.op = none ∧ State.reset.powered = true ∧
    State.reset.rsc.scanEnded = false ∧ State.reset.rsc.memory = [] ∧ State.reset.rsc.job = none ∧
    (after .powerLoss demo).powered = false := by decide

/-- The written record after a power cycle, before the scan. -/
def cycled : State := after .powerOn (stored.onRsc fun r => { r with op := none })

theorem witness_PowerAndScan_found : cycled.powered = true ∧ cycled.rsc.scanEnded = false ∧ cycled.rsc.job = none ∧
    cycled.rsc.buffer = [] ∧ cycled.rtu.closeQueue = [] ∧ cycled.mli.tx = [] ∧
    cycled.rsc.headerAt [] 5 = .holds 258 ∧ cycled.rsc.headerAt [5] 5 = .unreadable ∧
    cycled.rsc.headerAt [] 32767 = .neverWritten := by decide +kernel
theorem witness_InterfaceMovesFrames : demo.mli.rx = [] ∧ demo.mli.input.length < 4 ∧ demo.hostFree ∧
    demo.mli.hostCts = true ∧ (demo.onMli fun m => { m with tx := [.reply ⟨7, [1]⟩] }).mli.tx = [.reply ⟨7, [1]⟩] ∧
    (after (.shoreCarrierLost 1) demo).mli.tx.length ≠ 0 ∧
    (demo.onMli fun m => { m with rx := [0x7E], gapLeft := 0 }).mli.gapLeft = 0 := by decide

/-- A PORT-LOST notice of port 0, and a state whose transmitter holds it behind another. -/
def lostOnPort (p : Fin 6) : Notice := .portLost p 1 0 100 1
def reporting : State := demo.onMli fun m => { m with tx := [.notice (lostOnPort 1), .notice (lostOnPort 0)], overflow := true }

theorem witness_InterfaceMovesFrames_notices :
    reporting.mli.tx = [TxItem.notice (lostOnPort 1)] ++ .notice (lostOnPort 0) :: [] ∧
    (lostOnPort 0).sameSubject (lostOnPort 0) = true ∧ (lostOnPort 1).sameSubject (lostOnPort 0) = false ∧
    (lostOnPort 1).sameSubject (lostOnPort 2) = false ∧ noticeCount reporting.mli.tx < 64 ∧
    64 ≤ noticeCount (List.replicate 64 (TxItem.notice (lostOnPort 0))) ∧ reporting.hostFree := by decide
theorem witness_InterfaceMovesFrames_wait : resetting.mli.work ≠ none ∧ resetting.mli.input.length < 4 ∧
    4 ≤ (resetting.onMli fun m => { m with input := List.replicate 4 (.start (rq ())) }).mli.input.length ∧
    State.reset.mli.work = none ∧ State.reset.mli.input = [] ∧ State.reset.rsc.scanEnded = false := by decide
theorem witness_InterfaceMovesFrames_requests :
    (Decode.encode (.fix (rq ⟨1500, .good⟩))).map (·.1) = some Kind.fix ∧
    (Decode.encode (.loadZones (rq { newCourse with zones := [] }))).map (·.1) = some Kind.loadZones ∧
    (Decode.encode (.loadPartnersPart (rq ⟨1, [], none⟩))).map (·.1) = some Kind.loadPartners ∧
    (resetting.onMli fun m => { m with work := none }).mli.input = [.reset (rq ())] ∧
    Instr.reset (rq ()) ≠ .fix (rq ⟨1500, .good⟩) ∧ State.reset.hostFree ∧
    lastReply (after (.fix (rq ⟨1500, .good⟩)) State.reset) = replyHeader Kind.fix (some .notReady) false false ∧
    lastReply (after (.loadZones (rq { newCourse with zones := [] })) State.reset)
      = replyHeader Kind.loadZones (some .malformed) false false := by decide
theorem witness_ZoneIsQueried : demo.hostFree ∧ State.reset.hostFree ∧ State.reset.rsc.scanEnded = false := by decide
theorem witness_QueriesChangeNothing : (demo.entryNamed (.byToken 1)).map (·.1) = some 0 ∧
    (demo.entryNamed (.byToken 9)).map (·.1) = none := by decide
theorem witness_RequestsReadBackAsSent : (Instr.fix (rq ⟨1500, .degraded⟩)).wellFormed = true ∧
    Decode.encode (.fix (rq ⟨1500, .degraded⟩)) = some (0x04, 7, [0xDC, 0x05, 0x00, 0x01]) ∧
    record.serial = some 258 := by decide

end Sys2Proof.Tests
end

