-- ==== Sys2Proof/Proofs/Standing.lean ====
section
/-! SUPPORT. What stands in a state until one of a few commands changes it: the settings of R4, R23, R78, R93, R120, R142 to
R145, R167 and R182, and what R16 speaks of (the device state, the verdict, and the state of each cell port), and the clocks. For each
shared operation one lemma says that it leaves all of this as it is; a proof about a command then looks at that command's own
writes alone. -/

namespace Sys2Proof.Machine

/-- The tracker's table and settings (R4). -/
structure ZoneSettings where
  zones : List Zone
  routeLength : Nat
  hysteresis : Nat
  fixTimeout : Nat
  holdTime : Nat
  retentionTime : Nat

/-- The partner table and the pacer's settings (R120). -/
structure PartnerSettings where
  partners : List Partner
  pacerRate : Nat
  exchangeTimer : Nat

/-- The tariff banks (R142 to R145). -/
structure BankSettings where
  active : List (Nat × TariffPlan)
  bank : List (Nat × TariffPlan)
  armed : Bool

/-- What CONFIGURE-LINK gives a shore link (R78). -/
structure LinkSettings where
  type : Option LinkType
  costRank : Nat
  rttLimit : Option Nat
  holddownTime : Nat
  reprobeTime : Nat
  enabled : Bool

/-- What PIN-LINK sets (R93). -/
structure SwapSettings where
  pin : Option (Fin 4)
  settleTime : Nat
  moveAckTimer : Nat
  guardTime : Nat
  grace : Nat

/-- Every setting that a request of its own changes; `cells` gives the limit and the port-lost time of each port (R23),
`delivery` the channel and the batch timer (R167). -/
structure Settings where
  zones : ZoneSettings
  partners : PartnerSettings
  banks : BankSettings
  billing : Billing
  links : Fin 4 → LinkSettings
  cells : Fin 6 → Nat × Nat
  swap : SwapSettings
  delivery : Channel × Nat

/-- What radio silence speaks of (R16). -/
structure Radio where
  device : DeviceState
  verdict : Option VerdictZone
  ports : Fin 6 → PortState

/-- The settings, the radio, and the voyage clock with ship time. -/
structure Standing where
  settings : Settings
  radio : Radio
  clocks : Nat × Nat

@[simp] abbrev Tracker.settings (t : Tracker) : ZoneSettings :=
  ⟨t.zones, t.routeLength, t.hysteresis, t.fixTimeout, t.holdTime, t.retentionTime⟩
@[simp] abbrev Rge.settings (g : Rge) : PartnerSettings := ⟨g.partners, g.pacerRate, g.exchangeTimer⟩
@[simp] abbrev Rtu.settings (u : Rtu) : BankSettings := ⟨u.active, u.bank, u.armed⟩
@[simp] abbrev Link.settings (k : Link) : LinkSettings :=
  ⟨k.type, k.costRank, k.rttLimit, k.holddownTime, k.reprobeTime, k.enabled⟩
@[simp] abbrev CellPort.settings (q : CellPort) : Nat × Nat := (q.limit, q.portLostTime)
@[simp] abbrev Slm.settings (m : Slm) : SwapSettings := ⟨m.pin, m.settleTime, m.moveAckTimer, m.guardTime, m.grace⟩
@[simp] abbrev Rsc.settings (r : Rsc) : Channel × Nat := (r.channel, r.batchTimer)

def State.settings (s : State) : Settings :=
  { zones := s.tracker.settings, partners := s.rge.settings, banks := s.rtu.settings, billing := s.mli.billing,
    links := fun l => (s.link l).settings, cells := fun p => (s.port p).settings, swap := s.slm.settings,
    delivery := s.rsc.settings }

def State.radio (s : State) : Radio :=
  { device := s.mli.device, verdict := s.tracker.verdict, ports := fun p => (s.port p).state }

def State.standing (s : State) : Standing := ⟨s.settings, s.radio, s.mli.clock, s.mli.shipTime⟩

/-! ### Updates of one block -/

@[simp] theorem State.onTracker_standing (f : Tracker → Tracker) (s : State)
    (h : ∀ x, (f x).settings = x.settings ∧ (f x).verdict = x.verdict) : (s.onTracker f).standing = s.standing := by
  simp only [State.standing, State.settings, State.radio, State.onTracker_tracker, (h _).1, (h _).2]
  rfl

@[simp] theorem State.onTable_standing (f : Table → Table) (s : State) : (s.onTable f).standing = s.standing := rfl
@[simp] theorem State.onRouter_standing (f : Router → Router) (s : State) : (s.onRouter f).standing = s.standing := rfl
@[simp] theorem State.onSws_standing (f : SwapStore → SwapStore) (s : State) : (s.onSws f).standing = s.standing := rfl
@[simp] theorem State.onEntry_standing (h : Nat) (f : Entry → Entry) (s : State) : (s.onEntry h f).standing = s.standing := rfl
@[simp] theorem State.emit_standing (r : Sent) (s : State) : (s.emit r).standing = s.standing := rfl

@[simp] theorem State.onSlm_standing (f : Slm → Slm) (s : State)
    (h : ∀ x, (f x).settings = x.settings ∧ (f x).links = x.links) : (s.onSlm f).standing = s.standing := by
  simp only [State.standing, State.settings, State.radio, State.link, State.onSlm_slm, (h _).1, (h _).2]
  rfl

@[simp] theorem State.onRge_standing (f : Rge → Rge) (s : State) (h : ∀ x, (f x).settings = x.settings) :
    (s.onRge f).standing = s.standing := by
  simp only [State.standing, State.settings, State.radio, State.onRge_rge, h]
  rfl

@[simp] theorem State.onRtu_standing (f : Rtu → Rtu) (s : State) (h : ∀ x, (f x).settings = x.settings) :
    (s.onRtu f).standing = s.standing := by
  simp only [State.standing, State.settings, State.radio, State.onRtu_rtu, h]
  rfl

@[simp] theorem State.onRsc_standing (f : Rsc → Rsc) (s : State) (h : ∀ x, (f x).settings = x.settings) :
    (s.onRsc f).standing = s.standing := by
  simp only [State.standing, State.settings, State.radio, State.onRsc_rsc, h]
  rfl

@[simp] theorem State.onMli_standing (f : Mli → Mli) (s : State)
    (h : ∀ x, (f x).billing = x.billing ∧ (f x).device = x.device ∧ (f x).clock = x.clock ∧ (f x).shipTime = x.shipTime) :
    (s.onMli f).standing = s.standing := by
  obtain ⟨hbilling, hdevice, hclock, htime⟩ := h s.mli
  simp only [State.standing, State.settings, State.radio, State.onMli_mli, hbilling, hdevice, hclock, htime]
  rfl

@[simp] theorem State.onLink_standing (l : Fin 4) (f : Link → Link) (s : State) (h : ∀ k, (f k).settings = k.settings) :
    (s.onLink l f).standing = s.standing := by
  have hl : ∀ k, ((s.onLink l f).link k).settings = (s.link k).settings := by
    intro k
    by_cases hk : l = k
    · subst hk; simp only [State.link_onLink, if_true, h]
    · simp only [State.link_onLink, if_neg hk]
  simp only [State.standing, State.settings, State.radio, hl]
  rfl

@[simp] theorem State.onPort_standing (p : Fin 6) (f : CellPort → CellPort) (s : State)
    (h : ∀ q, (f q).settings = q.settings ∧ (f q).state = q.state) : (s.onPort p f).standing = s.standing := by
  have hp : ∀ q, ((s.onPort p f).port q).settings = (s.port q).settings ∧
      ((s.onPort p f).port q).state = (s.port q).state := by
    intro q
    by_cases hq : p = q
    · subst hq; simp only [State.port_onPort, if_true, (h _).1, (h _).2, and_self]
    · simp only [State.port_onPort, if_neg hq, and_self]
  simp only [State.standing, State.settings, State.radio, fun q => (hp q).1, fun q => (hp q).2]
  rfl

@[simp] theorem State.onCpc_standing (f : Cpc → Cpc) (s : State) (h : ∀ x, (f x).ports = x.ports) :
    (s.onCpc f).standing = s.standing := by
  simp only [State.standing, State.settings, State.radio, State.port, State.onCpc_cpc, h]
  rfl

theorem State.eachOf_standing {α : Type} (l : List α) (f : α → State → State)
    (hf : ∀ a s, (f a s).standing = s.standing) (s : State) : (s.eachOf l f).standing = s.standing := by
  unfold State.eachOf
  induction l generalizing s with
  | nil => rfl
  | cons a l ih => rw [List.foldl_cons, ih, hf]

theorem State.eachEntry_standing (f : Nat → State → State) (hf : ∀ a s, (f a s).standing = s.standing) (s : State) :
    (s.eachEntry f).standing = s.standing := State.eachOf_standing s.handles f hf s

/-! ### Counters -/

@[simp] theorem State.countPort_standing (p : Fin 6) (f : PortCounters → PortCounters) (s : State) :
    (s.countPort p f).standing = s.standing := State.onPort_standing p _ s fun _ => ⟨rfl, rfl⟩
@[simp] theorem State.countRge_standing (f : RoamingCounters → RoamingCounters) (s : State) :
    (s.countRge f).standing = s.standing := rfl
@[simp] theorem State.countRtu_standing (f : RatingCounters → RatingCounters) (s : State) :
    (s.countRtu f).standing = s.standing := rfl
@[simp] theorem State.countRouter_standing (f : RouterTotals → RouterTotals) (s : State) :
    (s.countRouter f).standing = s.standing := rfl
@[simp] theorem State.countLink_standing (l : Fin 4) (f : LinkCounters → LinkCounters) (s : State) :
    (s.countLink l f).standing = s.standing := State.onLink_standing l _ s fun _ => rfl
@[simp] theorem State.countRsc_standing (f : RecordCounters → RecordCounters) (s : State) :
    (s.countRsc f).standing = s.standing := rfl
@[simp] theorem State.countMli_standing (f : MliCounters → MliCounters) (s : State) :
    (s.countMli f).standing = s.standing := rfl

/-! ### Notices and records sent -/

@[simp] theorem State.raise_standing (n : Notice) (s : State) : (s.raise n).standing = s.standing := by
  unfold State.raise
  apply State.onMli_standing
  intro m
  split
  · exact ⟨rfl, rfl, rfl, rfl⟩
  · split <;> exact ⟨rfl, rfl, rfl, rfl⟩

@[simp] theorem State.toHead_standing (p : Fin 6) (r : HeadRecord) (s : State) : (s.toHead p r).standing = s.standing := by
  unfold State.toHead; split <;> simp

@[simp] theorem State.sendLevel_standing (h : Nat) (level : ServeLevel) (s : State) :
    (s.sendLevel h level).standing = s.standing := by
  unfold State.sendLevel
  split
  · rfl
  · split <;> simp

@[simp] theorem State.sendLevelByEntitlement_standing (h : Nat) (s : State) :
    (s.sendLevelByEntitlement h).standing = s.standing := by
  unfold State.sendLevelByEntitlement
  split <;> simp

@[simp] theorem State.sendHold_standing (p : Fin 6) (s : State) : (s.sendHold p).standing = s.standing := by
  unfold State.sendHold
  simp

@[simp] theorem State.storeFault_standing (r : StoreFault) (slot : Option Nat) (s : State) :
    (s.storeFault r slot).standing = s.standing := State.raise_standing _ s

@[simp] theorem State.linkChanged_standing (l : Fin 4) (a b : LinkState) (c : LinkCause) (s : State) :
    (s.linkChanged l a b c).standing = s.standing := State.raise_standing _ s

/-! ### The record store -/

@[simp] theorem State.checkLow_standing (s : State) : s.checkLow.standing = s.standing := by
  unfold State.checkLow
  dsimp only
  split
  · split
    · rfl
    · simp
  · simp

@[simp] theorem State.beginWrite_standing (s : State) : s.beginWrite.standing = s.standing := by
  unfold State.beginWrite
  split
  · rfl
  · split
    · split <;> rfl
    · split
      · rfl
      · rw [State.checkLow_standing]; rfl

@[simp] theorem State.beginOther_standing (s : State) : s.beginOther.standing = s.standing := by
  unfold State.beginOther
  split
  · rfl
  · split <;> rfl

@[simp] theorem State.arbitrate_standing (s : State) : s.arbitrate.standing = s.standing := by
  unfold State.arbitrate
  dsimp only
  split
  · rfl
  · split
    · simp
    · split <;> simp

@[simp] theorem State.returnBatch_standing (c : ReturnCause) (s : State) : (s.returnBatch c).standing = s.standing := by
  unfold State.returnBatch
  apply State.onRsc_standing
  intro r
  dsimp only
  split <;> rfl

@[simp] theorem State.batchLinkLeft_standing (l : Fin 4) (s : State) : (s.batchLinkLeft l).standing = s.standing := by
  unfold State.batchLinkLeft
  split
  · split <;> simp
  · simp

/-! ### Periods -/

@[simp] theorem State.openPeriod_standing (h : Nat) (s : State) : (s.openPeriod h).standing = s.standing := by
  unfold State.openPeriod
  split
  · rfl
  · split
    · split <;> rfl
    · rfl

@[simp] theorem State.closuresLost_standing (n : Nat) (s : State) : (s.closuresLost n).standing = s.standing := by
  rw [State.closuresLost, State.storeFault_standing]; rfl

@[simp] theorem State.makeRoom_standing (s : State) : s.makeRoom.standing = s.standing := by
  unfold State.makeRoom
  split
  · rfl
  · split
    · rfl
    · rw [State.closuresLost_standing]; rfl

@[simp] theorem State.joinWaitList_standing (w : WaitingClosure) (s : State) : (s.joinWaitList w).standing = s.standing := by
  unfold State.joinWaitList
  simp

@[simp] theorem State.closePeriod_standing (r : CloseReason) (h : Nat) (s : State) :
    (s.closePeriod r h).standing = s.standing := by
  unfold State.closePeriod
  split
  · rfl
  · split
    · rfl
    · split
      · rfl
      · dsimp only
        split
        · rw [State.arbitrate_standing]; rfl
        · rw [State.onEntry_standing, State.joinWaitList_standing]; rfl

@[simp] theorem State.feedQueue_standing (s : State) : s.feedQueue.standing = s.standing := by
  unfold State.feedQueue
  split
  · rfl
  · split
    · dsimp only
      split
      · rfl
      · split
        · rw [State.openPeriod_standing]; rfl
        · rfl
    · rfl

@[simp] theorem State.raiseLoss_standing (h a : Nat) (s : State) : (s.raiseLoss h a).standing = s.standing := by
  unfold State.raiseLoss
  split
  · rfl
  · dsimp only
    split <;> rfl

@[simp] theorem State.endFlush_standing (s : State) : s.endFlush.standing = s.standing := by
  unfold State.endFlush
  split
  · split
    · simp
    · rfl
  · rfl

@[simp] theorem State.nextOperation_standing (s : State) : s.nextOperation.standing = s.standing := by
  rw [State.nextOperation, State.arbitrate_standing, State.endFlush_standing, State.checkLow_standing]

/-! ### The swap store and the shore ports -/

@[simp] theorem State.reportRise_standing (s : State) : s.reportRise.standing = s.standing := by
  unfold State.reportRise
  split
  · rw [State.eachOf_standing _ _ (fun p s => by split <;> simp)]
    simp
  · rfl

@[simp] theorem State.reportFall_standing (s : State) : s.reportFall.standing = s.standing := by
  unfold State.reportFall
  split
  · rw [State.eachOf_standing _ _ (fun p s => by
      split
      · simp
      · rfl)]
    simp
  · rfl

@[simp] theorem State.makeAddition_standing (a : Addition) (s : State) : (s.makeAddition a).standing = s.standing := rfl
@[simp] theorem State.popFrame_standing (s : State) : s.popFrame.standing = s.standing := rfl

@[simp] theorem State.withdrawOffer_standing (s : State) : s.withdrawOffer.standing = s.standing := by
  unfold State.withdrawOffer
  split
  · rw [State.eachOf_standing _ _ (fun l s => by simp), State.onSws_standing]
  · rfl

@[simp] theorem State.shedHead_standing (s : State) : s.shedHead.standing = s.standing := by
  unfold State.shedHead
  split <;> simp

@[simp] theorem State.shedFor_standing (len n : Nat) (s : State) : (s.shedFor len n).standing = s.standing := by
  induction n generalizing s with
  | zero => rfl
  | succ n ih => unfold State.shedFor; split <;> simp [ih]

@[simp] theorem State.storeFrame_standing (f : StoredFrame) (s : State) : (s.storeFrame f).standing = s.standing := by
  unfold State.storeFrame
  simp

@[simp] theorem State.shedAll_standing (n : Nat) (s : State) : (s.shedAll n).standing = s.standing := by
  induction n generalizing s with
  | zero => rfl
  | succ n ih => unfold State.shedAll; simp [ih]

@[simp] theorem State.handOffStored_standing (l : Fin 4) (t : Token) (s : State) :
    (s.handOffStored l t).standing = s.standing := by
  unfold State.handOffStored
  split
  · rfl
  · dsimp only
    split
    · split <;> simp
    · simp

@[simp] theorem State.takeEcho_standing (l : Fin 4) (p : Purpose) (d : Nat) (s : State) :
    (s.takeEcho l p d).standing = s.standing := by
  unfold State.takeEcho
  dsimp only
  simp

@[simp] theorem State.modemTakes_standing (l : Fin 4) (w : Waiting) (s : State) :
    (s.modemTakes l w).standing = s.standing := by
  unfold State.modemTakes
  split
  · simp
  · simp
  · apply State.onSlm_standing
    intro m
    split <;> exact ⟨rfl, rfl⟩
  · simp

@[simp] theorem State.offer_standing (l : Fin 4) (w : Waiting) (s : State) : (s.offer l w).standing = s.standing := by
  unfold State.offer
  split
  · simp
  · exact State.onLink_standing l _ s fun _ => rfl

/-! ### Links -/

@[simp] theorem State.requeue_standing (l : Fin 4) (s : State) : (s.requeue l).standing = s.standing := rfl
@[simp] theorem State.enterState_standing (l : Fin 4) (n : LinkState) (s : State) :
    (s.enterState l n).standing = s.standing := State.onLink_standing l _ s fun _ => rfl

@[simp] theorem State.dropWaiting_standing (l : Fin 4) (failed : Bool) (s : State) :
    (s.dropWaiting l failed).standing = s.standing := by
  have hdrop : (s.onLink l fun k => { k with waiting := [] }).standing = s.standing := State.onLink_standing l _ s fun _ => rfl
  unfold State.dropWaiting
  dsimp only
  split
  · split <;> simp [hdrop]
  · exact hdrop

@[simp] theorem State.startProbe_standing (l : Fin 4) (c : LinkCause) (s : State) : (s.startProbe l c).standing = s.standing := by
  unfold State.startProbe
  dsimp only
  rw [State.offer_standing]
  split
  · simp
  · simp

@[simp] theorem State.leaveFor_standing (l : Fin 4) (n : LinkState) (c : LinkCause) (q : Bool) (s : State) :
    (s.leaveFor l n c q).standing = s.standing := by
  unfold State.leaveFor
  dsimp only
  split <;> split <;> simp

/-! ### Roaming -/

@[simp] theorem State.sendDereg_standing (h : Nat) (t : Token) (i : Nat) (s : State) :
    (s.sendDereg h t i).standing = s.standing := by
  unfold State.sendDereg
  split <;> simp

@[simp] theorem State.dropExchange_standing (h : Nat) (s : State) : (s.dropExchange h).standing = s.standing := rfl
@[simp] theorem State.dropRegAsk_standing (h : Nat) (k : Option Nat) (s : State) :
    (s.dropRegAsk h k).standing = s.standing := rfl

@[simp] theorem State.giveCandidate_standing (h : Nat) (s : State) : (s.giveCandidate h).standing = s.standing := by
  unfold State.giveCandidate
  split
  · rfl
  · split <;> rfl

@[simp] theorem State.lapse_standing (h : Nat) (r : Bool) (s : State) : (s.lapse h r).standing = s.standing := by
  unfold State.lapse
  split
  · rfl
  · simp

@[simp] theorem State.voidRegistration_standing (h : Nat) (s : State) : (s.voidRegistration h).standing = s.standing := by
  unfold State.voidRegistration
  split
  · rfl
  · dsimp only
    repeat' split
    all_goals simp

@[simp] theorem State.beginMove_standing (h : Nat) (c : Nat × Nat) (s : State) : (s.beginMove h c).standing = s.standing := rfl

@[simp] theorem State.moveCheck_standing (h : Nat) (s : State) : (s.moveCheck h).standing = s.standing := by
  unfold State.moveCheck
  split
  · rfl
  · dsimp only
    repeat' split
    all_goals simp

@[simp] theorem State.askFailed_standing (h : Nat) (s : State) : (s.askFailed h).standing = s.standing := by
  unfold State.askFailed
  split
  · rfl
  · dsimp only
    split <;> simp

@[simp] theorem State.dropUnfit_standing (h : Nat) (s : State) : (s.dropUnfit h).standing = s.standing := by
  unfold State.dropUnfit
  split <;> rfl

@[simp] theorem State.sendExchange_standing (l : Fin 4) (h : Nat) (e : Entry) (k : ExchangeKind) (p : Nat) (r : ShoreRecord)
    (s : State) : (s.sendExchange l h e k p r).standing = s.standing := by
  unfold State.sendExchange
  dsimp only
  rw [State.offer_standing]
  exact State.onRge_standing _ _ fun g => by simp only [Rge.settings]

@[simp] theorem State.sendAsk_standing (l : Fin 4) (h : Nat) (s : State) : (s.sendAsk l h).standing = s.standing := by
  unfold State.sendAsk
  split
  · rfl
  · split <;> simp

/-! ### Swaps, selection and isolation -/

@[simp] theorem State.beginSwap_standing (l : Fin 4) (p : Bool) (s : State) : (s.beginSwap l p).standing = s.standing := by
  unfold State.beginSwap
  simp

@[simp] theorem State.workOut_standing (s : State) : s.workOut.standing = s.standing := by
  unfold State.workOut
  repeat' split
  all_goals simp

@[simp] theorem State.beginCutOff_standing (s : State) : s.beginCutOff.standing = s.standing := by
  unfold State.beginCutOff
  dsimp only
  rw [State.eachOf_standing _ _ (fun h s => by simp)]
  simp

@[simp] theorem State.beginIsolation_standing (l : Option (Fin 4)) (c : LossCause) (s : State) :
    (s.beginIsolation l c).standing = s.standing := by
  unfold State.beginIsolation
  dsimp only
  repeat' split
  all_goals simp

@[simp] theorem State.endIsolation_standing (l : Fin 4) (s : State) : (s.endIsolation l).standing = s.standing := by
  unfold State.endIsolation
  split
  · rfl
  · dsimp only
    split
    · rw [State.eachOf_standing _ _ (fun h s => by simp), State.raise_standing]; rfl
    · rw [State.raise_standing]; rfl

@[simp] theorem State.failSwap_standing (lost : Bool) (s : State) : (s.failSwap lost).standing = s.standing := by
  unfold State.failSwap
  dsimp only
  rw [State.raise_standing]; rfl

@[simp] theorem State.completeSwap_standing (l : Fin 4) (s : State) : (s.completeSwap l).standing = s.standing := by
  unfold State.completeSwap
  dsimp only
  split <;> simp

@[simp] theorem State.activeFails_standing (l : Fin 4) (n : LinkState) (c : LossCause) (s : State) :
    (s.activeFails l n c).standing = s.standing := by
  have hturn : ∀ s : State, (s.onSlm fun m => { m with
      swap := { m.swap with fromLink := none, planned := some false },
      counters := { m.counters with turnedUnplanned := bump32 m.counters.turnedUnplanned } }).standing = s.standing :=
    fun _ => rfl
  unfold State.activeFails
  dsimp only
  split <;> split <;> simp [hturn]

@[simp] theorem State.goAbsent_standing (l : Fin 4) (c : LossCause) (s : State) : (s.goAbsent l c).standing = s.standing := by
  have howed : (s.onLink l fun k => { k with longOwed := true }).standing = s.standing := State.onLink_standing l _ s fun _ => rfl
  unfold State.goAbsent
  dsimp only
  repeat' split
  all_goals simp [howed]

/-! ### Entries -/

@[simp] theorem State.freeBearers_standing (h : Nat) (s : State) : (s.freeBearers h).standing = s.standing := by
  unfold State.freeBearers
  split <;> rfl

@[simp] theorem State.rest_standing (h : Nat) (s : State) : (s.rest h).standing = s.standing := by
  unfold State.rest
  split
  · rfl
  · split <;> simp

@[simp] theorem State.markLost_standing (h : Nat) (s : State) : (s.markLost h).standing = s.standing := by
  unfold State.markLost
  split
  · rfl
  · dsimp only
    split <;> simp

@[simp] theorem State.rotatePeriod_standing (h : Nat) (s : State) : (s.rotatePeriod h).standing = s.standing := by
  unfold State.rotatePeriod
  split
  · split
    · rfl
    · split <;> simp
  · rfl

@[simp] theorem State.revive_standing (h : Nat) (s : State) : (s.revive h).standing = s.standing := by
  unfold State.revive
  split
  · rfl
  · dsimp only
    repeat' split
    all_goals simp

@[simp] theorem State.reAttach_standing (p : Fin 6) (h : Nat) (e : Entry) (s : State) :
    (s.reAttach p h e).standing = s.standing := by
  unfold State.reAttach
  dsimp only
  repeat' split
  all_goals simp

@[simp] theorem State.removeEntry_standing (h : Nat) (c : RemovalCause) (r : Option CloseReason) (s : State) :
    (s.removeEntry h c r).standing = s.standing := by
  unfold State.removeEntry
  split
  · rfl
  · dsimp only
    split <;> split <;> simp

@[simp] theorem State.admitNew_standing (p : Fin 6) (a : Ask) (s : State) : (s.admitNew p a).standing = s.standing := by
  unfold State.admitNew
  split
  · rfl
  · dsimp only
    repeat' split
    all_goals simp

/-! ### Rating -/

@[simp] theorem State.closeAll_standing (r : CloseReason) (s : State) : (s.closeAll r).standing = s.standing :=
  State.eachEntry_standing _ (fun h s => State.closePeriod_standing r h s) s

@[simp] theorem State.openAll_standing (s : State) : s.openAll.standing = s.standing :=
  State.eachEntry_standing _ (fun h s => State.openPeriod_standing h s) s

@[simp] theorem State.billAlert_standing (h : Nat) (s : State) : (s.billAlert h).standing = s.standing := by
  unfold State.billAlert
  split
  · rfl
  · simp

@[simp] theorem State.capReached_standing (h : Nat) (c : Bool) (s : State) : (s.capReached h c).standing = s.standing := by
  unfold State.capReached
  split
  · rfl
  · simp

@[simp] theorem State.unbarred_standing (h : Nat) (s : State) : (s.unbarred h).standing = s.standing := by
  unfold State.unbarred
  dsimp only
  repeat' split
  all_goals simp

@[simp] theorem State.takeCap_standing (h v : Nat) (e : Entry) (s : State) : (s.takeCap h v e).standing = s.standing := by
  unfold State.takeCap
  dsimp only
  repeat' split
  all_goals simp

@[simp] theorem State.afterCharging_standing (h : Nat) (s : State) : (s.afterCharging h).standing = s.standing := by
  unfold State.afterCharging
  dsimp only
  repeat' split
  all_goals simp

@[simp] theorem State.rate_standing (h : Nat) (d : Direction) (b : Nat) (e : Entry) (p : Period) (s : State) :
    (s.rate h d b e p).standing = s.standing := by
  unfold State.rate
  simp

/-! ### Requests -/

@[simp] theorem State.joinInput_standing (c : Instr) (s : State) : (s.joinInput c).standing = s.standing := by
  unfold State.joinInput
  apply State.onMli_standing
  intro m
  split <;> exact ⟨rfl, rfl, rfl, rfl⟩

@[simp] theorem State.complete_standing (kind tag : Byte) (reason : Option Reason) (clamped : Bool) (fields : List Byte)
    (s : State) : (s.complete kind tag reason clamped fields).standing = s.standing := rfl
@[simp] theorem State.ok_standing (kind tag : Byte) (clamped : Bool) (fields : List Byte) (s : State) :
    (s.ok kind tag clamped fields).standing = s.standing := rfl
@[simp] theorem State.refuse_standing (kind tag : Byte) (reason : Reason) (s : State) :
    (s.refuse kind tag reason).standing = s.standing := rfl
@[simp] theorem State.refuseClamped_standing (kind tag : Byte) (clamped : Bool) (reason : Reason) (s : State) :
    (s.refuseClamped kind tag clamped reason).standing = s.standing := rfl

end Sys2Proof.Machine
end


-- ==== Sys2Proof/Proofs/Commands.lean ====
section
/-! SUPPORT. Which commands leave everything of `State.standing` as it is: all but those of `Instr.settles`, which name the
requests with a setting of their own, the tracker's and the ports' commands, START, RESET and power. -/

namespace Sys2Proof.Machine

/-! ### Commands by the way they are taken -/

/-- What holds of a state and is kept by the effect of a command holds after the command. -/
theorem whenPowered_keeps {P : State → Prop} {s t : State} {f : State → State} (ht : whenPowered s f = .next t)
    (hs : P s) (hf : ∀ s, P s → P (f s)) : P t := by
  rw [whenPowered_eq, Host.Outcome.next.injEq] at ht
  subst ht
  split
  · exact hf s hs
  · exact hs

/-- What holds of a state, and is kept by the joining of a request and by the request's effect, holds after it came up. -/
theorem takeRequest_keeps {P : State → Prop} {c : Instr} {s t : State} {f : State → State}
    (ht : takeRequest c s f = .next t) (hs : P s) (hj : ∀ s, P s → P (s.joinInput c)) (hf : ∀ s, P s → P (f s)) : P t := by
  refine whenPowered_keeps ht hs (fun s hs => ?_)
  split
  · exact hf _ (hj s hs)
  · split
    · exact hf s hs
    · exact hj s hs

/-- What holds of a state, and is kept by a refusal and by the request's own rule, holds after the checks of R177. -/
theorem checkedClamped_keeps {α : Type} {P : State → Prop} {kind : Byte} {r : Request α} {query : Bool} {cl wf : α → Bool}
    {own : α → State → State} {s : State} (hr : ∀ s tag clamped why, P s → P (s.refuseClamped kind tag clamped why))
    (hf : ∀ b s, wf b = true → P s → P (own b s)) (hs : P s) : P (checkedClamped kind r query cl wf own s) := by
  obtain h | ⟨_, _, h⟩ | ⟨b, _, hw, _, h⟩ := checkedClamped_cases kind r query cl wf own s
  · rw [h]; exact hr _ _ _ _ hs
  · rw [h]; exact hr _ _ _ _ hs
  · rw [h]; exact hf b s hw hs

/-- A timer's act that keeps a property keeps it whether or not the expiry has come. -/
theorem State.atExpiry_keeps {P : State → Prop} {e : Nat} {act : State → State} {s : State} (hs : P s)
    (hf : ∀ s, P s → P (act s)) : P (s.atExpiry e act) := by
  obtain ⟨_, h⟩ | ⟨_, h⟩ := State.atExpiry_cases e act s
  · rw [h]; exact hs
  · rw [h]; exact hf s hs

/-- A request whose own rule leaves what stands leaves it. -/
theorem request_standing {α : Type} {c : Instr} {kind : Byte} {r : Request α} {query : Bool} {wf : α → Bool}
    {own : α → State → State} {s t : State} (ht : takeRequest c s (checked kind r query wf own) = .next t)
    (hf : ∀ b s, wf b = true → (own b s).standing = s.standing) : t.standing = s.standing :=
  takeRequest_keeps (P := fun t => t.standing = s.standing) ht rfl (fun t h => by simpa using h)
    (fun t h => checkedClamped_keeps (P := fun t => t.standing = s.standing) (fun _ _ _ _ h => h)
      (fun b t hw h => (hf b t hw).trans h) h)

/-- A command whose effect leaves what stands leaves it. -/
theorem effect_standing {s t : State} {f : State → State} (ht : whenPowered s f = .next t)
    (hf : ∀ s, (f s).standing = s.standing) : t.standing = s.standing :=
  whenPowered_keeps (P := fun t => t.standing = s.standing) ht rfl (fun t h => (hf t).trans h)

@[simp] theorem State.atExpiry_standing (e : Nat) (act : State → State) (s : State) (h : (act s).standing = s.standing) :
    (s.atExpiry e act).standing = s.standing := by
  obtain ⟨_, h'⟩ | ⟨_, h'⟩ := State.atExpiry_cases e act s
  · rw [h']
  · rw [h', h]

@[simp] theorem State.onRecord_standing (p : Fin 6) (wf : Bool) (act : State → State) (s : State)
    (h : (act s).standing = s.standing) : (s.onRecord p wf act).standing = s.standing := by
  unfold State.onRecord
  split
  · exact State.countPort_standing p _ s
  · split
    · exact State.countPort_standing p _ s
    · exact h

@[simp] theorem State.onShoreRecord_standing (l : Fin 4) (act : State → State) (s : State)
    (h : (act s).standing = s.standing) : (s.onShoreRecord l act).standing = s.standing := by
  unfold State.onShoreRecord
  split
  · exact h
  · exact State.countLink_standing l _ s

/-! ### Cell ports, table and router -/

@[simp] theorem State.decline_standing (p : Fin 6) (t : Token) (r : DeclineReason) (d : Nat) (s : State) :
    (s.decline p t r d).standing = s.standing := by
  rw [State.decline, State.countPort_standing, State.toHead_standing]

theorem State.decideAsk_standing (p : Fin 6) (a : Ask) (s : State) : (s.decideAsk p a).standing = s.standing := by
  unfold State.decideAsk
  repeat' split
  all_goals simp

theorem execAttachAsk_standing {p : Fin 6} {token : Token} {code digits : Nat} {s t : State}
    (ht : execAttachAsk p token code digits s = .next t) : t.standing = s.standing := by
  refine effect_standing ht (fun s => ?_)
  apply State.onRecord_standing
  split <;> simp

theorem execDecideAttachAsk_standing {s t : State} (ht : execDecideAttachAsk s = .next t) : t.standing = s.standing := by
  refine effect_standing ht (fun s => ?_)
  split
  · rfl
  · split
    · rfl
    · simp [State.decideAsk_standing]

theorem execDepart_standing {p : Fin 6} {token : Token} {s t : State} (ht : execDepart p token s = .next t) :
    t.standing = s.standing := by
  refine effect_standing ht (fun s => ?_)
  apply State.onRecord_standing
  repeat' split
  all_goals simp

theorem execPortLostExpiry_standing {h : Nat} {s t : State} (ht : execPortLostExpiry h s = .next t) :
    t.standing = s.standing := by
  refine effect_standing ht (fun s => ?_)
  split
  · rfl
  · split
    · rfl
    · simp

theorem execRetentionExpiry_standing {h : Nat} {s t : State} (ht : execRetentionExpiry h s = .next t) :
    t.standing = s.standing := by
  refine effect_standing ht (fun s => ?_)
  split <;> simp

@[simp] theorem State.refuseBearer_standing (p : Fin 6) (i : Nat) (r : BearerRefusal) (s : State) :
    (s.refuseBearer p i r).standing = s.standing := by
  unfold State.refuseBearer
  simp

theorem execBearerOpen_standing {p : Fin 6} {token : Token} {slot : Nat} {kind : Option BearerKind} {s t : State}
    (ht : execBearerOpen p token slot kind s = .next t) : t.standing = s.standing := by
  refine effect_standing ht (fun s => ?_)
  apply State.onRecord_standing
  dsimp only
  repeat' split
  all_goals simp

theorem execBearerClose_standing {p : Fin 6} {identity : Nat} {s t : State} (ht : execBearerClose p identity s = .next t) :
    t.standing = s.standing := by
  refine effect_standing ht (fun s => ?_)
  apply State.onRecord_standing
  repeat' split
  all_goals rfl

@[simp] theorem State.onBearer_standing (h k : Nat) (f : Bearer → Bearer) (s : State) :
    (s.onBearer h k f).standing = s.standing := rfl

@[simp] theorem State.sendOnboard_standing (r : OnboardRecord) (len : Nat) (s : State) :
    (s.sendOnboard r len).standing = s.standing := by
  unfold State.sendOnboard
  split <;> rfl

@[simp] theorem State.sendShore_standing (h : Nat) (e : Entry) (i : Nat) (payload : List Byte) (s : State) :
    (s.sendShore h e i payload).standing = s.standing := by
  unfold State.sendShore
  dsimp only
  split
  · split <;> rfl
  · simp

theorem execUpFrame_standing {p : Fin 6} {identity : Nat} {payload : List Byte} {s t : State}
    (ht : execUpFrame p identity payload s = .next t) : t.standing = s.standing := by
  refine effect_standing ht (fun s => ?_)
  apply State.onRecord_standing
  repeat' split
  all_goals simp

theorem execLocalDown_standing {identity : Nat} {payload : List Byte} {s t : State}
    (ht : execLocalDown identity payload s = .next t) : t.standing = s.standing := by
  unfold execLocalDown at ht
  refine effect_standing ht (fun s => ?_)
  repeat' split
  all_goals simp

theorem execShoreDown_standing {l : Fin 4} {identity : Nat} {token : Token} {payload : List Byte} {s t : State}
    (ht : execShoreDown l identity token payload s = .next t) : t.standing = s.standing := by
  refine effect_standing ht (fun s => ?_)
  apply State.onShoreRecord_standing
  dsimp only
  repeat' split
  all_goals simp

/-! ### Shore links, swaps and the store -/

@[simp] theorem State.concludeProbe_standing (l : Fin 4) (p : Probe) (early : Bool) (s : State) :
    (s.concludeProbe l p early).standing = s.standing := by
  unfold State.concludeProbe
  dsimp only
  repeat' split
  all_goals simp

@[simp] theorem State.judgeProbe_standing (l : Fin 4) (s : State) : (s.judgeProbe l).standing = s.standing := by
  unfold State.judgeProbe
  repeat' split
  all_goals simp

/-- A report of a link's line, recorded at once, with an effect that leaves what stands. -/
theorem report_standing {l : Fin 4} {f : Link → Link} {act : State → State} {s t : State}
    (ht : whenPowered (s.onLink l f) act = .next t) (hf : ∀ k, (f k).settings = k.settings)
    (ha : ∀ s, (act s).standing = s.standing) : t.standing = s.standing :=
  (effect_standing ht ha).trans (State.onLink_standing l f s hf)

theorem execShoreCarrierLost_standing {l : Fin 4} {s t : State} (ht : execShoreCarrierLost l s = .next t) :
    t.standing = s.standing := by
  dsimp only [execShoreCarrierLost] at ht
  refine report_standing ht (fun _ => rfl) (fun s => ?_)
  split <;> simp

theorem execShoreCarrierReturn_standing {l : Fin 4} {s t : State} (ht : execShoreCarrierReturn l s = .next t) :
    t.standing = s.standing := by
  dsimp only [execShoreCarrierReturn] at ht
  refine report_standing ht (fun _ => rfl) (fun s => ?_)
  split <;> simp

theorem execModemReady_standing {l : Fin 4} {s t : State} (ht : execModemReady l s = .next t) :
    t.standing = s.standing := by
  dsimp only [execModemReady] at ht
  refine report_standing ht (fun _ => rfl) (fun s => ?_)
  split <;> simp

theorem execProbeEchoDue_standing {l : Fin 4} {s t : State} (ht : execProbeEchoDue l s = .next t) :
    t.standing = s.standing := by
  refine effect_standing ht (fun s => ?_)
  dsimp only
  split <;> simp

theorem execEchoBack_standing {l : Fin 4} {number seq : Nat} {purpose : Purpose} {s t : State}
    (ht : execEchoBack l number seq purpose s = .next t) : t.standing = s.standing := by
  refine effect_standing ht (fun s => ?_)
  dsimp only
  repeat' split
  all_goals simp

theorem execEchoWindowEnd_standing {l : Fin 4} {seq : Nat} {s t : State} (ht : execEchoWindowEnd l seq s = .next t) :
    t.standing = s.standing := by
  refine effect_standing ht (fun s => ?_)
  split <;> simp

theorem execKeepaliveDue_standing {l : Fin 4} {s t : State} (ht : execKeepaliveDue l s = .next t) :
    t.standing = s.standing := by
  refine effect_standing ht (fun s => ?_)
  split
  · apply State.atExpiry_standing
    dsimp only
    split <;> simp
  · rfl

theorem execHolddownExpiry_standing {l : Fin 4} {s t : State} (ht : execHolddownExpiry l s = .next t) :
    t.standing = s.standing := by
  refine effect_standing ht (fun s => ?_)
  split <;> simp

theorem execReprobeExpiry_standing {l : Fin 4} {s t : State} (ht : execReprobeExpiry l s = .next t) :
    t.standing = s.standing := by
  refine effect_standing ht (fun s => ?_)
  split <;> simp

theorem execSettleTimerExpiry_standing {s t : State} (ht : execSettleTimerExpiry s = .next t) : t.standing = s.standing := by
  refine effect_standing ht (fun s => ?_)
  split
  · rfl
  · apply State.atExpiry_standing
    dsimp only
    split <;> simp

theorem execMoveAck_standing {l : Fin 4} {n : Nat} {s t : State} (ht : execMoveAck l n s = .next t) :
    t.standing = s.standing := by
  refine effect_standing ht (fun s => ?_)
  apply State.onShoreRecord_standing
  split <;> simp

theorem execMoveAckTimerExpiry_standing {s t : State} (ht : execMoveAckTimerExpiry s = .next t) :
    t.standing = s.standing := by
  refine effect_standing ht (fun s => ?_)
  split <;> simp

theorem execDrainingGuardExpiry_standing {l : Fin 4} {s t : State} (ht : execDrainingGuardExpiry l s = .next t) :
    t.standing = s.standing := by
  refine effect_standing ht (fun s => ?_)
  split <;> simp

theorem execGraceExpiry_standing {s t : State} (ht : execGraceExpiry s = .next t) : t.standing = s.standing := by
  refine effect_standing ht (fun s => ?_)
  split <;> simp

@[simp] theorem State.withdrawHead_standing (f : StoredFrame) (e : Option Entry) (s : State) :
    (s.withdrawHead f e).standing = s.standing := by
  unfold State.withdrawHead
  simp

theorem execStoreDrain_standing {s t : State} (ht : execStoreDrain s = .next t) : t.standing = s.standing := by
  refine effect_standing ht (fun s => ?_)
  repeat' split
  all_goals simp

/-! ### Roaming -/

theorem execLoadPartnersPart_standing {r : Request PartnersPart} {s t : State} (ht : execLoadPartnersPart r s = .next t) :
    t.standing = s.standing := by
  have hstaging : ∀ (s : State) (x : Option Staging), (s.onMli fun m => { m with staging := x }).standing = s.standing :=
    fun _ _ => rfl
  refine takeRequest_keeps (P := fun t => t.standing = s.standing) ht rfl (fun t h => by simpa using h)
    (fun t h => Eq.trans ?_ h)
  dsimp only
  repeat' split
  all_goals simp [hstaging]

theorem execPacerSend_standing {s t : State} (ht : execPacerSend s = .next t) : t.standing = s.standing := by
  refine effect_standing ht (fun s => ?_)
  dsimp only
  repeat' split
  all_goals simp

@[simp] theorem State.onAnswer_standing (l : Fin 4) (h : Nat) (token : Token) (kind : ExchangeKind) (partner : Nat)
    (act : Entry → State → State) (s : State) (ha : ∀ e s, (act e s).standing = s.standing) :
    (s.onAnswer l h token kind partner act).standing = s.standing := by
  apply State.onShoreRecord_standing
  repeat' split
  all_goals simp [ha]

theorem execRegOk_standing {l : Fin 4} {h : Nat} {token : Token} {i : Nat} {s t : State}
    (ht : execRegOk l h token i s = .next t) : t.standing = s.standing := by
  refine effect_standing ht (fun s => State.onAnswer_standing _ _ _ _ _ _ _ fun e s => ?_)
  dsimp only
  repeat' split
  all_goals simp

theorem execRegRefused_standing {l : Fin 4} {h : Nat} {token : Token} {i : Nat} {r : RefusedReason} {s t : State}
    (ht : execRegRefused l h token i r s = .next t) : t.standing = s.standing :=
  effect_standing ht (fun s => State.onAnswer_standing _ _ _ _ _ _ _ fun e s => by simp)

theorem execRefreshOk_standing {l : Fin 4} {h : Nat} {token : Token} {i : Nat} {s t : State}
    (ht : execRefreshOk l h token i s = .next t) : t.standing = s.standing :=
  effect_standing ht (fun s => State.onAnswer_standing _ _ _ _ _ _ _ fun e s => by simp)

theorem execRefreshRefused_standing {l : Fin 4} {h : Nat} {token : Token} {i : Nat} {s t : State}
    (ht : execRefreshRefused l h token i s = .next t) : t.standing = s.standing := by
  refine effect_standing ht (fun s => State.onAnswer_standing _ _ _ _ _ _ _ fun e s => ?_)
  dsimp only
  split <;> simp

theorem execExchangeTimerExpiry_standing {h : Nat} {s t : State} (ht : execExchangeTimerExpiry h s = .next t) :
    t.standing = s.standing := by
  refine effect_standing ht (fun s => ?_)
  split
  · rfl
  · apply State.atExpiry_standing
    dsimp only
    split <;> simp

theorem execRefreshDue_standing {h : Nat} {s t : State} (ht : execRefreshDue h s = .next t) : t.standing = s.standing := by
  refine effect_standing ht (fun s => ?_)
  split
  · rfl
  · split
    · split
      · rfl
      · apply State.atExpiry_standing
        dsimp only
        split <;> simp
    · rfl

/-! ### Rating -/

theorem execMeteredAddition_standing {h a : Nat} {d : Direction} {b : Nat} {s t : State}
    (ht : execMeteredAddition h a d b s = .next t) : t.standing = s.standing := by
  refine effect_standing ht (fun s => ?_)
  dsimp only
  repeat' split
  all_goals simp

theorem execAgeExpiry_standing {h : Nat} {s t : State} (ht : execAgeExpiry h s = .next t) : t.standing = s.standing := by
  refine effect_standing ht (fun s => ?_)
  repeat' split
  all_goals simp

theorem execSetCap_standing {r : Request CapBody} {s t : State} (ht : execSetCap r s = .next t) :
    t.standing = s.standing := by
  refine request_standing ht (fun b s _ => ?_)
  split <;> simp

theorem execSetClass_standing {r : Request ClassBody} {s t : State} (ht : execSetClass r s = .next t) :
    t.standing = s.standing := by
  refine request_standing ht (fun b s _ => ?_)
  dsimp only
  repeat' split
  all_goals simp

theorem execEvict_standing {r : Request SubscriberRef} {s t : State} (ht : execEvict r s = .next t) :
    t.standing = s.standing := by
  refine request_standing ht (fun b s _ => ?_)
  split <;> simp

/-! ### Record memory -/

theorem execAcceptRecord_standing {s t : State} (ht : execAcceptRecord s = .next t) : t.standing = s.standing := by
  refine effect_standing ht (fun s => ?_)
  dsimp only
  repeat' split
  all_goals simp

@[simp] theorem State.commitRecord_standing (j : WriteJob) (s : State) : (s.commitRecord j).standing = s.standing := by
  unfold State.commitRecord
  dsimp only
  split <;> simp

@[simp] theorem State.disableBuffer_standing (s : State) : s.disableBuffer.standing = s.standing := by
  unfold State.disableBuffer
  simp

@[simp] theorem State.writeFailed_standing (slot : Nat) (s : State) : (s.writeFailed slot).standing = s.standing := by
  unfold State.writeFailed
  dsimp only
  repeat' split
  all_goals simp

@[simp] theorem State.scrambleSlot_standing (slot : Nat) (s : State) : (s.scrambleSlot slot).standing = s.standing := by
  simp only [State.scrambleSlot, State.standing, State.settings, State.radio, State.link, State.port]
@[simp] theorem State.scrambleState_standing (slot : Nat) (s : State) : (s.scrambleState slot).standing = s.standing := by
  simp only [State.scrambleState, State.standing, State.settings, State.radio, State.link, State.port]

theorem execWriteSlotDone_standing {ok : Bool} {s t : State} (ht : execWriteSlotDone ok s = .next t) :
    t.standing = s.standing := by
  refine effect_standing ht (fun s => ?_)
  split
  · split
    · dsimp only
      split <;> simp
    · simp
  · rfl

@[simp] theorem State.rewrite_standing (c : MapChange) (s : State) : (s.rewrite c).standing = s.standing := by
  unfold State.rewrite
  repeat' split
  all_goals simp

theorem execMapWriteDone_standing {ok : Bool} {s t : State} (ht : execMapWriteDone ok s = .next t) :
    t.standing = s.standing := by
  refine effect_standing ht (fun s => ?_)
  dsimp only
  repeat' split
  all_goals simp

theorem execVerifyReadDone_standing {ok : Bool} {s t : State} (ht : execVerifyReadDone ok s = .next t) :
    t.standing = s.standing := by
  refine effect_standing ht (fun s => ?_)
  dsimp only
  repeat' split
  all_goals simp

@[simp] theorem State.sendSettle_standing (got : List (Nat × List Byte)) (s : State) :
    (s.sendSettle got).standing = s.standing := by
  unfold State.sendSettle
  dsimp only
  split <;> simp

@[simp] theorem State.sendExport_standing (again : Bool) (got : List (Nat × List Byte)) (s : State) :
    (s.sendExport again got).standing = s.standing := by
  unfold State.sendExport
  dsimp only
  repeat' split
  all_goals rfl

@[simp] theorem State.finishBuild_standing (s : State) : s.finishBuild.standing = s.standing := by
  unfold State.finishBuild
  repeat' split
  all_goals simp

@[simp] theorem State.dropUnreadable_standing (serial slot : Nat) (p : ReadFor) (s : State) :
    (s.dropUnreadable serial slot p).standing = s.standing := by
  unfold State.dropUnreadable
  simp

@[simp] theorem State.addRead_standing (serial slot : Nat) (s : State) : (s.addRead serial slot).standing = s.standing := by
  unfold State.addRead
  split <;> rfl

theorem execReadSlotDone_standing {ok : Bool} {s t : State} (ht : execReadSlotDone ok s = .next t) :
    t.standing = s.standing := by
  refine effect_standing ht (fun s => ?_)
  dsimp only
  repeat' split
  all_goals simp

theorem execClearSlotDone_standing {ok : Bool} {s t : State} (ht : execClearSlotDone ok s = .next t) :
    t.standing = s.standing := by
  refine effect_standing ht (fun s => ?_)
  dsimp only
  repeat' split
  all_goals simp

theorem execBuildSettleBatch_standing {s t : State} (ht : execBuildSettleBatch s = .next t) : t.standing = s.standing := by
  refine effect_standing ht (fun s => ?_)
  split <;> simp

@[simp] theorem State.confirmBatch_standing (host : Bool) (s : State) : (s.confirmBatch host).standing = s.standing := by
  unfold State.confirmBatch
  simp

theorem execSettleAck_standing {l : Fin 4} {batch : Nat} {s t : State} (ht : execSettleAck l batch s = .next t) :
    t.standing = s.standing := by
  refine effect_standing ht (fun s => ?_)
  apply State.onShoreRecord_standing
  split <;> simp

theorem execBatchTimerExpiry_standing {s t : State} (ht : execBatchTimerExpiry s = .next t) : t.standing = s.standing := by
  refine effect_standing ht (fun s => ?_)
  split <;> simp

theorem execExportRecords_standing {r : Request Unit} {s t : State} (ht : execExportRecords r s = .next t) :
    t.standing = s.standing := by
  refine request_standing ht (fun b s _ => ?_)
  split <;> simp

theorem execConfirmExport_standing {r : Request Nat} {s t : State} (ht : execConfirmExport r s = .next t) :
    t.standing = s.standing := by
  refine request_standing ht (fun b s _ => ?_)
  split <;> simp

theorem execFlushRecords_standing {r : Request Unit} {s t : State} (ht : execFlushRecords r s = .next t) :
    t.standing = s.standing := request_standing ht (fun _ _ _ => rfl)

theorem execFlushRecordsDone_standing {s t : State} (ht : execFlushRecordsDone s = .next t) : t.standing = s.standing := by
  refine effect_standing ht (fun s => ?_)
  split <;> rfl

theorem execPowerOnScanEnd_standing {m : Bool} {u : List Nat} {s t : State} (ht : execPowerOnScanEnd m u s = .next t) :
    t.standing = s.standing := by
  have hmap : ∀ s : State, (s.onRsc (Rsc.readMap m)).standing = s.standing := fun s =>
    State.onRsc_standing _ s fun r => by unfold Rsc.readMap; split <;> rfl
  have hscan : ∀ s : State, (s.onRsc fun r => r.takeScan (r.scan u)).standing = s.standing := fun s =>
    State.onRsc_standing _ s fun r => by simp only [Rsc.takeScan, Rsc.settings]
  refine effect_standing ht (fun s => ?_)
  dsimp only
  repeat' split
  all_goals simp only [State.arbitrate_standing, State.checkLow_standing, State.storeFault_standing, hmap, hscan]

/-! ### The management link -/

theorem execReset_standing {r : Request Unit} {s t : State} (ht : execReset r s = .next t) : t.standing = s.standing :=
  request_standing ht (fun b s _ => by simp)

theorem execUnknownKindRequest_standing {kind tag : Byte} {s t : State} (ht : execUnknownKindRequest kind tag s = .next t) :
    t.standing = s.standing :=
  takeRequest_keeps (P := fun t => t.standing = s.standing) ht rfl (fun t h => by simpa using h) (fun t h => h)

@[simp] theorem State.receive_standing (fuel : Nat) (s : State) : (s.receive fuel).standing = s.standing := by
  induction fuel generalizing s with
  | zero => rfl
  | succ n ih =>
    unfold State.receive
    split <;> simp [ih]

theorem execFrameReceived_standing {bytes : List Byte} {s t : State} (ht : execFrameReceived bytes s = .next t) :
    t.standing = s.standing :=
  effect_standing ht (fun s => by simp)

theorem execFrameGap_standing {s t : State} (ht : execFrameGap s = .next t) : t.standing = s.standing := by
  refine effect_standing ht (fun s => ?_)
  split <;> rfl

theorem execSendFrame_standing {s t : State} (ht : execSendFrame s = .next t) : t.standing = s.standing := by
  refine effect_standing ht (fun s => ?_)
  split <;> rfl

theorem execQuerySubscriberSingle_standing {r : Request SubscriberName} {s t : State}
    (ht : execQuerySubscriberSingle r s = .next t) : t.standing = s.standing := by
  refine request_standing ht (fun b s _ => ?_)
  split <;> rfl

/-! ### All together -/

/-- The commands that may change something of `State.standing`. -/
def Instr.settles : Instr → Prop
  | .start _ | .setTime _ | .resetComplete | .fix _ | .freezeZone _ | .thawZone _ | .loadZones _ | .loadPartnersLast _
  | .configureLinkCell _ | .configureLinkShore _ | .pinLink _ | .loadTariffPlan _ | .commitTariffNow _
  | .commitTariffAtDayRoll _ | .dayRoll _ | .setBilling _ | .setDelivery _ | .powerOn | .powerLoss | .fixTimerExpiry
  | .holdExpiry | .headHello _ _ | .headResync _ | .cellCarrierLost _ => True
  | _ => False

/-- Every other command leaves what stands as it is. -/
theorem exec_standing {c : Instr} {s t : State} (hc : ¬ Instr.settles c) (ht : exec c s = .next t) :
    t.standing = s.standing := by
  cases c <;> try exact absurd trivial hc
  case reset => exact execReset_standing ht
  case loadPartnersPart => exact execLoadPartnersPart_standing ht
  case setCap => exact execSetCap_standing ht
  case setClass => exact execSetClass_standing ht
  case evict => exact execEvict_standing ht
  case queryZone => exact request_standing ht (fun _ _ _ => rfl)
  case queryLinkCell => exact request_standing ht (fun _ _ _ => rfl)
  case queryLinkShore => exact request_standing ht (fun _ _ _ => rfl)
  case queryLinkManagement => exact request_standing ht (fun _ _ _ => rfl)
  case querySubscriberSingle => exact execQuerySubscriberSingle_standing ht
  case querySubscriberSummary => exact request_standing ht (fun _ _ _ => rfl)
  case queryStore => exact request_standing ht (fun _ _ _ => rfl)
  case exportRecords => exact execExportRecords_standing ht
  case confirmExport => exact execConfirmExport_standing ht
  case flushRecords => exact execFlushRecords_standing ht
  case flushRecordsDone => exact execFlushRecordsDone_standing ht
  case unknownKindRequest => exact execUnknownKindRequest_standing ht
  case frameReceived => exact execFrameReceived_standing ht
  case frameGap => exact execFrameGap_standing ht
  case hostClearToSend => cases ht; rfl
  case sendFrame => exact execSendFrame_standing ht
  case powerOnScanEnd => exact execPowerOnScanEnd_standing ht
  case retentionExpiry => exact execRetentionExpiry_standing ht
  case attachAsk => exact execAttachAsk_standing ht
  case decideAttachAsk => exact execDecideAttachAsk_standing ht
  case depart => exact execDepart_standing ht
  case portLostExpiry => exact execPortLostExpiry_standing ht
  case bearerOpen => exact execBearerOpen_standing ht
  case bearerClose => exact execBearerClose_standing ht
  case upFrame => exact execUpFrame_standing ht
  case localDown => exact execLocalDown_standing ht
  case localCarrierChange => cases ht; rfl
  case shoreDown => exact execShoreDown_standing ht
  case meteredAddition => exact execMeteredAddition_standing ht
  case ageExpiry => exact execAgeExpiry_standing ht
  case shoreCarrierLost => exact execShoreCarrierLost_standing ht
  case shoreCarrierReturn => exact execShoreCarrierReturn_standing ht
  case modemReady => exact execModemReady_standing ht
  case probeEchoDue => exact execProbeEchoDue_standing ht
  case echoBack => exact execEchoBack_standing ht
  case echoWindowEnd => exact execEchoWindowEnd_standing ht
  case keepaliveDue => exact execKeepaliveDue_standing ht
  case holddownExpiry => exact execHolddownExpiry_standing ht
  case reprobeExpiry => exact execReprobeExpiry_standing ht
  case settleTimerExpiry => exact execSettleTimerExpiry_standing ht
  case moveAck => exact execMoveAck_standing ht
  case moveAckTimerExpiry => exact execMoveAckTimerExpiry_standing ht
  case drainingGuardExpiry => exact execDrainingGuardExpiry_standing ht
  case graceExpiry => exact execGraceExpiry_standing ht
  case storeDrain => exact execStoreDrain_standing ht
  case pacerSend => exact execPacerSend_standing ht
  case regOk => exact execRegOk_standing ht
  case regRefused => exact execRegRefused_standing ht
  case refreshOk => exact execRefreshOk_standing ht
  case refreshRefused => exact execRefreshRefused_standing ht
  case exchangeTimerExpiry => exact execExchangeTimerExpiry_standing ht
  case refreshDue => exact execRefreshDue_standing ht
  case acceptRecord => exact execAcceptRecord_standing ht
  case writeSlotDone => exact execWriteSlotDone_standing ht
  case mapWriteDone => exact execMapWriteDone_standing ht
  case verifyReadDone => exact execVerifyReadDone_standing ht
  case readSlotDone => exact execReadSlotDone_standing ht
  case clearSlotDone => exact execClearSlotDone_standing ht
  case buildSettleBatch => exact execBuildSettleBatch_standing ht
  case settleAck => exact execSettleAck_standing ht
  case batchTimerExpiry => exact execBatchTimerExpiry_standing ht
  case modemNotReady => cases ht; exact State.onLink_standing _ _ s fun _ => rfl

end Sys2Proof.Machine
end


-- ==== Sys2Proof/Proofs/Orders.lean ====
section
/-! SUPPORT. The orders that the ports are sent (R15, R16) and the verdict's changes (R6 to R13): what they do to the settings
and to what radio silence speaks of, and that every step keeps radio silence. -/

namespace Sys2Proof.Machine

/-! ### Settings and radio under the updates of a block -/

@[simp] theorem State.onTracker_settings (f : Tracker → Tracker) (s : State) :
    (s.onTracker f).settings = { s.settings with zones := (f s.tracker).settings } := rfl
@[simp] theorem State.onTracker_radio (f : Tracker → Tracker) (s : State) :
    (s.onTracker f).radio = { s.radio with verdict := (f s.tracker).verdict } := rfl

theorem State.settings_of_standing {s t : State} (h : t.standing = s.standing) : t.settings = s.settings :=
  congrArg Standing.settings h
theorem State.radio_of_standing {s t : State} (h : t.standing = s.standing) : t.radio = s.radio :=
  congrArg Standing.radio h

theorem State.onPort_settings (p : Fin 6) (f : CellPort → CellPort) (s : State) (h : ∀ q, (f q).settings = q.settings) :
    (s.onPort p f).settings = s.settings := by
  have hp : ∀ q, ((s.onPort p f).port q).settings = (s.port q).settings := by
    intro q
    by_cases hq : p = q
    · subst hq; simp only [State.port_onPort, if_true, h]
    · simp only [State.port_onPort, if_neg hq]
  simp only [State.settings, hp]
  rfl

/-- A list of updates that each leave the settings leaves them. -/
theorem State.eachOf_settings {α : Type} (l : List α) (f : α → State → State)
    (hf : ∀ a s, (f a s).settings = s.settings) (s : State) : (s.eachOf l f).settings = s.settings := by
  unfold State.eachOf
  induction l generalizing s with
  | nil => rfl
  | cons a l ih => rw [List.foldl_cons, ih, hf]

/-! ### The order of a port -/

/-- The state that a listening port takes by the current order (R15, R16). -/
def State.orderedState (s : State) : PortState := if s.order.isSome then .radiating else .quiet

/-- A port radiates by an order only while the device is RUNNING under REDUCED or FULL (R16). -/
theorem State.order_isSome {s : State} :
    s.order.isSome = true ↔ s.mli.device = .running ∧ policyOf s.rules? ≠ .quiet := by
  unfold State.order State.running policyOf
  cases hd : s.mli.device <;> cases hr : s.rules? <;> simp
  rename_i r
  cases r.policy <;> simp

/-- An order touches the ports and what has been sent, and nothing else. -/
theorem State.sendOrder_frame (p : Fin 6) (s : State) :
    s.sendOrder p = { s with cpc := (s.sendOrder p).cpc, sent := (s.sendOrder p).sent } := by
  have hhead : ∀ (r : HeadRecord) (s : State), s.toHead p r = { s with sent := (s.toHead p r).sent } := by
    intro r s
    obtain ⟨_, h⟩ | ⟨_, h⟩ := State.toHead_cases p r s <;> rw [h] <;> rfl
  have hhold : ∀ s : State, s.sendHold p = { s with cpc := (s.sendHold p).cpc, sent := (s.sendHold p).sent } := by
    intro s
    unfold State.sendHold
    rw [hhead]
    rfl
  unfold State.sendOrder
  dsimp only
  split
  · rfl
  · split
    · rw [hhead]; rfl
    · split
      · rw [hhold, hhead]; rfl
      · rw [hhead]; rfl

@[simp] theorem State.sendOrder_order (p : Fin 6) (s : State) : (s.sendOrder p).order = s.order := by
  rw [State.sendOrder_frame]; rfl

@[simp] theorem State.toHead_port (p q : Fin 6) (r : HeadRecord) (s : State) : (s.toHead p r).port q = s.port q := by
  obtain ⟨_, h⟩ | ⟨_, h⟩ := State.toHead_cases p r s <;> rw [h] <;> rfl

/-- A listening port takes the ordered state; no other port changes its state. -/
theorem State.sendOrder_state (p q : Fin 6) (s : State) : ((s.sendOrder p).port q).state =
    if q = p ∧ (s.port q).state ≠ .down then s.orderedState else (s.port q).state := by
  by_cases hq : q = p
  · subst hq
    unfold State.sendOrder State.orderedState CellPort.listening
    by_cases hdown : (s.port q).state = .down
    · simp [hdown]
    · cases ho : s.order with
      | none => simp [hdown]
      | some level =>
        simp only [hdown, ne_eq, not_false_eq_true, Bool.not_eq_eq_eq_not, Bool.not_true, and_self, if_true,
          Option.isSome_some]
        split
        · simp_all
        · split <;> simp [State.sendHold]
  · have hp : p ≠ q := fun h => hq h.symm
    unfold State.sendOrder State.sendHold
    dsimp only
    repeat' split
    all_goals simp_all

@[simp] theorem State.sendOrder_settings (p : Fin 6) (s : State) : (s.sendOrder p).settings = s.settings := by
  have hstate : ∀ (st : PortState) (s : State), (s.onPort p fun q => { q with state := st }).settings = s.settings :=
    fun st s => State.onPort_settings p _ s fun _ => rfl
  have hhead : ∀ (r : HeadRecord) (s : State), (s.toHead p r).settings = s.settings :=
    fun r s => State.settings_of_standing (State.toHead_standing p r s)
  have hhold : ∀ s : State, (s.sendHold p).settings = s.settings :=
    fun s => State.settings_of_standing (State.sendHold_standing p s)
  unfold State.sendOrder
  dsimp only
  repeat' split
  all_goals simp only [hhold, hstate, hhead]

/-! ### Orders to all ports -/

theorem State.sendOrderEach_frame (l : List (Fin 6)) (s : State) : s.eachOf l State.sendOrder =
    { s with cpc := (s.eachOf l State.sendOrder).cpc, sent := (s.eachOf l State.sendOrder).sent } := by
  unfold State.eachOf
  induction l generalizing s with
  | nil => rfl
  | cons p l ih => rw [List.foldl_cons, ih, State.sendOrder_frame]

/-- Every listening port of a list takes the ordered state; every other port keeps its own. -/
theorem State.sendOrderEach_state (l : List (Fin 6)) (q : Fin 6) (s : State) :
    ((s.eachOf l State.sendOrder).port q).state =
      if q ∈ l ∧ (s.port q).state ≠ .down then s.orderedState else (s.port q).state := by
  unfold State.eachOf
  induction l generalizing s with
  | nil => simp
  | cons p l ih =>
    have hsame : (s.sendOrder p).orderedState = s.orderedState := by simp [State.orderedState]
    have hup : s.orderedState ≠ .down := by unfold State.orderedState; split <;> simp
    rw [List.foldl_cons, ih, State.sendOrder_state, hsame]
    by_cases hqp : q = p <;> by_cases hdown : (s.port q).state = .down <;> by_cases hql : q ∈ l <;> simp_all

theorem State.sendOrders_frame (s : State) :
    s.sendOrders = { s with cpc := s.sendOrders.cpc, sent := s.sendOrders.sent } := by
  unfold State.sendOrders
  split
  · exact State.sendOrderEach_frame allPorts s
  · rfl

theorem mem_allPorts (p : Fin 6) : p ∈ allPorts := by revert p; decide

/-- While the device is RUNNING every listening port takes the ordered state. -/
theorem State.sendOrders_state {s : State} (hrun : s.mli.device = .running) (q : Fin 6) :
    (s.sendOrders.port q).state = if (s.port q).state = .down then .down else s.orderedState := by
  have hr : s.running = true := by simp [State.running, hrun]
  unfold State.sendOrders
  rw [if_pos hr, State.sendOrderEach_state]
  by_cases hdown : (s.port q).state = .down <;> simp [mem_allPorts, hdown]

/-- Otherwise nothing is sent. -/
theorem State.sendOrders_unconfigured {s : State} (h : s.mli.device ≠ .running) : s.sendOrders = s := by
  unfold State.sendOrders State.running
  simp [h]

@[simp] theorem State.sendOrders_settings (s : State) : s.sendOrders.settings = s.settings := by
  unfold State.sendOrders
  split
  · exact State.eachOf_settings _ _ State.sendOrder_settings s
  · rfl

/-! ### Radio silence -/

/-- No cell port is RADIATING while the device is UNCONFIGURED or the policy is QUIET (R16). -/
def Radio.silent (r : Radio) : Prop :=
  ∀ p, r.ports p = .radiating → r.device = .running ∧ policyOf (r.verdict.map (·.rules)) ≠ .quiet

theorem State.radioOk_iff (s : State) : s.radioOk ↔ s.radio.silent := by
  simp [State.radioOk, Radio.silent, State.radio, State.running, State.rules?]

/-- Where no port radiates there is silence. -/
theorem Radio.silent_of_quiet {r : Radio} (h : ∀ p, r.ports p ≠ .radiating) : r.silent := fun p hp => absurd hp (h p)

/-- An UNCONFIGURED device that keeps silence has no RADIATING port. -/
theorem Radio.silent.quiet {r : Radio} (h : r.silent) (hd : r.device ≠ .running) (p : Fin 6) : r.ports p ≠ .radiating :=
  fun hp => hd (h p hp).1

/-- An order keeps silence. -/
theorem State.sendOrder_silent (p : Fin 6) {s : State} (h : s.radio.silent) : (s.sendOrder p).radio.silent := by
  intro q hq
  have hrest : (s.sendOrder p).mli.device = s.mli.device ∧ (s.sendOrder p).tracker = s.tracker := by
    rw [State.sendOrder_frame]; exact ⟨rfl, rfl⟩
  simp only [State.radio, State.sendOrder_state, hrest.1, hrest.2] at hq ⊢
  split at hq
  · have ho : s.order.isSome = true := by
      unfold State.orderedState at hq
      split at hq
      · assumption
      · cases hq
    exact State.order_isSome.1 ho
  · exact h q hq

/-- Orders to every port bring silence under the verdict just published, however loud the ports were: while the device is
RUNNING. -/
theorem State.sendOrders_silent {s : State} (hrun : s.mli.device = .running) : s.sendOrders.radio.silent := by
  intro q hq
  have hrest : s.sendOrders.mli.device = s.mli.device ∧ s.sendOrders.tracker = s.tracker := by
    rw [State.sendOrders_frame]; exact ⟨rfl, rfl⟩
  simp only [State.radio, State.sendOrders_state hrun, hrest.1, hrest.2] at hq ⊢
  have ho : s.order.isSome = true := by
    unfold State.orderedState at hq
    split at hq
    · cases hq
    · split at hq
      · assumption
      · cases hq
  exact State.order_isSome.1 ho

/-! ### The verdict changes -/

/-- The verdict and its orders, as `changeVerdict` publishes them first (R13, R15). -/
def State.published (new : Option VerdictZone) (cause : ZoneCause) (d : Option Nat) (s : State) : State :=
  ((s.onTracker fun t => { t with verdict := new }).raise
    (.zoneChanged (s.tracker.verdict.map (·.index)) (new.map (·.index)) (new.map (·.rules)) cause d s.mli.shipTime 1)).sendOrders

/-- What the other blocks do at a change of verdict: on a quiet entry the entries rest (R17), under REDUCED or FULL periods
and registrations are brought into line (R134, R152). -/
def State.entriesFollow (oldPolicy newPolicy : Policy) (s : State) : State :=
  if newPolicy = .quiet then (if oldPolicy = .quiet then s else s.eachEntry State.rest)
  else (s.eachEntry State.rotatePeriod).eachEntry State.moveCheck

theorem State.changeVerdict_eq (new : Option VerdictZone) (cause : ZoneCause) (d : Option Nat) (s : State) :
    s.changeVerdict new cause d =
      ((s.published new cause d).entriesFollow (policyOf s.rules?) (policyOf (new.map (·.rules)))).workOut := rfl

theorem State.entriesFollow_standing (a b : Policy) (s : State) : (s.entriesFollow a b).standing = s.standing := by
  unfold State.entriesFollow
  split
  · split
    · rfl
    · exact State.eachEntry_standing _ State.rest_standing s
  · rw [State.eachEntry_standing _ State.moveCheck_standing, State.eachEntry_standing _ State.rotatePeriod_standing]

/-- A change of verdict shows in the settings and the radio as its publication does. -/
theorem State.changeVerdict_standing (new : Option VerdictZone) (cause : ZoneCause) (d : Option Nat) (s : State) :
    (s.changeVerdict new cause d).standing = (s.published new cause d).standing := by
  rw [State.changeVerdict_eq, State.workOut_standing, State.entriesFollow_standing]

@[simp] theorem State.changeVerdict_settings (new : Option VerdictZone) (cause : ZoneCause) (d : Option Nat) (s : State) :
    (s.changeVerdict new cause d).settings = s.settings := by
  rw [State.settings_of_standing (State.changeVerdict_standing new cause d s)]
  unfold State.published
  rw [State.sendOrders_settings, State.settings_of_standing (State.raise_standing _ _)]
  rfl

/-- A change of verdict keeps silence (R15, R16). -/
theorem State.changeVerdict_silent (new : Option VerdictZone) (cause : ZoneCause) (d : Option Nat) {s : State}
    (h : s.radio.silent) : (s.changeVerdict new cause d).radio.silent := by
  have hraise := fun n : Notice => State.radio_of_standing (State.raise_standing n (s.onTracker fun t => { t with verdict := new }))
  rw [State.radio_of_standing (State.changeVerdict_standing new cause d s)]
  unfold State.published
  by_cases hrun : s.mli.device = .running
  · refine State.sendOrders_silent ?_
    exact (congrArg Radio.device (hraise _)).trans hrun
  · rw [State.sendOrders_unconfigured fun hr => hrun ((congrArg Radio.device (hraise _)).symm.trans hr), hraise]
    exact Radio.silent_of_quiet fun p => h.quiet hrun p

/-! ### Evaluation, holds and fixes -/

/-- A property that every change of verdict at `d` gives, and that the state has, is there after the evaluation. -/
theorem State.evaluate_keeps {P : State → Prop} (q : Quality) (d : Nat) (cause : ZoneCause) {s : State} (hs : P s)
    (hc : ∀ c why, P (s.changeVerdict (some c) why (some d))) : P (s.evaluate q d cause) := by
  unfold State.evaluate
  split
  · split
    · exact hs
    · split
      · exact hc _ _
      · split
        · exact hc _ _
        · exact hs
  · exact hs

/-- A property that changes of verdict keep, and updates of the tracker's flags and timers, is kept by the end of a hold. -/
theorem State.endHold_keeps {P : State → Prop} {s : State} (hs : P s)
    (hflag : ∀ s (x : Tracker → Option Nat), P s → P (s.onTracker fun t => { t with holdExpiry := x t }))
    (hc : ∀ s c why d, P s → P (s.changeVerdict c why d)) : P s.endHold := by
  have hnone := hflag s (fun _ => none) hs
  unfold State.endHold
  dsimp only
  split
  · exact State.evaluate_keeps _ _ _ hnone fun c why => hc _ _ _ _ hnone
  · exact hnone

theorem State.beginHold_keeps {P : State → Prop} {s : State} (hs : P s)
    (hflag : ∀ s (x : Tracker → Option Nat), P s → P (s.onTracker fun t => { t with holdExpiry := x t }))
    (hc : ∀ s c why d, P s → P (s.changeVerdict c why d)) : P s.beginHold := by
  have hsome := hflag s (fun t => some (s.now + t.holdTime * 1000)) hs
  unfold State.beginHold
  dsimp only
  split
  · exact State.endHold_keeps hsome hflag hc
  · exact hsome

/-- A property that changes of verdict keep, and updates of the tracker's flags and timers, is kept by a fix. -/
theorem State.takeFix_keeps {P : State → Prop} (q : Quality) (d : Nat) {s : State} (hs : P s)
    (hflag : ∀ s (x : Tracker → Option Nat), P s → P (s.onTracker fun t => { t with holdExpiry := x t }))
    (hfrozen : ∀ s x, P s → P (s.onTracker fun t => { t with frozen := x }))
    (hc : ∀ s c why d, P s → P (s.changeVerdict c why d)) : P (s.takeFix q d) := by
  have heval : P (s.evaluate q d .margin) := State.evaluate_keeps _ _ _ hs fun c why => hc _ _ _ _ hs
  unfold State.takeFix
  split
  · exact hflag _ (fun _ => none) (hfrozen s true hs)
  · split
    · split
      · split
        · exact hc _ _ _ _ (hfrozen s false hs)
        · exact hs
      · exact hs
    · split
      · exact State.beginHold_keeps (hfrozen _ false heval) hflag hc
      · exact heval

/-- The largest distance that a fix is held to (R5). -/
def State.fixTop (s : State) : Nat := if s.tracker.zones.isEmpty then 1000000 else s.tracker.routeLength

/-- A fix is recorded as the last one, and unless its quality is NONE its position too (R5). -/
def State.recordFix (q : Quality) (d : Nat) (s : State) : State :=
  s.onTracker fun t => { t with
    lastFix := some (q, s.now), lastPosition := if q = .none then t.lastPosition else some d }

/-- The fix timer starts afresh (R5). -/
def State.restartFixTimer (s : State) : State :=
  s.onTracker fun t => { t with fixExpiry := some (s.now + t.fixTimeout * 1000) }

/-- What a FIX does, its reply apart (R5). -/
def State.applyFix (q : Quality) (d : Nat) (s : State) : State :=
  if s.running then (s.recordFix q d).restartFixTimer.takeFix q d else s.recordFix q d

theorem execFix_eq (r : Request FixBody) (s : State) : execFix r s =
    takeRequest (.fix r) s (checked Kind.fix r false always fun b s =>
      (s.applyFix b.quality (clampTo 0 s.fixTop b.distance)).ok Kind.fix r.tag (isClamped 0 s.fixTop b.distance)
        (le 3 (clampTo 0 s.fixTop b.distance))) := rfl

/-! ### Every command keeps radio silence -/

/-- What keeps all that stands keeps silence. -/
theorem State.silent_of_standing {s t : State} (h : t.standing = s.standing) (hs : s.radio.silent) : t.radio.silent := by
  rw [State.radio_of_standing h]; exact hs

/-- A property of what stands that a request's own rule keeps is kept by the request. -/
theorem request_keeps {α : Type} {P : State → Prop} {c : Instr} {kind : Byte} {r : Request α} {query : Bool}
    {cl wf : α → Bool} {own : α → State → State} {s t : State}
    (ht : takeRequest c s (checkedClamped kind r query cl wf own) = .next t)
    (hP : ∀ a b : State, b.standing = a.standing → P a → P b) (hs : P s) (hf : ∀ b s, P s → P (own b s)) : P t :=
  takeRequest_keeps ht hs (fun t => hP t _ (State.joinInput_standing _ t))
    (fun _ => checkedClamped_keeps (fun s _ _ _ h => hP s _ rfl h) (fun b t _ => hf b t))

/-- A request whose own rule keeps silence keeps it. -/
theorem request_silent {α : Type} {c : Instr} {kind : Byte} {r : Request α} {query : Bool} {cl wf : α → Bool}
    {own : α → State → State} {s t : State} (ht : takeRequest c s (checkedClamped kind r query cl wf own) = .next t)
    (hs : s.radio.silent) (hf : ∀ b s, s.radio.silent → (own b s).radio.silent) : t.radio.silent :=
  request_keeps (P := fun t => t.radio.silent) ht (fun _ _ => State.silent_of_standing) hs hf

theorem execStart_silent {r : Request Unit} {s t : State} (ht : execStart r s = .next t) (hs : s.radio.silent) :
    t.radio.silent := by
  refine request_silent ht hs (fun b s hs => ?_)
  split
  · exact hs
  · rename_i hrun
    have hdev : s.mli.device ≠ .running := by simpa [State.running] using hrun
    split
    · exact hs
    · have hstarted : s.startDevice.radio = { device := .running, verdict := none, ports := s.radio.ports } := by
        unfold State.startDevice
        dsimp only
        split <;>
          simp only [State.radio_of_standing (State.beginIsolation_standing _ _ _),
            State.radio_of_standing (State.workOut_standing _)] <;> rfl
      change s.startDevice.radio.silent
      rw [hstarted]
      exact Radio.silent_of_quiet (hs.quiet hdev)

theorem execFix_silent {r : Request FixBody} {s t : State} (ht : execFix r s = .next t) (hs : s.radio.silent) :
    t.radio.silent := by
  refine request_silent ht hs (fun b s hs => ?_)
  change (s.applyFix _ _).radio.silent
  unfold State.applyFix
  split
  · exact State.takeFix_keeps (P := fun s => s.radio.silent) _ _ hs (fun _ _ h => h) (fun _ _ h => h)
      (fun s c why d h => State.changeVerdict_silent c why d h)
  · exact hs

theorem execThawZone_silent {r : Request Unit} {s t : State} (ht : execThawZone r s = .next t) (hs : s.radio.silent) :
    t.radio.silent := by
  refine request_silent ht hs (fun b s hs => ?_)
  dsimp only
  split
  · split
    · exact State.beginHold_keeps (P := fun s => s.radio.silent) hs (fun _ _ h => h)
        (fun s c why d h => State.changeVerdict_silent c why d h)
    · exact hs
  · exact hs

theorem execLoadZones_silent {r : Request LoadZonesBody} {s t : State} (ht : execLoadZones r s = .next t)
    (hs : s.radio.silent) : t.radio.silent := by
  refine request_silent ht hs (fun b s hs => ?_)
  dsimp only
  repeat' split
  · exact hs
  · exact hs
  · exact State.changeVerdict_silent none .tableLoad none hs
  · exact hs

theorem execHoldExpiry_silent {s t : State} (ht : execHoldExpiry s = .next t) (hs : s.radio.silent) : t.radio.silent := by
  refine whenPowered_keeps (P := fun s => s.radio.silent) ht hs (fun s hs => ?_)
  split
  · exact hs
  · exact State.atExpiry_keeps (P := fun s => s.radio.silent) hs fun s hs =>
      State.endHold_keeps (P := fun s => s.radio.silent) hs (fun _ _ h => h)
        (fun s c why d h => State.changeVerdict_silent c why d h)

theorem execFixTimerExpiry_silent {s t : State} (ht : execFixTimerExpiry s = .next t) (hs : s.radio.silent) :
    t.radio.silent := by
  refine whenPowered_keeps (P := fun s => s.radio.silent) ht hs (fun s hs => ?_)
  split
  · exact hs
  · refine State.atExpiry_keeps (P := fun s => s.radio.silent) hs fun s hs => ?_
    dsimp only
    split <;> exact hs

/-- A port that takes a state other than RADIATING keeps silence. -/
theorem State.onPort_silent (p : Fin 6) (f : CellPort → CellPort) {s : State}
    (hf : (f (s.port p)).state = (s.port p).state ∨ (f (s.port p)).state ≠ .radiating) (hs : s.radio.silent) :
    (s.onPort p f).radio.silent := by
  intro q hq
  refine hs q ?_
  simp only [State.radio, State.port_onPort] at hq ⊢
  by_cases hpq : p = q
  · subst hpq
    rw [if_pos rfl] at hq
    obtain h | h := hf
    · rw [← h]; exact hq
    · exact absurd hq h
  · rw [if_neg hpq] at hq; exact hq

theorem execHeadHello_silent {p : Fin 6} {n : Nat} {s t : State} (ht : execHeadHello p n s = .next t)
    (hs : s.radio.silent) : t.radio.silent := by
  refine whenPowered_keeps (P := fun s => s.radio.silent) ht hs (fun s hs => ?_)
  dsimp only
  split
  · exact State.silent_of_standing (State.countPort_standing p _ s) hs
  · have hup : (s.onPort p fun q => { q with
        headCapacity := n, state := if q.state = .down then .ready else q.state }).radio.silent := by
      refine State.onPort_silent p _ ?_ hs
      dsimp only
      split
      · exact .inr (by simp)
      · exact .inl rfl
    have hsent := State.sendOrder_silent p hup
    split
    · exact State.silent_of_standing (State.sendHold_standing p _) hsent
    · exact hsent

/-- The failure of a port leaves what stands. -/
@[simp] theorem State.portFails_standing (p : Fin 6) (s : State) : (s.portFails p).standing = s.standing := by
  unfold State.portFails
  dsimp only
  rw [State.eachOf_standing _ _ State.markLost_standing]
  simp

theorem execHeadResync_silent {p : Fin 6} {s t : State} (ht : execHeadResync p s = .next t) (hs : s.radio.silent) :
    t.radio.silent := by
  refine whenPowered_keeps (P := fun s => s.radio.silent) ht hs (fun s hs => ?_)
  unfold State.onRecord
  dsimp only
  split
  · exact State.silent_of_standing (State.countPort_standing p _ s) hs
  · split
    · exact State.silent_of_standing (State.countPort_standing p _ s) hs
    · refine State.silent_of_standing (State.raise_standing _ _) (State.sendOrder_silent p (State.onPort_silent p _ ?_ ?_))
      · exact .inr (by simp)
      · exact State.silent_of_standing ((State.countPort_standing p _ _).trans (State.portFails_standing p s)) hs

theorem execCellCarrierLost_silent {p : Fin 6} {s t : State} (ht : execCellCarrierLost p s = .next t)
    (hs : s.radio.silent) : t.radio.silent := by
  refine whenPowered_keeps (P := fun s => s.radio.silent) ht hs (fun s hs => ?_)
  dsimp only
  split
  · exact hs
  · refine State.silent_of_standing (State.raise_standing _ _) (State.onPort_silent p _ (.inr (by simp)) ?_)
    exact State.silent_of_standing ((State.countPort_standing p _ _).trans (State.portFails_standing p s)) hs

/-- The ports at their reset values are DOWN. -/
theorem State.silent_of_initial {s : State} (h : s.cpc = Cpc.initial) : s.radio.silent := by
  refine Radio.silent_of_quiet fun p => ?_
  simp [State.radio, State.port, h, Cpc.initial, CellPort.initial]

theorem State.cellCarriers_standing (given : Bool) (s : State) : (s.cellCarriers given).standing = s.standing :=
  State.eachOf_standing _ (fun p s => s.emit (.cellCarrier p given)) (fun _ _ => rfl) s

theorem execResetComplete_silent {s t : State} (ht : execResetComplete s = .next t) (hs : s.radio.silent) :
    t.radio.silent := by
  refine whenPowered_keeps (P := fun s => s.radio.silent) ht hs (fun s hs => ?_)
  split
  · exact hs
  · refine State.silent_of_standing ((State.cellCarriers_standing _ _).trans (State.arbitrate_standing _)) ?_
    exact State.silent_of_initial rfl

end Sys2Proof.Machine
end


-- ==== Sys2Proof/Proofs/OwnSettings.lean ====
section
/-! SUPPORT. Each request with a setting of its own changes that setting and nothing else of what stands; with that, every step
keeps radio silence (R16) and every setting changes by its own requests alone. -/

namespace Sys2Proof.Machine

/-- `t` stands as `s` does but for one group of settings, which `upd` replaces. -/
def State.onlyChanges {α : Type} (upd : α → Settings → Settings) (s t : State) : Prop :=
  (∃ x, t.settings = upd x s.settings) ∧ t.radio = s.radio

def Settings.putZones (x : ZoneSettings) (a : Settings) : Settings := { a with zones := x }
def Settings.putPartners (x : PartnerSettings) (a : Settings) : Settings := { a with partners := x }
def Settings.putBanks (x : BankSettings) (a : Settings) : Settings := { a with banks := x }
def Settings.putBank (x : List (Nat × TariffPlan)) (a : Settings) : Settings := { a with banks := { a.banks with bank := x } }
def Settings.putArmed (x : Bool) (a : Settings) : Settings := { a with banks := { a.banks with armed := x } }
def Settings.putBilling (x : Billing) (a : Settings) : Settings := { a with billing := x }
def Settings.putLinks (x : Fin 4 → LinkSettings) (a : Settings) : Settings := { a with links := x }
def Settings.putCells (x : Fin 6 → Nat × Nat) (a : Settings) : Settings := { a with cells := x }
def Settings.putSwap (x : SwapSettings) (a : Settings) : Settings := { a with swap := x }
def Settings.putDelivery (x : Channel × Nat) (a : Settings) : Settings := { a with delivery := x }

/-- A change that follows others of the same group is one change of that group: `upd` forgets the older value. -/
theorem State.onlyChanges.andThen {α : Type} {upd : α → Settings → Settings} {s t u : State} {x : α}
    (hupd : ∀ x y a, upd y (upd x a) = upd y a) (h : s.onlyChanges upd t) (hs : u.settings = upd x t.settings)
    (hr : u.radio = t.radio) : s.onlyChanges upd u := by
  obtain ⟨⟨y, hy⟩, hradio⟩ := h
  exact ⟨⟨x, by rw [hs, hy, hupd]⟩, hr.trans hradio⟩

/-- What leaves everything that stands changes no setting. -/
theorem State.onlyChanges.ofStanding {α : Type} {upd : α → Settings → Settings} {s t u : State} (h : s.onlyChanges upd t)
    (hu : u.standing = t.standing) : s.onlyChanges upd u := by
  rw [State.onlyChanges, State.settings_of_standing hu, State.radio_of_standing hu]; exact h

/-- A request whose own rule changes one group of settings changes that group alone. -/
theorem request_onlyChanges {α β : Type} {upd : β → Settings → Settings} {c : Instr} {kind : Byte} {r : Request α}
    {query : Bool} {cl wf : α → Bool} {own : α → State → State} {s t : State}
    (ht : takeRequest c s (checkedClamped kind r query cl wf own) = .next t) (hs : s.onlyChanges upd s)
    (hf : ∀ b u, s.onlyChanges upd u → s.onlyChanges upd (own b u)) : s.onlyChanges upd t :=
  request_keeps (P := s.onlyChanges upd) ht (fun _ _ h hu => hu.ofStanding h) hs hf

theorem State.onPort_radio (p : Fin 6) (f : CellPort → CellPort) (s : State) (h : ∀ q, (f q).state = q.state) :
    (s.onPort p f).radio = s.radio := by
  have hp : ∀ q, ((s.onPort p f).port q).state = (s.port q).state := by
    intro q
    by_cases hq : p = q
    · subst hq; simp only [State.port_onPort, if_true, h]
    · simp only [State.port_onPort, if_neg hq]
  simp only [State.radio, hp]
  rfl

theorem State.onPort_cells (p : Fin 6) (f : CellPort → CellPort) (s : State) :
    (s.onPort p f).settings = s.settings.putCells (s.onPort p f).settings.cells := rfl

theorem execConfigureLinkCell_onlyCells {r : Request CellConfig} {s t : State} (ht : execConfigureLinkCell r s = .next t) :
    s.onlyChanges Settings.putCells t := by
  refine request_onlyChanges ht ⟨⟨s.settings.cells, rfl⟩, rfl⟩ (fun b u hu => ?_)
  split
  · exact hu.andThen (fun _ _ _ => rfl) (State.onPort_cells _ _ u) (State.onPort_radio _ _ u fun _ => rfl)
  · exact hu

/-- What an accepted CONFIGURE-LINK writes into the record of a shore link (R78). -/
def linkConfigured (b : ShoreConfig) (k : Link) : Link :=
  { k with
    type := some b.type, costRank := clampTo 0 15 b.costRank,
    rttLimit := some (match b.rttLimit with
      | some v => clampTo 50 5000 v
      | none => defaultRtt b.type),
    holddownTime := clampTo 5 300 b.holddown, reprobeTime := clampTo 10 600 b.reprobe, enabled := b.enabled }

/-- What follows for link `l` when its record has been written: it probes, goes ABSENT, or stays (R78). -/
def State.afterConfigure (l : Fin 4) (enabled wasEnabled : Bool) (s : State) : State :=
  if enabled && !wasEnabled then
    (if (s.link l).carrier && (s.link l).state == .absent then (s.startProbe l .enabled).workOut else s.workOut)
  else if !enabled && wasEnabled then
    (if (s.link l).state = .absent then (s.onLink l fun k => { k with longOwed := true }).workOut
     else s.goAbsent l .disabled)
  else s.workOut

theorem State.afterConfigure_standing (l : Fin 4) (a b : Bool) (s : State) : (s.afterConfigure l a b).standing = s.standing := by
  unfold State.afterConfigure
  repeat' split
  all_goals simp

theorem execConfigureLinkShore_onlyLinks {r : Request ShoreConfig} {s t : State}
    (ht : execConfigureLinkShore r s = .next t) : s.onlyChanges Settings.putLinks t := by
  refine request_onlyChanges ht ⟨⟨s.settings.links, rfl⟩, rfl⟩ (fun b u hu => ?_)
  split
  · rename_i hport
    have hset : s.onlyChanges Settings.putLinks (u.onLink ⟨b.port, hport⟩ (linkConfigured b)) :=
      hu.andThen (x := (u.onLink ⟨b.port, hport⟩ (linkConfigured b)).settings.links) (fun _ _ _ => rfl) rfl rfl
    exact hset.ofStanding (State.afterConfigure_standing ⟨b.port, hport⟩ b.enabled (u.link ⟨b.port, hport⟩).enabled _)
  · exact hu

theorem execPinLink_onlySwap {r : Request PinBody} {s t : State} (ht : execPinLink r s = .next t) :
    s.onlyChanges Settings.putSwap t := by
  refine request_onlyChanges ht ⟨⟨s.settings.swap, rfl⟩, rfl⟩ (fun b u hu => ?_)
  have hset : ∀ f : Slm → Slm, (∀ m, (f m).links = m.links) → s.onlyChanges Settings.putSwap (u.onSlm f) := by
    intro f hf
    refine hu.andThen (x := (f u.slm).settings) (fun _ _ _ => rfl) ?_ rfl
    simp only [State.settings, State.link, State.onSlm_slm, hf]
    rfl
  dsimp only
  refine (hset _ ?_).ofStanding ((State.ok_standing ..).trans (State.workOut_standing _))
  exact fun _ => rfl

/-- A write to the Rating Unit shows in the banks alone. -/
theorem State.onRtu_onlyBanks {s u : State} (h : s.onlyChanges Settings.putBanks u) (f : Rtu → Rtu) :
    s.onlyChanges Settings.putBanks (u.onRtu f) :=
  h.andThen (x := (f u.rtu).settings) (fun _ _ _ => rfl) rfl rfl

theorem execLoadTariffPlan_onlyBank {r : Request TariffLoad} {s t : State} (ht : execLoadTariffPlan r s = .next t) :
    s.onlyChanges Settings.putBank t := by
  refine request_onlyChanges ht ⟨⟨s.settings.banks.bank, rfl⟩, rfl⟩ (fun b u hu => ?_)
  split
  · exact hu
  · exact hu.andThen (fun _ _ _ => rfl) rfl rfl

theorem execCommitTariffNow_onlyBanks {r : Request Unit} {s t : State} (ht : execCommitTariffNow r s = .next t) :
    s.onlyChanges Settings.putBanks t := by
  refine request_onlyChanges ht ⟨⟨s.settings.banks, rfl⟩, rfl⟩ (fun b u hu => ?_)
  split
  · exact hu
  · exact (State.onRtu_onlyBanks (hu.ofStanding (State.closeAll_standing .tariff u)) _).ofStanding
      ((State.ok_standing ..).trans (State.openAll_standing _))

theorem execCommitTariffAtDayRoll_onlyArmed {r : Request Unit} {s t : State}
    (ht : execCommitTariffAtDayRoll r s = .next t) : s.onlyChanges Settings.putArmed t := by
  refine request_onlyChanges ht ⟨⟨s.settings.banks.armed, rfl⟩, rfl⟩ (fun b u hu => ?_)
  split
  · exact hu
  · exact hu.andThen (x := true) (fun _ _ _ => rfl) rfl rfl

theorem State.rollDay_onlyBanks {s u : State} (hu : s.onlyChanges Settings.putBanks u) :
    s.onlyChanges Settings.putBanks u.rollDay := by
  have hclosed : s.onlyChanges Settings.putBanks ((u.closeAll .day).onTable fun t => { t with
      entries := t.entries.map fun p => (p.1, { p.2 with dayCount := 0 }) }) :=
    hu.ofStanding ((State.onTable_standing _ _).trans (State.closeAll_standing _ _))
  unfold State.rollDay
  dsimp only
  refine State.onlyChanges.ofStanding ?_ ((State.countRtu_standing _ _).trans (State.openAll_standing _))
  split
  · exact hclosed
  · exact State.onRtu_onlyBanks hclosed _
  · exact State.onRtu_onlyBanks hclosed _

theorem execDayRoll_onlyBanks {r : Request Unit} {s t : State} (ht : execDayRoll r s = .next t) :
    s.onlyChanges Settings.putBanks t :=
  request_onlyChanges ht ⟨⟨s.settings.banks, rfl⟩, rfl⟩ (fun _ _ hu => State.rollDay_onlyBanks hu)

theorem execSetBilling_onlyBilling {r : Request BillingBody} {s t : State} (ht : execSetBilling r s = .next t) :
    s.onlyChanges Settings.putBilling t := by
  refine request_onlyChanges ht ⟨⟨s.settings.billing, rfl⟩, rfl⟩ (fun b u hu => ?_)
  dsimp only
  split
  · exact hu
  · exact hu.andThen (fun _ _ _ => rfl) rfl rfl

theorem execSetDelivery_onlyDelivery {r : Request DeliveryBody} {s t : State} (ht : execSetDelivery r s = .next t) :
    s.onlyChanges Settings.putDelivery t := by
  refine request_onlyChanges ht ⟨⟨s.settings.delivery, rfl⟩, rfl⟩ (fun b u hu => ?_)
  have hset : ∀ (u : State) (f : Rsc → Rsc), s.onlyChanges Settings.putDelivery u →
      s.onlyChanges Settings.putDelivery (u.onRsc f) := fun u f h =>
    h.andThen (x := (f u.rsc).settings) (fun _ _ _ => rfl) rfl rfl
  dsimp only
  split
  · exact hset _ _ hu
  · exact hset _ _ (hu.ofStanding (State.returnBatch_standing .channel u))

theorem execLoadPartnersLast_onlyPartners {r : Request PartnersPart} {s t : State}
    (ht : execLoadPartnersLast r s = .next t) : s.onlyChanges Settings.putPartners t := by
  have hclear : ∀ (u : State) (x : Option Staging), (u.onMli fun m => { m with staging := x }).standing = u.standing :=
    fun _ _ => rfl
  refine takeRequest_keeps (P := s.onlyChanges Settings.putPartners) ht ⟨⟨s.settings.partners, rfl⟩, rfl⟩
    (fun u hu => hu.ofStanding (State.joinInput_standing _ u)) (fun u hu => ?_)
  dsimp only
  split
  · exact hu.ofStanding (hclear u none)
  · rename_i st _
    have htaken : s.onlyChanges Settings.putPartners ((u.onMli fun m => { m with staging := none }).takePartners st) :=
      (hu.ofStanding (hclear u none)).andThen (x := ⟨st.records, st.pacerRate, st.exchangeTimer⟩) (fun _ _ _ => rfl) rfl rfl
    split
    case isTrue => exact hu.ofStanding (hclear u none)
    split
    case isTrue => exact hu.ofStanding (hclear u none)
    split
    case isTrue => exact hu.ofStanding (hclear u none)
    split
    case isTrue => exact hu.ofStanding (hclear u none)
    exact htaken

/-! ### Radio silence -/

/-- Every command keeps radio silence (R16). -/
theorem exec_silent {c : Instr} {s t : State} (ht : exec c s = .next t) (hs : s.radio.silent) : t.radio.silent := by
  by_cases hc : Instr.settles c
  case neg => exact State.silent_of_standing (exec_standing hc ht) hs
  cases c <;> try exact absurd hc id
  case start => exact execStart_silent ht hs
  case resetComplete => exact execResetComplete_silent ht hs
  case fix => exact execFix_silent ht hs
  case freezeZone => exact request_silent ht hs fun _ _ h => h
  case thawZone => exact execThawZone_silent ht hs
  case loadZones => exact execLoadZones_silent ht hs
  case loadPartnersLast => rw [(execLoadPartnersLast_onlyPartners ht).2]; exact hs
  case configureLinkCell => rw [(execConfigureLinkCell_onlyCells ht).2]; exact hs
  case configureLinkShore => rw [(execConfigureLinkShore_onlyLinks ht).2]; exact hs
  case pinLink => rw [(execPinLink_onlySwap ht).2]; exact hs
  case loadTariffPlan => rw [(execLoadTariffPlan_onlyBank ht).2]; exact hs
  case commitTariffNow => rw [(execCommitTariffNow_onlyBanks ht).2]; exact hs
  case commitTariffAtDayRoll => rw [(execCommitTariffAtDayRoll_onlyArmed ht).2]; exact hs
  case dayRoll => rw [(execDayRoll_onlyBanks ht).2]; exact hs
  case setBilling => rw [(execSetBilling_onlyBilling ht).2]; exact hs
  case setDelivery => rw [(execSetDelivery_onlyDelivery ht).2]; exact hs
  case powerOn => cases ht; exact State.silent_of_initial rfl
  case powerLoss =>
    exact whenPowered_keeps (P := fun s => s.radio.silent) ht hs fun s _ => State.silent_of_initial rfl
  case fixTimerExpiry => exact execFixTimerExpiry_silent ht hs
  case holdExpiry => exact execHoldExpiry_silent ht hs
  case headHello => exact execHeadHello_silent ht hs
  case headResync => exact execHeadResync_silent ht hs
  case cellCarrierLost => exact execCellCarrierLost_silent ht hs
  case setTime => exact request_silent ht hs (fun _ _ h => h)

/-- A step on an empty queue leaves the radio. -/
theorem State.idle_radio (s : State) : s.idle.radio = s.radio := by
  unfold State.idle
  split
  · rfl
  · split <;> rfl

/-- Settles O9: a step runs one command, each of which keeps silence, or lets the part work of itself, which sends no order. -/
theorem stepKeepsRadioSilence : Obligations.StepKeepsRadioSilence := by
  unfold Obligations.StepKeepsRadioSilence
  intro s t hs ht
  rw [State.radioOk_iff] at hs ⊢
  unfold step at ht
  split at ht
  · cases ht; rw [s.idle_radio]; exact hs
  · exact exec_silent ht hs

/-! ### Settings -/

/-- The tracker after LOAD-ZONES took the table `c`. -/
def Tracker.withZones (c : LoadZonesBody) (t : Tracker) : Tracker :=
  { t with routeLength := c.routeLength, zones := c.zones, hysteresis := c.hysteresis, fixTimeout := c.fixTimeout,
           holdTime := c.holdTime, retentionTime := c.retention, frozen := false, holdExpiry := none,
           lastPosition := none }

/-- The table taken, and the verdict with it gone. -/
def State.loadTable (c : LoadZonesBody) (s : State) : State :=
  let s := s.onTracker (Tracker.withZones c)
  if s.tracker.verdict.isSome then s.changeVerdict none .tableLoad none else s

/-- What LOAD-ZONES answers: the numbers it took (R4). -/
def zonesReply (c : LoadZonesBody) : List Byte :=
  le 1 c.zones.length ++ le 3 c.routeLength ++ le 2 c.hysteresis ++ le 1 c.fixTimeout ++ le 2 c.holdTime ++
    le 1 c.retention

/-- The checks of R3 in their order, and the table taken. -/
def State.applyZones (r : Request LoadZonesBody) (b : LoadZonesBody) (s : State) : State :=
  if !s.atBerth then s.refuseClamped Kind.loadZones r.tag (zonesClamped b) .notAtBerth
  else if !s.zonesAccepted (clampZones b) then s.refuseClamped Kind.loadZones r.tag (zonesClamped b) .badTable
  else (s.loadTable (clampZones b)).ok Kind.loadZones r.tag (zonesClamped b) (zonesReply (clampZones b))

theorem execLoadZones_eq (r : Request LoadZonesBody) (s : State) :
    execLoadZones r s = takeRequest (.loadZones r) s
      (checkedClamped Kind.loadZones r false zonesClamped zonesWellFormed (State.applyZones r)) :=
  rfl

/-- LOAD-ZONES puts the zone settings it took, and no other. -/
theorem State.loadTable_settings (c : LoadZonesBody) (s : State) :
    (s.loadTable c).settings = s.settings.putZones (s.tracker.withZones c).settings := by
  have htake : (s.onTracker (Tracker.withZones c)).settings = s.settings.putZones (s.tracker.withZones c).settings := by
    rw [State.onTracker_settings]; rfl
  unfold State.loadTable
  dsimp only
  split
  · rw [State.changeVerdict_settings]; exact htake
  · exact htake

theorem execLoadZones_onlyZones {r : Request LoadZonesBody} {s t : State} (ht : execLoadZones r s = .next t) :
    ∃ x, t.settings = s.settings.putZones x := by
  rw [execLoadZones_eq] at ht
  refine request_keeps (P := fun t => ∃ x, t.settings = s.settings.putZones x) ht
    (fun a b h ha => by rw [State.settings_of_standing h]; exact ha) ⟨s.settings.zones, rfl⟩ (fun b u hu => ?_)
  obtain ⟨x, hx⟩ := hu
  unfold State.applyZones
  split
  · exact ⟨x, hx⟩
  · split
    · exact ⟨x, hx⟩
    · refine ⟨(u.tracker.withZones (clampZones b)).settings, Eq.trans (State.loadTable_settings (clampZones b) u) ?_⟩
      rw [hx]
      rfl

/-- A request whose own rule leaves the settings leaves them. -/
theorem request_settings {α : Type} {c : Instr} {kind : Byte} {r : Request α} {query : Bool} {cl wf : α → Bool}
    {own : α → State → State} {s t : State} (ht : takeRequest c s (checkedClamped kind r query cl wf own) = .next t)
    (hf : ∀ b s, (own b s).settings = s.settings) : t.settings = s.settings :=
  request_keeps (P := fun t => t.settings = s.settings) ht (fun _ _ h => (State.settings_of_standing h).trans) rfl
    (fun b u => (hf b u).trans)

/-- A command whose effect leaves the settings leaves them. -/
theorem effect_settings {s t : State} {f : State → State} (ht : whenPowered s f = .next t)
    (hf : ∀ s, (f s).settings = s.settings) : t.settings = s.settings :=
  whenPowered_keeps (P := fun t => t.settings = s.settings) ht rfl (fun u => (hf u).trans)

theorem State.endHold_settings (s : State) : s.endHold.settings = s.settings :=
  State.endHold_keeps (P := fun t => t.settings = s.settings) rfl (fun _ _ h => h)
    (fun u c why d => (State.changeVerdict_settings c why d u).trans)

theorem State.beginHold_settings (s : State) : s.beginHold.settings = s.settings :=
  State.beginHold_keeps (P := fun t => t.settings = s.settings) rfl (fun _ _ h => h)
    (fun u c why d => (State.changeVerdict_settings c why d u).trans)

theorem State.takeFix_settings (q : Quality) (d : Nat) (s : State) : (s.takeFix q d).settings = s.settings :=
  State.takeFix_keeps (P := fun t => t.settings = s.settings) q d rfl (fun _ _ h => h) (fun _ _ h => h)
    (fun u c why d => (State.changeVerdict_settings c why d u).trans)

theorem State.startDevice_settings (s : State) : s.startDevice.settings = s.settings := by
  unfold State.startDevice
  dsimp only
  split
  · rw [State.settings_of_standing (State.beginIsolation_standing _ _ _), State.settings_of_standing (State.workOut_standing _)]
    rfl
  · rw [State.settings_of_standing (State.workOut_standing _)]
    rfl

theorem execStart_settings {r : Request Unit} {s t : State} (ht : execStart r s = .next t) : t.settings = s.settings := by
  refine request_settings ht (fun b u => ?_)
  split
  · rfl
  · split
    · rfl
    · exact State.startDevice_settings u

theorem execFix_settings {r : Request FixBody} {s t : State} (ht : execFix r s = .next t) : t.settings = s.settings := by
  refine request_settings ht (fun b u => ?_)
  change (u.applyFix _ _).settings = u.settings
  unfold State.applyFix
  split
  · rw [State.takeFix_settings]; rfl
  · rfl

theorem execThawZone_settings {r : Request Unit} {s t : State} (ht : execThawZone r s = .next t) :
    t.settings = s.settings := by
  refine request_settings ht (fun b u => ?_)
  dsimp only
  split
  · split
    · exact State.beginHold_settings _
    · rfl
  · rfl

theorem execFixTimerExpiry_settings {s t : State} (ht : execFixTimerExpiry s = .next t) : t.settings = s.settings := by
  refine effect_settings ht (fun u => ?_)
  split
  · rfl
  · refine State.atExpiry_keeps (P := fun t => t.settings = u.settings) rfl fun v hv => ?_
    dsimp only
    split <;> exact hv

theorem execHoldExpiry_settings {s t : State} (ht : execHoldExpiry s = .next t) : t.settings = s.settings := by
  refine effect_settings ht (fun u => ?_)
  split
  · rfl
  · exact State.atExpiry_keeps (P := fun t => t.settings = u.settings) rfl fun v => (State.endHold_settings v).trans

theorem execHeadHello_settings {p : Fin 6} {n : Nat} {s t : State} (ht : execHeadHello p n s = .next t) :
    t.settings = s.settings := by
  refine effect_settings ht (fun u => ?_)
  dsimp only
  split
  · exact State.settings_of_standing (State.countPort_standing p _ u)
  · have hsent := (State.sendOrder_settings p _).trans (State.onPort_settings p (fun q => { q with
      headCapacity := n, state := if q.state = .down then .ready else q.state }) u fun _ => rfl)
    split
    · exact (State.settings_of_standing (State.sendHold_standing p _)).trans hsent
    · exact hsent

theorem execHeadResync_settings {p : Fin 6} {s t : State} (ht : execHeadResync p s = .next t) :
    t.settings = s.settings := by
  refine effect_settings ht (fun u => ?_)
  unfold State.onRecord
  dsimp only
  split
  · exact State.settings_of_standing (State.countPort_standing p _ u)
  · split
    · exact State.settings_of_standing (State.countPort_standing p _ u)
    · refine (State.settings_of_standing (State.raise_standing _ _)).trans ((State.sendOrder_settings p _).trans
        ((State.onPort_settings p (fun q => { q with state := .ready }) _ fun _ => rfl).trans ?_))
      exact State.settings_of_standing ((State.countPort_standing p _ _).trans (State.portFails_standing p u))

theorem execCellCarrierLost_settings {p : Fin 6} {s t : State} (ht : execCellCarrierLost p s = .next t) :
    t.settings = s.settings := by
  refine effect_settings ht (fun u => ?_)
  dsimp only
  split
  · rfl
  · refine (State.settings_of_standing (State.raise_standing _ _)).trans
      ((State.onPort_settings p (fun q => { q with state := .down, headCapacity := 1024 }) _ fun _ => rfl).trans ?_)
    exact State.settings_of_standing ((State.countPort_standing p _ _).trans (State.portFails_standing p u))

/-- The settings that command `c` may change from `a` to `b`: each group by its own requests alone. -/
def Settings.changesBy (c : Instr) (a b : Settings) : Prop :=
  ((∀ r, c ≠ .loadZones r) → b.zones = a.zones) ∧
  ((∀ r, c ≠ .loadPartnersLast r) → b.partners = a.partners) ∧
  ((∀ r, c ≠ .commitTariffNow r) → (∀ r, c ≠ .dayRoll r) →
    b.banks.active = a.banks.active ∧ ((∀ r, c ≠ .loadTariffPlan r) → b.banks.bank = a.banks.bank) ∧
    ((∀ r, c ≠ .commitTariffAtDayRoll r) → b.banks.armed = a.banks.armed)) ∧
  ((∀ r, c ≠ .setBilling r) → b.billing = a.billing) ∧
  ((∀ r, c ≠ .configureLinkShore r) → b.links = a.links) ∧
  ((∀ r, c ≠ .configureLinkCell r) → b.cells = a.cells) ∧
  ((∀ r, c ≠ .pinLink r) → b.swap = a.swap) ∧
  ((∀ r, c ≠ .setDelivery r) → b.delivery = a.delivery)

theorem Settings.changesBy_refl (c : Instr) (a : Settings) : Settings.changesBy c a a := by
  simp [Settings.changesBy]

/-- RESET's completion and power apart, a command changes a setting only where it is one of that setting's own requests. -/
theorem exec_changesBy {c : Instr} {s t : State} (ht : exec c s = .next t) (hreset : c ≠ .resetComplete)
    (hon : c ≠ .powerOn) (hoff : c ≠ .powerLoss) : Settings.changesBy c s.settings t.settings := by
  have hsame : t.settings = s.settings → Settings.changesBy c s.settings t.settings :=
    fun h => h ▸ Settings.changesBy_refl c s.settings
  by_cases hc : Instr.settles c
  case neg => exact hsame (State.settings_of_standing (exec_standing hc ht))
  cases c <;> try exact absurd hc id
  case start => exact hsame (execStart_settings ht)
  case resetComplete => exact absurd rfl hreset
  case fix => exact hsame (execFix_settings ht)
  case setTime => exact hsame (request_settings ht fun _ _ => rfl)
  case freezeZone => exact hsame (request_settings ht fun _ _ => rfl)
  case thawZone => exact hsame (execThawZone_settings ht)
  case loadZones =>
    obtain ⟨x, hx⟩ := execLoadZones_onlyZones ht
    simp [hx, Settings.changesBy, Settings.putZones]
  case loadPartnersLast =>
    obtain ⟨x, hx⟩ := (execLoadPartnersLast_onlyPartners ht).1
    simp [hx, Settings.changesBy, Settings.putPartners]
  case configureLinkCell =>
    obtain ⟨x, hx⟩ := (execConfigureLinkCell_onlyCells ht).1
    simp [hx, Settings.changesBy, Settings.putCells]
  case configureLinkShore =>
    obtain ⟨x, hx⟩ := (execConfigureLinkShore_onlyLinks ht).1
    simp [hx, Settings.changesBy, Settings.putLinks]
  case pinLink =>
    obtain ⟨x, hx⟩ := (execPinLink_onlySwap ht).1
    simp [hx, Settings.changesBy, Settings.putSwap]
  case loadTariffPlan =>
    obtain ⟨x, hx⟩ := (execLoadTariffPlan_onlyBank ht).1
    simp [hx, Settings.changesBy, Settings.putBank]
  case commitTariffNow =>
    obtain ⟨x, hx⟩ := (execCommitTariffNow_onlyBanks ht).1
    simp [hx, Settings.changesBy, Settings.putBanks]
  case commitTariffAtDayRoll =>
    obtain ⟨x, hx⟩ := (execCommitTariffAtDayRoll_onlyArmed ht).1
    simp [hx, Settings.changesBy, Settings.putArmed]
  case dayRoll =>
    obtain ⟨x, hx⟩ := (execDayRoll_onlyBanks ht).1
    simp [hx, Settings.changesBy, Settings.putBanks]
  case setBilling =>
    obtain ⟨x, hx⟩ := (execSetBilling_onlyBilling ht).1
    simp [hx, Settings.changesBy, Settings.putBilling]
  case setDelivery =>
    obtain ⟨x, hx⟩ := (execSetDelivery_onlyDelivery ht).1
    simp [hx, Settings.changesBy, Settings.putDelivery]
  case powerOn => exact absurd rfl hon
  case powerLoss => exact absurd rfl hoff
  case fixTimerExpiry => exact hsame (execFixTimerExpiry_settings ht)
  case holdExpiry => exact hsame (execHoldExpiry_settings ht)
  case headHello => exact hsame (execHeadHello_settings ht)
  case headResync => exact hsame (execHeadResync_settings ht)
  case cellCarrierLost => exact hsame (execCellCarrierLost_settings ht)

/-- Settles O6, from what each command does to `State.settings`. -/
theorem settingsChangeByTheirRequests : Obligations.SettingsChangeByTheirRequests := by
  unfold Obligations.SettingsChangeByTheirRequests
  intro c s t ht hreset hon hoff
  obtain ⟨hzones, hpartners, hbanks, hbilling, hlinks, hcells, hswap, hdelivery⟩ := exec_changesBy ht hreset hon hoff
  refine ⟨fun h => ?_, fun h => ?_, hbanks, hbilling, fun h l => ?_, fun h p => ?_, fun h => ?_, fun h => ?_⟩
  · simpa [State.settings] using hzones h
  · simpa [State.settings] using hpartners h
  · simpa [State.settings] using congrFun (hlinks h) l
  · simpa [State.settings] using congrFun (hcells h) p
  · simpa [State.settings] using hswap h
  · simpa [State.settings] using hdelivery h

end Sys2Proof.Machine
end

