-- ==== Sys2Proof/Proofs/Start.lean ====
section
/-! SUPPORT. The state after power-on, and the query of the tracker. -/

namespace Sys2Proof.Machine

/-! ### After power-on -/

theorem State.reset_port (p : Fin 6) : State.reset.port p = CellPort.initial := by
  revert p; decide

theorem State.reset_link (l : Fin 4) : State.reset.link l = Link.initial false true := by
  revert l; decide

theorem State.reset_freeHandles : State.reset.table.freeHandles = List.range 2048 := by
  simp only [State.reset, Table.initial]

/-- Settles O2: the blocks' values, read off the state after power-on part by part. -/
theorem resetValues : Obligations.ResetValues := by
  unfold Obligations.ResetValues
  refine ⟨?tracker, fun p => ?port, rfl, rfl, rfl, State.reset_freeHandles, rfl, rfl, ⟨rfl, rfl⟩, fun l => ?link, ?swap, ?record, ?store,
    ?engine, ?rating, ?records, ?host⟩
  case tracker => exact ⟨rfl, rfl, rfl, rfl, rfl, rfl, rfl, rfl, rfl, rfl, rfl, rfl, rfl⟩
  case port => rw [State.reset_port]; exact ⟨rfl, rfl, rfl, rfl, rfl, rfl, rfl⟩
  case link =>
    dsimp only
    rw [State.reset_link]
    exact ⟨⟨rfl, rfl, rfl, rfl, rfl, rfl⟩, ⟨rfl, rfl, rfl, rfl, rfl, rfl, rfl, rfl⟩, ⟨rfl, rfl, rfl, rfl⟩, rfl⟩
  case swap => exact ⟨rfl, rfl, rfl, rfl, rfl, rfl, rfl⟩
  case record => exact ⟨rfl, rfl, rfl, rfl, rfl, rfl, rfl, rfl⟩
  case store => exact ⟨rfl, rfl, rfl, rfl, rfl⟩
  case engine => exact ⟨rfl, rfl, rfl, rfl, rfl, rfl⟩
  case rating => exact ⟨rfl, rfl, rfl, rfl, rfl, rfl, rfl⟩
  case records => exact ⟨rfl, rfl, rfl, rfl, rfl, rfl, rfl⟩
  case host => exact ⟨rfl, rfl, rfl, rfl, rfl, rfl, rfl, rfl, rfl, rfl, rfl, rfl⟩

/-- Settles O3: nothing is held, listed, in flight or under way after power-on, and every handle is free. -/
theorem resetIsSafe : Obligations.ResetIsSafe := by
  unfold Obligations.ResetIsSafe
  refine ⟨rfl, ⟨Nat.zero_le _, Nat.zero_le _⟩, fun p hp => ?radio, ?handles, Nat.zero_le _, ⟨?caps, Nat.zero_le _⟩,
    ⟨Nat.zero_le _, fun _ => rfl, fun _ => rfl, fun _ => rfl⟩, Nat.zero_le _, ?links⟩
  case radio =>
    rw [State.reset_port] at hp
    cases hp
  case handles =>
    have hnone : State.reset.handles = [] := rfl
    rw [State.handlesOk, State.reset_freeHandles, hnone, List.nil_append]
  case caps =>
    intro q hq
    cases hq
  case links =>
    refine ⟨fun l _ hl => ?_, fun l hl => ?_, fun l hl => ?_⟩ <;>
      (rw [State.reset_link] at hl; cases hl)

/-! ### The query -/

/-- The copied fields, one by one. -/
theorem State.zoneReply_eq (s : State) :
    s.zoneReply = bOpt 1 (s.tracker.verdict.map (·.index)) ++ bRules (s.tracker.verdict.map (·.rules)) ++
      (bFlag s.tracker.frozen ++ bFlag s.tracker.forcedFreeze ++ le 8 ((s.left s.tracker.holdExpiry).getD 0)) ++
      (bOpt 1 (s.tracker.lastFix.map (·.1.code)) ++ bOpt 8 (s.tracker.lastFix.map fun f => s.mli.clock - f.2) ++
        bOpt 3 s.tracker.lastPosition) ++
      le 3 s.tracker.routeLength ++ le 1 s.tracker.zones.length ++ le 2 s.tracker.hysteresis ++
      le 1 s.tracker.fixTimeout ++ le 2 s.tracker.holdTime ++ le 1 s.tracker.retentionTime := by
  simp only [State.zoneReply, List.append_assoc]
  rfl

/-- What is left of a timer that may not run: 0 when it does not. -/
theorem State.left_getD (s : State) (x : Option Nat) :
    (s.left x).getD 0 = match x with | some e => e - s.mli.clock | none => 0 := by
  cases x <;> rfl

/-- Settles O58: the query is taken in either device state and while the scan runs, and its reply is the tracker. -/
theorem zoneIsQueried : Obligations.ZoneIsQueried := by
  unfold Obligations.ZoneIsQueried
  intro s tag ⟨hp, hw, hi⟩
  dsimp only
  have hq : exec (.queryZone ⟨tag, some ()⟩) s = execQueryZone ⟨tag, some ()⟩ s := rfl
  have hj : (s.joinInput (.queryZone ⟨tag, some ()⟩)).zoneReply = s.zoneReply := by rw [State.joinInput_empty _ hi]; rfl
  rw [hq, execQueryZone, takeRequest_free _ hp hw hi, checked_query rfl rfl, hj, State.taken_ok _ _ _ _ hw hi,
    State.zoneReply_eq, State.left_getD]
  simp only [bRules, List.append_assoc] <;> rfl

end Sys2Proof.Machine
end

