-- ==== Sys2Proof/Proofs/Fixes.lean ====
section
/-! SUPPORT. Fixes, freezes, thaws and holds: what each leaves of the tracker (R5 to R12). -/

namespace Sys2Proof.Machine

/-! ### A request into an idle interface -/

/-- An idle interface has no request under way. -/
abbrev State.hostIdle (s : State) : Prop := s.mli.work = none ∧ s.mli.input = []

/-- Request `c` has joined an empty input. -/
def State.joined (c : Instr) (s : State) : State :=
  s.onMli fun m => { m with input := [c], counters := { m.counters with taken := bump32 m.counters.taken } }

theorem State.hostReady.idle {s : State} (hs : s.hostReady) : s.hostIdle := hs.1.2

/-- A well-formed request into an idle interface, the scan ended, is carried out by its own rule. -/
theorem taken_ready {α : Type} {c : Instr} {kind : Byte} {r : Request α} {query : Bool} {cl wf : α → Bool}
    {own : α → State → State} {s : State} {b : α} (hs : s.hostReady) (hb : r.body = some b) (hw : wf b = true) :
    takeRequest c s (checkedClamped kind r query cl wf own) = .next (own b (s.joined c)) := by
  obtain ⟨⟨hp, hwork, hinput⟩, hscan⟩ := hs
  have hjoined : (s.joined c).rsc.scanEnded = true := hscan
  rw [takeRequest_free _ hp hwork hinput, State.joinInput_empty c hinput]
  exact congrArg _ (checkedClamped_ready hb hw hjoined)

theorem taken_checked {α : Type} {c : Instr} {kind : Byte} {r : Request α} {query : Bool} {wf : α → Bool}
    {own : α → State → State} {s : State} {b : α} (hs : s.hostReady) (hb : r.body = some b) (hw : wf b = true) :
    takeRequest c s (checked kind r query wf own) = .next (own b (s.joined c)) :=
  taken_ready hs hb hw

/-- The request answered OK leaves the state as it was but for its reply. -/
theorem State.joined_ok {c : Instr} {s : State} (kind tag : Byte) (clamped : Bool) (fields : List Byte) (hs : s.hostIdle) :
    (s.joined c).ok kind tag clamped fields = s.replied kind tag clamped fields := by
  rw [← State.taken_ok (c := c) kind tag clamped fields hs.1 hs.2, State.joinInput_empty c hs.2]
  rfl

theorem State.joined_refused {c : Instr} {s : State} (kind tag : Byte) (clamped : Bool) (r : Reason) (hs : s.hostIdle) :
    (s.joined c).refuseClamped kind tag clamped r = s.turnedAwayClamped kind tag clamped r [] := by
  rw [← State.taken_refused (c := c) kind tag clamped r [] hs.1 hs.2, State.joinInput_empty c hs.2]
  rfl

/-- What an OK leaves as the last thing ready is the reply. -/
theorem State.ok_repliedOk (kind tag : Byte) (clamped : Bool) (fields : List Byte) (s : State) :
    RepliedOk kind tag clamped fields (s.ok kind tag clamped fields) :=
  ⟨s.mli.overflow, by simp [State.ok, State.complete, State.onMli]⟩

/-! ### The tracker at a change of verdict -/

theorem State.tracker_of_kept {s t : State} (h : t.kept = s.kept) : t.tracker = s.tracker := congrArg Kept.tracker h

theorem State.raise_tracker (n : Notice) (s : State) : (s.raise n).tracker = s.tracker :=
  State.tracker_of_kept (State.raise_kept n s)

theorem State.sendOrders_tracker (s : State) : s.sendOrders.tracker = s.tracker := by rw [State.sendOrders_frame]

theorem State.entriesFollow_kept (a b : Policy) (s : State) : (s.entriesFollow a b).kept = s.kept := by
  unfold State.entriesFollow
  split
  · split
    · rfl
    · exact State.eachEntry_kept _ (fun h s => State.rest_kept h s) s
  · rw [State.eachEntry_kept _ (fun h s => State.moveCheck_kept h s),
      State.eachEntry_kept _ (fun h s => State.rotatePeriod_kept h s)]

theorem State.published_tracker (new : Option VerdictZone) (cause : ZoneCause) (d : Option Nat) (s : State) :
    (s.published new cause d).tracker = { s.tracker with verdict := new } := by
  rw [State.published, State.sendOrders_tracker, State.raise_tracker]
  rfl

/-- A change of verdict changes the verdict, and no other part of the tracker. -/
@[simp] theorem State.changeVerdict_tracker (new : Option VerdictZone) (cause : ZoneCause) (d : Option Nat) (s : State) :
    (s.changeVerdict new cause d).tracker = { s.tracker with verdict := new } := by
  rw [State.changeVerdict_eq, State.tracker_of_kept (State.workOut_kept _),
    State.tracker_of_kept (State.entriesFollow_kept _ _ _), State.published_tracker]

/-! ### The evaluation of a position -/

/-- The position `d` of a fix of quality `q` may move verdict `v` to the equal or laxer zone `c` (R6, R8). -/
def Tracker.relaxes (q : Quality) (v c d : Nat) (t : Tracker) : Bool :=
  q = .good && !t.frozen && !t.forcedFreeze && t.holdExpiry.isNone && t.passesMargin v c d

theorem State.evaluate_stricter {q : Quality} {d : Nat} {cause : ZoneCause} {v c : VerdictZone} {s : State}
    (hv : s.tracker.verdict = some v) (hc : s.tracker.locate d = some c) (hne : c.index ≠ v.index)
    (hr : policyRank c.rules.policy < policyRank v.rules.policy) :
    s.evaluate q d cause = s.changeVerdict (some c) .stricter (some d) := by
  simp [State.evaluate, hv, hc, hne, hr]

theorem State.evaluate_relaxes {q : Quality} {d : Nat} {cause : ZoneCause} {v c : VerdictZone} {s : State}
    (hv : s.tracker.verdict = some v) (hc : s.tracker.locate d = some c) (hne : c.index ≠ v.index)
    (hr : policyRank v.rules.policy ≤ policyRank c.rules.policy) (hok : s.tracker.relaxes q v.index c.index d = true) :
    s.evaluate q d cause = s.changeVerdict (some c) cause (some d) := by
  unfold Tracker.relaxes at hok
  simp only [State.evaluate, hv, hc, hne, if_false, Nat.not_lt.2 hr, hok, if_true]

theorem State.evaluate_stays {q : Quality} {d : Nat} {cause : ZoneCause} {v : VerdictZone} {s : State}
    (hv : s.tracker.verdict = some v) (hstay : ∀ c, s.tracker.locate d = some c → c.index ≠ v.index →
      policyRank v.rules.policy ≤ policyRank c.rules.policy ∧ s.tracker.relaxes q v.index c.index d = false) :
    s.evaluate q d cause = s := by
  unfold State.evaluate
  rw [hv]
  cases hc : s.tracker.locate d with
  | none => rfl
  | some c =>
    by_cases hi : c.index = v.index
    · simp [hi]
    · obtain ⟨hr, hno⟩ := hstay c hc hi
      unfold Tracker.relaxes at hno
      simp only [hi, if_false, Nat.not_lt.2 hr, hno, Bool.false_eq_true]

/-- The tracker after a position has been evaluated: it can move its verdict alone. -/
theorem State.evaluate_tracker (q : Quality) (d : Nat) (cause : ZoneCause) (s : State) :
    ∃ x, (s.evaluate q d cause).tracker = { s.tracker with verdict := x } :=
  State.evaluate_keeps (P := fun t => ∃ x, t.tracker = { s.tracker with verdict := x }) q d cause ⟨s.tracker.verdict, rfl⟩
    fun c why => ⟨some c, State.changeVerdict_tracker _ why _ s⟩

/-- No hold runs any longer. -/
def State.stopHold (s : State) : State := s.onTracker fun t => { t with holdExpiry := none }

/-- Where the verdict is the zone of the position already, the end of a hold moves it no more. -/
theorem State.endHold_settled {s : State} {a d : Nat} {v : VerdictZone} (hfix : s.tracker.lastFix = some (.good, a))
    (hpos : s.tracker.lastPosition = some d) (hv : s.tracker.verdict = some v) (hloc : s.tracker.locate d = some v) :
    s.endHold = s.stopHold := by
  unfold State.endHold
  simp only [State.onTracker_tracker, hfix, hpos]
  refine State.evaluate_stays (s := s.stopHold) (v := v) hv fun c hc hne => ?_
  have hsame : some c = some v := hc.symm.trans hloc
  cases hsame
  exact absurd rfl hne

/-- Without a GOOD last fix the end of a hold ends it and nothing else (R12). -/
theorem State.endHold_notGood {s : State} (h : ∀ a, s.tracker.lastFix ≠ some (.good, a)) :
    s.endHold = s.stopHold := by
  unfold State.endHold
  dsimp only
  split
  · exact absurd (by assumption) (h _)
  · rfl

theorem State.beginHold_holds {s : State} (h : s.tracker.holdTime ≠ 0) :
    s.beginHold = s.onTracker fun t => { t with holdExpiry := some (s.now + t.holdTime * 1000) } := by
  unfold State.beginHold
  exact if_neg h

theorem State.beginHold_ends {s : State} (h : s.tracker.holdTime = 0) :
    s.beginHold = (s.onTracker fun t => { t with holdExpiry := some (s.now + t.holdTime * 1000) }).endHold := by
  unfold State.beginHold
  exact if_pos h

/-! ### A fix that is recorded (R5, R10) -/

/-- What a taken FIX makes of an idle interface. -/
theorem exec_fix {s : State} {tag : Byte} {d : Nat} {q : Quality} (hs : s.hostReady) :
    exec (.fix ⟨tag, some ⟨d, q⟩⟩) s = .next (((s.joined (.fix ⟨tag, some ⟨d, q⟩⟩)).applyFix q (min s.fixTop d)).ok
      Kind.fix tag (decide (s.fixTop < d)) (le 3 (min s.fixTop d))) := by
  have hclamp : clampTo 0 s.fixTop d = min s.fixTop d := by simp [clampTo]
  have hflag : isClamped 0 s.fixTop d = decide (s.fixTop < d) := by
    simp only [isClamped, hclamp]
    by_cases h : s.fixTop < d
    · simp [h]
    · simp [h]; omega
  have hexec : exec (.fix ⟨tag, some ⟨d, q⟩⟩) s = execFix ⟨tag, some ⟨d, q⟩⟩ s := rfl
  have htop : (s.joined (.fix ⟨tag, some ⟨d, q⟩⟩)).fixTop = s.fixTop := rfl
  rw [hexec, execFix_eq, taken_checked hs rfl rfl, htop, hclamp, hflag]

theorem State.fixTop_eq (s : State) : s.fixTop = if s.tracker.zones = [] then 1000000 else s.tracker.routeLength := by
  simp [State.fixTop]

end Sys2Proof.Machine
end

