-- ==== Sys2Proof/Proofs/Verdict.lean ====
section
/-! SUPPORT. The statements about fixes, freezes and holds. -/

namespace Sys2Proof.Machine

/-! ### A fix recorded (R5, R10) -/

/-- A FIX recorded while RUNNING: the last fix, the position and the timer. -/
def State.runningFix (q : Quality) (d : Nat) (s : State) : State := (s.recordFix q d).restartFixTimer

theorem State.applyFix_unconfigured {q : Quality} {d : Nat} {s : State} (h : s.mli.device = .unconfigured) :
    s.applyFix q d = s.recordFix q d := by
  simp [State.applyFix, State.running, h]

theorem State.applyFix_running {q : Quality} {d : Nat} {s : State} (h : s.mli.device = .running) :
    s.applyFix q d = (s.runningFix q d).takeFix q d := by
  simp [State.applyFix, State.running, h, State.runningFix]

/-- A FIX whose effect on the interface holding it is that of a state without it is answered in that state. -/
theorem exec_fix_replied {s : State} {tag : Byte} {d : Nat} {q : Quality} {f : State → State} (hs : s.hostReady)
    (heff : ∀ c, (s.joined c).applyFix q (min s.fixTop d) = (f s).joined c) (hidle : (f s).hostIdle) :
    exec (.fix ⟨tag, some ⟨d, q⟩⟩) s =
      .next ((f s).replied Kind.fix tag (decide (s.fixTop < d)) (le 3 (min s.fixTop d))) := by
  rw [exec_fix hs, heff, State.joined_ok _ _ _ _ hidle]

/-- What a running device's tracker keeps of a fix however it is evaluated. -/
theorem State.takeFix_recorded (q : Quality) (d : Nat) (s : State) :
    (s.takeFix q d).tracker.lastFix = s.tracker.lastFix ∧ (s.takeFix q d).tracker.lastPosition = s.tracker.lastPosition ∧
      (s.takeFix q d).tracker.fixExpiry = s.tracker.fixExpiry ∧
      (s.takeFix q d).tracker.forcedFreeze = s.tracker.forcedFreeze := by
  refine State.takeFix_keeps (P := fun t => t.tracker.lastFix = s.tracker.lastFix ∧
    t.tracker.lastPosition = s.tracker.lastPosition ∧ t.tracker.fixExpiry = s.tracker.fixExpiry ∧
    t.tracker.forcedFreeze = s.tracker.forcedFreeze) q d ⟨rfl, rfl, rfl, rfl⟩ (fun _ _ h => h) (fun _ _ h => h) ?_
  intro u c why d h
  rw [State.changeVerdict_tracker]
  exact h

/-- Settles O13: a fix is recorded before anything looks at it, and a NONE fix or the timer's expiry freezes alone. -/
theorem fixesAreRecorded : Obligations.FixesAreRecorded := by
  unfold Obligations.FixesAreRecorded
  refine ⟨fun s tag d q hs hdev => ?idle, fun s tag d q hs hrun hq => ?running, fun s tag d hs hrun => ?none,
    fun s e hp hrun he hle => ?timer⟩
  case idle =>
    dsimp only
    rw [← State.fixTop_eq]
    exact exec_fix_replied (f := State.recordFix q (min s.fixTop d)) hs
      (fun c => State.applyFix_unconfigured (s := s.joined c) hdev) hs.idle
  case running =>
    dsimp only
    rw [← State.fixTop_eq]
    refine ⟨_, exec_fix hs, ?_⟩
    rw [State.applyFix_running (s := s.joined _) hrun]
    obtain ⟨hfix, hpos, hexp, hforced⟩ := State.takeFix_recorded q (min s.fixTop d)
      ((s.joined (.fix ⟨tag, some ⟨d, q⟩⟩)).runningFix q (min s.fixTop d))
    exact ⟨hfix, hpos.trans (if_neg hq), hexp, hforced, State.ok_repliedOk _ _ _ _ _⟩
  case none =>
    dsimp only
    rw [← State.fixTop_eq]
    exact exec_fix_replied (f := fun s => (s.runningFix .none (min s.fixTop d)).freeze) hs
      (fun c => State.applyFix_running (s := s.joined c) hrun) hs.idle
  case timer =>
    have hexec : exec .fixTimerExpiry s = execFixTimerExpiry s := rfl
    have hr : s.running = true := by simp [State.running, hrun]
    rw [hexec, execFixTimerExpiry, whenPowered_on _ hp, he]
    simp only [State.atExpiry, State.now, Nat.not_lt.2 hle, if_false]
    exact congrArg _ (if_pos hr)

/-! ### The first fix (R9) -/

/-- The zone found is the last that starts at or before the distance. -/
theorem locateFrom_some {d : Nat} {zs : List Zone} {v : VerdictZone} {i : Nat} (h : locateFrom i d zs = some v) :
    ∃ k z, v.index = i + k ∧ zs[k]? = some z ∧ v.rules = z.rules ∧ z.start ≤ d ∧
      ∀ z', zs[k + 1]? = some z' → d < z'.start := by
  induction zs generalizing i with
  | nil => cases h
  | cons z rest ih =>
    cases hrest : locateFrom (i + 1) d rest with
    | some w =>
      simp only [locateFrom, hrest, Option.some.injEq] at h
      subst h
      obtain ⟨k, z', hk, hz', hrules, hstart, hnext⟩ := ih hrest
      exact ⟨k + 1, z', by omega, by simpa using hz', hrules, hstart, by simpa using hnext⟩
    | none =>
      simp only [locateFrom, hrest] at h
      split at h
      · cases h
        refine ⟨0, z, rfl, rfl, rfl, by assumption, fun z' hz' => ?_⟩
        cases rest with
        | nil => cases hz'
        | cons y ys =>
          cases hz'
          by_contra hle
          simp only [locateFrom] at hrest
          split at hrest
          · cases hrest
          · rw [if_pos (by omega)] at hrest; cases hrest
      · cases h

/-- A table whose first zone starts at 0 has a zone for every distance (R1). -/
theorem locateFrom_isSome {d : Nat} {zs : List Zone} {i : Nat} (h : zs.head?.map (·.start) = some 0) :
    ∃ v, locateFrom i d zs = some v := by
  cases zs with
  | nil => cases h
  | cons z rest =>
    have hz : z.start = 0 := by simpa using h
    unfold locateFrom
    split
    · exact ⟨_, rfl⟩
    · rw [if_pos (by omega)]; exact ⟨_, rfl⟩

/-- From NONE a GOOD fix that no forced freeze holds takes the zone it lies in (R9). -/
theorem State.takeFix_first {d : Nat} {c : VerdictZone} {s : State} (hv : s.tracker.verdict = none)
    (hforced : s.tracker.forcedFreeze = false) (hc : s.tracker.locate d = some c) :
    s.takeFix .good d = (s.onTracker fun t => { t with frozen := false }).changeVerdict (some c) .firstFix (some d) := by
  simp [State.takeFix, hv, hforced, hc]

/-- From NONE any other fix changes nothing more (R9). -/
theorem State.takeFix_noZone {q : Quality} {d : Nat} {s : State} (hq : q ≠ .none) (hv : s.tracker.verdict = none)
    (h : q ≠ .good ∨ s.tracker.forcedFreeze = true) : s.takeFix q d = s := by
  cases q with
  | none => exact absurd rfl hq
  | good =>
    obtain h | h := h
    · exact absurd rfl h
    · simp [State.takeFix, hv, h]
  | degraded => simp [State.takeFix, hv]

/-- Settles O14: the zone is the one `locate` finds, and a DEGRADED fix finds none. -/
theorem firstFixEstablishesTheZone : Obligations.FirstFixEstablishesTheZone := by
  unfold Obligations.FirstFixEstablishesTheZone
  refine ⟨fun s t tag d hs hrun hv hstart ht => ?good, fun s tag d hs hrun hv => ?degraded⟩
  case good =>
    have hzones : s.tracker.zones ≠ [] := by intro h; rw [h] at hstart; cases hstart
    rw [exec_fix hs, State.fixTop_eq, if_neg hzones, State.applyFix_running (s := s.joined _) hrun] at ht
    cases ht
    refine ⟨fun hforced => ?_, fun hforced => ?_⟩
    · obtain ⟨c, hc⟩ := locateFrom_isSome (d := min s.tracker.routeLength d) (i := 0) hstart
      obtain ⟨k, z, hk, hz, hrules, hle, hnext⟩ := locateFrom_some hc
      have hindex : c.index = k := hk.trans (Nat.zero_add k)
      have htracker := congrArg State.tracker (State.takeFix_first
        (s := (s.joined (.fix ⟨tag, some ⟨d, .good⟩⟩)).runningFix .good (min s.tracker.routeLength d)) hv hforced hc)
      rw [State.changeVerdict_tracker] at htracker
      change ∃ v z, (State.tracker (State.takeFix _ _ _)).verdict = some v ∧ _ ∧ _ ∧ _ ∧ _ ∧
        (State.tracker (State.takeFix _ _ _)).frozen = false ∧ (State.tracker (State.takeFix _ _ _)).holdExpiry = _
      rw [htracker]
      exact ⟨c, z, rfl, hindex ▸ hz, hrules, hle, hindex ▸ hnext, rfl, rfl⟩
    · exact (congrArg (fun u => u.tracker.verdict) (State.takeFix_noZone (q := .good)
        (s := (s.joined (.fix ⟨tag, some ⟨d, .good⟩⟩)).runningFix .good (min s.tracker.routeLength d))
        (by simp) hv (.inr hforced))).trans hv
  case degraded =>
    dsimp only
    rw [← State.fixTop_eq]
    refine exec_fix_replied (f := State.runningFix .degraded (min s.fixTop d)) hs (fun c => ?_) hs.idle
    rw [State.applyFix_running (s := s.joined c) hrun, State.takeFix_noZone (q := .degraded)
      (s := (s.joined c).runningFix .degraded (min s.fixTop d)) (by simp) hv (.inl (by simp))]
    rfl

end Sys2Proof.Machine
end

