-- ==== Sys2Proof/Proofs/Holds.lean ====
section
/-! SUPPORT. Freezes, thaws and the holds that follow them (R7, R11, R12). -/

namespace Sys2Proof.Machine

/-! ### The clocks at a change of verdict -/

theorem State.clock_of_standing {s t : State} (h : t.standing = s.standing) : t.mli.clock = s.mli.clock :=
  congrArg (fun x => x.clocks.1) h

theorem State.sendOrders_mli (s : State) : s.sendOrders.mli = s.mli := by rw [State.sendOrders_frame]

@[simp] theorem State.changeVerdict_clock (new : Option VerdictZone) (cause : ZoneCause) (d : Option Nat) (s : State) :
    (s.changeVerdict new cause d).mli.clock = s.mli.clock := by
  rw [State.clock_of_standing (State.changeVerdict_standing new cause d s), State.published, State.sendOrders_mli,
    State.clock_of_standing (State.raise_standing _ _)]
  rfl

@[simp] theorem State.evaluate_clock (q : Quality) (d : Nat) (cause : ZoneCause) (s : State) :
    (s.evaluate q d cause).mli.clock = s.mli.clock :=
  State.evaluate_keeps (P := fun t => t.mli.clock = s.mli.clock) q d cause rfl fun c why =>
    State.changeVerdict_clock (some c) why (some d) s

/-! ### The thaw and the hold after it -/

/-- What THAW-ZONE does, its reply apart (R11). -/
def State.thaw (s : State) : State :=
  if s.tracker.forcedFreeze then
    let s := s.onTracker fun t => { t with forcedFreeze := false }
    if s.running && s.tracker.verdict.isSome && !s.tracker.frozen then s.beginHold else s
  else s

theorem execThawZone_eq (r : Request Unit) (s : State) : execThawZone r s =
    takeRequest (.thawZone r) s (checked Kind.thawZone r false always fun _ s => s.thaw.ok Kind.thawZone r.tag false []) :=
  rfl

/-- The tracker's hold timer after a THAW-ZONE that no evaluation follows (R11, R12). -/
def State.thawedHold (s : State) : Option Nat :=
  if s.tracker.forcedFreeze = true ∧ s.mli.device = .running ∧ s.tracker.verdict ≠ none ∧ s.tracker.frozen = false then
    (if s.tracker.holdTime = 0 then none else some (s.mli.clock + s.tracker.holdTime * 1000))
  else s.tracker.holdExpiry

/-- A hold that begins, and with a hold time of 0 ends at once and evaluates nothing. -/
theorem State.beginHold_eq {s : State} (h : s.tracker.holdTime ≠ 0 ∨ ∀ a, s.tracker.lastFix ≠ some (.good, a)) :
    s.beginHold = s.onTracker fun t => { t with
      holdExpiry := if s.tracker.holdTime = 0 then none else some (s.mli.clock + s.tracker.holdTime * 1000) } := by
  by_cases hz : s.tracker.holdTime = 0
  · have hends := State.endHold_notGood (s := s.onTracker fun t => { t with
      holdExpiry := some (s.now + t.holdTime * 1000) }) (h.resolve_left fun hne => hne hz)
    rw [State.beginHold_ends hz, hends, if_pos hz]
    rfl
  · rw [State.beginHold_holds hz, if_neg hz]
    simp only [State.onTracker, State.now]

theorem State.thaw_eq {s : State} (h : s.tracker.holdTime ≠ 0 ∨ ∀ a, s.tracker.lastFix ≠ some (.good, a)) :
    s.thaw = { s with tracker := { s.tracker with forcedFreeze := false, holdExpiry := s.thawedHold } } := by
  cases hforced : s.tracker.forcedFreeze with
  | false =>
    simp only [State.thaw, State.thawedHold, hforced, Bool.false_eq_true, if_false, false_and]
    rw [← hforced]
  | true =>
    have hcond : (s.running && s.tracker.verdict.isSome && !s.tracker.frozen) = true ↔
        s.mli.device = .running ∧ s.tracker.verdict ≠ none ∧ s.tracker.frozen = false := by
      simp [State.running, Option.isSome_iff_ne_none, and_assoc]
    have hb := State.beginHold_eq (s := s.onTracker fun t => { t with forcedFreeze := false }) h
    by_cases hhold : s.mli.device = .running ∧ s.tracker.verdict ≠ none ∧ s.tracker.frozen = false
    · simp only [State.thaw, State.thawedHold, hforced, if_true, true_and, if_pos hhold]
      exact (if_pos (hcond.2 hhold)).trans hb
    · simp only [State.thaw, State.thawedHold, hforced, if_true, true_and, if_neg hhold]
      exact if_neg fun hyes => hhold (hcond.1 hyes)

/-! ### Fixes under a verdict -/

/-- A GOOD fix that thaws a frozen verdict (R12). -/
abbrev Tracker.thawedBy (q : Quality) (t : Tracker) : Prop := q = .good ∧ t.frozen = true ∧ t.forcedFreeze = false

theorem State.takeFix_thaws {d : Nat} {v : VerdictZone} {s : State} (hv : s.tracker.verdict = some v)
    (hfrozen : s.tracker.frozen = true) (hforced : s.tracker.forcedFreeze = false) :
    s.takeFix .good d = ((s.evaluate .good d .margin).onTracker fun t => { t with frozen := false }).beginHold := by
  simp [State.takeFix, hv, hfrozen, hforced]

theorem State.takeFix_evaluates {q : Quality} {d : Nat} {v : VerdictZone} {s : State} (hq : q ≠ .none)
    (hv : s.tracker.verdict = some v) (hno : ¬ s.tracker.thawedBy q) : s.takeFix q d = s.evaluate q d .margin := by
  cases q with
  | none => exact absurd rfl hq
  | good =>
    have hcond : ¬ (s.tracker.frozen = true ∧ s.tracker.forcedFreeze = false) := fun h => hno ⟨rfl, h⟩
    simp [State.takeFix, hv, hcond]
  | degraded => simp [State.takeFix, hv]

/-- While a flag stands or a hold runs nothing relaxes the verdict (R8). -/
theorem Tracker.relaxes_of_frozen {q : Quality} {v c d : Nat} {t : Tracker} (h : t.frozen = true) :
    t.relaxes q v c d = false := by
  simp [Tracker.relaxes, h]

/-- The verdict that a frozen one becomes by a fix: that of a stricter zone (R7). -/
theorem State.evaluate_frozen {q : Quality} {d : Nat} {cause : ZoneCause} {v : VerdictZone} {s : State}
    (hv : s.tracker.verdict = some v) (hfrozen : s.tracker.frozen = true) :
    (s.evaluate q d cause).tracker = { s.tracker with verdict := match s.tracker.locate d with
      | some c => if c.index ≠ v.index ∧ policyRank c.rules.policy < policyRank v.rules.policy then some c else some v
      | none => some v } := by
  by_cases hex : ∃ c, s.tracker.locate d = some c ∧ c.index ≠ v.index ∧ policyRank c.rules.policy < policyRank v.rules.policy
  · obtain ⟨c, hc, hne, hr⟩ := hex
    rw [State.evaluate_stricter hv hc hne hr, State.changeVerdict_tracker, hc]
    simp only [if_pos (And.intro hne hr)]
  · have hstays : s.evaluate q d cause = s := State.evaluate_stays hv fun c hc hne =>
      ⟨Nat.not_lt.1 fun hr => hex ⟨c, hc, hne, hr⟩, Tracker.relaxes_of_frozen hfrozen⟩
    rw [hstays]
    cases hc : s.tracker.locate d with
    | none => rw [← hv]
    | some c =>
      dsimp only
      rw [if_neg fun h => hex ⟨c, hc, h.1, h.2⟩, ← hv]

/-- A fix whose distance lies on the route of a table, taken while RUNNING. -/
theorem exec_fix_onRoute {s : State} {tag : Byte} {d : Nat} {q : Quality} (hs : s.hostReady)
    (hrun : s.mli.device = .running) (hz : s.tracker.zones ≠ []) (hd : d ≤ s.tracker.routeLength) :
    exec (.fix ⟨tag, some ⟨d, q⟩⟩) s = .next
      ((((s.joined (.fix ⟨tag, some ⟨d, q⟩⟩)).runningFix q d).takeFix q d).ok Kind.fix tag false (le 3 d)) := by
  rw [exec_fix hs, State.fixTop_eq, if_neg hz, Nat.min_eq_right hd, State.applyFix_running (s := s.joined _) hrun,
    decide_eq_false (by omega)]

/-- Settles O17: the thaw and the thawing fix each end in the beginning of a hold, and a hold's end in an evaluation. -/
theorem freezeThawAndHold : Obligations.FreezeThawAndHold := by
  unfold Obligations.FreezeThawAndHold
  refine ⟨fun s tag hs => ⟨?freeze, fun h => ?thaw⟩, fun s tag d v hs hrun hz hd hv hfrozen hforced hhold => ?fix,
    fun s e hp he hle => ⟨fun hfix => ?ends, fun a d v c hfix hpos hv hc hne hr hm hfrozen hforced => ?relaxes⟩⟩
  case freeze =>
    have hexec : exec (.freezeZone ⟨tag, some ()⟩) s = execFreezeZone ⟨tag, some ()⟩ s := rfl
    rw [hexec, execFreezeZone, taken_checked hs rfl rfl]
    exact congrArg _ (State.joined_ok
      (s := s.onTracker fun t => { t with forcedFreeze := true, holdExpiry := none }) _ _ _ _ hs.idle)
  case thaw =>
    have hexec : exec (.thawZone ⟨tag, some ()⟩) s = execThawZone ⟨tag, some ()⟩ s := rfl
    rw [hexec, execThawZone_eq, taken_checked hs rfl rfl, State.thaw_eq (s := s.joined _) h]
    exact congrArg _ (State.joined_ok
      (s := { s with tracker := { s.tracker with forcedFreeze := false, holdExpiry := s.thawedHold } }) _ _ _ _ hs.idle)
  case fix =>
    refine ⟨_, exec_fix_onRoute hs hrun hz hd, State.ok_repliedOk _ _ _ _ _, ?_⟩
    generalize hu : (s.joined (.fix ⟨tag, some ⟨d, .good⟩⟩)).runningFix .good d = u
    have hvu : u.tracker.verdict = some v := by rw [← hu]; exact hv
    have hfu : u.tracker.frozen = true := by rw [← hu]; exact hfrozen
    have hnu : u.tracker.forcedFreeze = false := by rw [← hu]; exact hforced
    have hev := State.evaluate_frozen (q := .good) (d := d) (cause := .margin) hvu hfu
    have hkeep : ((u.evaluate .good d .margin).onTracker fun t => { t with frozen := false }).tracker.holdTime ≠ 0 := by
      rw [State.onTracker_tracker, hev, ← hu]; exact hhold
    change (u.takeFix .good d).tracker = _
    rw [State.takeFix_thaws hvu hfu hnu, State.beginHold_holds hkeep]
    simp only [State.onTracker_tracker, State.now, State.onTracker_mli, State.evaluate_clock, hev]
    subst hu
    rfl
  case ends =>
    have hexec : exec .holdExpiry s = execHoldExpiry s := rfl
    rw [hexec, execHoldExpiry, whenPowered_on _ hp, he]
    simp only [State.atExpiry, State.now, Nat.not_lt.2 hle, if_false]
    rw [State.endHold_notGood hfix]
    rfl
  case relaxes =>
    have hexec : exec .holdExpiry s = execHoldExpiry s := rfl
    rw [hexec, execHoldExpiry, whenPowered_on _ hp, he]
    simp only [State.atExpiry, State.now, Nat.not_lt.2 hle, if_false]
    have hev : s.endHold = s.stopHold.evaluate .good d .holdEnd := by
      unfold State.endHold State.stopHold
      simp only [State.onTracker_tracker, hfix, hpos]
    have hopen : s.stopHold.tracker.relaxes .good v.index c.index d = true := by
      have hsame : s.stopHold.tracker.passesMargin v.index c.index d = true := hm
      have hf : s.stopHold.tracker.frozen = false := hfrozen
      have hn : s.stopHold.tracker.forcedFreeze = false := hforced
      have hh : s.stopHold.tracker.holdExpiry = none := rfl
      simp [Tracker.relaxes, hsame, hf, hn, hh]
    refine ⟨_, rfl, ?_⟩
    rw [hev, State.evaluate_relaxes (s := s.stopHold) hv hc hne hr hopen, State.changeVerdict_tracker]
    rfl

end Sys2Proof.Machine
end

