-- ==== Sys2Proof/Proofs/ZoneTable.lean ====
section
/-! SUPPORT. LOAD-ZONES, and what selection leaves alone when a verdict changes (R3, R4, R94). -/

namespace Sys2Proof.Machine

/-! ### What selection leaves alone -/

/-- A record of the part's own offered to a link touches the swap manager and what is sent alone. -/
theorem State.offer_plain_frame (l : Fin 4) (r : ShoreRecord) (s : State) : s.offer l (.plain r) =
    { s with slm := (s.offer l (.plain r)).slm, sent := (s.offer l (.plain r)).sent } := by
  unfold State.offer
  split
  · cases r <;> rfl
  · rfl

theorem State.beginSwap_frame (l : Fin 4) (planned : Bool) (s : State) : s.beginSwap l planned =
    { s with slm := (s.beginSwap l planned).slm, rsc := (s.beginSwap l planned).rsc, mli := (s.beginSwap l planned).mli,
             sent := (s.beginSwap l planned).sent } := by
  unfold State.beginSwap State.linkChanged
  dsimp only
  rw [State.offer_plain_frame, State.raise_frame]
  rfl

/-- Selection worked out again touches the swap manager, the batch, the notices and what is sent alone. -/
theorem State.workOut_frame (s : State) : s.workOut =
    { s with slm := s.workOut.slm, rsc := s.workOut.rsc, mli := s.workOut.mli, sent := s.workOut.sent } := by
  unfold State.workOut
  split
  case isTrue => rfl
  split
  case isTrue => rfl
  split
  · exact State.beginSwap_frame _ _ s
  · rfl
  · rfl
  · split
    case isTrue => rfl
    split
    case isTrue => rfl
    split
    case isTrue => exact State.beginSwap_frame _ _ s
    rfl

/-- A verdict that goes from QUIET to QUIET, NONE among them, is published and selection worked out again: no entry and no
period is looked at (R13, R17). -/
theorem State.changeVerdict_quiet {new : Option VerdictZone} {s : State} (cause : ZoneCause) (d : Option Nat)
    (hold : policyOf s.rules? = .quiet) (hnew : policyOf (new.map (·.rules)) = .quiet) :
    s.changeVerdict new cause d = (s.published new cause d).workOut := by
  rw [State.changeVerdict_eq, State.entriesFollow, if_pos hnew, if_pos hold]

theorem State.published_frame (new : Option VerdictZone) (cause : ZoneCause) (d : Option Nat) (s : State) :
    s.published new cause d = { s with
      tracker := (s.published new cause d).tracker, cpc := (s.published new cause d).cpc,
      mli := (s.published new cause d).mli, sent := (s.published new cause d).sent } := by
  unfold State.published
  rw [State.sendOrders_frame, State.raise_frame]
  rfl

/-- Under a verdict without a zone, or of policy QUIET, every listening port is QUIET once the verdict is published (R15). -/
theorem State.published_ports_quiet {new : Option VerdictZone} {s : State} (cause : ZoneCause) (d : Option Nat)
    (hnew : policyOf (new.map (·.rules)) = .quiet) (hrun : s.mli.device = .running) (p : Fin 6)
    (hup : (s.port p).state ≠ .down) : ((s.published new cause d).port p).state = .quiet := by
  unfold State.published
  generalize hn : Notice.zoneChanged _ _ _ _ _ _ _ = n
  have hradio := State.radio_of_standing (State.raise_standing n (s.onTracker fun t => { t with verdict := new }))
  have hdev : ((s.onTracker fun t => { t with verdict := new }).raise n).mli.device = .running :=
    (congrArg Radio.device hradio).trans hrun
  have hport : (((s.onTracker fun t => { t with verdict := new }).raise n).port p).state = (s.port p).state :=
    congrFun (congrArg Radio.ports hradio) p
  have hverdict : ((s.onTracker fun t => { t with verdict := new }).raise n).rules? = new.map (·.rules) :=
    congrArg (fun r => r.verdict.map (·.rules)) hradio
  have hnone : ¬ ((s.onTracker fun t => { t with verdict := new }).raise n).order.isSome = true := fun h =>
    (State.order_isSome.1 h).2 (by rw [hverdict]; exact hnew)
  rw [State.sendOrders_state hdev, hport, if_neg hup, State.orderedState, if_neg hnone]

/-- The verdict NONE published, and selection worked out again: entries, periods and exchanges are as they were, and the
listening ports of a RUNNING device are QUIET (R15, R17). -/
theorem State.unplacing_keeps (cause : ZoneCause) (s : State) :
    (s.published none cause none).workOut.table = s.table ∧ (s.published none cause none).workOut.rtu = s.rtu ∧
      (s.published none cause none).workOut.rge = s.rge ∧ (s.mli.device = .running → ∀ p, (s.port p).state ≠ .down →
        ((s.published none cause none).workOut.port p).state = .quiet) := by
  refine ⟨?_, ?_, ?_, fun hrun p hup => ?_⟩
  · rw [State.workOut_frame, State.published_frame]
  · rw [State.workOut_frame, State.published_frame]
  · rw [State.workOut_frame, State.published_frame]
  · have hports := congrArg Radio.ports (State.radio_of_standing (State.workOut_standing (s.published none cause none)))
    exact (congrFun hports p).trans (State.published_ports_quiet cause none rfl hrun p hup)

/-! ### The table (R3, R4) -/

/-- What an accepted LOAD-ZONES makes of the tracker (R4). -/
def Tracker.unplaced (c : LoadZonesBody) (t : Tracker) : Tracker := { t.withZones c with verdict := none }

theorem State.loadTable_tracker (c : LoadZonesBody) (s : State) : (s.loadTable c).tracker = s.tracker.unplaced c := by
  unfold State.loadTable
  dsimp only
  split
  · rw [State.changeVerdict_tracker]; rfl
  · rename_i h
    have hv : s.tracker.verdict = none := by
      simpa [Tracker.withZones] using h
    change s.tracker.withZones c = s.tracker.unplaced c
    unfold Tracker.unplaced
    have hw : (s.tracker.withZones c).verdict = none := hv
    rw [← hw]

theorem State.loadTable_none {c : LoadZonesBody} {s : State} (hv : s.tracker.verdict = none) :
    s.loadTable c = { s with tracker := s.tracker.unplaced c } := by
  have hnone : (s.onTracker (Tracker.withZones c)).tracker.verdict.isSome = false := by
    have hw : (s.onTracker (Tracker.withZones c)).tracker.verdict = none := hv
    rw [hw]; rfl
  have hsame : s.loadTable c = s.onTracker (Tracker.withZones c) := by
    unfold State.loadTable
    dsimp only
    rw [hnone]
    rfl
  have ht := congrArg State.tracker hsame
  rw [State.loadTable_tracker] at ht
  rw [hsame, ht]
  rfl

/-- From a QUIET verdict: the table taken, and the verdict NONE published. -/
theorem State.loadTable_quiet {c : LoadZonesBody} {v : VerdictZone} {s : State} (hv : s.tracker.verdict = some v)
    (hq : v.rules.policy = .quiet) : s.loadTable c =
      ((s.onTracker (Tracker.withZones c)).published none .tableLoad none).workOut := by
  have hw : (s.onTracker (Tracker.withZones c)).tracker.verdict = some v := hv
  have hpolicy : policyOf (s.onTracker (Tracker.withZones c)).rules? = .quiet := by
    simp only [State.rules?, hw, policyOf, Option.map_some, Option.getD_some, hq]
  unfold State.loadTable
  dsimp only
  rw [hw]
  exact State.changeVerdict_quiet _ _ hpolicy rfl

/-- What LOAD-ZONES does to an idle interface. -/
theorem exec_loadZones_ready {s : State} {tag : Byte} {b : LoadZonesBody} (hs : s.hostReady)
    (hw : zonesWellFormed b = true) : exec (.loadZones ⟨tag, some b⟩) s =
      .next ((s.joined (.loadZones ⟨tag, some b⟩)).applyZones ⟨tag, some b⟩ b) :=
  (execLoadZones_eq _ _).trans (taken_ready hs rfl hw)

/-- A LOAD-ZONES that its checks turn away changes no more than the interface. -/
theorem execLoadZones_refused {s : State} {tag : Byte} {b : LoadZonesBody} {why : Reason} (hs : s.hostFree)
    (hno : checkedClamped Kind.loadZones ⟨tag, some b⟩ false zonesClamped zonesWellFormed (State.applyZones ⟨tag, some b⟩)
      (s.joined (.loadZones ⟨tag, some b⟩)) =
        (s.joined (.loadZones ⟨tag, some b⟩)).refuseClamped Kind.loadZones tag (zonesClamped b) why) :
    exec (.loadZones ⟨tag, some b⟩) s = .next (s.turnedAwayClamped Kind.loadZones tag (clampZones b != b) why []) := by
  have hexec : exec (.loadZones ⟨tag, some b⟩) s = execLoadZones ⟨tag, some b⟩ s := rfl
  obtain ⟨hp, hw, hi⟩ := hs
  rw [hexec, execLoadZones_eq, takeRequest_free _ hp hw hi, State.joinInput_empty _ hi]
  exact congrArg _ (hno.trans (State.joined_refused _ _ _ _ ⟨hw, hi⟩))

/-- Settles O18: the table is taken and the verdict NONE published, or the request is refused before either. -/
theorem loadZonesReplacesTheTable : Obligations.LoadZonesReplacesTheTable := by
  unfold Obligations.LoadZonesReplacesTheTable
  refine ⟨fun s tag b hs hw hclamp hberth hok => ?accepted, fun s tag b hs => ⟨fun hw => ?malformed,
    fun hw hberth => ?notAtBerth, fun hw hberth hok => ?badTable⟩, fun s tag b hfree hscan => ?scanning⟩
  case accepted =>
    have hunclamped : zonesClamped b = false := by simp [zonesClamped, hclamp]
    have happly : (s.joined (.loadZones ⟨tag, some b⟩)).applyZones ⟨tag, some b⟩ b =
        ((s.joined (.loadZones ⟨tag, some b⟩)).loadTable b).ok Kind.loadZones tag false (zonesReply b) := by
      have hb : (s.joined (.loadZones ⟨tag, some b⟩)).atBerth = true := hberth
      have ho : (s.joined (.loadZones ⟨tag, some b⟩)).zonesAccepted b = true := hok
      simp only [State.applyZones, hclamp, hb, ho, hunclamped, Bool.not_true, Bool.false_eq_true, if_false]
    dsimp only
    rw [exec_loadZones_ready hs hw, happly]
    refine ⟨_, rfl, State.loadTable_tracker b _, State.ok_repliedOk _ _ _ _ _, fun hv => ?none, fun v hv hq => ?quiet⟩
    case none =>
      rw [State.loadTable_none (s := s.joined _) hv]
      exact State.joined_ok (s := { s with tracker := s.tracker.unplaced b }) _ _ _ _ hs.idle
    case quiet =>
      rw [State.loadTable_quiet (s := s.joined _) hv hq]
      have hkeep := State.unplacing_keeps .tableLoad
        ((s.joined (.loadZones ⟨tag, some b⟩)).onTracker (Tracker.withZones b))
      generalize (State.published none .tableLoad none _).workOut = w at hkeep
      exact hkeep
  case malformed =>
    exact execLoadZones_refused hs.1 (by simp [checkedClamped, hw])
  case notAtBerth =>
    have hb : (s.joined (.loadZones ⟨tag, some b⟩)).atBerth = false := hberth
    refine execLoadZones_refused hs.1 ((checkedClamped_ready (s := s.joined _) rfl hw hs.2).trans ?_)
    simp [State.applyZones, hb]
  case badTable =>
    have hb : (s.joined (.loadZones ⟨tag, some b⟩)).atBerth = true := hberth
    have ho : (s.joined (.loadZones ⟨tag, some b⟩)).zonesAccepted (clampZones b) = false := hok
    refine execLoadZones_refused hs.1 ((checkedClamped_ready (s := s.joined _) rfl hw hs.2).trans ?_)
    simp [State.applyZones, hb, ho]
  case scanning =>
    have hs' : (s.joined (.loadZones ⟨tag, some b⟩)).rsc.scanEnded = false := hscan
    refine execLoadZones_refused hfree ?_
    cases hw : zonesWellFormed b <;> simp [checkedClamped, hw, hs']

end Sys2Proof.Machine
end

