-- ==== Sys2Proof/Proofs/Hello.lean ====
section
/-! SUPPORT. HEAD-HELLO: the order a head is sent again, and the HOLD after it (R25, R26, R35). -/

namespace Sys2Proof.Machine

/-! ### Exactly what an order does -/

/-- The state with more sent. -/
def State.sends (l : List Sent) (s : State) : State := { s with sent := s.sent ++ l }

/-- HOLD behind another record, when the port is to be held. -/
def holdAfter (p : Fin 6) (held : Bool) : List Sent := if held then [.toHead p .hold] else []

/-- The record that the current order is sent as (R15, R16). -/
def State.orderRecord (s : State) : HeadRecord :=
  match s.order with
  | none => .quiet
  | some level => .radiate level

/-- The port enters RADIATING at the current order while the store hold condition stands (R35). -/
def State.entersHeld (p : Fin 6) (s : State) : Bool :=
  s.order.isSome && decide ((s.port p).state ≠ .radiating) && s.cpc.storeHold

theorem State.onPort_onPort (p : Fin 6) (f g : CellPort → CellPort) (s : State) :
    (s.onPort p f).onPort p g = s.onPort p fun q => g (f q) := by
  simp [State.onPort, State.onCpc]

theorem PortState.bne_eq (a b : PortState) : (a != b) = decide (a ≠ b) := by
  by_cases h : a = b <;> simp [h]

theorem State.toHead_up {p : Fin 6} {s : State} (r : HeadRecord) (hup : (s.port p).state ≠ .down) :
    s.toHead p r = s.sends [.toHead p r] := by
  obtain ⟨_, h⟩ | ⟨hdown, _⟩ := State.toHead_cases p r s
  · exact h
  · exact absurd hdown (by simpa [CellPort.listening] using hup)

theorem State.sendHold_up {p : Fin 6} {s : State} (hup : (s.port p).state ≠ .down) :
    s.sendHold p = (s.onPort p fun q => { q with hold := true }).sends [.toHead p .hold] := by
  rw [State.sendHold, State.toHead_up _ hup]
  rfl

/-- The port RADIATING by an order just sent. -/
def State.radiated (p : Fin 6) (level : Nat) (s : State) : State :=
  (s.onPort p fun q => { q with state := .radiating }).sends [.toHead p (.radiate level)]

theorem State.radiated_hold (p : Fin 6) (level : Nat) (s : State) : (s.radiated p level).sendHold p =
    (s.onPort p fun q => { q with state := .radiating, hold := true }).sends
      [.toHead p (.radiate level), .toHead p .hold] := by
  have hup : ((s.radiated p level).port p).state ≠ .down := by
    have hst : ((s.onPort p fun q => { q with state := .radiating }).port p).state = .radiating := by simp
    exact fun h => nomatch hst.symm.trans h
  rw [State.sendHold_up hup, State.radiated, ← State.onPort_onPort p (fun q => { q with state := .radiating })
    (fun q => { q with hold := true })]
  simp [State.sends, State.onPort, State.onCpc]

/-- A listening port is sent the order, takes the state that follows, and is held when it enters RADIATING under the store
hold condition (R15, R16, R35). -/
theorem State.sendOrder_up {p : Fin 6} {s : State} (hup : (s.port p).state ≠ .down) : s.sendOrder p =
    (s.onPort p fun q => { q with state := s.orderedState, hold := q.hold || s.entersHeld p }).sends
      (.toHead p s.orderRecord :: holdAfter p (s.entersHeld p)) := by
  have hl : (s.port p).listening = true := by simpa [CellPort.listening] using hup
  cases ho : s.order with
  | none =>
    have hsend : s.sendOrder p = (s.toHead p .quiet).onPort p fun q => { q with state := .quiet } := by
      simp [State.sendOrder, hl, ho]
    have hno : s.entersHeld p = false := by simp [State.entersHeld, ho]
    have hst : s.orderedState = .quiet := by simp [State.orderedState, ho]
    have hr : s.orderRecord = .quiet := by simp [State.orderRecord, ho]
    rw [hsend, State.toHead_up _ hup, hno, hst, hr]
    simp only [Bool.or_false]
    rfl
  | some level =>
    have hsend : s.sendOrder p =
        if s.entersHeld p then (s.radiated p level).sendHold p else s.radiated p level := by
      have hu : ((s.toHead p (.radiate level)).onPort p fun q => { q with state := .radiating }) = s.radiated p level := by
        rw [State.toHead_up _ hup]; rfl
      have hc : (s.radiated p level).cpc.storeHold = s.cpc.storeHold := rfl
      have hcond := PortState.bne_eq (s.port p).state .radiating
      unfold State.sendOrder
      simp only [hl, Bool.not_true, Bool.false_eq_true, if_false, ho, hu, hc, hcond, State.entersHeld, Option.isSome_some,
        Bool.true_and]
    have hst : s.orderedState = .radiating := by simp [State.orderedState, ho]
    have hr : s.orderRecord = .radiate level := by simp [State.orderRecord, ho]
    rw [hsend, hst, hr]
    cases s.entersHeld p with
    | false =>
      simp only [Bool.or_false]
      rfl
    | true =>
      simp only [Bool.or_true]
      exact State.radiated_hold p level s

/-! ### The command -/

/-- A port that says hello is listening, and its capacity is recorded (R26). -/
def CellPort.greets (capacity : Nat) (q : CellPort) : CellPort :=
  { q with headCapacity := capacity, state := if q.state = .down then .ready else q.state }

/-- Whether HOLD follows the order that answers a hello (R26, R35). -/
def State.helloHeld (p : Fin 6) (s : State) : Bool := (s.port p).hold || s.entersHeld p

theorem State.greeted_port (p : Fin 6) (capacity : Nat) (s : State) :
    (s.onPort p (CellPort.greets capacity)).port p = (s.port p).greets capacity := by simp

/-- A greeting changes neither the hold flag nor whether the order would let the port enter RADIATING held. -/
theorem State.greeted_entersHeld (p : Fin 6) (capacity : Nat) (s : State) :
    (s.onPort p (CellPort.greets capacity)).entersHeld p = s.entersHeld p := by
  have hin : ((s.port p).greets capacity).state = .radiating ↔ (s.port p).state = .radiating := by
    unfold CellPort.greets
    split <;> simp_all
  unfold State.entersHeld
  rw [State.greeted_port]
  simp only [ne_eq, hin]
  rfl

/-- The order that answers a greeting, and HOLD again where the order itself did not bring it. -/
theorem State.greeted_order {p : Fin 6} {capacity : Nat} {s : State} : (s.onPort p (CellPort.greets capacity)).sendOrder p =
    (s.onPort p fun q => { q with
      headCapacity := capacity, state := s.orderedState, hold := q.hold || s.entersHeld p }).sends
        (.toHead p s.orderRecord :: holdAfter p (s.entersHeld p)) := by
  have hup : ((s.onPort p (CellPort.greets capacity)).port p).state ≠ .down := by
    rw [State.greeted_port, CellPort.greets]
    split <;> simp_all
  rw [State.sendOrder_up hup, State.greeted_entersHeld, State.onPort_onPort]
  rfl

/-- What a well-formed HEAD-HELLO does (R26, R35). -/
theorem exec_headHello {s : State} {p : Fin 6} {capacity : Nat} (hp : s.powered = true) (hlo : 1 ≤ capacity)
    (hhi : capacity ≤ 1024) : exec (.headHello p capacity) s = .next
      ((s.onPort p fun q => { q with
          headCapacity := capacity, state := s.orderedState, hold := q.hold || s.helloHeld p }).sends
        (.toHead p s.orderRecord :: holdAfter p (s.helloHeld p))) := by
  have hexec : exec (.headHello p capacity) s = execHeadHello p capacity s := rfl
  have hfit : ¬ ((decide (capacity = 0) || decide (1024 < capacity)) = true) := by simp; omega
  have hentered : (((s.onPort p (CellPort.greets capacity)).port p).state != .radiating &&
      (s.onPort p (CellPort.greets capacity)).order.isSome && (s.onPort p (CellPort.greets capacity)).cpc.storeHold) =
      s.entersHeld p := by
    rw [← State.greeted_entersHeld p capacity s, State.entersHeld, PortState.bne_eq, Bool.and_comm (decide _)]
  have hhold : ((s.onPort p (CellPort.greets capacity)).port p).hold = (s.port p).hold := by
    rw [State.greeted_port]; rfl
  rw [hexec, execHeadHello, whenPowered_on _ hp, if_neg hfit]
  change Host.Outcome.next (if (((s.onPort p (CellPort.greets capacity)).port p).hold &&
    !(((s.onPort p (CellPort.greets capacity)).port p).state != .radiating &&
      (s.onPort p (CellPort.greets capacity)).order.isSome && (s.onPort p (CellPort.greets capacity)).cpc.storeHold)) = true
    then ((s.onPort p (CellPort.greets capacity)).sendOrder p).sendHold p
    else (s.onPort p (CellPort.greets capacity)).sendOrder p) = _
  rw [hentered, hhold, State.greeted_order, State.helloHeld]
  cases s.entersHeld p with
  | true => simp only [Bool.not_true, Bool.and_false, Bool.false_eq_true, if_false, Bool.or_true]
  | false =>
    simp only [Bool.not_false, Bool.and_true, Bool.or_false]
    cases hh : (s.port p).hold with
    | false => simp only [Bool.false_eq_true, if_false, Bool.or_false]
    | true =>
      have hup : (((s.onPort p fun q => { q with
          headCapacity := capacity, state := s.orderedState, hold := q.hold }).sends
            (.toHead p s.orderRecord :: holdAfter p false)).port p).state ≠ .down := by
        have hst : ((s.onPort p fun q => { q with
          headCapacity := capacity, state := s.orderedState, hold := q.hold }).port p).state = s.orderedState := by simp
        have hno : s.orderedState ≠ .down := by unfold State.orderedState; split <;> simp
        exact fun h => hno (hst.symm.trans h)
      simp only [if_true, Bool.or_true]
      rw [State.sendHold_up hup, ← State.onPort_onPort p (fun q => { q with
          headCapacity := capacity, state := s.orderedState, hold := q.hold }) (fun q => { q with hold := true })]
      simp [State.sends, State.onPort, State.onCpc, holdAfter]

theorem State.orderedState_eq (s : State) : s.orderedState = if s.order = none then .quiet else .radiating := by
  unfold State.orderedState
  cases s.order <;> rfl

/-- Settles O19: the port greets, the order goes out again, and HOLD follows it where the port is to be held. -/
theorem headHelloBringsThePortUp : Obligations.HeadHelloBringsThePortUp := by
  unfold Obligations.HeadHelloBringsThePortUp
  refine ⟨fun s p capacity hp hdown hhold hlo hhi => ?down, fun s p capacity hp hup hlo hhi => ?up,
    fun s p capacity hp hbad => ?malformed⟩
  case down =>
    have hfree : s.cpc.ports[p].hold = false := hhold
    rw [exec_headHello hp hlo hhi, State.helloHeld, hhold, State.entersHeld, hdown, State.orderedState_eq,
      State.orderRecord]
    cases s.order with
    | none =>
      simp only [Option.isSome_none, Bool.false_and, Bool.or_false]
      rfl
    | some level =>
      simp only [State.onPort, State.onCpc, hfree, Option.isSome_some, Bool.true_and, Bool.false_or, ne_eq, reduceCtorEq,
        not_false_eq_true, decide_true, if_false]
      rfl
  case up =>
    have hport : (s.port p).hold = s.cpc.ports[p].hold := rfl
    have hor : (s.cpc.ports[p].hold || s.helloHeld p) = s.helloHeld p := by
      rw [State.helloHeld, hport, ← Bool.or_assoc, Bool.or_self]
    rw [exec_headHello hp hlo hhi, State.orderedState_eq]
    simp only [State.onPort, State.onCpc, hor]
    rfl
  case malformed =>
    have hexec : exec (.headHello p capacity) s = execHeadHello p capacity s := rfl
    have hunfit : (decide (capacity = 0) || decide (1024 < capacity)) = true := by simpa using hbad
    rw [hexec, execHeadHello, whenPowered_on _ hp, if_pos hunfit]
    rfl

end Sys2Proof.Machine
end

