-- ==== Sys2Proof/Proofs/Closures.lean ====
section
/-! SUPPORT. A closure of a period, taken apart: what it writes, and what it leaves alone (R151, R154, R159). -/

namespace Sys2Proof.Machine

/-! ### Records in the close queue -/

/-- A charge record without its serial, which it gets when it is accepted (R158). -/
def bare (r : ChargeRecord) : ChargeRecord := { r with serial := none }

/-- The close queue, serials apart. -/
def State.closures (s : State) : List ChargeRecord := s.rtu.closeQueue.map bare

@[simp] theorem bare_closureRecord (s : State) (e : Entry) (p : Period) (r : CloseReason) (d : Bool) :
    bare (s.closureRecord e p r d) = s.closureRecord e p r d := rfl

/-! ### The arbiter -/

theorem State.checkLow_frame (s : State) :
    s.checkLow = { s with rsc := s.checkLow.rsc, mli := s.checkLow.mli } := by
  unfold State.checkLow
  dsimp only
  split
  · split
    · rfl
    · rw [State.raise_frame]; rfl
  · rfl

/-- Beginning a write gives the close queue's head its serial, and touches the store and the notices beside it. -/
theorem State.beginWrite_frame (s : State) : s.beginWrite =
    { s with rtu := { s.rtu with closeQueue := s.beginWrite.rtu.closeQueue }, rsc := s.beginWrite.rsc,
             mli := s.beginWrite.mli } := by
  unfold State.beginWrite
  split
  · rfl
  · split
    · split <;> rfl
    · split
      · rfl
      · dsimp only
        rw [State.checkLow_frame]
        rfl

theorem State.beginOther_frame (s : State) : s.beginOther = { s with rsc := s.beginOther.rsc } := by
  unfold State.beginOther
  split
  · rfl
  · split <;> rfl

theorem State.arbitrate_frame (s : State) : s.arbitrate =
    { s with rtu := { s.rtu with closeQueue := s.arbitrate.rtu.closeQueue }, rsc := s.arbitrate.rsc,
             mli := s.arbitrate.mli } := by
  unfold State.arbitrate
  dsimp only
  split
  · rfl
  · split
    · exact State.beginWrite_frame s
    · split
      · rw [State.beginOther_frame]
      · rfl

@[simp] theorem State.beginWrite_closures (s : State) : s.beginWrite.closures = s.closures := by
  unfold State.beginWrite
  split
  · rfl
  · split
    · split <;> rfl
    · split
      · rfl
      · rename_i c rest hq
        dsimp only
        rw [State.checkLow_frame]
        simp [State.closures, hq, bare]

/-- The arbiter neither adds to the close queue nor takes from it. -/
@[simp] theorem State.arbitrate_closures (s : State) : s.arbitrate.closures = s.closures := by
  unfold State.arbitrate
  dsimp only
  split
  · rfl
  · split
    · exact State.beginWrite_closures s
    · split
      · rw [State.beginOther_frame]; rfl
      · rfl

theorem State.arbitrate_waitList (s : State) : s.arbitrate.rtu.waitList = s.rtu.waitList := by
  rw [State.arbitrate_frame]

theorem State.arbitrate_table (s : State) : s.arbitrate.table = s.table := by
  rw [State.arbitrate_frame]

/-! ### The wait list -/

/-- Room is made at the cost of the store's counters, a notice and the oldest detached closure (R154). -/
theorem State.makeRoom_frame (s : State) : s.makeRoom =
    { s with rtu := s.makeRoom.rtu, rsc := s.makeRoom.rsc, mli := s.makeRoom.mli } := by
  unfold State.makeRoom
  split
  · rfl
  · split
    · rfl
    · unfold State.closuresLost State.storeFault
      rw [State.raise_frame]
      rfl

theorem State.joinWaitList_frame (w : WaitingClosure) (s : State) : s.joinWaitList w =
    { s with rtu := (s.joinWaitList w).rtu, rsc := (s.joinWaitList w).rsc, mli := (s.joinWaitList w).mli } := by
  unfold State.joinWaitList
  rw [State.makeRoom_frame]
  rfl

/-- Only a closure whose entry lives no more is dropped (R154). -/
theorem State.mem_withoutDetached {s : State} {l l' : List WaitingClosure} {w : WaitingClosure}
    (h : s.withoutDetached l = some l') (hw : w ∈ l) (hlife : (s.life? w.handle w.attach).isSome = true) : w ∈ l' := by
  induction l generalizing l' with
  | nil => cases hw
  | cons x rest ih =>
    unfold State.withoutDetached at h
    split at h
    · rename_i hnone
      cases h
      obtain rfl | hmem := List.mem_cons.1 hw
      · rw [Option.isNone_iff_eq_none.1 hnone] at hlife; cases hlife
      · exact hmem
    · obtain ⟨m, hm, rfl⟩ := Option.map_eq_some_iff.1 h
      obtain rfl | hmem := List.mem_cons.1 hw
      · exact List.mem_cons_self
      · exact List.mem_cons_of_mem _ (ih hm hmem)

/-- The closure of a live entry that waits goes on waiting. -/
theorem State.mem_makeRoom {s : State} {w : WaitingClosure} (hw : w ∈ s.rtu.waitList)
    (hlife : (s.life? w.handle w.attach).isSome = true) : w ∈ s.makeRoom.rtu.waitList := by
  unfold State.makeRoom
  split
  · exact hw
  · split
    · exact hw
    · rename_i l hl
      unfold State.closuresLost State.storeFault
      rw [State.raise_frame]
      exact State.mem_withoutDetached hl hw hlife

theorem State.makeRoom_closeQueue (s : State) : s.makeRoom.rtu.closeQueue = s.rtu.closeQueue := by
  unfold State.makeRoom
  split
  · rfl
  · split
    · rfl
    · unfold State.closuresLost State.storeFault
      rw [State.raise_frame]
      rfl

theorem State.joinWaitList_waitList (w : WaitingClosure) (s : State) :
    (s.joinWaitList w).rtu.waitList = s.makeRoom.rtu.waitList ++ [w] := rfl

theorem State.joinWaitList_closeQueue (w : WaitingClosure) (s : State) :
    (s.joinWaitList w).rtu.closeQueue = s.rtu.closeQueue := s.makeRoom_closeQueue

/-! ### A closure taken -/

/-- A closure is counted by its reason (R151, R157). -/
def State.countClosure (r : CloseReason) (s : State) : State :=
  s.onRtu fun u => { u with counters := { u.counters with closures := bumpAt 12 u.counters.closures r.place } }

theorem State.closePeriod_none {r : CloseReason} {h : Nat} {s : State} (hno : s.hasUnfrozen h = false) :
    s.closePeriod r h = s := by
  unfold State.closePeriod State.hasUnfrozen at *
  cases he : s.entry? h with
  | none => rfl
  | some e =>
    cases hp : e.period with
    | none => simp [hp]
    | some p =>
      have hc : e.closing = true := by simpa [he, hp] using hno
      simp [hp, hc]

/-- The closure enters the close queue, and the period leaves its entry (R154). -/
def State.enqueueClosure (r : CloseReason) (h : Nat) (e : Entry) (p : Period) (s : State) : State :=
  (((s.countClosure r).onRtu fun u => { u with
    closeQueue := u.closeQueue ++ [s.closureRecord e p r false] }).onEntry h fun e => { e with period := none }).arbitrate

/-- The closure waits, and the period stays frozen with its entry (R154). -/
def State.delayClosure (r : CloseReason) (h : Nat) (e : Entry) (p : Period) (s : State) : State :=
  ((s.countClosure r).joinWaitList ⟨h, e.attach, s.closureRecord e p r true⟩).onEntry h fun e => { e with closing := true }

theorem State.closePeriod_unfrozen {r : CloseReason} {h : Nat} {e : Entry} {p : Period} {s : State}
    (he : s.entry? h = some e) (hp : e.period = some p) (hc : e.closing = false) :
    s.closePeriod r h = if s.queueOpen then s.enqueueClosure r h e p else s.delayClosure r h e p := by
  unfold State.closePeriod
  simp only [he, hp, hc]
  rfl

/-- An entry has an unfrozen period, or a closure of it takes nothing. -/
theorem State.closePeriod_cases (r : CloseReason) (h : Nat) (s : State) :
    (s.closePeriod r h = s ∧ ∀ e, s.entry? h = some e → e.period = none ∨ e.closing = true) ∨
    ∃ e p, s.entry? h = some e ∧ e.period = some p ∧ e.closing = false := by
  cases he : s.entry? h with
  | none => exact .inl ⟨State.closePeriod_none (by simp [State.hasUnfrozen, he]), fun _ h => nomatch h⟩
  | some e =>
    cases hp : e.period with
    | none =>
      refine .inl ⟨State.closePeriod_none (by simp [State.hasUnfrozen, he, hp]), fun e' h => ?_⟩
      cases h; exact .inl hp
    | some p =>
      cases hc : e.closing with
      | true =>
        refine .inl ⟨State.closePeriod_none (by simp [State.hasUnfrozen, he, hc]), fun e' h => ?_⟩
        cases h; exact .inr hc
      | false => exact .inr ⟨e, p, rfl, hp, hc⟩

theorem State.delayClosure_frame (r : CloseReason) (h : Nat) (e : Entry) (p : Period) (s : State) :
    s.delayClosure r h e p = { s with table := (s.delayClosure r h e p).table, rtu := (s.delayClosure r h e p).rtu,
                                      rsc := (s.delayClosure r h e p).rsc, mli := (s.delayClosure r h e p).mli } := by
  unfold State.delayClosure
  rw [State.joinWaitList_frame]
  rfl

theorem State.enqueueClosure_frame (r : CloseReason) (h : Nat) (e : Entry) (p : Period) (s : State) :
    s.enqueueClosure r h e p = { s with table := (s.enqueueClosure r h e p).table, rtu := (s.enqueueClosure r h e p).rtu,
                                        rsc := (s.enqueueClosure r h e p).rsc, mli := (s.enqueueClosure r h e p).mli } := by
  unfold State.enqueueClosure
  rw [State.arbitrate_frame]
  rfl

/-- A closure touches its entry, the Rating Unit, the record store and the notices alone. -/
theorem State.closePeriod_frame (r : CloseReason) (h : Nat) (s : State) :
    s.closePeriod r h = { s with table := (s.closePeriod r h).table, rtu := (s.closePeriod r h).rtu,
                                 rsc := (s.closePeriod r h).rsc, mli := (s.closePeriod r h).mli } := by
  obtain ⟨hsame, _⟩ | ⟨e, p, he, hp, hc⟩ := State.closePeriod_cases r h s
  · rw [hsame]
  · rw [State.closePeriod_unfrozen he hp hc]
    split
    · exact State.enqueueClosure_frame r h e p s
    · exact State.delayClosure_frame r h e p s

/-- What a closure makes of its entry: with room in the close queue the period leaves it, and else it is frozen. -/
def Entry.closed (queued : Bool) (e : Entry) : Entry :=
  if e.period.isSome && !e.closing then (if queued then { e with period := none } else { e with closing := true }) else e

theorem alterKey_congr {α : Type} {k : Nat} {f g : α → α} {l : List (Nat × α)}
    (h : ∀ e, lookupKey k l = some e → f e = g e) : alterKey k f l = alterKey k g l := by
  induction l with
  | nil => rfl
  | cons p rest ih =>
    obtain ⟨a, e⟩ := p
    by_cases ha : a = k
    · subst ha
      have hf := h e (by simp [lookupKey])
      simp [alterKey, hf]
    · have hrest := ih (fun e he => h e (by simpa [lookupKey, ha] using he))
      simp [alterKey, ha, hrest]

theorem alterKey_id {α : Type} (k : Nat) (l : List (Nat × α)) : alterKey k id l = l := by
  induction l with
  | nil => rfl
  | cons p rest ih =>
    obtain ⟨a, e⟩ := p
    by_cases ha : a = k <;> simp [alterKey, ha, ih]

theorem State.onEntry_congr {h : Nat} {f g : Entry → Entry} {s : State}
    (hfg : ∀ e, s.entry? h = some e → f e = g e) : s.onEntry h f = s.onEntry h g := by
  simp only [State.onEntry, State.onTable, alterKey_congr hfg]

theorem State.onEntry_id (h : Nat) (s : State) : s.onEntry h id = s := by
  simp only [State.onEntry, State.onTable, alterKey_id]

/-- The table after a closure is that with its entry closed. -/
theorem State.closePeriod_table (r : CloseReason) (h : Nat) (s : State) :
    (s.closePeriod r h).table = (s.onEntry h (Entry.closed s.queueOpen)).table := by
  obtain ⟨hsame, hno⟩ | ⟨e, p, he, hp, hc⟩ := State.closePeriod_cases r h s
  · have hid : s.onEntry h (Entry.closed s.queueOpen) = s := by
      refine Eq.trans (State.onEntry_congr fun e he => ?_) (State.onEntry_id h s)
      obtain hp | hc := hno e he
      · simp [Entry.closed, hp]
      · simp [Entry.closed, hc]
    rw [hsame, hid]
  · have hone : ∀ q f, (∀ x, f x = if q = true then { x with period := none } else { x with closing := true }) →
        s.onEntry h (Entry.closed q) = s.onEntry h f := fun q f hf => by
      refine State.onEntry_congr fun x hx => ?_
      obtain rfl : e = x := Option.some.inj (he.symm.trans hx)
      rw [hf]
      simp [Entry.closed, hp, hc]
    rw [State.closePeriod_unfrozen he hp hc]
    split
    · rename_i hq
      rw [hq, hone true (fun x => { x with period := none }) fun _ => rfl, State.enqueueClosure, State.arbitrate_table]
      rfl
    · rename_i hq
      rw [Bool.not_eq_true] at hq
      rw [hq, hone false (fun x => { x with closing := true }) fun _ => rfl, State.delayClosure, State.joinWaitList_frame]
      rfl

theorem State.closePeriod_entry? (r : CloseReason) (h j : Nat) (s : State) :
    (s.closePeriod r h).entry? j = if h = j then (s.entry? j).map (Entry.closed s.queueOpen) else s.entry? j := by
  have ht := congrArg (fun t : Table => lookupKey j t.entries) (State.closePeriod_table r h s)
  exact ht.trans (State.entry?_onEntry h j _ s)

theorem State.closePeriod_handles (r : CloseReason) (h : Nat) (s : State) : (s.closePeriod r h).handles = s.handles := by
  have ht := congrArg (fun t : Table => t.entries.map (·.1)) (State.closePeriod_table r h s)
  exact ht.trans (State.handles_onEntry h _ s)

/-- A closure that the queue takes is its last; no other record of it goes. -/
theorem State.enqueueClosure_closures (r : CloseReason) (h : Nat) (e : Entry) (p : Period) (s : State) :
    (s.enqueueClosure r h e p).closures = s.closures ++ [s.closureRecord e p r false] := by
  unfold State.enqueueClosure
  rw [State.arbitrate_closures]
  simp [State.closures, State.countClosure]

theorem State.enqueueClosure_waitList (r : CloseReason) (h : Nat) (e : Entry) (p : Period) (s : State) :
    (s.enqueueClosure r h e p).rtu.waitList = s.rtu.waitList := State.arbitrate_waitList _

theorem State.delayClosure_closeQueue (r : CloseReason) (h : Nat) (e : Entry) (p : Period) (s : State) :
    (s.delayClosure r h e p).rtu.closeQueue = s.rtu.closeQueue :=
  State.joinWaitList_closeQueue _ (s.countClosure r)

theorem State.delayClosure_waitList (r : CloseReason) (h : Nat) (e : Entry) (p : Period) (s : State) :
    (s.delayClosure r h e p).rtu.waitList =
      (s.countClosure r).makeRoom.rtu.waitList ++ [⟨h, e.attach, s.closureRecord e p r true⟩] := rfl

/-- No closure takes a record from the close queue. -/
theorem State.mem_closures_closePeriod {r : CloseReason} {h : Nat} {s : State} {x : ChargeRecord} (hx : x ∈ s.closures) :
    x ∈ (s.closePeriod r h).closures := by
  obtain ⟨hsame, _⟩ | ⟨e, p, he, hp, hc⟩ := State.closePeriod_cases r h s
  · rw [hsame]; exact hx
  · rw [State.closePeriod_unfrozen he hp hc]
    split
    · rw [State.enqueueClosure_closures]; exact List.mem_append_left _ hx
    · unfold State.closures at *
      rw [State.delayClosure_closeQueue]; exact hx

/-- No closure takes that of a live entry from the wait list. -/
theorem State.mem_waitList_closePeriod {r : CloseReason} {h : Nat} {s : State} {w : WaitingClosure}
    (hw : w ∈ s.rtu.waitList) (hlife : (s.life? w.handle w.attach).isSome = true) :
    w ∈ (s.closePeriod r h).rtu.waitList := by
  obtain ⟨hsame, _⟩ | ⟨e, p, he, hp, hc⟩ := State.closePeriod_cases r h s
  · rw [hsame]; exact hw
  · rw [State.closePeriod_unfrozen he hp hc]
    split
    · rw [State.enqueueClosure_waitList]; exact hw
    · rw [State.delayClosure_waitList]
      exact List.mem_append_left _ (State.mem_makeRoom (s := s.countClosure r) hw hlife)

end Sys2Proof.Machine
end

