-- ==== Sys2Proof/Proofs/Entries.lean ====
section
/-! SUPPORT. Operations about one entry, taken for each entry in turn: what each leaves of the others, of their exchanges
and of their closures, and so what the whole round makes of one of them. -/

namespace Sys2Proof.Machine

/-! ### A round over the entries -/

theorem State.eachOf_cons {α : Type} (a : α) (l : List α) (f : α → State → State) (s : State) :
    s.eachOf (a :: l) f = (f a s).eachOf l f := rfl

theorem State.eachOf_append {α : Type} (l m : List α) (f : α → State → State) (s : State) :
    s.eachOf (l ++ m) f = (s.eachOf l f).eachOf m f := by
  simp [State.eachOf]

/-- What each of a list's operations keeps, the whole list keeps. -/
theorem State.eachOf_keeps {α : Type} {P : State → Prop} {f : α → State → State} (l : List α)
    (hf : ∀ a ∈ l, ∀ s, P s → P (f a s)) {s : State} (hs : P s) : P (s.eachOf l f) := by
  induction l generalizing s with
  | nil => exact hs
  | cons a l ih =>
    rw [State.eachOf_cons]
    exact ih (fun b hb => hf b (List.mem_cons_of_mem a hb)) (hf a List.mem_cons_self s hs)

/-- A round over the entries reaches each entry once: what the others' turns keep holds at its own turn, and what its own
turn gives and the others' turns keep holds at the end. -/
theorem State.eachEntry_turn {P Q : State → Prop} {f : Nat → State → State} {h : Nat} {s : State}
    (hnd : s.handles.Nodup) (hmem : h ∈ s.handles) (hP : ∀ j, j ≠ h → ∀ u, P u → P (f j u)) (hturn : ∀ u, P u → Q (f h u))
    (hQ : ∀ j, j ≠ h → ∀ u, Q u → Q (f j u)) (hs : P s) : Q (s.eachEntry f) := by
  obtain ⟨pre, post, hsplit⟩ := List.append_of_mem hmem
  have hround : s.eachEntry f = (f h (s.eachOf pre f)).eachOf post f := by
    change s.eachOf s.handles f = _
    rw [hsplit, State.eachOf_append, State.eachOf_cons]
  rw [hsplit] at hnd
  have hpre : ∀ a ∈ pre, a ≠ h := fun a ha hah =>
    (List.nodup_append.1 hnd).2.2 a ha h List.mem_cons_self hah
  have hpost : ∀ a ∈ post, a ≠ h := fun a ha hah =>
    (List.nodup_cons.1 (List.nodup_append.1 hnd).2.1).1 (hah ▸ ha)
  rw [hround]
  exact State.eachOf_keeps post (fun a ha => hQ a (hpost a ha))
    (hturn _ (State.eachOf_keeps pre (fun a ha => hP a (hpre a ha)) hs))

/-- A handle that names an entry is among the handles. -/
theorem State.mem_handles {h : Nat} {e : Entry} {s : State} (he : s.entry? h = some e) : h ∈ s.handles := by
  unfold State.entry? at he
  unfold State.handles
  generalize s.table.entries = l at he
  induction l with
  | nil => cases he
  | cons p rest ih =>
    obtain ⟨a, x⟩ := p
    by_cases ha : a = h
    · simp [ha]
    · simp only [lookupKey, if_neg ha] at he
      exact List.mem_cons_of_mem _ (ih he)

/-! ### Operations about one entry -/

/-- `t` is `s` after an operation about entry `h`: the other entries and their exchanges are as they were, the entry is the
same life, and no closure of a live entry has gone. -/
structure State.concerns (h : Nat) (s t : State) : Prop where
  others : ∀ j, j ≠ h → t.entry? j = s.entry? j
  handles : t.handles = s.handles
  life : (t.entry? h).map (·.attach) = (s.entry? h).map (·.attach)
  exchanges : ∀ x : Exchange, x.handle ≠ h → (x ∈ t.rge.inFlight ↔ x ∈ s.rge.inFlight)
  closures : ∀ r ∈ s.closures, r ∈ t.closures
  waits : ∀ w ∈ s.rtu.waitList, (s.life? w.handle w.attach).isSome = true → w ∈ t.rtu.waitList

theorem State.life?_isSome {h a : Nat} {s : State} :
    (s.life? h a).isSome = true ↔ (s.entry? h).map (·.attach) = some a := by
  unfold State.life?
  cases s.entry? h with
  | none => simp
  | some e => by_cases hea : e.attach = a <;> simp [Option.filter, hea]

theorem State.concerns.life?_isSome {h j a : Nat} {s t : State} (hst : s.concerns h t)
    (hs : (s.life? j a).isSome = true) : (t.life? j a).isSome = true := by
  rw [State.life?_isSome] at hs ⊢
  by_cases hj : j = h
  · rw [hj, hst.life, ← hj]; exact hs
  · rw [hst.others j hj]; exact hs

theorem State.concerns.refl (h : Nat) (s : State) : s.concerns h s :=
  ⟨fun _ _ => rfl, rfl, rfl, fun _ _ => Iff.rfl, fun _ h => h, fun _ h _ => h⟩

theorem State.concerns.trans {h : Nat} {s t u : State} (hst : s.concerns h t) (htu : t.concerns h u) : s.concerns h u where
  others j hj := (htu.others j hj).trans (hst.others j hj)
  handles := htu.handles.trans hst.handles
  life := htu.life.trans hst.life
  exchanges x hx := (htu.exchanges x hx).trans (hst.exchanges x hx)
  closures r hr := htu.closures r (hst.closures r hr)
  waits w hw hl := htu.waits w (hst.waits w hw hl) (hst.life?_isSome hl)

/-- `State.concerns.trans`, the last operation first. -/
theorem State.concerns.after {h : Nat} {s t u : State} (htu : t.concerns h u) (hst : s.concerns h t) : s.concerns h u :=
  hst.trans htu

/-- An operation that leaves the table, the exchanges and the Rating Unit's lists concerns no entry. -/
theorem State.concerns.of_frame {h : Nat} {s t : State} (htable : t.table = s.table)
    (hflight : t.rge.inFlight = s.rge.inFlight) (hqueue : t.rtu.closeQueue = s.rtu.closeQueue)
    (hwait : t.rtu.waitList = s.rtu.waitList) : s.concerns h t where
  others j _ := by simp only [State.entry?, htable]
  handles := by simp only [State.handles, htable]
  life := by simp only [State.entry?, htable]
  exchanges x _ := by rw [hflight]
  closures r hr := by simpa only [State.closures, hqueue] using hr
  waits w hw _ := by rw [hwait]; exact hw

theorem State.onRouter_concerns (h : Nat) (f : Router → Router) (s : State) : s.concerns h (s.onRouter f) :=
  .of_frame rfl rfl rfl rfl

theorem State.onRtu_concerns (h : Nat) (f : Rtu → Rtu) (s : State)
    (hf : ∀ u, (f u).closeQueue = u.closeQueue ∧ (f u).waitList = u.waitList) : s.concerns h (s.onRtu f) :=
  .of_frame rfl rfl (hf _).1 (hf _).2

theorem State.onEntry_concerns (h : Nat) (f : Entry → Entry) (s : State) (hf : ∀ e, (f e).attach = e.attach) :
    s.concerns h (s.onEntry h f) where
  others j hj := by rw [State.entry?_onEntry, if_neg (Ne.symm hj)]
  handles := State.handles_onEntry h f s
  life := by
    rw [State.entry?_onEntry, if_pos rfl]
    cases s.entry? h with
    | none => rfl
    | some e => exact congrArg some (hf e)
  exchanges _ _ := Iff.rfl
  closures _ hr := hr
  waits _ hw _ := hw

theorem Entry.closed_attach (q : Bool) (e : Entry) : (e.closed q).attach = e.attach := by
  unfold Entry.closed
  split
  · split <;> rfl
  · rfl

theorem State.closePeriod_concerns (r : CloseReason) (h : Nat) (s : State) : s.concerns h (s.closePeriod r h) where
  others j hj := by rw [State.closePeriod_entry?, if_neg (Ne.symm hj)]
  handles := State.closePeriod_handles r h s
  life := by
    rw [State.closePeriod_entry?, if_pos rfl]
    cases s.entry? h with
    | none => rfl
    | some e => exact congrArg some (Entry.closed_attach _ e)
  exchanges x _ := by rw [State.closePeriod_frame]
  closures _ hx := State.mem_closures_closePeriod hx
  waits _ hw hl := State.mem_waitList_closePeriod hw hl

theorem State.openPeriod_concerns (h : Nat) (s : State) : s.concerns h (s.openPeriod h) := by
  unfold State.openPeriod
  split
  · exact .refl h s
  · split
    · split
      · exact .refl h s
      · exact .after (State.onRtu_concerns h _ _ fun _ => ⟨rfl, rfl⟩) (s.onEntry_concerns h _ fun _ => rfl)
    · exact .refl h s

theorem State.dropExchange_concerns (h : Nat) (s : State) : s.concerns h (s.dropExchange h) where
  others _ _ := rfl
  handles := rfl
  life := rfl
  exchanges x hx := by simp [State.dropExchange, hx]
  closures _ hr := hr
  waits _ hw _ := hw

theorem State.dropRegAsk_concerns (h : Nat) (keep : Option Nat) (s : State) : s.concerns h (s.dropRegAsk h keep) where
  others _ _ := rfl
  handles := rfl
  life := rfl
  exchanges x hx := by simp [State.dropRegAsk, hx]
  closures _ hr := hr
  waits _ hw _ := hw

theorem State.sendLevel_frame (h : Nat) (level : ServeLevel) (s : State) :
    s.sendLevel h level = { s with sent := (s.sendLevel h level).sent } := by
  unfold State.sendLevel
  split
  · rfl
  · split
    · unfold State.toHead
      split <;> rfl
    · rfl

theorem State.sendLevel_concerns (j h : Nat) (level : ServeLevel) (s : State) : s.concerns j (s.sendLevel h level) := by
  rw [State.sendLevel_frame]
  exact .of_frame rfl rfl rfl rfl

/-- A DEREG is sent or dropped: the swap manager's ports, the engine's counters and what is sent show it alone. -/
theorem State.sendDereg_frame (h : Nat) (t : Token) (i : Nat) (s : State) : s.sendDereg h t i =
    { s with slm := (s.sendDereg h t i).slm, rge := { s.rge with counters := (s.sendDereg h t i).rge.counters },
             sent := (s.sendDereg h t i).sent } := by
  unfold State.sendDereg
  split
  · rw [State.offer_plain_frame]; rfl
  · rfl

theorem State.sendDereg_concerns (j h : Nat) (t : Token) (i : Nat) (s : State) : s.concerns j (s.sendDereg h t i) := by
  rw [State.sendDereg_frame]
  exact .of_frame rfl rfl rfl rfl

theorem State.freeBearers_concerns (h : Nat) (s : State) : s.concerns h (s.freeBearers h) := by
  unfold State.freeBearers
  split
  · exact .refl h s
  · exact .after (State.onRouter_concerns h _ _) (s.onEntry_concerns h _ fun _ => rfl)

theorem State.countRge_concerns (h : Nat) (f : RoamingCounters → RoamingCounters) (s : State) : s.concerns h (s.countRge f) :=
  .of_frame rfl rfl rfl rfl

/-! ### The operations of a change of verdict -/

theorem State.rest_concerns (h : Nat) (s : State) : s.concerns h (s.rest h) := by
  unfold State.rest
  split
  · exact .refl h s
  · split
    · exact .refl h s
    · exact .after (State.onEntry_concerns h _ _ fun _ => rfl)
        (.after (State.freeBearers_concerns h _) (State.closePeriod_concerns .quiet h s))

theorem State.rotatePeriod_concerns (h : Nat) (s : State) : s.concerns h (s.rotatePeriod h) := by
  unfold State.rotatePeriod
  split
  · split
    · exact .refl h s
    · split
      · exact .after (State.openPeriod_concerns h _) (s.closePeriod_concerns .zone h)
      · exact .refl h s
  · exact .refl h s

theorem State.beginMove_concerns (h : Nat) (c : Nat × Nat) (s : State) : s.concerns h (s.beginMove h c) :=
  .after (State.countRge_concerns h _ _) (s.onEntry_concerns h _ fun _ => rfl)

theorem State.voidRegistration_concerns (h : Nat) (s : State) : s.concerns h (s.voidRegistration h) := by
  have hdereg : ∀ (e : Entry) (u : State), u.concerns h (match e.serving with
      | some i => u.sendDereg h e.token i
      | none => u) := fun e u => by
    split
    · exact State.sendDereg_concerns h h _ _ u
    · exact .refl h u
  unfold State.voidRegistration
  split
  · exact .refl h s
  · dsimp only
    split
    · exact .after (State.onEntry_concerns h _ _ fun _ => rfl) (.after (State.countRge_concerns h _ _)
        (.after (State.dropExchange_concerns h _) (.after (State.onEntry_concerns h _ _ fun _ => rfl)
          (.after (hdereg _ _) (s.closePeriod_concerns .partner h)))))
    · exact .after (State.sendLevel_concerns h h _ _) (.after (State.onEntry_concerns h _ _ fun _ => rfl)
        (.after (State.countRge_concerns h _ _) (.after (State.dropExchange_concerns h _)
          (.after (State.onEntry_concerns h _ _ fun _ => rfl)
            (.after (hdereg _ _) (s.closePeriod_concerns .partner h))))))

/-- A change of the entry and the REG-ASKs that go with it. -/
theorem State.onEntry_dropRegAsk_concerns (h : Nat) (f : Entry → Entry) (keep : Option Nat) (s : State)
    (hf : ∀ e, (f e).attach = e.attach) : s.concerns h ((s.onEntry h f).dropRegAsk h keep) :=
  .after (State.dropRegAsk_concerns h _ _) (s.onEntry_concerns h f hf)

theorem State.moveCheck_concerns (h : Nat) (s : State) : s.concerns h (s.moveCheck h) := by
  unfold State.moveCheck
  split
  · exact .refl h s
  · dsimp only
    split
    case h_1 =>
      split
      · exact s.voidRegistration_concerns h
      · split
        · split
          · exact .refl h s
          · exact s.beginMove_concerns h _
        · exact .refl h s
    case h_2 =>
      split
      · exact s.voidRegistration_concerns h
      · split
        · split
          · exact .after (State.countRge_concerns h _ _) (s.onEntry_dropRegAsk_concerns h _ _ fun _ => rfl)
          · split
            · exact .refl h s
            · exact s.onEntry_dropRegAsk_concerns h _ _ fun _ => rfl
        · exact .after (State.countRge_concerns h _ _) (s.onEntry_dropRegAsk_concerns h _ _ fun _ => rfl)
    case h_3 =>
      split
      · split
        · exact .refl h s
        · exact s.onEntry_dropRegAsk_concerns h _ _ fun _ => rfl
      · exact .after (State.sendLevel_concerns h h _ _) (.after (State.dropExchange_concerns h _)
          (s.onEntry_concerns h _ fun _ => rfl))
    case h_4 =>
      split
      · exact s.onEntry_concerns h _ fun _ => rfl
      · exact .refl h s
    case h_5 => exact .refl h s
    case h_6 => exact .refl h s

end Sys2Proof.Machine
end

