-- ==== Sys2Proof/Proofs/QuietEntry.lean ====
section
/-! SUPPORT. A fix that changes the verdict once, and the quiet entry (R7, R12, R13, R17). -/

namespace Sys2Proof.Machine

/-! ### A fix changes the verdict once -/

/-- An update of the tracker's flags, timers and last fix, that leaves its table, its settings and its verdict. -/
def keepsZone (f : Tracker → Tracker) : Prop := ∀ x, (f x).settings = x.settings ∧ (f x).verdict = x.verdict

theorem keepsZone_id : keepsZone id := fun _ => ⟨rfl, rfl⟩

theorem keepsZone.comp {f g : Tracker → Tracker} (hg : keepsZone g) (hf : keepsZone f) : keepsZone fun t => g (f t) :=
  fun x => ⟨(hg _).1.trans (hf x).1, (hg _).2.trans (hf x).2⟩

theorem keepsZone.locate {f : Tracker → Tracker} (hf : keepsZone f) (t : Tracker) (d : Nat) :
    (f t).locate d = t.locate d := by
  have hz : (f t).zones = t.zones := congrArg ZoneSettings.zones (hf t).1
  simp only [Tracker.locate, hz]

/-- `t` is `s` with flags and timers of the tracker set, or with its verdict changed once, to the zone of `d`, and such
flags set before and after. -/
def State.movesOnce (d : Nat) (s t : State) : Prop :=
  (∃ f, keepsZone f ∧ t = s.onTracker f) ∨
  ∃ c why f g, s.tracker.locate d = some c ∧ keepsZone f ∧ keepsZone g ∧
    t = ((s.onTracker f).changeVerdict (some c) why (some d)).onTracker g

theorem State.movesOnce.refl (d : Nat) (s : State) : s.movesOnce d s := .inl ⟨id, keepsZone_id, rfl⟩

theorem State.movesOnce.onTracker {d : Nat} {s t : State} {g : Tracker → Tracker} (h : s.movesOnce d t)
    (hg : keepsZone g) : s.movesOnce d (t.onTracker g) := by
  obtain ⟨f, hf, rfl⟩ | ⟨c, why, f, g', hc, hf, hg', rfl⟩ := h
  · exact .inl ⟨_, hg.comp hf, rfl⟩
  · exact .inr ⟨c, why, f, _, hc, hf, hg.comp hg', rfl⟩

theorem State.evaluate_cases (q : Quality) (d : Nat) (cause : ZoneCause) (s : State) :
    s.evaluate q d cause = s ∨ ∃ c why, s.tracker.locate d = some c ∧
      s.evaluate q d cause = s.changeVerdict (some c) why (some d) := by
  unfold State.evaluate
  split
  · rename_i v c hv hc
    split
    · exact .inl rfl
    · split
      · exact .inr ⟨c, .stricter, hc, rfl⟩
      · split
        · exact .inr ⟨c, cause, hc, rfl⟩
        · exact .inl rfl
  · exact .inl rfl

/-- Where nothing but flags has been set so far, an evaluation moves the verdict once at most. -/
theorem State.evaluate_movesOnce {q : Quality} {d : Nat} {cause : ZoneCause} {s : State} {f : Tracker → Tracker}
    (hf : keepsZone f) : s.movesOnce d ((s.onTracker f).evaluate q d cause) := by
  obtain hsame | ⟨c, why, hc, hmove⟩ := State.evaluate_cases q d cause (s.onTracker f)
  · rw [hsame]; exact .inl ⟨f, hf, rfl⟩
  · rw [hmove]
    exact .inr ⟨c, why, f, id, (hf.locate s.tracker d).symm.trans hc, hf, keepsZone_id, rfl⟩

theorem keepsZone_hold (x : Tracker → Option Nat) : keepsZone fun t => { t with holdExpiry := x t } :=
  fun _ => ⟨rfl, rfl⟩

theorem keepsZone_frozen (x : Bool) : keepsZone fun t => { t with frozen := x } := fun _ => ⟨rfl, rfl⟩

/-- The hold after a thaw: it ends at once with a hold time of 0, and the fix just taken is evaluated again; a verdict that
has moved to its zone moves no more. -/
theorem State.movesOnce.beginHold {d a : Nat} {s t : State} (h : s.movesOnce d t)
    (hfix : t.tracker.lastFix = some (.good, a)) (hpos : t.tracker.lastPosition = some d) :
    s.movesOnce d t.beginHold := by
  by_cases hz : t.tracker.holdTime = 0
  · rw [State.beginHold_ends hz]
    generalize hu : (t.onTracker fun x => { x with holdExpiry := some (t.now + x.holdTime * 1000) }) = u
    have hufix : u.tracker.lastFix = some (.good, a) := by rw [← hu]; exact hfix
    have hupos : u.tracker.lastPosition = some d := by rw [← hu]; exact hpos
    have hum : s.movesOnce d u := by rw [← hu]; exact h.onTracker (keepsZone_hold _)
    obtain ⟨f, hf, huf⟩ | ⟨c, why, f, g, hc, hf, hg, hug⟩ := hum
    · have hend : u.endHold = (s.onTracker fun t => { f t with holdExpiry := none }).evaluate .good d .holdEnd := by
        unfold State.endHold
        simp only [State.onTracker_tracker, hufix, hupos]
        rw [huf]; rfl
      rw [hend]
      exact State.evaluate_movesOnce ((keepsZone_hold fun _ => none).comp hf)
    · have hverdict : u.tracker.verdict = some c := by
        rw [hug]
        exact ((hg _).2).trans (congrArg Tracker.verdict (State.changeVerdict_tracker _ _ _ _))
      have hlocate : u.tracker.locate d = some c := by
        rw [hug]
        refine (hg.locate _ d).trans ?_
        rw [State.changeVerdict_tracker]
        exact (hf.locate s.tracker d).trans hc
      rw [State.endHold_settled hufix hupos hverdict hlocate, hug]
      exact (State.movesOnce.onTracker (.inr ⟨c, why, f, g, hc, hf, hg, rfl⟩) (keepsZone_hold fun _ => none))
  · rw [State.beginHold_holds hz]
    exact h.onTracker (keepsZone_hold _)

/-- A fix recorded while RUNNING moves the verdict once at most, and to the zone it lies in (R5 to R9, R12). -/
theorem State.takeFix_movesOnce {q : Quality} {d a : Nat} {s : State} (hfix : s.tracker.lastFix = some (q, a))
    (hpos : q ≠ .none → s.tracker.lastPosition = some d) : s.movesOnce d (s.takeFix q d) := by
  by_cases hq : q = .none
  · subst hq
    exact .inl ⟨fun t => { t with frozen := true, holdExpiry := none }, fun _ => ⟨rfl, rfl⟩, rfl⟩
  cases hv : s.tracker.verdict with
  | none =>
    by_cases hgood : q = .good ∧ s.tracker.forcedFreeze = false
    · obtain ⟨rfl, hforced⟩ := hgood
      cases hc : s.tracker.locate d with
      | none =>
        have hsame : s.takeFix .good d = s := by simp [State.takeFix, hv, hforced, hc]
        rw [hsame]; exact .refl d s
      | some c =>
        rw [State.takeFix_first hv hforced hc]
        exact .inr ⟨c, _, _, id, hc, keepsZone_frozen false, keepsZone_id, rfl⟩
    · rw [State.takeFix_noZone hq hv]
      · exact .refl d s
      · by_cases hg : q = .good
        · exact .inr (by simpa using fun hn => hgood ⟨hg, hn⟩)
        · exact .inl hg
  | some v =>
    have hev : s.movesOnce d (s.evaluate q d .margin) := State.evaluate_movesOnce keepsZone_id
    by_cases hthaw : s.tracker.thawedBy q
    · obtain ⟨rfl, hfrozen, hforced⟩ := hthaw
      rw [State.takeFix_thaws hv hfrozen hforced]
      obtain ⟨x, hx⟩ := State.evaluate_tracker .good d .margin s
      refine (hev.onTracker (keepsZone_frozen false)).beginHold (a := a) ?_ ?_
      · rw [State.onTracker_tracker, hx]; exact hfix
      · rw [State.onTracker_tracker, hx]; exact hpos hq
    · rw [State.takeFix_evaluates hq hv hthaw]
      exact hev

/-- A fix in a stricter zone moves the verdict to it; what flags it sets beside it are those of a thaw (R7, R12). -/
theorem State.takeFix_stricter {q : Quality} {d a : Nat} {v c : VerdictZone} {s : State} (hq : q ≠ .none)
    (hfix : s.tracker.lastFix = some (q, a)) (hpos : s.tracker.lastPosition = some d)
    (hv : s.tracker.verdict = some v) (hc : s.tracker.locate d = some c) (hne : c.index ≠ v.index)
    (hr : policyRank c.rules.policy < policyRank v.rules.policy) :
    ∃ g, keepsZone g ∧ s.takeFix q d = (s.changeVerdict (some c) .stricter (some d)).onTracker g ∧
      (∀ t, (g t).forcedFreeze = t.forcedFreeze) ∧ (s.tracker.thawedBy q ∨ g = id) := by
  by_cases hthaw : s.tracker.thawedBy q
  · obtain ⟨rfl, hfrozen, hforced⟩ := hthaw
    rw [State.takeFix_thaws hv hfrozen hforced, State.evaluate_stricter hv hc hne hr]
    generalize hw : (s.changeVerdict (some c) .stricter (some d)) = w
    have hwt : w.tracker = { s.tracker with verdict := some c } := by rw [← hw, State.changeVerdict_tracker]
    by_cases hz : w.tracker.holdTime = 0
    · rw [State.beginHold_ends (s := w.onTracker fun t => { t with frozen := false }) hz, State.endHold_settled (a := a) (d := d) (v := c)]
      · exact ⟨_, ((keepsZone_hold fun _ => none).comp (keepsZone_hold fun t => some (w.now + t.holdTime * 1000))).comp
          (keepsZone_frozen false), rfl, fun _ => rfl, .inl ⟨rfl, hfrozen, hforced⟩⟩
      · simp only [State.onTracker_tracker, hwt, hfix]
      · simp only [State.onTracker_tracker, hwt, hpos]
      · simp only [State.onTracker_tracker, hwt]
      · have hl : ({ s.tracker with verdict := some c } : Tracker).locate d = some c := hc
        simp only [State.onTracker_tracker, hwt]
        exact hl
    · rw [State.beginHold_holds (s := w.onTracker fun t => { t with frozen := false }) hz]
      exact ⟨_, (keepsZone_hold fun t => some (w.now + t.holdTime * 1000)).comp (keepsZone_frozen false), rfl,
        fun _ => rfl, .inl ⟨rfl, hfrozen, hforced⟩⟩
  · rw [State.takeFix_evaluates hq hv hthaw, State.evaluate_stricter hv hc hne hr]
    exact ⟨id, keepsZone_id, rfl, fun _ => rfl, .inr rfl⟩

end Sys2Proof.Machine
end

