-- ==== Sys2Proof/Proofs/Resting.lean ====
section
/-! SUPPORT. What a quiet entry makes of each entry and of each port (R15, R17, R18, R130). -/

namespace Sys2Proof.Machine

/-! ### What is sent stays sent -/

/-- Everything sent before has been sent. -/
def State.sentStays (s t : State) : Prop := ∀ x ∈ s.sent, x ∈ t.sent

theorem State.sends_stays (l : List Sent) (s : State) : s.sentStays (s.sends l) :=
  fun _ hx => List.mem_append_left l hx

theorem State.sendOrder_stays (p : Fin 6) (s : State) : s.sentStays (s.sendOrder p) := by
  by_cases hup : (s.port p).state = .down
  · have hsame : s.sendOrder p = s := by simp [State.sendOrder, CellPort.listening, hup]
    rw [hsame]; exact fun _ hx => hx
  · rw [State.sendOrder_up hup]
    exact State.sends_stays _ (State.onPort p _ s)

theorem State.emit_stays (r : Sent) (s : State) : s.sentStays (s.emit r) :=
  fun _ hx => List.mem_append_left _ hx

theorem State.offer_plain_stays (l : Fin 4) (r : ShoreRecord) (s : State) : s.sentStays (s.offer l (.plain r)) := by
  unfold State.offer
  split
  · cases r <;> exact State.emit_stays _ s
  · exact fun _ hx => hx

theorem State.beginSwap_stays (l : Fin 4) (planned : Bool) (s : State) : s.sentStays (s.beginSwap l planned) := by
  have hraise : ∀ (n : Notice) (u : State), (u.raise n).sent = u.sent := fun n u => by rw [State.raise_frame]
  unfold State.beginSwap State.linkChanged
  dsimp only
  intro x hx
  refine State.offer_plain_stays l _ _ x ?_
  rw [hraise]
  exact hx

theorem State.workOut_stays (s : State) : s.sentStays s.workOut := by
  have hrefl : s.sentStays s := fun _ hx => hx
  unfold State.workOut
  split
  case isTrue => exact hrefl
  split
  case isTrue => exact hrefl
  split
  · exact s.beginSwap_stays _ false
  · exact hrefl
  · exact hrefl
  · split
    case isTrue => exact hrefl
    split
    case isTrue => exact hrefl
    split
    case isTrue => exact s.beginSwap_stays _ true
    exact hrefl

/-! ### QUIET goes out -/

/-- A listening port is sent the order that stands. -/
theorem State.sendOrder_sent {p : Fin 6} {s : State} (hup : (s.port p).state ≠ .down) :
    Sent.toHead p s.orderRecord ∈ (s.sendOrder p).sent := by
  rw [State.sendOrder_up hup]
  exact List.mem_append_right _ List.mem_cons_self

/-- Orders to a list of ports reach each listening one of them. -/
theorem State.sendOrderEach_sent {p : Fin 6} {r : HeadRecord} (l : List (Fin 6)) {s : State} (hr : s.orderRecord = r)
    (h : Sent.toHead p r ∈ s.sent ∨ p ∈ l ∧ (s.port p).state ≠ .down) :
    Sent.toHead p r ∈ (s.eachOf l State.sendOrder).sent := by
  induction l generalizing s with
  | nil =>
    obtain h | h := h
    · exact h
    · cases h.1
  | cons a l ih =>
    rw [State.eachOf_cons]
    have hrec : (s.sendOrder a).orderRecord = r := by
      rw [← hr]; simp only [State.orderRecord, State.sendOrder_order]
    refine ih hrec ?_
    obtain h | ⟨hmem, hup⟩ := h
    · exact .inl (State.sendOrder_stays a s _ h)
    · by_cases hpa : p = a
      · subst hpa
        exact .inl (hr ▸ State.sendOrder_sent hup)
      · refine .inr ⟨(List.mem_cons.1 hmem).resolve_left hpa, ?_⟩
        rw [State.sendOrder_state, if_neg fun h => hpa h.1]
        exact hup

theorem State.orderRecord_quiet {s : State} (h : policyOf s.rules? = .quiet) : s.orderRecord = .quiet := by
  have hno : ¬ s.order.isSome = true := fun ho => (State.order_isSome.1 ho).2 h
  unfold State.orderRecord
  cases ho : s.order with
  | none => rfl
  | some level => exact absurd (by rw [ho]; rfl) hno

/-- A QUIET verdict published sends QUIET to every listening port (R15). -/
theorem State.published_sends_quiet {new : Option VerdictZone} {s : State} (cause : ZoneCause) (d : Option Nat)
    (hnew : policyOf (new.map (·.rules)) = .quiet) (hrun : s.mli.device = .running) {p : Fin 6}
    (hup : (s.port p).state ≠ .down) : Sent.toHead p .quiet ∈ (s.published new cause d).sent := by
  unfold State.published
  generalize hn : Notice.zoneChanged _ _ _ _ _ _ _ = n
  generalize hu : (s.onTracker fun t => { t with verdict := new }).raise n = u
  have hradio : u.radio = { s.radio with verdict := new } := by
    rw [← hu, State.radio_of_standing (State.raise_standing _ _)]
    rfl
  have hrunning : u.running = true := by
    have hdev : u.mli.device = .running := (congrArg Radio.device hradio).trans hrun
    simp [State.running, hdev]
  have hrules : u.rules? = new.map (·.rules) := congrArg (fun r => r.verdict.map (·.rules)) hradio
  have hport : (u.port p).state ≠ .down := (congrFun (congrArg Radio.ports hradio) p).trans_ne hup
  unfold State.sendOrders
  rw [if_pos hrunning]
  exact State.sendOrderEach_sent allPorts (State.orderRecord_quiet (by rw [hrules, hnew])) (.inr ⟨mem_allPorts p, hport⟩)

/-! ### One entry rests -/

theorem State.freeBearers_frame (h : Nat) (s : State) :
    s.freeBearers h = { s with table := (s.onEntry h fun e => { e with bearers := [] }).table,
                               router := (s.freeBearers h).router } := by
  unfold State.freeBearers
  cases he : s.entry? h with
  | none =>
    have hid : s.onEntry h (fun e => { e with bearers := [] }) = s :=
      (State.onEntry_congr fun e h => nomatch he.symm.trans h).trans (State.onEntry_id h s)
    rw [hid]
  | some e => rfl

/-- An entry comes to rest touching the table, the bearers' count and what its closure touches. -/
theorem State.rest_frame (h : Nat) (s : State) : s.rest h =
    { s with table := (s.rest h).table, router := (s.rest h).router, rtu := (s.rest h).rtu, rsc := (s.rest h).rsc,
             mli := (s.rest h).mli } := by
  unfold State.rest
  split
  · rfl
  · split
    · rfl
    · dsimp only
      rw [State.freeBearers_frame, State.closePeriod_frame]
      rfl

/-- An entry at rest from `now` (R17, R18, R130), its closure queued or waiting. -/
def Entry.rested (queued : Bool) (now expiry : Nat) (e : Entry) : Entry :=
  { e.closed queued with
    bearers := [], reg := .resting, portLost := none, retention := some expiry,
    paused := if e.serving.isSome then some (e.nextDue.getD 0 - now) else none, nextDue := none }

/-- A closure leaves all of its entry but the period and the closing flag. -/
theorem Entry.closed_eq (q : Bool) (e : Entry) :
    e.closed q = { e with period := (e.closed q).period, closing := (e.closed q).closing } := by
  unfold Entry.closed
  split
  · split <;> rfl
  · rfl

/-- After a closure no period stands unfrozen. -/
theorem Entry.closed_period (q : Bool) (e : Entry) : (e.closed q).period = none ∨ (e.closed q).closing = true := by
  unfold Entry.closed
  cases hp : e.period <;> cases hc : e.closing <;> cases q <;> simp [hp, hc]

theorem State.rest_entry? {h : Nat} {e : Entry} {s : State} (he : s.entry? h = some e) (hno : e.reg ≠ .resting) :
    (s.rest h).entry? h =
      some (e.rested s.queueOpen s.mli.clock (s.mli.clock + s.tracker.retentionTime * 60000)) := by
  have hclock : (s.closePeriod .quiet h).mli.clock = s.mli.clock :=
    State.clock_of_standing (State.closePeriod_standing .quiet h s)
  have htracker : (s.closePeriod .quiet h).tracker = s.tracker := by rw [State.closePeriod_frame]
  have hclosed : (s.closePeriod .quiet h).entry? h = some (e.closed s.queueOpen) := by
    rw [State.closePeriod_entry?, if_pos rfl, he]; rfl
  generalize hu : s.closePeriod .quiet h = u at hclock htracker hclosed
  have hfree : (u.freeBearers h).entry? h = some { e.closed s.queueOpen with bearers := [] } := by
    have hf := congrArg (fun x => x.entry? h) (State.freeBearers_frame h u)
    refine hf.trans ((State.entry?_onEntry h h _ u).trans ?_)
    rw [if_pos rfl, hclosed]; rfl
  have hnow : (u.freeBearers h).mli.clock = s.mli.clock := by rw [State.freeBearers_frame]; exact hclock
  have hret : (u.freeBearers h).tracker = s.tracker := by rw [State.freeBearers_frame]; exact htracker
  unfold State.rest
  rw [he]
  simp only [hno, if_false, hu, State.now, hnow, hret, State.entry?_onEntry, if_true, hfree, Option.map_some]
  rw [Entry.rested, Entry.closed_eq]

end Sys2Proof.Machine
end

