-- ==== Sys2Proof/Proofs/QuietVerdict.lean ====
section
/-! SUPPORT. The statement about the quiet entry. -/

namespace Sys2Proof.Machine

/-- A verdict that goes from REDUCED or FULL to QUIET is published, the entries rest, and selection is worked out. -/
theorem State.changeVerdict_rests {new : Option VerdictZone} {s : State} (cause : ZoneCause) (d : Option Nat)
    (hold : policyOf s.rules? ≠ .quiet) (hnew : policyOf (new.map (·.rules)) = .quiet) :
    s.changeVerdict new cause d = ((s.published new cause d).eachEntry State.rest).workOut := by
  rw [State.changeVerdict_eq, State.entriesFollow, if_pos hnew, if_neg hold]

theorem State.published_clock (new : Option VerdictZone) (cause : ZoneCause) (d : Option Nat) (s : State) :
    (s.published new cause d).mli.clock = s.mli.clock := by
  rw [State.published, State.sendOrders_mli, State.clock_of_standing (State.raise_standing _ _)]
  rfl

theorem State.published_entry? (new : Option VerdictZone) (cause : ZoneCause) (d : Option Nat) (h : Nat) (s : State) :
    (s.published new cause d).entry? h = s.entry? h := by
  rw [State.published_frame]; rfl

theorem State.published_handles (new : Option VerdictZone) (cause : ZoneCause) (d : Option Nat) (s : State) :
    (s.published new cause d).handles = s.handles := by
  rw [State.published_frame]; rfl

theorem State.eachEntry_rest_frame (s : State) : s.eachEntry State.rest =
    { s with table := (s.eachEntry State.rest).table, router := (s.eachEntry State.rest).router,
             rtu := (s.eachEntry State.rest).rtu, rsc := (s.eachEntry State.rest).rsc,
             mli := (s.eachEntry State.rest).mli } :=
  State.eachOf_keeps (P := fun u => u = { s with table := u.table, router := u.router, rtu := u.rtu, rsc := u.rsc, mli := u.mli })
    s.handles (fun h _ u hu => by rw [State.rest_frame, hu]) rfl

/-- What the quiet entry makes of one entry (R17, R18, R130): one already RESTING stays; any other rests from now. -/
theorem State.eachEntry_rest_entry? {s : State} (hnd : s.handles.Nodup) {h : Nat} {e : Entry} (he : s.entry? h = some e) :
    (e.reg = .resting → (s.eachEntry State.rest).entry? h = some e) ∧
    (e.reg ≠ .resting → ∃ q, (s.eachEntry State.rest).entry? h =
      some (e.rested q s.mli.clock (s.mli.clock + s.tracker.retentionTime * 60000))) := by
  have hkeep : ∀ j, j ≠ h → ∀ u : State, (u.rest j).entry? h = u.entry? h ∧ (u.rest j).mli.clock = u.mli.clock ∧
      (u.rest j).tracker = u.tracker := fun j hj u =>
    ⟨(u.rest_concerns j).others h (Ne.symm hj), State.clock_of_standing (State.rest_standing j u), by rw [State.rest_frame]⟩
  have hturn := fun Q : State → Prop => State.eachEntry_turn (f := State.rest) (h := h)
    (P := fun u => u.entry? h = some e ∧ u.mli.clock = s.mli.clock ∧ u.tracker = s.tracker) (Q := Q) hnd
    (State.mem_handles he) (fun j hj u hu => by
      obtain ⟨hentry, hclock, htracker⟩ := hkeep j hj u
      rw [hentry, hclock, htracker]; exact hu)
  refine ⟨fun hrest => ?_, fun hno => ?_⟩
  · refine hturn (fun u => u.entry? h = some e) (fun u hu => ?_) (fun j hj u hu => (hkeep j hj u).1.trans hu) ⟨he, rfl, rfl⟩
    simp only [State.rest, hu.1, hrest, if_true]
  · refine hturn (fun u => ∃ q, u.entry? h =
      some (e.rested q s.mli.clock (s.mli.clock + s.tracker.retentionTime * 60000))) (fun u hu => ?_) (fun j hj u hu => by rwa [(hkeep j hj u).1])
      ⟨he, rfl, rfl⟩
    obtain ⟨hentry, hclock, htracker⟩ := hu
    refine ⟨u.queueOpen, ?_⟩
    rw [State.rest_entry? hentry hno, hclock, htracker]

theorem State.eachEntry_rest_handles (s : State) : (s.eachEntry State.rest).handles = s.handles :=
  State.eachOf_keeps (P := fun u => u.handles = s.handles) s.handles
    (fun h _ u hu => (State.rest_concerns h u).handles.trans hu) rfl

theorem State.workOut_entry? (h : Nat) (s : State) : s.workOut.entry? h = s.entry? h := by
  rw [State.workOut_frame]; rfl

/-- The quiet entry, whole (R15, R17, R18, R130). -/
theorem State.changeVerdict_rests_effects {c : VerdictZone} {s : State} (cause : ZoneCause) (d : Option Nat)
    (hnd : s.handles.Nodup) (hrun : s.mli.device = .running) (hold : policyOf s.rules? ≠ .quiet)
    (hquiet : c.rules.policy = .quiet) :
    (s.changeVerdict (some c) cause d).handles = s.handles ∧
    (∀ h e, s.entry? h = some e →
      (e.reg = .resting → (s.changeVerdict (some c) cause d).entry? h = some e) ∧
      (e.reg ≠ .resting → ∃ q, (s.changeVerdict (some c) cause d).entry? h =
        some (e.rested q s.mli.clock (s.mli.clock + s.tracker.retentionTime * 60000)))) ∧
    (∀ p, (s.port p).state ≠ .down → ((s.changeVerdict (some c) cause d).port p).state = .quiet ∧
      Sent.toHead p .quiet ∈ (s.changeVerdict (some c) cause d).sent) ∧
    (s.changeVerdict (some c) cause d).rge = s.rge := by
  have hnew : policyOf ((some c).map (·.rules)) = .quiet := hquiet
  have hports := State.radio_of_standing (State.changeVerdict_standing (some c) cause d s)
  rw [State.changeVerdict_rests cause d hold hnew] at hports ⊢
  have hVnd : (s.published (some c) cause d).handles.Nodup := by rw [State.published_handles]; exact hnd
  refine ⟨?handles, fun h e he => ?entries, fun p hup => ⟨?port, ?sent⟩, ?engine⟩
  case handles =>
    have hw : ∀ u : State, u.workOut.handles = u.handles := fun u => by rw [State.workOut_frame]; rfl
    rw [hw, State.eachEntry_rest_handles, State.published_handles]
  case entries =>
    rw [State.workOut_entry?]
    have hround := State.eachEntry_rest_entry? hVnd ((State.published_entry? (some c) cause d h s).trans he)
    rwa [State.published_clock, State.published_tracker] at hround
  case port =>
    exact (congrFun (congrArg Radio.ports hports) p).trans (State.published_ports_quiet cause d hnew hrun p hup)
  case sent =>
    refine State.workOut_stays _ _ ?_
    rw [State.eachEntry_rest_frame]
    exact State.published_sends_quiet cause d hnew hrun hup
  case engine => rw [State.workOut_frame, State.eachEntry_rest_frame, State.published_frame]

theorem Policy.rank_quiet {a b : Policy} (ha : a = .quiet) (hb : b ≠ .quiet) : policyRank a < policyRank b := by
  subst ha
  cases b with
  | quiet => exact absurd rfl hb
  | reduced => decide
  | full => decide

/-- Settles O16: the fix moves the verdict to the stricter zone, QUIET goes out, and each entry rests in its turn. -/
theorem quietEntryRestsTheEntries : Obligations.QuietEntryRestsTheEntries := by
  unfold Obligations.QuietEntryRestsTheEntries
  intro s tag d q v c hs hrun hnd hq hz hd hv hc hne hquiet hloud
  have hexec := exec_fix_onRoute (q := q) (tag := tag) hs hrun hz hd
  obtain ⟨g, hg, hfix, -, -⟩ := State.takeFix_stricter
    (s := (s.joined (.fix ⟨tag, some ⟨d, q⟩⟩)).runningFix q d) (v := v) (c := c) hq rfl (if_neg hq) hv hc hne
    (Policy.rank_quiet hquiet hloud)
  have hold : policyOf s.rules? ≠ .quiet := by
    have hr : s.rules? = some v.rules := by simp [State.rules?, hv]
    rw [hr]; exact hloud
  obtain ⟨hhandles, hentries, hports, hengine⟩ := State.changeVerdict_rests_effects (c := c)
    (s := (s.joined (.fix ⟨tag, some ⟨d, q⟩⟩)).runningFix q d) .stricter (some d) hnd hrun hold hquiet
  have hverdict := congrArg Tracker.verdict (State.changeVerdict_tracker (some c) .stricter (some d)
    ((s.joined (.fix ⟨tag, some ⟨d, q⟩⟩)).runningFix q d))
  rw [hfix] at hexec
  generalize State.changeVerdict (some c) .stricter (some d) _ = w at *
  refine ⟨_, hexec, ((hg _).2).trans hverdict, hhandles, fun h e he => ?_, hports, congrArg Rge.inFlight hengine⟩
  obtain ⟨hrest, hno⟩ := hentries h e he
  by_cases hreg : e.reg = .resting
  · exact ⟨e, hrest hreg, fun _ => rfl, fun h => absurd hreg h⟩
  · obtain ⟨queued, hentry⟩ := hno hreg
    refine ⟨_, hentry, fun h => absurd h hreg, fun _ => ?_⟩
    have hp := Entry.closed_period queued e
    rw [Entry.rested, Entry.closed_eq]
    refine ⟨rfl, rfl, rfl, rfl, rfl, rfl, rfl, rfl, rfl, fun i due hi hdue => ?_, fun hn => ?_, hp⟩
    · simp only [hi, hdue, Option.isSome_some, if_true, Option.getD_some]
      rfl
    · simp [hn]

end Sys2Proof.Machine
end

