-- ==== Sys2Proof/Proofs/Rotation.lean ====
section
/-! SUPPORT. What a change of verdict to REDUCED or FULL makes of each entry's period and registration (R134, R135, R146,
R152). -/

namespace Sys2Proof.Machine

/-! ### Questions that what stands answers -/

section Questions
variable {s t : State} (h : t.standing = s.standing)
include h

theorem State.verdict_of_standing : t.tracker.verdict = s.tracker.verdict := congrArg (fun x => x.radio.verdict) h

theorem State.rules_of_standing : t.rules? = s.rules? := by
  rw [State.rules?, State.verdict_of_standing h, State.rules?]

theorem State.partner_of_standing : t.partner? = s.partner? := by
  have hp : t.rge.partners = s.rge.partners := congrArg (fun x => x.settings.partners.partners) h
  funext i
  simp only [State.partner?, hp]

theorem State.eligible_of_standing : t.eligible = s.eligible := by
  funext home r i
  simp only [State.eligible, State.partner_of_standing h]

theorem State.chosen_of_standing : t.chosen = s.chosen := by
  funext home
  simp only [State.chosen, State.rules_of_standing h, State.eligible_of_standing h]

theorem State.servingEligible_of_standing (e : Entry) : t.servingEligible e = s.servingEligible e := by
  simp only [State.servingEligible, State.rules_of_standing h, State.eligible_of_standing h]

theorem State.shipTime_of_standing : t.mli.shipTime = s.mli.shipTime := congrArg (fun x => x.clocks.2) h

theorem State.periodFor_of_standing (e : Entry) : t.periodFor? e = s.periodFor? e := by
  have hbilling : t.mli.billing = s.mli.billing := congrArg (fun x => x.settings.billing) h
  have hactive : t.rtu.active = s.rtu.active := congrArg (fun x => x.settings.banks.active) h
  have hnew : t.newPeriod = s.newPeriod := by
    funext v p i plan
    simp only [State.newPeriod, State.shipTime_of_standing h, State.clock_of_standing h, hbilling]
  simp only [State.periodFor?, State.verdict_of_standing h, State.partner_of_standing h, hactive, hnew]

theorem State.closureRecord_of_standing (e : Entry) (p : Period) (r : CloseReason) (delayed : Bool) :
    t.closureRecord e p r delayed = s.closureRecord e p r delayed := by
  simp only [State.closureRecord, State.shipTime_of_standing h]

end Questions

/-- The period an entry would open depends on its serving partner alone. -/
theorem State.periodFor_congr {s : State} {a b : Entry} (h : a.serving = b.serving) : s.periodFor? a = s.periodFor? b := by
  simp only [State.periodFor?, h]

/-! ### What another entry's turn leaves of an entry -/

/-- Entry `h`, its exchanges and its closures are in `t` as in `s`, and so is what stands. -/
structure State.sparesEntry (h : Nat) (s t : State) : Prop where
  entry : t.entry? h = s.entry? h
  stands : t.standing = s.standing
  exchanges : ∀ x : Exchange, x.handle = h → (x ∈ t.rge.inFlight ↔ x ∈ s.rge.inFlight)
  closures : ∀ r ∈ s.closures, r ∈ t.closures
  waits : ∀ w ∈ s.rtu.waitList, w.handle = h → (s.life? w.handle w.attach).isSome = true → w ∈ t.rtu.waitList

theorem State.sparesEntry.refl (h : Nat) (s : State) : s.sparesEntry h s :=
  ⟨rfl, rfl, fun _ _ => Iff.rfl, fun _ hr => hr, fun _ hw _ _ => hw⟩

theorem State.sparesEntry.trans {h : Nat} {s t u : State} (hst : s.sparesEntry h t) (htu : t.sparesEntry h u) :
    s.sparesEntry h u where
  entry := htu.entry.trans hst.entry
  stands := htu.stands.trans hst.stands
  exchanges x hx := (htu.exchanges x hx).trans (hst.exchanges x hx)
  closures r hr := htu.closures r (hst.closures r hr)
  waits w hw hh hl := by
    refine htu.waits w (hst.waits w hw hh hl) hh ?_
    rw [State.life?_isSome, hh, hst.entry, ← hh, ← State.life?_isSome]
    exact hl

theorem State.concerns.sparesEntry {h j : Nat} {s t : State} (hst : s.concerns j t) (hj : j ≠ h)
    (hstands : t.standing = s.standing) : s.sparesEntry h t where
  entry := hst.others h (Ne.symm hj)
  stands := hstands
  exchanges x hx := hst.exchanges x (fun hxj => hj (hxj.symm.trans hx))
  closures := hst.closures
  waits w hw _ hl := hst.waits w hw hl

/-! ### One period -/

/-- What the change of verdict to zone `c` makes of an unfrozen period whose partner serves on (R146, R152): it stays, or it
closes with reason ZONE, its closure queued and a period opened in its place, or waiting. -/
def State.periodTurned (s : State) (c : VerdictZone) (h : Nat) (e e' : Entry) (t : State) : Prop :=
  ∀ p i, e.period = some p → e.closing = false → e.serving = some i → s.eligible e.home c.rules i = true →
    let differs := p.tariffClass ≠ c.rules.tariffClass ∨ p.jurisdiction ≠ c.rules.jurisdiction
    (¬ differs → e'.period = some p ∧ e'.closing = false) ∧
    (differs →
      (e'.closing = false ∧ e'.period = (if e.qualifies then t.periodFor? e' else none) ∧
        ∃ r ∈ t.rtu.closeQueue, { r with serial := none } = s.closureRecord e p .zone false) ∨
      (e'.closing = true ∧ e'.period = some p ∧
        ⟨h, e.attach, s.closureRecord e p .zone true⟩ ∈ t.rtu.waitList))

/-- A record is in the close queue, its serial apart. -/
theorem State.mem_closures {s : State} {x : ChargeRecord} :
    x ∈ s.closures ↔ ∃ r ∈ s.rtu.closeQueue, { r with serial := none } = x := List.mem_map

/-- What the entry's own turn made of its period, later turns leave, and so do changes of the rest of its entry. -/
theorem State.periodTurned.mono {s t t' : State} {c : VerdictZone} {h : Nat} {e e' e'' : Entry}
    (hturned : s.periodTurned c h e e' t) (hstands : t'.standing = t.standing)
    (hclosures : ∀ r ∈ t.closures, r ∈ t'.closures)
    (hwaits : ∀ w ∈ t.rtu.waitList, w.handle = h → w.attach = e.attach → w ∈ t'.rtu.waitList)
    (hperiod : e''.period = e'.period) (hclosing : e''.closing = e'.closing) (hserving : e''.serving = e'.serving) :
    s.periodTurned c h e e'' t' := by
  intro p i hp hc hi hel
  obtain ⟨hsame, hdiff⟩ := hturned p i hp hc hi hel
  refine ⟨fun hno => by rw [hperiod, hclosing]; exact hsame hno, fun hyes => ?_⟩
  rw [hperiod, hclosing, State.periodFor_of_standing hstands, State.periodFor_congr hserving]
  obtain ⟨hcl, hpd, hmem⟩ | ⟨hcl, hpd, hmem⟩ := hdiff hyes
  · exact .inl ⟨hcl, hpd, State.mem_closures.1 (hclosures _ (State.mem_closures.2 hmem))⟩
  · exact .inr ⟨hcl, hpd, hwaits _ hmem rfl rfl⟩

/-- An entry with its period and closing flag changed at most. -/
def Entry.samePeriodApart (e e' : Entry) : Prop := e' = { e with period := e'.period, closing := e'.closing }

theorem State.openPeriod_entry? {h : Nat} {e : Entry} {s : State} (he : s.entry? h = some e) (hp : e.period = none)
    (hc : e.closing = false) (hwork : s.mli.work = none) :
    (s.openPeriod h).entry? h = some { e with period := if e.qualifies then s.periodFor? e else none } := by
  have hcond : (e.qualifies && e.period.isNone && !e.closing && !s.openingStopped) = e.qualifies := by
    simp [hp, hc, State.openingStopped, hwork]
  have hsame : some e = some { e with period := none } := by rw [← hp]
  unfold State.openPeriod
  rw [he]
  dsimp only
  rw [hcond]
  cases hq : e.qualifies with
  | false => exact he.trans hsame
  | true =>
    simp only [if_true]
    cases hpf : s.periodFor? e with
    | none => exact he.trans hsame
    | some p =>
      dsimp only
      refine (State.entry?_onEntry h h _ s).trans ?_
      rw [if_pos rfl, he]; rfl

theorem State.openPeriod_frozen {h : Nat} {e : Entry} {s : State} (he : s.entry? h = some e) (hc : e.closing = true) :
    s.openPeriod h = s := by
  simp [State.openPeriod, he, hc]

theorem State.servingEligible_iff {e : Entry} {s : State} :
    s.servingEligible e = true ↔ ∃ r i, s.rules? = some r ∧ e.serving = some i ∧ s.eligible e.home r i = true := by
  unfold State.servingEligible
  cases s.rules? <;> cases e.serving <;> simp

/-- Whether the period of an entry is to be rotated under the rules `r` (R152). -/
def State.rotates (s : State) (r : ZoneRules) (e : Entry) (p : Period) : Prop :=
  e.closing = false ∧ s.servingEligible e = true ∧
    (p.tariffClass ≠ r.tariffClass ∨ p.jurisdiction ≠ r.jurisdiction)

theorem State.rotatePeriod_rotates {h : Nat} {e : Entry} {p : Period} {r : ZoneRules} {s : State}
    (he : s.entry? h = some e) (hr : s.rules? = some r) (hp : e.period = some p) (hrot : s.rotates r e p) :
    s.rotatePeriod h = (s.closePeriod .zone h).openPeriod h := by
  obtain ⟨hc, hse, hdiff⟩ := hrot
  have hdiff' : (r.tariffClass != p.tariffClass || r.jurisdiction != p.jurisdiction) = true := by
    rw [Bool.or_eq_true, bne_iff_ne, bne_iff_ne]
    exact hdiff.imp Ne.symm Ne.symm
  simp only [State.rotatePeriod, he, hr, hp, hc, hse, hdiff', Bool.not_false, Bool.and_self, if_true]

theorem State.rotatePeriod_stays {h : Nat} {e : Entry} {r : ZoneRules} {s : State}
    (he : s.entry? h = some e) (hr : s.rules? = some r) (hno : ∀ p, e.period = some p → ¬ s.rotates r e p) :
    s.rotatePeriod h = s := by
  simp only [State.rotatePeriod, he, hr]
  cases hp : e.period with
  | none => rfl
  | some p =>
    refine if_neg fun hcond => hno p hp ?_
    simp only [Bool.and_eq_true, Bool.not_eq_true', Bool.or_eq_true, bne_iff_ne] at hcond
    exact ⟨hcond.1.1, hcond.1.2, hcond.2.imp Ne.symm Ne.symm⟩

/-- The period that a rotation opens in the place of one whose closure is queued (R152, R154). -/
theorem State.rotatePeriod_queued {h : Nat} {e : Entry} {p : Period} {s : State}
    (he : s.entry? h = some e) (hp : e.period = some p) (hc : e.closing = false) (hwork : s.mli.work = none)
    (hq : s.queueOpen = true) : ∃ e', ((s.closePeriod .zone h).openPeriod h).entry? h = some e' ∧ e.samePeriodApart e' ∧
      e'.closing = false ∧
      e'.period = (if e.qualifies then ((s.closePeriod .zone h).openPeriod h).periodFor? e' else none) ∧
      s.closureRecord e p .zone false ∈ ((s.closePeriod .zone h).openPeriod h).closures := by
  have hclosed : (s.closePeriod .zone h).entry? h = some { e with period := none } := by
    rw [State.closePeriod_entry?, if_pos rfl, he, hq]
    simp [Entry.closed, hp, hc]
  have hwork' : (s.closePeriod .zone h).mli.work = none :=
    (congrArg Kept.work (State.closePeriod_kept .zone h s)).trans hwork
  refine ⟨_, State.openPeriod_entry? hclosed rfl hc hwork', rfl, hc, ?_, (State.openPeriod_concerns h _).closures _ ?_⟩
  · rw [State.periodFor_of_standing (State.openPeriod_standing h _)]
    rfl
  · rw [State.closePeriod_unfrozen he hp hc, if_pos hq, State.enqueueClosure_closures]
    exact List.mem_append_right _ List.mem_cons_self

/-- What a rotation makes of its entry (R152). -/
theorem State.rotatePeriod_turns {c : VerdictZone} {h : Nat} {e : Entry} {s : State} (he : s.entry? h = some e)
    (hv : s.tracker.verdict = some c) (hwork : s.mli.work = none) :
    ∃ e', (s.rotatePeriod h).entry? h = some e' ∧ e.samePeriodApart e' ∧ (e.period = none → e' = e) ∧
      s.periodTurned c h e e' (s.rotatePeriod h) := by
  have hrules : s.rules? = some c.rules := by simp [State.rules?, hv]
  by_cases hrot : ∃ p, e.period = some p ∧ s.rotates c.rules e p
  case neg =>
    rw [State.rotatePeriod_stays he hrules fun p hp hyes => hrot ⟨p, hp, hyes⟩]
    refine ⟨e, he, rfl, fun _ => rfl, fun p i hp hc hi hel => ⟨fun _ => ⟨hp, hc⟩, fun hyes => absurd ?_ hrot⟩⟩
    exact ⟨p, hp, hc, State.servingEligible_iff.2 ⟨c.rules, i, hrules, hi, hel⟩, hyes⟩
  case pos =>
    obtain ⟨p, hp, hyes⟩ := hrot
    rw [State.rotatePeriod_rotates he hrules hp hyes]
    obtain ⟨hc, hse, hdiff⟩ := hyes
    have hdiffers : ∀ p', e.period = some p' → p' = p := fun p' hp' => Option.some.inj (hp'.symm.trans hp)
    cases hq : s.queueOpen with
    | true =>
      obtain ⟨e', he', hsame, hcl, hpd, hmem⟩ := State.rotatePeriod_queued he hp hc hwork hq
      refine ⟨e', he', hsame, fun hn => absurd (hn.symm.trans hp) (by simp), fun p' i hp' _ _ _ => ?_⟩
      obtain rfl := hdiffers p' hp'
      exact ⟨fun hno => absurd hdiff hno, fun _ => .inl ⟨hcl, hpd, State.mem_closures.1 hmem⟩⟩
    | false =>
      have hclosed : (s.closePeriod .zone h).entry? h = some { e with closing := true } := by
        rw [State.closePeriod_entry?, if_pos rfl, he, hq]
        simp [Entry.closed, hp, hc]
      rw [State.openPeriod_frozen hclosed rfl]
      refine ⟨_, hclosed, rfl, fun hn => absurd (hn.symm.trans hp) (by simp), fun p' i hp' _ _ _ => ?_⟩
      obtain rfl := hdiffers p' hp'
      refine ⟨fun hno => absurd hdiff hno, fun _ => .inr ⟨rfl, hp, ?_⟩⟩
      rw [State.closePeriod_unfrozen he hp hc, hq, if_neg Bool.false_ne_true, State.delayClosure_waitList]
      exact List.mem_append_right _ List.mem_cons_self

/-! ### The round of rotations -/

theorem State.rotatePeriod_rge (h : Nat) (s : State) : (s.rotatePeriod h).rge = s.rge := by
  have hopen : ∀ u : State, (u.openPeriod h).rge = u.rge := fun u => by
    unfold State.openPeriod
    split
    · rfl
    · split
      · split <;> rfl
      · rfl
  unfold State.rotatePeriod
  split
  · split
    · rfl
    · split
      · rw [hopen, State.closePeriod_frame]
      · rfl
  · rfl

theorem State.eachEntry_rotate_standing (s : State) : (s.eachEntry State.rotatePeriod).standing = s.standing :=
  State.eachEntry_standing _ (fun h u => State.rotatePeriod_standing h u) s

theorem State.eachEntry_rotate_rge (s : State) : (s.eachEntry State.rotatePeriod).rge = s.rge :=
  State.eachOf_keeps (P := fun u => u.rge = s.rge) s.handles (fun h _ u hu => (State.rotatePeriod_rge h u).trans hu) rfl

theorem State.eachEntry_rotate_handles (s : State) : (s.eachEntry State.rotatePeriod).handles = s.handles :=
  State.eachOf_keeps (P := fun u => u.handles = s.handles) s.handles
    (fun h _ u hu => (State.rotatePeriod_concerns h u).handles.trans hu) rfl

/-- What the round of rotations makes of one entry. -/
theorem State.eachEntry_rotate_turns {c : VerdictZone} {h : Nat} {e : Entry} {s : State} (hnd : s.handles.Nodup)
    (he : s.entry? h = some e) (hv : s.tracker.verdict = some c) (hwork : s.mli.work = none) :
    ∃ e', (s.eachEntry State.rotatePeriod).entry? h = some e' ∧ e.samePeriodApart e' ∧ (e.period = none → e' = e) ∧
      s.periodTurned c h e e' (s.eachEntry State.rotatePeriod) := by
  refine State.eachEntry_turn (f := State.rotatePeriod)
    (P := fun u => u.entry? h = some e ∧ u.standing = s.standing ∧ u.mli.work = none)
    (Q := fun u => ∃ e', u.entry? h = some e' ∧ e.samePeriodApart e' ∧ (e.period = none → e' = e) ∧
      s.periodTurned c h e e' u) hnd (State.mem_handles he) ?before ?turn ?after ⟨he, rfl, hwork⟩
  case before =>
    rintro j hj u ⟨hentry, hstands, hidle⟩
    refine ⟨((State.rotatePeriod_concerns j u).others h (Ne.symm hj)).trans hentry,
      (State.rotatePeriod_standing j u).trans hstands, ?_⟩
    exact (congrArg Kept.work (State.rotatePeriod_kept j u)).trans hidle
  case turn =>
    rintro u ⟨hentry, hstands, hidle⟩
    obtain ⟨e', he', hsame, hnone, hturned⟩ := State.rotatePeriod_turns (c := c) hentry
      ((State.verdict_of_standing hstands).trans hv) hidle
    refine ⟨e', he', hsame, hnone, fun p i hp hc hi hel => ?_⟩
    have ht := hturned p i hp hc hi (by rw [State.eligible_of_standing hstands]; exact hel)
    simp only [State.closureRecord_of_standing hstands] at ht
    exact ht
  case after =>
    rintro j hj u ⟨e', he', hsame, hnone, hturned⟩
    have hspare := (State.rotatePeriod_concerns j u).sparesEntry hj (State.rotatePeriod_standing j u)
    refine ⟨e', hspare.entry.trans he', hsame, hnone, hturned.mono hspare.stands hspare.closures (fun w hw hh ha => ?_)
      rfl rfl rfl⟩
    refine hspare.waits w hw hh ?_
    rw [State.life?_isSome, hh, he', ha, hsame]
    rfl

end Sys2Proof.Machine
end

