-- ==== Sys2Proof/Proofs/MoveCheck.lean ====
section
/-! SUPPORT. The check of each registration at a change of verdict to REDUCED or FULL (R134, R135). -/

namespace Sys2Proof.Machine

/-! ### The check, case by case -/

/-- The move of an entry ends where it began: it is SERVED again (R134). -/
def State.cancelMove (h : Nat) (s : State) : State :=
  ((s.onEntry h fun e => { e with reg := .served, candidate := none }).dropRegAsk h none).countRge fun c =>
    { c with movesCancelled := bump32 c.movesCancelled }

/-- An entry takes a candidate, and the REG-ASKs to any other go (R134, R135). -/
def State.retarget (h : Nat) (c : Nat × Nat) (s : State) : State :=
  (s.onEntry h fun e => { e with candidate := some c }).dropRegAsk h (some c.1)

section Cases
variable {s : State} {h : Nat} {e : Entry} (he : s.entry? h = some e)
include he

theorem State.moveCheck_void (hreg : e.reg = .served ∨ e.reg = .moving) (hel : s.servingEligible e = false) :
    s.moveCheck h = s.voidRegistration h := by
  obtain hreg | hreg := hreg <;> simp [State.moveCheck, he, hreg, hel]

theorem State.moveCheck_served (hreg : e.reg = .served) (hel : s.servingEligible e = true) :
    s.moveCheck h = match s.chosen e.home with
      | some c => if e.serving = some c.1 then s else s.beginMove h c
      | none => s := by
  simp only [State.moveCheck, he, hreg, hel, Bool.not_true, Bool.false_eq_true, if_false] <;> rfl

theorem State.moveCheck_moving (hreg : e.reg = .moving) (hel : s.servingEligible e = true) :
    s.moveCheck h = match s.chosen e.home with
      | some c =>
        if e.serving = some c.1 then s.cancelMove h
        else if e.candidate.map (·.1) = some c.1 then s else s.retarget h c
      | none => s.cancelMove h := by
  simp only [State.moveCheck, he, hreg, hel, Bool.not_true, Bool.false_eq_true, if_false] <;> rfl

theorem State.moveCheck_registering (hreg : e.reg = .registering) :
    s.moveCheck h = match s.chosen e.home with
      | some c => if e.candidate.map (·.1) = some c.1 then s else s.retarget h c
      | none => ((s.onEntry h fun e => { e with reg := .unroamed, candidate := none }).dropExchange h).sendLevel h .onboardOnly := by
  simp only [State.moveCheck, he, hreg] <;> rfl

theorem State.moveCheck_unroamed (hreg : e.reg = .unroamed) :
    s.moveCheck h = match s.chosen e.home with
      | some c => s.onEntry h fun e => { e with reg := .registering, candidate := some c }
      | none => s := by
  simp only [State.moveCheck, he, hreg] <;> rfl

theorem State.moveCheck_still (hreg : e.reg = .lapsed ∨ e.reg = .resting) : s.moveCheck h = s := by
  obtain hreg | hreg := hreg <;> simp [State.moveCheck, he, hreg]

/-- An entry changed by `f` reads as changed. -/
theorem State.entry?_onEntry_same (f : Entry → Entry) : (s.onEntry h f).entry? h = some (f e) := by
  rw [State.entry?_onEntry, if_pos rfl, he]; rfl

end Cases

theorem State.entry?_sendDereg (j h : Nat) (tok : Token) (i : Nat) (s : State) :
    (s.sendDereg h tok i).entry? j = s.entry? j := by
  rw [State.sendDereg_frame]; rfl

theorem State.entry?_sendLevel (j h : Nat) (level : ServeLevel) (s : State) : (s.sendLevel h level).entry? j = s.entry? j := by
  rw [State.sendLevel_frame]; rfl

/-- The registration is lost: the DEREG goes, the entry's exchanges leave, and nothing names its partner (R134). -/
def State.unregister (h : Nat) (e : Entry) (s : State) : State :=
  (((match e.serving with
    | some i => s.sendDereg h e.token i
    | none => s).onEntry h fun e => { e.unregistered with candidate := none }).dropExchange h).countRge fun c =>
      { c with voids := bump32 c.voids }

theorem State.unregister_standing (h : Nat) (e : Entry) (s : State) : (s.unregister h e).standing = s.standing := by
  unfold State.unregister
  rw [State.countRge_standing, State.dropExchange_standing, State.onEntry_standing]
  split
  · exact State.sendDereg_standing ..
  · rfl

theorem State.unregister_entry? {h : Nat} {e x : Entry} {s : State} (hx : s.entry? h = some x) :
    (s.unregister h e).entry? h = some { x.unregistered with candidate := none } := by
  have hd : (match e.serving with
      | some i => s.sendDereg h e.token i
      | none => s).entry? h = some x := by
    split
    · rw [State.entry?_sendDereg]; exact hx
    · exact hx
  exact State.entry?_onEntry_same hd _

theorem State.voidRegistration_eq {h : Nat} {e : Entry} {s : State} (he : s.entry? h = some e) :
    s.voidRegistration h = match s.chosen e.home with
      | some c => ((s.closePeriod .partner h).unregister h e).onEntry h fun e =>
          { e with reg := .registering, candidate := some c }
      | none => (((s.closePeriod .partner h).unregister h e).onEntry h fun e => { e with reg := .unroamed }).sendLevel h
          .onboardOnly := by
  have hstands : ((s.closePeriod .partner h).unregister h e).standing = s.standing :=
    (State.unregister_standing h e _).trans (State.closePeriod_standing .partner h s)
  rw [← State.chosen_of_standing hstands]
  unfold State.voidRegistration
  rw [he]
  rfl

/-- What a void registration makes of its entry (R132, R134). -/
theorem State.voidRegistration_entry? {h : Nat} {e : Entry} {s : State} (he : s.entry? h = some e) :
    ∃ q, (s.voidRegistration h).entry? h = some { (e.closed q).unregistered with
      candidate := s.chosen e.home, reg := if s.chosen e.home = none then .unroamed else .registering } := by
  have hclosed : (s.closePeriod .partner h).entry? h = some (e.closed s.queueOpen) := by
    rw [State.closePeriod_entry?, if_pos rfl, he]; rfl
  have hlost := State.unregister_entry? (e := e) hclosed
  refine ⟨s.queueOpen, ?_⟩
  rw [State.voidRegistration_eq he]
  cases s.chosen e.home with
  | none =>
    dsimp only
    rw [State.entry?_sendLevel, State.entry?_onEntry_same hlost]
    rfl
  | some c =>
    dsimp only
    rw [State.entry?_onEntry_same hlost]
    rfl

/-! ### What the check makes of a registration -/

/-- What the change of verdict to zone `c` makes of the registration of a SERVED or MOVING entry (R134, R135). -/
def State.registrationTurned (s : State) (c : VerdictZone) (h : Nat) (e e' : Entry) (t : State) : Prop :=
  ∀ i, e.serving = some i → e.reg = .served ∨ e.reg = .moving →
    (s.eligible e.home c.rules i = true → e'.serving = some i ∧
      (e.reg = .served → (e'.reg, e'.candidate) = match t.chosen e.home with
        | some x => if x.1 = i then (.served, e.candidate) else (.moving, some x)
        | none => (.served, e.candidate)) ∧
      (e.reg = .moving →
        ((∀ x, t.chosen e.home = some x → x.1 = i) → e'.reg = .served ∧ e'.candidate = none ∧
          ∀ y ∈ t.rge.inFlight, y.handle = h → y.kind ≠ .regAsk) ∧
        (∀ x, t.chosen e.home = some x → x.1 ≠ i → e'.reg = .moving ∧
          (e.candidate.map (·.1) = some x.1 → e'.candidate = e.candidate ∧
            ∀ y ∈ s.rge.inFlight, y.handle = h → y ∈ t.rge.inFlight) ∧
          (e.candidate.map (·.1) ≠ some x.1 → e'.candidate = some x ∧
            ∀ y ∈ t.rge.inFlight, y.handle = h → y.kind = .regAsk → y.partner = x.1)))) ∧
    (s.eligible e.home c.rules i = false → e'.serving = none ∧ e'.candidate = t.chosen e.home ∧
      e'.reg = (if t.chosen e.home = none then .unroamed else .registering) ∧ e'.regTime = none ∧ e'.balance = 0 ∧
      e'.nextDue = none ∧ (e'.period = none ∨ e'.closing = true))

/-- What the change makes of an entry that was REGISTERING or UNROAMED (R135). -/
def State.candidateTurned (e e' : Entry) (t : State) : Prop :=
  e.reg = .registering ∨ e.reg = .unroamed →
    e'.reg = (if t.chosen e.home = none then .unroamed else .registering) ∧
    e'.candidate.map (·.1) = if e.reg = .unroamed ∧ t.chosen e.home = none then e.candidate.map (·.1)
      else (t.chosen e.home).map (·.1)

/-- The turns of other entries leave what the entry's own made of its registration. -/
theorem State.registrationTurned.spared {s t t' : State} {c : VerdictZone} {h : Nat} {e e' : Entry}
    (hturned : s.registrationTurned c h e e' t) (hspare : t.sparesEntry h t') : s.registrationTurned c h e e' t' := by
  intro i hi hreg
  obtain ⟨hyes, hno⟩ := hturned i hi hreg
  rw [State.chosen_of_standing hspare.stands]
  refine ⟨fun hel => ?_, hno⟩
  obtain ⟨hsame, hserved, hmoving⟩ := hyes hel
  refine ⟨hsame, hserved, fun hm => ?_⟩
  obtain ⟨hback, hon⟩ := hmoving hm
  refine ⟨fun hx => ?_, fun x hx hne => ?_⟩
  · obtain ⟨hr, hc, hask⟩ := hback hx
    exact ⟨hr, hc, fun y hy hh => hask y ((hspare.exchanges y hh).1 hy) hh⟩
  · obtain ⟨hr, hgoes, htakes⟩ := hon x hx hne
    refine ⟨hr, fun hc => ?_, fun hc => ?_⟩
    · obtain ⟨hcand, hstay⟩ := hgoes hc
      exact ⟨hcand, fun y hy hh => (hspare.exchanges y hh).2 (hstay y hy hh)⟩
    · obtain ⟨hcand, hask⟩ := htakes hc
      exact ⟨hcand, fun y hy hh => hask y ((hspare.exchanges y hh).1 hy) hh⟩

/-- What the check leaves of the entry's period, where its registration is not void. -/
def Entry.samePeriod (e e' : Entry) : Prop := e'.period = e.period ∧ e'.closing = e.closing ∧ e'.serving = e.serving

/-- The exchanges of an entry after REG-ASKs of it have gone. -/
theorem State.mem_dropRegAsk {h : Nat} {keep : Option Nat} {s : State} {y : Exchange} :
    y ∈ (s.dropRegAsk h keep).rge.inFlight ↔
      y ∈ s.rge.inFlight ∧ ¬ (y.handle = h ∧ y.kind = .regAsk ∧ keep ≠ some y.partner) := by
  simp only [State.dropRegAsk, State.onRge_rge, List.mem_filter, Bool.not_eq_true', Bool.and_eq_false_iff, beq_eq_false_iff_ne,
    bne_eq_false_iff_eq]
  tauto

/-- All that the check makes of entry `h`, `e` before and `e'` after. -/
structure State.checked (s : State) (c : VerdictZone) (h : Nat) (e e' : Entry) (t : State) : Prop where
  entry : t.entry? h = some e'
  registration : s.registrationTurned c h e e' t
  candidate : candidateTurned e e' t
  still : e.reg = .lapsed ∨ e.reg = .resting → e' = e
  period : s.servingEligible e = true → e.samePeriod e'

theorem State.servingEligible_eq {s : State} {c : VerdictZone} {e : Entry} {i : Nat} (hv : s.tracker.verdict = some c)
    (hi : e.serving = some i) : s.servingEligible e = s.eligible e.home c.rules i := by
  simp [State.servingEligible, State.rules?, hv, hi]

section Turn
variable {s : State} {c : VerdictZone} {h : Nat} {e : Entry} (he : s.entry? h = some e) (hv : s.tracker.verdict = some c)
include he hv

theorem State.moveCheck_turns_void (hreg : e.reg = .served ∨ e.reg = .moving) (hel : s.servingEligible e = false) :
    ∃ e', s.checked c h e e' (s.moveCheck h) := by
  have hchosen : (s.moveCheck h).chosen = s.chosen := State.chosen_of_standing (State.moveCheck_standing h s)
  obtain ⟨q, hq⟩ := State.voidRegistration_entry? he
  rw [← State.moveCheck_void he hreg hel] at hq
  refine ⟨_, hq, fun i hi _ => ?_, fun hr => ?_, fun hr => ?_, fun hyes => ?_⟩
  · rw [hchosen]
    refine ⟨fun hyes => ?_, fun _ => ⟨rfl, rfl, rfl, rfl, rfl, rfl, Entry.closed_period q e⟩⟩
    rw [State.servingEligible_eq hv hi, hyes] at hel
    cases hel
  · obtain hreg | hreg := hreg <;> rw [hreg] at hr <;> simp at hr
  · obtain hreg | hreg := hreg <;> rw [hreg] at hr <;> simp at hr
  · rw [hel] at hyes; cases hyes

/-- A SERVED entry whose partner serves on stays, or begins a move to its chosen partner (R134). -/
theorem State.moveCheck_turns_served (hreg : e.reg = .served) (hel : s.servingEligible e = true) :
    ∃ e', s.checked c h e e' (s.moveCheck h) := by
  have hchosen : (s.moveCheck h).chosen = s.chosen := State.chosen_of_standing (State.moveCheck_standing h s)
  have hno : ∀ i, e.serving = some i → s.eligible e.home c.rules i = true := fun i hi =>
    (State.servingEligible_eq hv hi).symm.trans hel
  have hstay : s.moveCheck h = s → (∀ i x, e.serving = some i → s.chosen e.home = some x → x.1 = i) →
      s.checked c h e e (s.moveCheck h) := fun hs hx => by
    refine ⟨by rw [hs]; exact he, fun i hi _ => ⟨fun _ => ⟨hi, fun _ => ?_, fun hm => ?_⟩, fun hf => ?_⟩,
      fun hr => ?_, fun _ => rfl, fun _ => ⟨rfl, rfl, rfl⟩⟩
    · rw [hchosen, hreg]
      cases hc : s.chosen e.home with
      | none => rfl
      | some x => exact (if_pos (hx i x hi hc)).symm
    · rw [hreg] at hm; cases hm
    · rw [hno i hi] at hf; cases hf
    · rw [hreg] at hr; simp at hr
  have heq := State.moveCheck_served he hreg hel
  cases hc : s.chosen e.home with
  | none =>
    rw [hc] at heq
    exact ⟨e, hstay heq fun i x _ hx => nomatch hc.symm.trans hx⟩
  | some x =>
    rw [hc] at heq
    by_cases hx : e.serving = some x.1
    · refine ⟨e, hstay (heq.trans (if_pos hx)) fun i y hi hy => ?_⟩
      rw [hc] at hy
      rw [hx] at hi
      cases hy; cases hi; rfl
    · have hmove : s.moveCheck h = s.beginMove h x := heq.trans (if_neg hx)
      have hentry : (s.moveCheck h).entry? h = some { e with reg := .moving, candidate := some x } := by
        rw [hmove]; exact State.entry?_onEntry_same he _
      refine ⟨_, hentry, fun i hi _ => ⟨fun _ => ⟨hi, fun _ => ?_, fun hm => ?_⟩, fun hf => ?_⟩,
        fun hr => ?_, fun hr => ?_, fun _ => ⟨rfl, rfl, rfl⟩⟩
      · rw [hchosen, hc]
        exact (if_neg fun hxi : x.1 = i => hx (hi.trans (congrArg some hxi.symm))).symm
      · rw [hreg] at hm; cases hm
      · rw [hno i hi] at hf; cases hf
      · rw [hreg] at hr; simp at hr
      · rw [hreg] at hr; simp at hr

/-- A MOVING entry whose partner serves on goes on with its move, takes another candidate, or is SERVED again (R134). -/
theorem State.moveCheck_turns_moving (hreg : e.reg = .moving) (hel : s.servingEligible e = true) :
    ∃ e', s.checked c h e e' (s.moveCheck h) := by
  have hchosen : (s.moveCheck h).chosen = s.chosen := State.chosen_of_standing (State.moveCheck_standing h s)
  have hno : ∀ i, e.serving = some i → s.eligible e.home c.rules i = true := fun i hi =>
    (State.servingEligible_eq hv hi).symm.trans hel
  have hcancel : s.moveCheck h = s.cancelMove h → (∀ i x, e.serving = some i → s.chosen e.home = some x → x.1 = i) →
      ∃ e', s.checked c h e e' (s.moveCheck h) := fun hs hx => by
    have hentry : (s.moveCheck h).entry? h = some { e with reg := .served, candidate := none } := by
      rw [hs]; exact State.entry?_onEntry_same he _
    refine ⟨_, hentry, fun i hi _ => ⟨fun _ => ⟨hi, fun hm => ?_, fun _ => ⟨fun _ => ?_, fun x hc hne => ?_⟩⟩,
      fun hf => ?_⟩, fun hr => ?_, fun hr => ?_, fun _ => ⟨rfl, rfl, rfl⟩⟩
    · rw [hreg] at hm; cases hm
    · refine ⟨rfl, rfl, fun y hy hh hk => ?_⟩
      rw [hs] at hy
      exact (State.mem_dropRegAsk.1 hy).2 ⟨hh, hk, by simp⟩
    · rw [hchosen] at hc; exact absurd (hx i x hi hc) hne
    · rw [hno i hi] at hf; cases hf
    · rw [hreg] at hr; simp at hr
    · rw [hreg] at hr; simp at hr
  have heq := State.moveCheck_moving he hreg hel
  cases hc : s.chosen e.home with
  | none =>
    rw [hc] at heq
    exact hcancel heq fun i x _ hx => nomatch hc.symm.trans hx
  | some x =>
    rw [hc] at heq
    have hone : ∀ y, (s.moveCheck h).chosen e.home = some y → y = x := fun y hy => by
      rw [hchosen, hc] at hy; exact (Option.some.inj hy).symm
    by_cases hx : e.serving = some x.1
    · refine hcancel (heq.trans (if_pos hx)) fun i y hi hy => ?_
      rw [hc] at hy
      rw [hx] at hi
      cases hy; cases hi; rfl
    · have hback : ∀ i, e.serving = some i → (∀ y, (s.moveCheck h).chosen e.home = some y → y.1 = i) → False :=
        fun i hi hall => hx (hi.trans (congrArg some (hall x (by rw [hchosen, hc])).symm))
      by_cases hcand : e.candidate.map (·.1) = some x.1
      · have hs : s.moveCheck h = s := heq.trans ((if_neg hx).trans (if_pos hcand))
        refine ⟨e, by rw [hs]; exact he, fun i hi _ => ⟨fun _ => ⟨hi, fun hm => ?_, fun _ => ⟨fun hall => (hback i hi hall).elim,
          fun y hy _ => ?_⟩⟩, fun hf => ?_⟩, fun hr => ?_, fun _ => rfl, fun _ => ⟨rfl, rfl, rfl⟩⟩
        · rw [hreg] at hm; cases hm
        · obtain rfl := hone y hy
          exact ⟨hreg, fun _ => ⟨rfl, fun z hz _ => by rw [hs]; exact hz⟩, fun hne => absurd hcand hne⟩
        · rw [hno i hi] at hf; cases hf
        · rw [hreg] at hr; simp at hr
      · have hs : s.moveCheck h = s.retarget h x := heq.trans ((if_neg hx).trans (if_neg hcand))
        have hentry : (s.moveCheck h).entry? h = some { e with candidate := some x } := by
          rw [hs]; exact State.entry?_onEntry_same he _
        refine ⟨_, hentry, fun i hi _ => ⟨fun _ => ⟨hi, fun hm => ?_, fun _ => ⟨fun hall =>
          (hback i hi hall).elim, fun y hy _ => ?_⟩⟩, fun hf => ?_⟩, fun hr => ?_, fun hr => ?_, fun _ => ⟨rfl, rfl, rfl⟩⟩
        · rw [hreg] at hm; cases hm
        · obtain rfl := hone y hy
          refine ⟨hreg, fun hc => absurd hc hcand, fun _ => ⟨rfl, fun z hz hh hk => ?_⟩⟩
          rw [hs] at hz
          by_contra hne
          exact (State.mem_dropRegAsk.1 hz).2 ⟨hh, hk, fun h => hne (Option.some.inj h).symm⟩
        · rw [hno i hi] at hf; cases hf
        · rw [hreg] at hr; simp at hr
        · rw [hreg] at hr; simp at hr

end Turn

section Turn
variable {s : State} {c : VerdictZone} {h : Nat} {e : Entry} (he : s.entry? h = some e)
include he

/-- A REGISTERING or UNROAMED entry takes its chosen partner, or becomes UNROAMED (R135). -/
theorem State.moveCheck_turns_unserved (hreg : e.reg = .registering ∨ e.reg = .unroamed) :
    ∃ e', s.checked c h e e' (s.moveCheck h) := by
  have hchosen : (s.moveCheck h).chosen = s.chosen := State.chosen_of_standing (State.moveCheck_standing h s)
  have hcase : ∀ e', (s.moveCheck h).entry? h = some e' → candidateTurned e e' (s.moveCheck h) → e.samePeriod e' →
      s.checked c h e e' (s.moveCheck h) := fun e' hentry hcand hsame => by
    refine ⟨hentry, fun i _ hr => ?_, hcand, fun hr => ?_, fun _ => hsame⟩
    · obtain hreg | hreg := hreg <;> rw [hreg] at hr <;> simp at hr
    · obtain hreg | hreg := hreg <;> rw [hreg] at hr <;> simp at hr
  obtain hreg | hreg := hreg
  · have heq := State.moveCheck_registering he hreg
    cases hc : s.chosen e.home with
    | none =>
      rw [hc] at heq
      refine ⟨{ e with reg := .unroamed, candidate := none }, hcase _ ?_ (fun _ => ?_) ⟨rfl, rfl, rfl⟩⟩
      · rw [heq]
        dsimp only
        rw [State.entry?_sendLevel]
        exact State.entry?_onEntry_same he _
      · rw [hchosen, hc, hreg]; simp
    | some x =>
      rw [hc] at heq
      by_cases hcand : e.candidate.map (·.1) = some x.1
      · refine ⟨e, hcase _ ?_ (fun _ => ?_) ⟨rfl, rfl, rfl⟩⟩
        · rw [heq]; dsimp only; rw [if_pos hcand]; exact he
        · rw [hchosen, hc, hreg]; simpa using hcand
      · refine ⟨{ e with candidate := some x }, hcase _ ?_ (fun _ => ?_) ⟨rfl, rfl, rfl⟩⟩
        · rw [heq]; dsimp only; rw [if_neg hcand]; exact State.entry?_onEntry_same he _
        · rw [hchosen, hc, hreg]; simp
  · have heq := State.moveCheck_unroamed he hreg
    cases hc : s.chosen e.home with
    | none =>
      rw [hc] at heq
      refine ⟨e, hcase _ ?_ (fun _ => ?_) ⟨rfl, rfl, rfl⟩⟩
      · rw [heq]; exact he
      · rw [hchosen, hc, hreg]; simp
    | some x =>
      rw [hc] at heq
      refine ⟨{ e with reg := .registering, candidate := some x }, hcase _ ?_ (fun _ => ?_) ⟨rfl, rfl, rfl⟩⟩
      · rw [heq]; exact State.entry?_onEntry_same he _
      · rw [hchosen, hc, hreg]; simp

theorem State.moveCheck_turns_still (hreg : e.reg = .lapsed ∨ e.reg = .resting) :
    ∃ e', s.checked c h e e' (s.moveCheck h) := by
  rw [State.moveCheck_still he hreg]
  refine ⟨e, he, fun i _ hr => ?_, fun hr => ?_, fun _ => rfl, fun _ => ⟨rfl, rfl, rfl⟩⟩
  · obtain hreg | hreg := hreg <;> rw [hreg] at hr <;> simp at hr
  · obtain hreg | hreg := hreg <;> rw [hreg] at hr <;> simp at hr

/-- What the check makes of the entry whose turn it is (R134, R135). -/
theorem State.moveCheck_turns (hv : s.tracker.verdict = some c) : ∃ e', s.checked c h e e' (s.moveCheck h) := by
  cases hreg : e.reg with
  | served =>
    cases hel : s.servingEligible e with
    | true => exact State.moveCheck_turns_served he hv hreg hel
    | false => exact State.moveCheck_turns_void he hv (.inl hreg) hel
  | moving =>
    cases hel : s.servingEligible e with
    | true => exact State.moveCheck_turns_moving he hv hreg hel
    | false => exact State.moveCheck_turns_void he hv (.inr hreg) hel
  | registering => exact State.moveCheck_turns_unserved he (.inl hreg)
  | unroamed => exact State.moveCheck_turns_unserved he (.inr hreg)
  | lapsed => exact State.moveCheck_turns_still he (.inl hreg)
  | resting => exact State.moveCheck_turns_still he (.inr hreg)

end Turn

end Sys2Proof.Machine
end

