-- ==== Sys2Proof/Proofs/Verdicts.lean ====
section
/-! SUPPORT. The round of checks after the round of rotations, and the statement about a fix that moves the verdict. -/

namespace Sys2Proof.Machine

/-! ### The round of checks -/

/-- The state before the check counts by its partners and the entry's exchanges alone. -/
theorem State.registrationTurned.of_exchanges {s u t : State} {c : VerdictZone} {h : Nat} {e e' : Entry}
    (hturned : u.registrationTurned c h e e' t) (hel : u.eligible = s.eligible)
    (hflight : ∀ y : Exchange, y.handle = h → (y ∈ u.rge.inFlight ↔ y ∈ s.rge.inFlight)) :
    s.registrationTurned c h e e' t := by
  intro i hi hreg
  obtain ⟨hyes, hno⟩ := hturned i hi hreg
  rw [hel] at hyes hno
  refine ⟨fun h1 => ?_, hno⟩
  obtain ⟨hsame, hserved, hmoving⟩ := hyes h1
  refine ⟨hsame, hserved, fun hm => ⟨(hmoving hm).1, fun x hx hne => ?_⟩⟩
  obtain ⟨hr, hgoes, htakes⟩ := (hmoving hm).2 x hx hne
  refine ⟨hr, fun hc => ⟨(hgoes hc).1, fun y hy hh => (hgoes hc).2 y ((hflight y hh).2 hy) hh⟩, htakes⟩

theorem State.periodTurned.of_partners {s u t : State} {c : VerdictZone} {h : Nat} {e e' : Entry}
    (hturned : u.periodTurned c h e e' t) (hel : u.eligible = s.eligible) (htime : u.mli.shipTime = s.mli.shipTime) :
    s.periodTurned c h e e' t := by
  have hrecord : ∀ p r d, u.closureRecord e p r d = s.closureRecord e p r d := fun p r d => by
    simp only [State.closureRecord, htime]
  intro p i hp hc hi h1
  have ht := hturned p i hp hc hi (by rw [hel]; exact h1)
  simp only [hrecord] at ht
  exact ht

theorem State.checked.spared {s t t' : State} {c : VerdictZone} {h : Nat} {e e' : Entry} (hck : s.checked c h e e' t)
    (hspare : t.sparesEntry h t') : s.checked c h e e' t' where
  entry := hspare.entry.trans hck.entry
  registration := hck.registration.spared hspare
  candidate := fun hr => by rw [State.chosen_of_standing hspare.stands]; exact hck.candidate hr
  still := hck.still
  period := hck.period

theorem State.checked.of_spared {s u t : State} {c : VerdictZone} {h : Nat} {e e' : Entry} (hck : u.checked c h e e' t)
    (hspare : s.sparesEntry h u) : s.checked c h e e' t where
  entry := hck.entry
  registration := hck.registration.of_exchanges (State.eligible_of_standing hspare.stands) hspare.exchanges
  candidate := hck.candidate
  still := hck.still
  period := fun hel => hck.period (by rw [State.servingEligible_of_standing hspare.stands]; exact hel)

/-- Closures of the life `a` of entry `h`, and all those queued, are in `t` as they were in `s`. -/
def State.keepsClosures (h a : Nat) (s t : State) : Prop :=
  (∀ r ∈ s.closures, r ∈ t.closures) ∧ ∀ w ∈ s.rtu.waitList, w.handle = h → w.attach = a → w ∈ t.rtu.waitList

theorem State.sparesEntry.keepsClosures {h : Nat} {e : Entry} {s t : State} (hst : s.sparesEntry h t)
    (he : s.entry? h = some e) : s.keepsClosures h e.attach t := by
  refine ⟨hst.closures, fun w hw hh ha => hst.waits w hw hh ?_⟩
  rw [State.life?_isSome, hh, he, ha]; rfl

theorem State.concerns.keepsClosures {h j : Nat} {e : Entry} {s t : State} (hst : s.concerns j t)
    (he : s.entry? h = some e) : s.keepsClosures h e.attach t := by
  refine ⟨hst.closures, fun w hw hh ha => hst.waits w hw ?_⟩
  rw [State.life?_isSome, hh, he, ha]; rfl

theorem State.keepsClosures.trans {h a : Nat} {s t u : State} (hst : s.keepsClosures h a t) (htu : t.keepsClosures h a u) :
    s.keepsClosures h a u :=
  ⟨fun r hr => htu.1 r (hst.1 r hr), fun w hw hh ha => htu.2 w (hst.2 w hw hh ha) hh ha⟩

/-- What the round of checks makes of one entry, and that no closure of it goes. -/
theorem State.eachEntry_moveCheck_turns {c : VerdictZone} {h : Nat} {e : Entry} {s : State} (hnd : s.handles.Nodup)
    (he : s.entry? h = some e) (hv : s.tracker.verdict = some c) :
    ∃ e', s.checked c h e e' (s.eachEntry State.moveCheck) ∧
      s.keepsClosures h e.attach (s.eachEntry State.moveCheck) := by
  have hspare : ∀ j, j ≠ h → ∀ u : State, u.sparesEntry h (u.moveCheck j) := fun j hj u =>
    (State.moveCheck_concerns j u).sparesEntry hj (State.moveCheck_standing j u)
  have hround := State.eachEntry_turn (f := State.moveCheck) (h := h) (P := fun u => s.sparesEntry h u)
    (Q := fun u => ∃ e', s.checked c h e e' u ∧ e'.attach = e.attach ∧ s.keepsClosures h e.attach u) hnd
    (State.mem_handles he) (fun j hj u hu => hu.trans (hspare j hj u)) ?turn ?after (.refl h s)
  case turn =>
    intro u hu
    have hue : u.entry? h = some e := hu.entry.trans he
    have hconcerns := State.moveCheck_concerns h u
    obtain ⟨e', hck⟩ := State.moveCheck_turns hue ((State.verdict_of_standing hu.stands).trans hv)
    refine ⟨e', hck.of_spared hu, ?_, (hu.keepsClosures he).trans (hconcerns.keepsClosures hue)⟩
    have hlife := hconcerns.life
    rw [hck.entry, hue] at hlife
    exact Option.some.inj hlife
  case after =>
    rintro j hj u ⟨e', hck, hattach, hkept⟩
    refine ⟨e', hck.spared (hspare j hj u), hattach, hkept.trans ?_⟩
    rw [← hattach]
    exact (hspare j hj u).keepsClosures hck.entry
  obtain ⟨e', hck, -, hkept⟩ := hround
  exact ⟨e', hck, hkept⟩

/-! ### Both rounds -/

/-- All that a change of verdict to zone `c` of policy REDUCED or FULL makes of an entry (R134, R135, R146, R152). -/
def State.entryFollows (s : State) (c : VerdictZone) (h : Nat) (e e' : Entry) (t : State) : Prop :=
  s.periodTurned c h e e' t ∧ s.registrationTurned c h e e' t ∧ candidateTurned e e' t ∧
    (e.reg = .lapsed ∨ e.reg = .resting → e.period = none → e' = e)

/-- Rotation and check, one round after the other, on one entry. -/
theorem State.rounds_follow {c : VerdictZone} {h : Nat} {e : Entry} {s : State} (hnd : s.handles.Nodup)
    (he : s.entry? h = some e) (hv : s.tracker.verdict = some c) (hwork : s.mli.work = none) :
    ∃ e', ((s.eachEntry State.rotatePeriod).eachEntry State.moveCheck).entry? h = some e' ∧
      s.entryFollows c h e e' ((s.eachEntry State.rotatePeriod).eachEntry State.moveCheck) := by
  obtain ⟨e₁, he₁, hsame, hnone, hperiod⟩ := State.eachEntry_rotate_turns hnd he hv hwork
  have hstands := s.eachEntry_rotate_standing
  have hflight : ∀ y : Exchange, y.handle = h → (y ∈ (s.eachEntry State.rotatePeriod).rge.inFlight ↔ y ∈ s.rge.inFlight) :=
    fun y _ => by rw [s.eachEntry_rotate_rge]
  have hnd₁ : (s.eachEntry State.rotatePeriod).handles.Nodup := by rw [s.eachEntry_rotate_handles]; exact hnd
  generalize s.eachEntry State.rotatePeriod = s₁ at *
  obtain ⟨e₂, hck, hkept⟩ := State.eachEntry_moveCheck_turns hnd₁ he₁ ((State.verdict_of_standing hstands).trans hv)
  have hstands₂ : (s₁.eachEntry State.moveCheck).standing = s₁.standing :=
    State.eachEntry_standing _ (fun j u => State.moveCheck_standing j u) s₁
  generalize s₁.eachEntry State.moveCheck = t at *
  refine ⟨e₂, hck.entry, fun p i hp hc hi hel => ?_, ?_, ?_, fun hr hn => ?_⟩
  · have hserving : e₁.serving = some i := by rw [hsame]; exact hi
    have hhome : e₁.home = e.home := by rw [hsame]
    have hserves : s₁.servingEligible e₁ = true := by
      refine State.servingEligible_iff.2 ⟨c.rules, i, ?_, hserving, ?_⟩
      · rw [State.rules_of_standing hstands]; simp [State.rules?, hv]
      · rw [State.eligible_of_standing hstands, hhome]; exact hel
    have hattach : e₁.attach = e.attach := by rw [hsame]
    obtain ⟨hpd, hcl, hsv⟩ := hck.period hserves
    exact hperiod.mono hstands₂ hkept.1 (fun w hw hh ha => hkept.2 w hw hh (ha.trans hattach.symm)) hpd hcl hsv p i hp hc hi hel
  · have hreg := hck.registration.of_exchanges (State.eligible_of_standing hstands) hflight
    rw [hsame] at hreg
    exact hreg
  · have hcand := hck.candidate
    rw [hsame] at hcand
    exact hcand
  · have hone := hnone hn
    rw [hone] at hck
    exact hck.still hr

/-- What the rounds made of an entry, selection and flags of the tracker leave. -/
theorem State.entryFollows.mono {s t t' : State} {c : VerdictZone} {h : Nat} {e e' : Entry}
    (hf : s.entryFollows c h e e' t) (hstands : t'.standing = t.standing) (hrtu : t'.rtu = t.rtu) (hrge : t'.rge = t.rge) :
    s.entryFollows c h e e' t' := by
  obtain ⟨hp, hr, hc, hstill⟩ := hf
  refine ⟨hp.mono hstands (fun r hr => ?_) (fun w hw _ _ => by rw [hrtu]; exact hw) rfl rfl rfl, ?_, fun hreg => ?_, hstill⟩
  · unfold State.closures at *; rw [hrtu]; exact hr
  · intro i hi hreg
    rw [State.chosen_of_standing hstands, hrge]
    exact hr i hi hreg
  · rw [State.chosen_of_standing hstands]; exact hc hreg

theorem State.published_work (new : Option VerdictZone) (cause : ZoneCause) (d : Option Nat) (s : State) :
    (s.published new cause d).mli.work = s.mli.work := by
  rw [State.published, State.sendOrders_mli]
  exact congrArg Kept.work (State.raise_kept _ (s.onTracker fun t => { t with verdict := new }))

theorem State.published_shipTime (new : Option VerdictZone) (cause : ZoneCause) (d : Option Nat) (s : State) :
    (s.published new cause d).mli.shipTime = s.mli.shipTime := by
  rw [State.published, State.sendOrders_mli, State.shipTime_of_standing (State.raise_standing _ _)]
  rfl

/-- A change of verdict to a zone of policy REDUCED or FULL, whole. -/
theorem State.changeVerdict_follows {c : VerdictZone} {s : State} (cause : ZoneCause) (d : Option Nat)
    (hnd : s.handles.Nodup) (hwork : s.mli.work = none) (hloud : c.rules.policy ≠ .quiet) :
    (s.changeVerdict (some c) cause d).handles = s.handles ∧ ∀ h e, s.entry? h = some e →
      ∃ e', (s.changeVerdict (some c) cause d).entry? h = some e' ∧
        s.entryFollows c h e e' (s.changeVerdict (some c) cause d) := by
  have hnew : policyOf ((some c).map (·.rules)) ≠ .quiet := hloud
  have hfollow : s.changeVerdict (some c) cause d =
      (((s.published (some c) cause d).eachEntry State.rotatePeriod).eachEntry State.moveCheck).workOut := by
    rw [State.changeVerdict_eq, State.entriesFollow, if_neg hnew]
  rw [hfollow]
  have hVnd : (s.published (some c) cause d).handles.Nodup := by rw [State.published_handles]; exact hnd
  have hVwork : (s.published (some c) cause d).mli.work = none := (State.published_work ..).trans hwork
  have hVrge : (s.published (some c) cause d).rge = s.rge := by rw [State.published_frame]
  have hVtime : (s.published (some c) cause d).mli.shipTime = s.mli.shipTime := State.published_shipTime ..
  have hVverdict : (s.published (some c) cause d).tracker.verdict = some c := by rw [State.published_tracker]
  have hVentry : ∀ h, (s.published (some c) cause d).entry? h = s.entry? h := fun h => State.published_entry? ..
  have hVhandles : (s.published (some c) cause d).handles = s.handles := State.published_handles ..
  generalize s.published (some c) cause d = v at *
  have hVeligible : v.eligible = s.eligible := by
    funext home r i
    simp only [State.eligible, State.partner?, hVrge]
  refine ⟨?_, fun h e he => ?_⟩
  · have hw : ∀ u : State, u.workOut.handles = u.handles := fun u => by rw [State.workOut_frame]; rfl
    have hcheck : ∀ u : State, (u.eachEntry State.moveCheck).handles = u.handles := fun u =>
      State.eachOf_keeps (P := fun x => x.handles = u.handles) u.handles
        (fun h _ x hx => (State.moveCheck_concerns h x).handles.trans hx) rfl
    rw [hw, hcheck, State.eachEntry_rotate_handles, hVhandles]
  · obtain ⟨e', he', hf⟩ := State.rounds_follow hVnd ((hVentry h).trans he) hVverdict hVwork
    generalize (v.eachEntry State.rotatePeriod).eachEntry State.moveCheck = u at *
    have hu := hf.mono (State.workOut_standing u) (by rw [State.workOut_frame]) (by rw [State.workOut_frame])
    obtain ⟨hp, hr, hc, hstill⟩ := hu
    exact ⟨e', (State.workOut_entry? h u).trans he', hp.of_partners hVeligible hVtime,
      hr.of_exchanges hVeligible (fun y _ => by rw [hVrge]), hc, hstill⟩

/-! ### The statement -/

/-- Nothing relaxes a verdict that a flag or a hold stands over, or by a fix that is not GOOD or inside the margin (R6, R8). -/
theorem Tracker.relaxes_of_shut {q : Quality} {v c d : Nat} {t : Tracker}
    (h : q ≠ .good ∨ t.frozen = true ∨ t.forcedFreeze = true ∨ t.holdExpiry ≠ none ∨ t.passesMargin v c d = false) :
    t.relaxes q v c d = false := by
  unfold Tracker.relaxes
  obtain h | h | h | h | h := h
  · simp [h]
  · simp [h]
  · simp [h]
  · cases hx : t.holdExpiry with
    | none => exact absurd hx h
    | some x => simp
  · simp [h]

/-- Settles O15: `takeFix` evaluates once; the rounds over the entries then say what the new verdict makes of each. -/
theorem fixMovesTheVerdict : Obligations.FixMovesTheVerdict := by
  unfold Obligations.FixMovesTheVerdict
  refine ⟨fun s tag d q v c hs hrun hq hz hd hv hc hne hr => ?stricter,
    fun s t tag d q v c hs hrun hhold hz hd hv hc hr hshut ht => ?stays,
    fun s tag d v c hs hrun hz hd hv hc hne hr hfrozen hforced hexp hm => ?relaxes,
    fun s t tag d q c hs hrun hnd ht hv hold hloud => ?follows⟩
  case stricter =>
    have hexec := exec_fix_onRoute (q := q) (tag := tag) hs hrun hz hd
    obtain ⟨g, hg, hfix, hforced, hthaw⟩ := State.takeFix_stricter
      (s := (s.joined (.fix ⟨tag, some ⟨d, q⟩⟩)).runningFix q d) (v := v) (c := c) hq rfl (if_neg hq) hv hc hne hr
    have htracker := State.changeVerdict_tracker (some c) .stricter (some d)
      ((s.joined (.fix ⟨tag, some ⟨d, q⟩⟩)).runningFix q d)
    rw [hfix] at hexec
    generalize State.changeVerdict (some c) .stricter (some d) _ = w at *
    have hff : w.tracker.forcedFreeze = s.tracker.forcedFreeze := by rw [htracker]; rfl
    have hfr : w.tracker.frozen = s.tracker.frozen := by rw [htracker]; rfl
    have hhe : w.tracker.holdExpiry = s.tracker.holdExpiry := by rw [htracker]; rfl
    refine ⟨_, hexec, (hg _).2.trans (congrArg Tracker.verdict htracker), (hforced _).trans hff, hthaw.imp id fun hid => ?_⟩
    subst hid
    exact ⟨hfr, hhe⟩
  case stays =>
    rw [exec_fix_onRoute hs hrun hz hd] at ht
    cases ht
    generalize hu : (s.joined (.fix ⟨tag, some ⟨d, q⟩⟩)).runningFix q d = u
    have hvu : u.tracker.verdict = some v := by rw [← hu]; exact hv
    have hsame : ∀ cause, u.evaluate q d cause = u := fun cause => State.evaluate_stays hvu fun c' hc' _ => by
      have hcu : u.tracker.locate d = some c := by rw [← hu]; exact hc
      obtain rfl : c' = c := Option.some.inj (hc'.symm.trans hcu)
      refine ⟨hr, ?_⟩
      have hno : s.tracker.relaxes q v.index c'.index d = false := Tracker.relaxes_of_shut hshut
      rw [← hu]; exact hno
    change (u.takeFix q d).tracker.verdict = some v
    by_cases hq : q = .none
    · subst hq; exact hvu
    by_cases hthaw : u.tracker.thawedBy q
    · obtain ⟨rfl, hf, hn⟩ := hthaw
      have hkeep : (u.onTracker fun t => { t with frozen := false }).tracker.holdTime ≠ 0 := by rw [← hu]; exact hhold
      rw [State.takeFix_thaws hvu hf hn, hsame, State.beginHold_holds hkeep]
      exact hvu
    · rw [State.takeFix_evaluates hq hvu hthaw, hsame]
      exact hvu
  case relaxes =>
    refine ⟨_, exec_fix_onRoute hs hrun hz hd, ?_⟩
    have hopen : s.tracker.relaxes .good v.index c.index d = true := by
      simp [Tracker.relaxes, hfrozen, hforced, hexp, hm]
    have hmove : ((s.joined (.fix ⟨tag, some ⟨d, .good⟩⟩)).runningFix .good d).takeFix .good d =
        ((s.joined (.fix ⟨tag, some ⟨d, .good⟩⟩)).runningFix .good d).changeVerdict (some c) .margin (some d) :=
      (State.takeFix_evaluates (s := (s.joined _).runningFix .good d) (by simp) hv fun h => Bool.false_ne_true (hfrozen.symm.trans h.2.1)).trans
        (State.evaluate_relaxes (s := (s.joined _).runningFix .good d) hv hc hne hr hopen)
    rw [hmove]
    exact State.changeVerdict_tracker ..
  case follows =>
    rw [exec_fix hs, State.applyFix_running (s := s.joined _) hrun] at ht
    cases ht
    obtain ⟨f, hf, hsame⟩ | ⟨c', why, f, g, -, hf, hg, hmove⟩ := State.takeFix_movesOnce (q := q) (d := min s.fixTop d)
      (s := (s.joined (.fix ⟨tag, some ⟨d, q⟩⟩)).runningFix q (min s.fixTop d)) rfl (fun hq => if_neg hq)
    · rw [hsame] at hv
      exact absurd ((hf _).2.symm.trans hv) hold
    · rw [hmove] at hv ⊢
      have hverdict := congrArg Tracker.verdict (State.changeVerdict_tracker (some c') why (some (min s.fixTop d))
        (((s.joined (.fix ⟨tag, some ⟨d, q⟩⟩)).runningFix q (min s.fixTop d)).onTracker f))
      obtain rfl : c' = c := Option.some.inj (hverdict.symm.trans ((hg _).2.symm.trans hv))
      obtain ⟨hhandles, hentries⟩ := State.changeVerdict_follows (c := c')
        (s := ((s.joined (.fix ⟨tag, some ⟨d, q⟩⟩)).runningFix q (min s.fixTop d)).onTracker f) why
        (some (min s.fixTop d)) hnd hs.1.2.1 hloud
      generalize State.changeVerdict (some c') why _ _ = w at *
      refine ⟨hhandles, fun h e he => ?_⟩
      obtain ⟨e', he', hfollow⟩ := hentries h e he
      obtain ⟨hp, hr, hcand, hstill⟩ := hfollow.mono (t' := (w.onTracker g).ok Kind.fix tag (decide (s.fixTop < d))
        (le 3 (min s.fixTop d))) ((State.ok_standing ..).trans (State.onTracker_standing g w hg)) rfl rfl
      exact ⟨e', he', hp.of_partners rfl rfl, hr.of_exchanges rfl fun _ _ => Iff.rfl, hcand, hstill⟩

end Sys2Proof.Machine
end

