-- ==== Sys2Proof/Proofs/Removal.lean ====
section
/-! SUPPORT. A removal, taken apart: the closure, the DEREG, the exchanges and the handle (R50, R137). -/

namespace Sys2Proof.Machine

/-! ### The parts of a removal -/

/-- The closure that a removal takes, if its cause gives a reason (R49). -/
def State.closedFor (reason : Option CloseReason) (h : Nat) (s : State) : State :=
  match reason with
  | some r => s.closePeriod r h
  | none => s

/-- The DEREG that a removal owes (R50, R137). -/
def State.deregister (h : Nat) (e : Entry) (s : State) : State :=
  match e.serving with
  | some i => s.sendDereg h e.token i
  | none => s

/-- The entry leaves the table and its handle joins the tail of the free ones (R46, R50). -/
def State.freeHandle (h : Nat) (cause : RemovalCause) (s : State) : State :=
  s.onTable fun t => { t with
    entries := eraseKey h t.entries, freeHandles := t.freeHandles ++ [h],
    counters := { t.counters with removals := bumpAt 4 t.counters.removals cause.place } }

theorem State.removeEntry_eq {h : Nat} {e : Entry} {s : State} (cause : RemovalCause) (reason : Option CloseReason)
    (he : s.entry? h = some e) : s.removeEntry h cause reason =
      ((((s.closedFor reason h).freeBearers h).deregister h e).dropExchange h).freeHandle h cause := by
  unfold State.removeEntry
  rw [he]
  rfl

theorem State.closedFor_frame (reason : Option CloseReason) (h : Nat) (s : State) : s.closedFor reason h =
    { s with table := (s.closedFor reason h).table, rtu := (s.closedFor reason h).rtu,
             rsc := (s.closedFor reason h).rsc, mli := (s.closedFor reason h).mli } := by
  unfold State.closedFor
  split
  · exact State.closePeriod_frame _ h s
  · rfl

theorem State.deregister_frame (h : Nat) (e : Entry) (s : State) : s.deregister h e =
    { s with slm := (s.deregister h e).slm, rge := { s.rge with counters := (s.deregister h e).rge.counters },
             sent := (s.deregister h e).sent } := by
  unfold State.deregister
  split
  · exact State.sendDereg_frame ..
  · rfl

theorem eraseKey_alterKey {α : Type} (k : Nat) (f : α → α) (l : List (Nat × α)) :
    eraseKey k (alterKey k f l) = eraseKey k l := by
  induction l with
  | nil => rfl
  | cons p rest ih =>
    obtain ⟨a, x⟩ := p
    unfold eraseKey at *
    by_cases ha : a = k <;> simp [alterKey, ha, ih]

/-- The entries but one, whatever its closure made of that one. -/
theorem State.closedFor_others (reason : Option CloseReason) (h : Nat) (s : State) :
    eraseKey h (s.closedFor reason h).table.entries = eraseKey h s.table.entries ∧
      (s.closedFor reason h).table = { s.table with entries := (s.closedFor reason h).table.entries } := by
  unfold State.closedFor
  split
  · rw [State.closePeriod_table]
    exact ⟨eraseKey_alterKey h _ _, rfl⟩
  · exact ⟨rfl, rfl⟩

/-! ### The DEREG -/

theorem State.sendDereg_dropped {h i : Nat} {tok : Token} {s : State} (hno : s.mayCarry = false) :
    s.sendDereg h tok i = s.countRge fun c => { c with deregsDropped := bump32 c.deregsDropped } := by
  unfold State.sendDereg
  split
  · rename_i l p hl _ hw
    simp [State.mayCarry, hl, hw] at hno
  · rfl

theorem State.sendDereg_offered {h i : Nat} {tok : Token} {l : Fin 4} {q : Partner} {s : State}
    (hl : s.activeLink? = some l) (hq : s.partner? i = some q) (hw : s.slm.swap.inProgress = false) :
    s.sendDereg h tok i = (s.offer l (.plain (.dereg h tok i q.code))).countRge fun c =>
      { c with deregsSent := bump32 c.deregsSent } := by
  simp only [State.sendDereg, hl, hq, hw]

theorem State.offer_free {l : Fin 4} {s : State} (h i : Nat) (tok : Token) (code : HomeCode)
    (hfree : (s.link l).free = true) :
    s.offer l (.plain (.dereg h tok i code)) = s.emit (.toShore l (.dereg h tok i code)) := by
  unfold State.offer
  rw [if_pos hfree]
  rfl

theorem State.offer_waits {l : Fin 4} {s : State} (w : Waiting) (hbusy : (s.link l).free = false) :
    s.offer l w = s.onLink l fun k => { k with waiting := k.waiting ++ [w] } := by
  unfold State.offer
  rw [hbusy]
  rfl

/-- What a removal does with its DEREG (R137), `l` being sent behind it. -/
def State.deregistered (s : State) (h : Nat) (e : Entry) (l : List Sent) (t : State) : Prop :=
  (e.serving = none → t.slm = s.slm ∧ t.rge.counters = s.rge.counters ∧ t.sent = s.sent ++ l) ∧
  (e.serving ≠ none → s.mayCarry = false → t.slm = s.slm ∧ t.sent = s.sent ++ l ∧
    t.rge.counters = { s.rge.counters with deregsDropped := bump32 s.rge.counters.deregsDropped }) ∧
  (∀ i k q, e.serving = some i → s.activeLink? = some k → s.slm.swap.inProgress = false → s.partner? i = some q →
    t.rge.counters = { s.rge.counters with deregsSent := bump32 s.rge.counters.deregsSent } ∧
    ((s.link k).free = true → t.sent = s.sent ++ .toShore k (.dereg h e.token i q.code) :: l) ∧
    ((s.link k).free = false → t.sent = s.sent ++ l ∧
      (t.link k).waiting = (s.link k).waiting ++ [.plain (.dereg h e.token i q.code)]))

theorem State.deregister_deregistered (h : Nat) (e : Entry) (s : State) : s.deregistered h e [] (s.deregister h e) := by
  refine ⟨fun hn => ?_, fun hs hno => ?_, fun i k q hi hk hw hq => ?_⟩
  · have hsame : s.deregister h e = s := by simp only [State.deregister, hn]
    rw [hsame]
    exact ⟨rfl, rfl, (List.append_nil _).symm⟩
  · obtain ⟨i, hi⟩ := Option.ne_none_iff_exists'.1 hs
    have hdrop : s.deregister h e = s.sendDereg h e.token i := by simp only [State.deregister, hi]
    rw [hdrop, State.sendDereg_dropped hno]
    exact ⟨rfl, (List.append_nil _).symm, rfl⟩
  · have hsend : s.deregister h e = s.sendDereg h e.token i := by simp only [State.deregister, hi]
    rw [hsend, State.sendDereg_offered hk hq hw]
    cases hf : (s.link k).free with
    | true =>
      rw [State.offer_free h i e.token q.code hf]
      exact ⟨rfl, fun _ => rfl, fun hb => absurd hb (by simp)⟩
    | false =>
      rw [State.offer_waits _ hf]
      refine ⟨rfl, fun hb => absurd hb (by simp), fun _ => ⟨(List.append_nil _).symm, ?_⟩⟩
      have hlink : ((s.onLink k fun x => { x with waiting := x.waiting ++ [.plain (.dereg h e.token i q.code)] }).link k).waiting =
          (s.link k).waiting ++ [.plain (.dereg h e.token i q.code)] := by rw [State.link_onLink, if_pos rfl]
      exact hlink

/-- What is sent behind the removal stands behind its DEREG. -/
theorem State.deregistered.sends {s t : State} {h : Nat} {e : Entry} {l : List Sent} (m : List Sent)
    (hd : s.deregistered h e l t) : s.deregistered h e (l ++ m) (t.sends m) := by
  obtain ⟨hnone, hdrop, hsend⟩ := hd
  refine ⟨fun hn => ?_, fun hs hno => ?_, fun i k q hi hk hw hq => ?_⟩
  · obtain ⟨hslm, hc, hsent⟩ := hnone hn
    exact ⟨hslm, hc, by rw [State.sends, hsent, List.append_assoc]⟩
  · obtain ⟨hslm, hsent, hc⟩ := hdrop hs hno
    exact ⟨hslm, by rw [State.sends, hsent, List.append_assoc], hc⟩
  · obtain ⟨hc, hfree, hbusy⟩ := hsend i k q hi hk hw hq
    refine ⟨hc, fun hf => ?_, fun hb => ⟨?_, (hbusy hb).2⟩⟩
    · rw [State.sends, hfree hf, List.append_assoc, List.cons_append]
    · rw [State.sends, (hbusy hb).1, List.append_assoc]

/-! ### The closure -/

/-- What a removal makes of the period of its entry (R49, R151, R154). -/
def State.closedOut (s : State) (h : Nat) (e : Entry) (reason : Option CloseReason) (t : State) : Prop :=
  (reason = none ∨ e.period = none ∨ e.closing = true → t.rtu = s.rtu) ∧
  (∀ r p, reason = some r → e.period = some p → e.closing = false →
    (s.rtu.closeQueue.length < 64 → s.rtu.waitList = [] → t.rtu.waitList = [] ∧
      t.closures = (s.rtu.closeQueue ++ [s.closureRecord e p r false]).map bare) ∧
    (64 ≤ s.rtu.closeQueue.length ∨ s.rtu.waitList ≠ [] → s.rtu.waitList.length < 4096 →
      t.rtu.closeQueue = s.rtu.closeQueue ∧
      t.rtu.waitList = s.rtu.waitList ++ [⟨h, e.attach, s.closureRecord e p r true⟩]))

theorem State.closedFor_closedOut {h : Nat} {e : Entry} {s : State} (reason : Option CloseReason)
    (he : s.entry? h = some e) : s.closedOut h e reason (s.closedFor reason h) := by
  refine ⟨fun hno => ?_, fun r p hr hp hc => ?_⟩
  · cases reason with
    | none => rfl
    | some r =>
      have hfrozen : s.hasUnfrozen h = false := by
        obtain hno | hno | hno := hno
        · cases hno
        · simp [State.hasUnfrozen, he, hno]
        · simp [State.hasUnfrozen, he, hno]
      exact congrArg State.rtu (State.closePeriod_none hfrozen)
  · subst hr
    have heq : s.closedFor (some r) h = if s.queueOpen then s.enqueueClosure r h e p else s.delayClosure r h e p :=
      State.closePeriod_unfrozen he hp hc
    refine ⟨fun hlen hwait => ?_, fun hfull hlen => ?_⟩
    · have hopen : s.queueOpen = true := by simp [State.queueOpen, Limits.closeQueue, hlen, hwait]
      rw [heq, if_pos hopen, State.enqueueClosure_waitList, State.enqueueClosure_closures]
      exact ⟨hwait, by simp [State.closures]⟩
    · have hopen : ¬ s.queueOpen = true := by
        simp only [State.queueOpen, Bool.and_eq_true, List.isEmpty_iff]
        rintro ⟨hl, hw⟩
        obtain hfull | hfull := hfull
        · exact absurd (of_decide_eq_true hl) (Nat.not_lt.2 hfull)
        · exact hfull hw
      have hroom : (s.countClosure r).makeRoom = s.countClosure r := if_pos hlen
      rw [heq, if_neg hopen, State.delayClosure_waitList, State.delayClosure_closeQueue, hroom]
      exact ⟨rfl, rfl⟩

theorem State.closedOut.congr {s t t' : State} {h : Nat} {e : Entry} {reason : Option CloseReason}
    (hc : s.closedOut h e reason t) (hrtu : t'.rtu = t.rtu) : s.closedOut h e reason t' := by
  unfold State.closedOut State.closures at *
  rw [hrtu]
  exact hc

/-! ### The removal whole -/

/-- A removal of entry `h`, `e` until then, with `decline` sent behind its DEREG (R50). -/
def State.removed (s : State) (h : Nat) (e : Entry) (cause : RemovalCause) (reason : Option CloseReason)
    (decline : List Sent) (t : State) : Prop :=
  t.table = { s.table with
    entries := eraseKey h s.table.entries, freeHandles := s.table.freeHandles ++ [h],
    counters := { s.table.counters with removals := bumpAt 4 s.table.counters.removals cause.place } } ∧
  s.closedOut h e reason t ∧ t.rge.inFlight = s.rge.inFlight.filter (fun x => x.handle != h) ∧
  s.deregistered h e decline t

theorem State.freeBearers_others (h : Nat) (s : State) :
    eraseKey h (s.freeBearers h).table.entries = eraseKey h s.table.entries ∧
      (s.freeBearers h).table = { s.table with entries := (s.freeBearers h).table.entries } := by
  rw [State.freeBearers_frame]
  exact ⟨eraseKey_alterKey h _ _, rfl⟩

theorem State.removeEntry_removed {h : Nat} {e : Entry} {s : State} (cause : RemovalCause) (reason : Option CloseReason)
    (he : s.entry? h = some e) : s.removed h e cause reason [] (s.removeEntry h cause reason) := by
  rw [State.removeEntry_eq cause reason he]
  have hclosure := State.closedFor_closedOut reason he
  have hframe := State.closedFor_frame reason h s
  obtain ⟨hothers, htable⟩ := State.closedFor_others reason h s
  generalize s.closedFor reason h = a at *
  obtain ⟨hbothers, hbtable⟩ := State.freeBearers_others h a
  have hbframe := State.freeBearers_frame h a
  generalize a.freeBearers h = b at *
  have hb : b = { s with table := b.table, router := b.router, rtu := a.rtu, rsc := b.rsc, mli := b.mli } := by
    rw [hbframe, hframe]
  have hdframe := State.deregister_frame h e b
  have hdereg := State.deregister_deregistered h e b
  generalize b.deregister h e = d at *
  have hdtable : d.table = b.table := by rw [hdframe]
  have hdrtu : d.rtu = a.rtu := by rw [hdframe, hb]
  have hdrge : d.rge.inFlight = s.rge.inFlight := by rw [hdframe, hb]
  refine ⟨?table, ?closure, ?exchanges, ?dereg⟩
  case table =>
    change ({ d.table with
      entries := eraseKey h d.table.entries, freeHandles := d.table.freeHandles ++ [h],
      counters := { d.table.counters with removals := bumpAt 4 d.table.counters.removals cause.place } } : Table) = _
    rw [hdtable, hbothers, hothers, hbtable, htable]
  case closure => exact hclosure.congr hdrtu
  case exchanges => exact congrArg (List.filter fun x => x.handle != h) hdrge
  case dereg =>
    rw [hb] at hdereg
    exact hdereg

/-- A removal seen through further writes that leave what it speaks of. -/
theorem State.removed.congr {s t t' : State} {h : Nat} {e : Entry} {cause : RemovalCause} {reason : Option CloseReason}
    {l : List Sent} (hr : s.removed h e cause reason l t) (htable : t'.table = t.table) (hrtu : t'.rtu = t.rtu)
    (hrge : t'.rge = t.rge) (hslm : t'.slm = t.slm) (hsent : t'.sent = t.sent) : s.removed h e cause reason l t' := by
  obtain ⟨h1, h2, h3, h4⟩ := hr
  refine ⟨htable.trans h1, h2.congr hrtu, (congrArg Rge.inFlight hrge).trans h3, ?_⟩
  unfold State.deregistered State.link at *
  rw [hslm, hrge, hsent]
  exact h4

theorem State.removed.sends {s t : State} {h : Nat} {e : Entry} {cause : RemovalCause} {reason : Option CloseReason}
    {l : List Sent} (m : List Sent) (hr : s.removed h e cause reason l t) :
    s.removed h e cause reason (l ++ m) (t.sends m) := by
  obtain ⟨h1, h2, h3, h4⟩ := hr
  exact ⟨h1, h2, h3, h4.sends m⟩

theorem State.removed.countPort {s t : State} {h : Nat} {e : Entry} {cause : RemovalCause} {reason : Option CloseReason}
    {l : List Sent} (p : Fin 6) (f : PortCounters → PortCounters) (hr : s.removed h e cause reason l t) :
    s.removed h e cause reason l (t.countPort p f) := hr.congr rfl rfl rfl rfl rfl

theorem State.removed.ok {s t : State} {h : Nat} {e : Entry} {cause : RemovalCause} {reason : Option CloseReason}
    {l : List Sent} (kind tag : Byte) (clamped : Bool) (fields : List Byte) (hr : s.removed h e cause reason l t) :
    s.removed h e cause reason l (t.ok kind tag clamped fields) := hr.congr rfl rfl rfl rfl rfl

/-- A request in the interface is nothing to a removal. -/
theorem State.removed.ofJoined {s t : State} {c : Instr} {h : Nat} {e : Entry} {cause : RemovalCause}
    {reason : Option CloseReason} {l : List Sent} (hr : (s.joined c).removed h e cause reason l t) :
    s.removed h e cause reason l t := hr

/-! ### The commands -/

theorem exec_depart {s : State} {h : Nat} {e : Entry} (hp : s.powered = true) (hup : (s.port e.port).state ≠ .down)
    (htok : s.byToken? e.token = some (h, e)) :
    exec (.depart e.port e.token) s = .next (s.removeEntry h .depart (some .detach)) := by
  have hexec : exec (.depart e.port e.token) s = execDepart e.port e.token s := rfl
  have hl : (s.port e.port).listening = true := by simpa [CellPort.listening] using hup
  rw [hexec, execDepart, whenPowered_on _ hp]
  simp only [State.onRecord, hl, htok, Bool.not_true, Bool.false_eq_true, if_false, if_true]

theorem exec_depart_stale {s : State} {p : Fin 6} {token : Token} (hp : s.powered = true) (hup : (s.port p).state ≠ .down)
    (hno : ∀ h e, s.byToken? token = some (h, e) → e.port ≠ p) :
    exec (.depart p token) s = .next (s.countPort p fun c => { c with staleDeparts := bump32 c.staleDeparts }) := by
  have hexec : exec (.depart p token) s = execDepart p token s := rfl
  have hl : (s.port p).listening = true := by simpa [CellPort.listening] using hup
  rw [hexec, execDepart, whenPowered_on _ hp]
  cases htok : s.byToken? token with
  | none => simp only [State.onRecord, hl, htok, Bool.not_true, Bool.false_eq_true, if_false]
  | some x =>
    obtain ⟨h, e⟩ := x
    simp only [State.onRecord, hl, htok, hno h e htok, Bool.not_true, Bool.false_eq_true, if_false]

theorem exec_portLostExpiry {s : State} {h x : Nat} {e : Entry} (hp : s.powered = true) (he : s.entry? h = some e)
    (hx : e.portLost = some x) (hle : x ≤ s.mli.clock) : exec (.portLostExpiry h) s =
      .next ((s.removeEntry h .portLost (some .portLost)).countPort e.port fun c =>
        { c with portLostDepartures := bump32 c.portLostDepartures }) := by
  have hexec : exec (.portLostExpiry h) s = execPortLostExpiry h s := rfl
  rw [hexec, execPortLostExpiry, whenPowered_on _ hp]
  simp only [he, hx, State.atExpiry, State.now, Nat.not_lt.2 hle, if_false]

theorem exec_retentionExpiry {s : State} {h x : Nat} {e : Entry} (hp : s.powered = true) (he : s.entry? h = some e)
    (hx : e.retention = some x) (hle : x ≤ s.mli.clock) :
    exec (.retentionExpiry h) s = .next (s.removeEntry h .retention none) := by
  have hexec : exec (.retentionExpiry h) s = execRetentionExpiry h s := rfl
  rw [hexec, execRetentionExpiry, whenPowered_on _ hp]
  simp only [he, Option.bind_some, hx, State.atExpiry, State.now, Nat.not_lt.2 hle, if_false]

/-- What EVICT answers (R52). -/
def State.evictReply (s : State) (h : Nat) (e : Entry) : List Byte :=
  le 2 h ++ le 1 e.reg.code ++ bFlag (e.period.isSome && !e.closing)
    ++ le 1 (if e.serving = none then 2 else if s.mayCarry && (e.serving.bind s.partner?).isSome then 0 else 1)

theorem State.evictReply_eq {s : State} {h : Nat} {e : Entry} (he : s.entry? h = some e) :
    s.evictReply h e = le 2 h ++ le 1 e.reg.code ++ bFlag (s.hasUnfrozen h) ++ le 1 (match s.deregOutcome e with
      | .sent => 0
      | .dropped => 1
      | .notOwed => 2) := by
  have hclosed : s.hasUnfrozen h = (e.period.isSome && !e.closing) := by simp only [State.hasUnfrozen, he]
  rw [State.evictReply, hclosed, State.deregOutcome]
  cases hs : e.serving with
  | none => simp
  | some i =>
    by_cases hsent : (s.mayCarry && (s.partner? i).isSome) = true <;> simp [hsent]

theorem exec_evict {s : State} {h : Nat} {e : Entry} (tag : Byte) (hs : s.hostReady) (he : s.entry? h = some e) :
    exec (.evict ⟨tag, some ⟨h, e.token⟩⟩) s = .next
      ((((s.joined (.evict ⟨tag, some ⟨h, e.token⟩⟩)).removeEntry h .evict (some .evict)).toHead e.port
        (.decline e.token .unavailable 0)).ok Kind.evict tag false (s.evictReply h e)) := by
  have hexec : exec (.evict ⟨tag, some ⟨h, e.token⟩⟩) s = execEvict ⟨tag, some ⟨h, e.token⟩⟩ s := rfl
  have hnamed : (s.joined (.evict ⟨tag, some ⟨h, e.token⟩⟩)).named? h e.token = some e := by
    have hn : s.named? h e.token = some e := by simp [State.named?, he, Option.filter]
    exact hn
  have hreply : s.evictReply h e = (s.joined (.evict ⟨tag, some ⟨h, e.token⟩⟩)).evictReply h e := rfl
  rw [hexec, execEvict, taken_checked hs rfl rfl, hreply, State.evictReply_eq (s := s.joined _) he]
  dsimp only
  rw [hnamed] <;> rfl

theorem State.removeEntry_cpc (h : Nat) (cause : RemovalCause) (reason : Option CloseReason) (s : State) :
    (s.removeEntry h cause reason).cpc = s.cpc := by
  cases he : s.entry? h with
  | none => simp only [State.removeEntry, he]
  | some e =>
    rw [State.removeEntry_eq cause reason he]
    have hd := congrArg State.cpc (State.deregister_frame h e ((s.closedFor reason h).freeBearers h))
    have hb := congrArg State.cpc (State.freeBearers_frame h (s.closedFor reason h))
    have ha := congrArg State.cpc (State.closedFor_frame reason h s)
    exact hd.trans (hb.trans ha)

/-- The DECLINE that EVICT sends a listening port (R52). -/
def State.evictDecline (s : State) (e : Entry) : List Sent :=
  if (s.port e.port).state = .down then [] else [.toHead e.port (.decline e.token .unavailable 0)]

theorem State.evicted_removed {s : State} {h : Nat} {e : Entry} (he : s.entry? h = some e) :
    s.removed h e .evict (some .evict) (s.evictDecline e)
      ((s.removeEntry h .evict (some .evict)).toHead e.port (.decline e.token .unavailable 0)) := by
  have hr := State.removeEntry_removed .evict (some .evict) he
  have hcpc := State.removeEntry_cpc h .evict (some .evict) s
  generalize s.removeEntry h .evict (some .evict) = u at *
  have hport : u.port e.port = s.port e.port := by simp only [State.port, hcpc]
  unfold State.evictDecline
  by_cases hdown : (s.port e.port).state = .down
  · have hsame : u.toHead e.port (.decline e.token .unavailable 0) = u := by
      simp [State.toHead, CellPort.listening, hport, hdown]
    rw [hsame, if_pos hdown]
    exact hr
  · rw [State.toHead_up _ (by rw [hport]; exact hdown), if_neg hdown]
    exact hr.sends _

/-- No entry has the handle of a removed one. -/
theorem State.removed.entry_none {s t : State} {h : Nat} {e : Entry} {cause : RemovalCause} {reason : Option CloseReason}
    {l : List Sent} (hr : s.removed h e cause reason l t) : t.entry? h = none := by
  unfold State.entry?
  rw [hr.1]
  exact (lookupKey_eraseKey h h _).trans (if_pos rfl)

/-- Settles O23: the parts of the removal, each where the statement speaks of it. -/
theorem removalFreesTheHandle : Obligations.RemovalFreesTheHandle := by
  unfold Obligations.RemovalFreesTheHandle
  refine ⟨fun s h e he => ⟨fun hp hup htok => ?depart, fun hp x hx hle => ?portLost, fun hp x hx hle => ?retention,
    fun hs tag => ?evict⟩, fun s p token hp hup hno => exec_depart_stale hp hup hno⟩
  case depart =>
    have hr := State.removeEntry_removed .depart (some .detach) he
    have hgone := hr.entry_none
    obtain ⟨htable, ⟨hno, hclosed⟩, hflight, hdereg⟩ := hr
    exact ⟨_, exec_depart hp hup htok, ⟨hgone, htable⟩, hno, hclosed, hflight, hdereg⟩
  case portLost =>
    have hr := (State.removeEntry_removed .portLost (some .portLost) he).countPort e.port fun c =>
      { c with portLostDepartures := bump32 c.portLostDepartures }
    have hgone := hr.entry_none
    obtain ⟨htable, ⟨hno, hclosed⟩, hflight, hdereg⟩ := hr
    exact ⟨_, exec_portLostExpiry hp he hx hle, ⟨hgone, htable⟩, hno, hclosed, hflight, hdereg⟩
  case retention =>
    have hr := State.removeEntry_removed .retention none he
    have hgone := hr.entry_none
    obtain ⟨htable, ⟨hno, hclosed⟩, hflight, hdereg⟩ := hr
    exact ⟨_, exec_retentionExpiry hp he hx hle, ⟨hgone, htable⟩, hno, hclosed, hflight, hdereg⟩
  case evict =>
    have hr := (State.evicted_removed (s := s.joined (.evict ⟨tag, some ⟨h, e.token⟩⟩)) he).ofJoined.ok
      Kind.evict tag false (s.evictReply h e)
    have hgone := hr.entry_none
    obtain ⟨htable, ⟨hno, hclosed⟩, hflight, hdereg⟩ := hr
    exact ⟨_, exec_evict tag hs he, ⟨⟨hgone, htable⟩, hno, hclosed, hflight, hdereg⟩, State.ok_repliedOk _ _ _ _ _⟩

end Sys2Proof.Machine
end

