-- ==== Sys2Proof/Proofs/Starting.lean ====
section
/-! SUPPORT. START (R20, R109, R179): what it misses, and the isolation that stands when no link is ACTIVE. -/

namespace Sys2Proof.Machine

/-! ### No link is ACTIVE -/

/-- No link is in ACTIVE. -/
abbrev State.noneActive (s : State) : Prop := ∀ l, (s.link l).state ≠ .active

theorem mem_allLinks (l : Fin 4) : l ∈ allLinks := by
  revert l; decide

theorem State.activeLink?_eq_none {s : State} : s.activeLink? = none ↔ s.noneActive := by
  simp [State.activeLink?, mem_allLinks]

theorem State.noneActive_onLink {s : State} (l : Fin 4) (f : Link → Link) (hs : s.noneActive)
    (hf : ∀ k : Link, k.state ≠ .active → (f k).state ≠ .active) : (s.onLink l f).noneActive := by
  intro k
  rw [State.link_onLink]
  split
  · exact hf _ (hs l)
  · exact hs k

theorem State.noneActive_of_slm {s t : State} (h : t.slm = s.slm) (hs : s.noneActive) : t.noneActive := by
  unfold State.noneActive State.link at *
  rw [h]
  exact hs

theorem State.noneActive_raise {s : State} (n : Notice) (hs : s.noneActive) : (s.raise n).noneActive :=
  State.noneActive_of_slm (by rw [State.raise_frame]) hs

theorem State.noneActive_offer {s : State} (l : Fin 4) (r : ShoreRecord) (hs : s.noneActive) :
    (s.offer l (.plain r)).noneActive := by
  unfold State.offer
  split
  · cases r
    case move n =>
      intro k
      change ((s.onSlm _).link k).state ≠ .active
      simp only [State.link, State.onSlm_slm]
      split
      · exact hs k
      · exact hs k
    all_goals exact hs
  · exact State.noneActive_onLink l _ hs fun _ hk => hk

/-- A swap that begins makes no link ACTIVE. -/
theorem State.noneActive_beginSwap {s : State} (l : Fin 4) (planned : Bool) (hs : s.noneActive) :
    (s.beginSwap l planned).noneActive := by
  unfold State.beginSwap State.linkChanged
  dsimp only
  apply State.noneActive_offer
  apply State.noneActive_raise
  apply State.noneActive_onLink
  · exact hs
  · exact fun _ _ => LinkState.noConfusion

/-- Selection alone makes no link ACTIVE. -/
theorem State.noneActive_workOut {s : State} (hs : s.noneActive) : s.workOut.noneActive := by
  unfold State.workOut
  split
  case isTrue => exact hs
  split
  case isTrue => exact hs
  split
  · exact State.noneActive_beginSwap _ _ hs
  · exact hs
  · exact hs
  · split
    case isTrue => exact hs
    split
    case isTrue => exact hs
    split
    case isTrue => exact State.noneActive_beginSwap _ _ hs
    exact hs

/-! ### The cut-off leaves the isolation's beginning -/

theorem State.withdrawOffer_isolated (s : State) : s.withdrawOffer.slm.isolated = s.slm.isolated := by
  unfold State.withdrawOffer
  split
  · exact State.eachOf_keeps (P := fun t => t.slm.isolated = s.slm.isolated) allLinks
      (f := fun l u => u.onLink l fun k => { k with waiting := withoutOffer k.waiting }) (fun _ _ _ ht => ht) rfl
  · rfl

theorem State.raiseLoss_slm (h a : Nat) (s : State) : (s.raiseLoss h a).slm = s.slm := by
  unfold State.raiseLoss
  split
  · rfl
  · dsimp only
    split <;> rfl

theorem State.shedHead_isolated (s : State) : s.shedHead.slm.isolated = s.slm.isolated := by
  unfold State.shedHead
  split
  · rfl
  · dsimp only
    rw [State.raiseLoss_slm]
    exact s.withdrawOffer_isolated

theorem State.shedAll_isolated (n : Nat) (s : State) : (s.shedAll n).slm.isolated = s.slm.isolated := by
  induction n generalizing s with
  | zero => rfl
  | succ n ih => exact (ih _).trans s.shedHead_isolated

theorem State.toHead_slm (p : Fin 6) (r : HeadRecord) (s : State) : (s.toHead p r).slm = s.slm := by
  unfold State.toHead
  split <;> rfl

theorem State.reportFall_slm (s : State) : s.reportFall.slm = s.slm := by
  unfold State.reportFall
  split
  · refine State.eachOf_keeps (P := fun t => t.slm = s.slm) _ (fun p _ t ht => ?_) rfl
    split
    · exact (State.toHead_slm p .resume t).trans ht
    · exact ht
  · rfl

theorem State.beginCutOff_isolated (s : State) : s.beginCutOff.slm.isolated = s.slm.isolated := by
  unfold State.beginCutOff
  refine State.eachOf_keeps (P := fun t => t.slm.isolated = s.slm.isolated) _ (fun h _ t ht => ?_) ?_
  · rw [State.sendLevel_frame]; exact ht
  · change (s.shedAll _).reportFall.slm.isolated = _
    rw [State.reportFall_slm, State.shedAll_isolated]

theorem State.graceEnds_isolated (s : State) :
    (if s.slm.grace = 0 then s.beginCutOff else s).slm.isolated = s.slm.isolated := by
  split
  · exact s.beginCutOff_isolated
  · rfl

theorem State.beginIsolation_isolated (lost : Option (Fin 4)) (cause : LossCause) (s : State) :
    (s.beginIsolation lost cause).slm.isolated = some s.mli.clock := by
  unfold State.beginIsolation
  refine (State.graceEnds_isolated _).trans ?_
  rw [State.raise_frame]
  rfl

/-! ### START -/

theorem exec_start {s : State} (tag : Byte) (hs : s.hostReady) : exec (.start ⟨tag, some ()⟩) s = .next
    (if (s.joined (.start ⟨tag, some ()⟩)).running then
        (s.joined (.start ⟨tag, some ()⟩)).refuse Kind.start tag .wrongState
      else if s.missing != 0 then
        (s.joined (.start ⟨tag, some ()⟩)).complete Kind.start tag (some .wrongState) false (le 1 s.missing)
      else (s.joined (.start ⟨tag, some ()⟩)).startDevice.ok Kind.start tag false
        (le 1 (s.joined (.start ⟨tag, some ()⟩)).startDevice.tracker.zones.length
          ++ le 1 (s.joined (.start ⟨tag, some ()⟩)).startDevice.rge.partners.length
          ++ le 1 (allLinks.countP fun l => ((s.joined (.start ⟨tag, some ()⟩)).startDevice.link l).state == .ready))) := by
  have hexec : exec (.start ⟨tag, some ()⟩) s = execStart ⟨tag, some ()⟩ s := rfl
  rw [hexec, execStart, taken_checked hs rfl rfl]
  rfl

theorem State.missing_eq (s : State) : s.missing = (if s.tracker.zones = [] then 1 else 0)
    + (if s.rge.partners = [] then 2 else 0) + (if s.rtu.activeExists then 0 else 4) := by
  simp [State.missing]

/-- A refusal with fields of its own. -/
theorem State.joined_completed {c : Instr} {s : State} (kind tag : Byte) (clamped : Bool) (r : Reason) (fields : List Byte)
    (hs : s.hostIdle) :
    (s.joined c).complete kind tag (some r) clamped fields = s.turnedAwayClamped kind tag clamped r fields := by
  rw [← State.taken_refused (c := c) kind tag clamped r fields hs.1 hs.2, State.joinInput_empty c hs.2]
  rfl

/-- The device RUNNING with START's tracker, before isolation is looked at. -/
def State.startedUp (s : State) : State :=
  (s.onMli fun m => { m with device := .running }).onTracker (Tracker.started s.now)

theorem State.startDevice_eq (s : State) : s.startDevice =
    if s.startedUp.workOut.activeLink?.isNone then s.startedUp.workOut.beginIsolation none .start
    else s.startedUp.workOut := rfl

theorem State.startDevice_kept (s : State) : s.startDevice.kept = s.startedUp.kept := by
  rw [State.startDevice_eq]
  split
  · rw [State.beginIsolation_kept, State.workOut_kept]
  · exact State.workOut_kept _

theorem State.handles_of_kept {s t : State} (h : t.kept = s.kept) : t.handles = s.handles := by
  have ha := congrArg (fun k : Kept => k.accounts.map (·.1)) h
  simp only [State.kept, List.map_map] at ha
  exact ha

/-- Without an ACTIVE link isolation stands once the device has started (R109). -/
theorem State.startDevice_isolated {s : State} (hno : s.activeLink? = none) :
    s.startDevice.slm.isolated = some s.mli.clock := by
  have hidle : s.startedUp.workOut.activeLink? = none :=
    State.activeLink?_eq_none.2 (State.noneActive_workOut (s := s.startedUp) (State.activeLink?_eq_none.1 hno))
  have hclock : s.startedUp.workOut.mli.clock = s.startedUp.mli.clock :=
    State.clock_of_standing (State.workOut_standing s.startedUp)
  rw [State.startDevice_eq, hidle]
  exact (State.beginIsolation_isolated none .start _).trans (congrArg some hclock)

theorem exec_start_running {s : State} (tag : Byte) (hs : s.hostReady) (hdev : s.mli.device = .running) :
    exec (.start ⟨tag, some ()⟩) s = .next (s.turnedAway Kind.start tag .wrongState []) := by
  have hrun : (s.joined (.start ⟨tag, some ()⟩)).running = true := by
    change (s.mli.device == .running) = true
    rw [hdev]; rfl
  rw [exec_start tag hs, if_pos hrun]
  exact congrArg _ (State.joined_completed Kind.start tag false .wrongState [] hs.idle)

theorem State.joined_unconfigured {c : Instr} {s : State} (hdev : s.mli.device = .unconfigured) :
    ¬ (s.joined c).running = true := by
  change ¬ (s.mli.device == .running) = true
  rw [hdev]; decide

theorem exec_start_missing {s : State} (tag : Byte) (hs : s.hostReady) (hdev : s.mli.device = .unconfigured)
    (hmiss : s.missing ≠ 0) :
    exec (.start ⟨tag, some ()⟩) s = .next (s.turnedAway Kind.start tag .wrongState (le 1 s.missing)) := by
  rw [exec_start tag hs, if_neg (State.joined_unconfigured hdev), if_pos (bne_iff_ne.2 hmiss)]
  exact congrArg _ (State.joined_completed Kind.start tag false .wrongState _ hs.idle)

theorem exec_start_accepted {s : State} (tag : Byte) (hs : s.hostReady) (hdev : s.mli.device = .unconfigured)
    (hmiss : s.missing = 0) : ∃ fields, exec (.start ⟨tag, some ()⟩) s =
      .next ((s.joined (.start ⟨tag, some ()⟩)).startDevice.ok Kind.start tag false fields) := by
  rw [exec_start tag hs, if_neg (State.joined_unconfigured hdev), if_neg (by simp [hmiss])]
  exact ⟨_, rfl⟩

/-- What START makes of the device (R20, R109, R179). -/
theorem State.startDevice_started (c : Instr) (s : State) (kind tag : Byte) (clamped : Bool) (fields : List Byte) :
    let t := (s.joined c).startDevice.ok kind tag clamped fields
    t.mli.device = .running ∧ t.tracker = Tracker.started s.mli.clock s.tracker ∧
      (s.activeLink? = none → t.slm.isolated = some s.mli.clock) ∧ t.handles = s.handles := by
  have hkept := (s.joined c).startDevice_kept
  have hhandles : (s.joined c).startDevice.handles = (s.joined c).startedUp.handles := State.handles_of_kept hkept
  exact ⟨congrArg Kept.device hkept, congrArg Kept.tracker hkept,
    fun hno => State.startDevice_isolated (s := s.joined c) hno, hhandles⟩

end Sys2Proof.Machine
end

