-- ==== Sys2Proof/Proofs/Flushes.lean ====
section
/-! SUPPORT. The flush of a RESET: when it stalls, what it then loses, and that nothing is begun behind it (R170, R180). -/

namespace Sys2Proof.Machine

/-! ### The arbiter begins a write, or only another operation -/

theorem State.beginOther_cases (s : State) :
    ∃ op w, s.beginOther = s.onRsc fun r => { r with op := op, lastWasWrite := w } := by
  unfold State.beginOther
  split
  · exact ⟨_, _, rfl⟩
  · split
    · exact ⟨_, _, rfl⟩
    · exact ⟨s.rsc.op, s.rsc.lastWasWrite, rfl⟩

theorem State.checkLow_job (s : State) : s.checkLow.rsc.job = s.rsc.job := by
  unfold State.checkLow
  dsimp only
  split
  · split
    · rfl
    · rw [State.raise_frame]; rfl
  · rfl

theorem State.beginWrite_cases (s : State) : s.beginWrite = s ∨ s.beginWrite.rsc.job ≠ none := by
  unfold State.beginWrite
  split
  · exact .inl rfl
  · split
    · split
      · exact .inl rfl
      · exact .inr (Option.some_ne_none _)
    · split
      · exact .inl rfl
      · refine .inr ?_
        dsimp only
        rw [State.checkLow_job]
        exact Option.some_ne_none _

/-- The arbiter begins at most a clear or a read, or a write that was ready (R159). -/
theorem State.arbitrate_cases (s : State) :
    (∃ op w, s.arbitrate = s.onRsc fun r => { r with op := op, lastWasWrite := w }) ∨
    s.writeReady = true ∧ s.arbitrate.rsc.job ≠ none := by
  have hsame : ∃ op w, s = s.onRsc fun r => { r with op := op, lastWasWrite := w } := ⟨s.rsc.op, s.rsc.lastWasWrite, rfl⟩
  unfold State.arbitrate
  dsimp only
  split
  case isTrue => exact .inl hsame
  split
  case isTrue hw =>
    obtain hno | hjob := s.beginWrite_cases
    · rw [hno]; exact .inl hsame
    · exact .inr ⟨(Bool.and_eq_true _ _ ▸ hw).1, hjob⟩
  split
  case isTrue => exact .inl s.beginOther_cases
  case isFalse => exact .inl hsame

/-! ### The work of a RESET -/

/-- A RESET is under way whose flush has not ended, with the periods it closed. -/
abbrev State.flushing (closed : Nat) (s : State) : Prop := s.mli.work = some (.resetting closed none)

/-- A write waits for a free logical slot (R170). -/
theorem State.writeStalled_iff {s : State} : s.writeStalled = true ↔
    s.rtu.closeQueue ≠ [] ∧ s.rsc.freeLevel = 0 ∧ s.rsc.buffer = [] ∧ s.rsc.job = none := by
  simp [State.writeStalled, and_assoc]

/-- Behind a flush that has stalled the arbiter begins nothing. -/
theorem State.arbitrate_stalled {closed : Nat} {s : State} (hwork : s.flushing closed) (hst : s.writeStalled = true) :
    s.arbitrate = s := by
  have hwaits : s.resetWaits = true := by simp [State.resetWaits, hwork, State.flushEnded, hst]
  simp [State.arbitrate, hwaits]

/-- Nor behind one whose loss is counted. -/
theorem State.arbitrate_lost {closed lost : Nat} {s : State} (hwork : s.mli.work = some (.resetting closed (some lost))) :
    s.arbitrate = s := by
  have hwaits : s.resetWaits = true := by simp [State.resetWaits, hwork]
  simp [State.arbitrate, hwaits]

/-- The closures that wait are lost at once, `lost` in all, and CLOSURE-LOST is raised for them (R170, R180). -/
def State.lostAtOnce (closed lost : Nat) (s t : State) : Prop :=
  t.mli.work = some (.resetting closed (some lost)) ∧ t.rtu.closeQueue = [] ∧ t.rtu.waitList = [] ∧
  t.rsc.counters.lostClosures = (s.rsc.counters.lostClosures + lost) % 4294967296 ∧
  t.mli.tx = (s.raise (.storeFault .closureLost s.rsc.sparePool s.rsc.dead.length s.rsc.capacity
    ((s.rsc.counters.lostClosures + lost) % 4294967296) none s.mli.shipTime 1)).mli.tx

/-- `s` and `a` agree on what a CLOSURE-LOST tells of, and on what is ready to be sent. -/
structure State.sameFault (s a : State) : Prop where
  usedSpares : a.rsc.usedSpares = s.rsc.usedSpares
  dead : a.rsc.dead = s.rsc.dead
  lostClosures : a.rsc.counters.lostClosures = s.rsc.counters.lostClosures
  shipTime : a.mli.shipTime = s.mli.shipTime
  tx : a.mli.tx = s.mli.tx

theorem State.raise_tx_congr (n : Notice) {s a : State} (h : a.mli.tx = s.mli.tx) : (a.raise n).mli.tx = (s.raise n).mli.tx := by
  unfold State.raise State.onMli
  dsimp only
  rw [h]
  split
  · rfl
  · split <;> rfl

theorem State.lostAtOnce.congr {closed lost : Nat} {s a t : State} (h : a.lostAtOnce closed lost t) (hsame : s.sameFault a) :
    s.lostAtOnce closed lost t := by
  obtain ⟨hwork, hqueue, hwait, hlost, htx⟩ := h
  obtain ⟨hspares, hdead, hcount, htime, hready⟩ := hsame
  refine ⟨hwork, hqueue, hwait, hlost.trans (by rw [hcount]), htx.trans ?_⟩
  rw [State.raise_tx_congr _ hready]
  simp only [Rsc.sparePool, Rsc.capacity, hspares, hdead, hcount, htime]

/-- A flush that has stalled loses what waits. -/
theorem State.endFlush_stalled {closed : Nat} {s : State} (hwork : s.flushing closed) (hst : s.writeStalled = true) :
    s.lostAtOnce closed s.stillWaiting s.endFlush := by
  have heq : s.endFlush = ((s.closuresLost s.stillWaiting).onRtu fun u => { u with closeQueue := [], waitList := [] }).onMli
      fun m => { m with work := some (.resetting closed (some s.stillWaiting)) } := by
    unfold State.endFlush
    simp only [hwork, hst, if_true]
  have hcounters : (s.closuresLost s.stillWaiting).rsc = { s.rsc with counters := { s.rsc.counters with
      lostClosures := (s.rsc.counters.lostClosures + s.stillWaiting) % 4294967296 } } := by
    unfold State.closuresLost State.storeFault
    rw [State.raise_frame]
    rfl
  rw [heq]
  exact ⟨rfl, rfl, rfl, congrArg (fun r => r.counters.lostClosures) hcounters, State.raise_tx_congr _ rfl⟩

theorem State.endFlush_goesOn {s : State} (hst : s.writeStalled = false) : s.endFlush = s := by
  unfold State.endFlush
  split
  · simp only [hst, Bool.false_eq_true, if_false]
  · rfl

theorem State.endFlush_table (s : State) : s.endFlush.table = s.table := by
  unfold State.endFlush State.closuresLost State.storeFault
  split
  · split
    · rw [State.raise_frame]; rfl
    · rfl
  · rfl

/-- With the low condition standing and no slot free the low watermark tells of nothing new. -/
theorem State.checkLow_full {s : State} (hfree : s.rsc.freeLevel = 0) (hlow : s.rsc.lowStands = true) : s.checkLow = s := by
  simp [State.checkLow, hfree, hlow, Limits.lowWatermark]

/-- An operation ends and leaves a write waiting: what waits is lost, and no other operation begins. -/
theorem State.nextOperation_stalled {closed : Nat} {s : State} (hwork : s.flushing closed) (hst : s.writeStalled = true)
    (hlow : s.rsc.lowStands = true) : s.nextOperation = s.endFlush := by
  obtain ⟨_, hfree, _, _⟩ := State.writeStalled_iff.1 hst
  rw [State.nextOperation, State.checkLow_full hfree hlow]
  exact State.arbitrate_lost (State.endFlush_stalled hwork hst).1

/-! ### The close queue fed from the wait list -/

theorem State.openPeriod_frame (h : Nat) (s : State) : s.openPeriod h =
    { s with table := (s.openPeriod h).table, rtu := { s.rtu with counters := (s.openPeriod h).rtu.counters } } := by
  unfold State.openPeriod
  split
  · rfl
  · split
    · split <;> rfl
    · rfl

/-- The queue takes a record from the wait list; none is lost and none comes to be. -/
theorem State.feedQueue_frame (s : State) :
    s.feedQueue = { s with table := s.feedQueue.table, rtu := s.feedQueue.rtu } ∧
    s.feedQueue.stillWaiting = s.stillWaiting ∧ (s.rtu.closeQueue ≠ [] → s.feedQueue.rtu.closeQueue ≠ []) := by
  unfold State.feedQueue
  split
  · exact ⟨rfl, rfl, id⟩
  · rename_i w rest hw
    split
    · have hcount : s.rtu.closeQueue.length + 1 + rest.length = s.stillWaiting := by
        simp [State.stillWaiting, hw, Nat.add_assoc, Nat.add_comm 1]
      dsimp only
      split
      · exact ⟨rfl, by simpa [State.stillWaiting] using hcount, by simp⟩
      · split
        · rw [State.openPeriod_frame]
          exact ⟨rfl, by simpa [State.stillWaiting] using hcount, by simp⟩
        · exact ⟨rfl, by simpa [State.stillWaiting] using hcount, by simp⟩
    · exact ⟨rfl, rfl, id⟩

end Sys2Proof.Machine
end

