-- ==== Sys2Proof/Proofs/ResetBegins.lean ====
section
/-! SUPPORT. RESET begins: every unfrozen period closes, and a flush that stalls at once loses what waits (R157, R170,
R180). -/

namespace Sys2Proof.Machine

/-! ### Open, unfrozen periods -/

/-- The entry has an open period that is not frozen. -/
def Entry.unfrozen (e : Entry) : Bool := e.period.isSome && !e.closing

theorem State.openPeriods_eq (s : State) : s.openPeriods = s.table.entries.countP fun p => p.2.unfrozen := rfl

theorem Entry.closed_unfrozen (q : Bool) (e : Entry) : (e.closed q).unfrozen = false := by
  unfold Entry.closed Entry.unfrozen
  split
  case isTrue => cases q <;> simp
  case isFalse h => exact Bool.not_eq_true _ ▸ h

theorem countP_alterKey {α : Type} {k : Nat} {e : α} {f : α → α} {p : α → Bool} {l : List (Nat × α)}
    (he : lookupKey k l = some e) (hp : p e = true) (hf : p (f e) = false) :
    (alterKey k f l).countP (fun x => p x.2) + 1 = l.countP fun x => p x.2 := by
  induction l with
  | nil => cases he
  | cons x rest ih =>
    obtain ⟨a, y⟩ := x
    by_cases ha : a = k
    · obtain rfl : y = e := by simpa [lookupKey, ha] using he
      simp [alterKey, ha, hp, hf]
    · have hrest := ih (by simpa [lookupKey, ha] using he)
      simp only [alterKey, if_neg ha, List.countP_cons]
      omega

/-- A closure of an unfrozen period leaves one fewer. -/
theorem State.closePeriod_openPeriods {r : CloseReason} {h : Nat} {e : Entry} {s : State} (he : s.entry? h = some e)
    (hopen : e.unfrozen = true) : (s.closePeriod r h).openPeriods + 1 = s.openPeriods := by
  have htable : (s.closePeriod r h).openPeriods = (s.onEntry h (Entry.closed s.queueOpen)).openPeriods :=
    congrArg (fun t : Table => t.entries.countP fun p : Nat × Entry => p.2.unfrozen) (State.closePeriod_table r h s)
  rw [htable]
  exact countP_alterKey he hopen (Entry.closed_unfrozen _ e)

theorem lookupKey_of_mem {α : Type} {k : Nat} {e : α} {l : List (Nat × α)} (hnd : (l.map (·.1)).Nodup)
    (hmem : (k, e) ∈ l) : lookupKey k l = some e := by
  induction l with
  | nil => cases hmem
  | cons x rest ih =>
    obtain ⟨a, y⟩ := x
    obtain ⟨hnot, hrest⟩ := List.nodup_cons.1 (show (a :: rest.map (·.1)).Nodup from hnd)
    obtain heq | hin := List.mem_cons.1 hmem
    · cases heq; simp [lookupKey]
    · have hne : a ≠ k := fun ha => hnot (ha ▸ List.mem_map_of_mem (f := (·.1)) hin)
      simpa [lookupKey, hne] using ih hrest hin

theorem State.closeAll_handles (r : CloseReason) (s : State) : (s.closeAll r).handles = s.handles :=
  State.handles_of_kept (State.closeAll_kept r s)

/-- After a round of closures no period is open and unfrozen. -/
theorem State.closeAll_openPeriods (r : CloseReason) {s : State} (hnd : s.handles.Nodup) :
    (s.closeAll r).openPeriods = 0 := by
  have hhandles := State.closeAll_handles r s
  rw [State.openPeriods_eq, List.countP_eq_zero]
  rintro ⟨h, e⟩ hmem
  have hh : h ∈ s.handles := by
    rw [← hhandles]
    exact List.mem_map_of_mem (f := (·.1)) hmem
  have hlook : (s.closeAll r).entry? h = some e := lookupKey_of_mem (by rw [← hhandles] at hnd; exact hnd) hmem
  have hround : ∀ x, (s.closeAll r).entry? h = some x → x.unfrozen = false :=
    State.eachEntry_turn (P := fun _ => True) (Q := fun u => ∀ x, u.entry? h = some x → x.unfrozen = false) hnd hh
      (fun _ _ _ _ => trivial)
      (fun u _ x hx => by
        rw [State.closePeriod_entry?, if_pos rfl] at hx
        obtain ⟨y, _, rfl⟩ := Option.map_eq_some_iff.1 hx
        exact Entry.closed_unfrozen _ y)
      (fun j hj u hu x hx => hu x (by rwa [State.closePeriod_entry?, if_neg hj] at hx))
      trivial
  simp [hround e hlook]

/-! ### A flush that stalls at once -/

/-- No slot is free, and no write is under way or in the buffer: what enters the close queue waits. -/
def Rsc.full (r : Rsc) : Prop := r.freeLevel = 0 ∧ r.buffer = [] ∧ r.job = none

/-- The flush of a RESET stalls once the periods that are open have closed. -/
def State.stalls (s : State) : Prop :=
  s.rsc.full ∧ (s.rtu.closeQueue ≠ [] ∨ s.openPeriods ≠ 0 ∧ s.rtu.waitList = [])

theorem State.stalls_of_writeStalled {s : State} (h : s.writeStalled = true) : s.stalls := by
  obtain ⟨hqueue, hfree, hbuffer, hjob⟩ := State.writeStalled_iff.1 h
  exact ⟨⟨hfree, hbuffer, hjob⟩, .inl hqueue⟩

/-- The records and periods that the flush has still to bring into memory. -/
def State.owed (s : State) : Nat := s.rtu.closeQueue.length + s.rtu.waitList.length + s.openPeriods

/-- `t` is `s` after closures in a flush that stalls: the store and the interface as they were, no record gone, and the wait
list still has room for the rest. -/
structure State.stallsOn (s t : State) : Prop where
  rsc : t.rsc = s.rsc
  mli : t.mli = s.mli
  owed : t.owed = s.owed
  room : t.rtu.waitList.length + t.openPeriods ≤ Limits.waitList
  stalls : t.stalls

theorem State.enqueueClosure_stalled {closed : Nat} {r : CloseReason} {h : Nat} {e : Entry} {p : Period} {s : State}
    (hwork : s.flushing closed) (hfull : s.rsc.full) : s.enqueueClosure r h e p =
      ((s.countClosure r).onRtu fun u => { u with
        closeQueue := u.closeQueue ++ [s.closureRecord e p r false] }).onEntry h fun e => { e with period := none } := by
  obtain ⟨hfree, hbuffer, hjob⟩ := hfull
  refine State.arbitrate_stalled (closed := closed) hwork (State.writeStalled_iff.2 ⟨?_, hfree, hbuffer, hjob⟩)
  exact List.append_ne_nil_of_right_ne_nil _ (List.cons_ne_nil _ _)

theorem State.delayClosure_roomy {r : CloseReason} {h : Nat} {e : Entry} {p : Period} {s : State}
    (hroom : s.rtu.waitList.length < Limits.waitList) : s.delayClosure r h e p =
      ((s.countClosure r).onRtu fun u => { u with
        waitList := u.waitList ++ [⟨h, e.attach, s.closureRecord e p r true⟩],
        counters := { u.counters with
          delayed := bump32 u.counters.delayed, peakWait := max u.counters.peakWait (u.waitList.length + 1) } }).onEntry h
        fun e => { e with closing := true } := by
  have hmake : (s.countClosure r).makeRoom = s.countClosure r := if_pos hroom
  rw [State.delayClosure, State.joinWaitList, hmake]

theorem State.closePeriod_stallsOn {closed : Nat} {r : CloseReason} {h : Nat} {s t : State} (hwork : s.flushing closed)
    (ht : s.stallsOn t) : s.stallsOn (t.closePeriod r h) := by
  obtain ⟨hsame, _⟩ | ⟨e, p, he, hp, hc⟩ := State.closePeriod_cases r h t
  · rw [hsame]; exact ht
  have hopen := State.closePeriod_openPeriods (r := r) he (show e.unfrozen = true by simp [Entry.unfrozen, hp, hc])
  obtain ⟨hrsc, hmli, howed, hroom, hfull, hwaits⟩ := ht
  unfold State.owed at howed
  rw [State.closePeriod_unfrozen he hp hc] at hopen ⊢
  split at hopen
  case isTrue hq =>
    rw [if_pos hq]
    have htwork : t.flushing closed := by unfold State.flushing; rw [hmli]; exact hwork
    have hqueue : (t.enqueueClosure r h e p).rtu.closeQueue = t.rtu.closeQueue ++ [t.closureRecord e p r false] := by
      rw [State.enqueueClosure_stalled htwork hfull]; rfl
    have hwait := State.enqueueClosure_waitList r h e p t
    have hkeep : (t.enqueueClosure r h e p).rsc = t.rsc ∧ (t.enqueueClosure r h e p).mli = t.mli := by
      rw [State.enqueueClosure_stalled htwork hfull]; exact ⟨rfl, rfl⟩
    generalize t.enqueueClosure r h e p = u at *
    refine ⟨hkeep.1.trans hrsc, hkeep.2.trans hmli, ?_, ?_, hkeep.1 ▸ hfull, .inl (by simp [hqueue])⟩
    · simp only [State.owed, hqueue, hwait, List.length_append, List.length_singleton]; omega
    · rw [hwait]; omega
  case isFalse hq =>
    rw [if_neg hq]
    have hlt : t.rtu.waitList.length < Limits.waitList := by omega
    have hqueue := State.delayClosure_closeQueue r h e p t
    have hwait : (t.delayClosure r h e p).rtu.waitList = t.rtu.waitList ++ [⟨h, e.attach, t.closureRecord e p r true⟩] := by
      rw [State.delayClosure_roomy hlt]; rfl
    have hkeep : (t.delayClosure r h e p).rsc = t.rsc ∧ (t.delayClosure r h e p).mli = t.mli := by
      rw [State.delayClosure_roomy hlt]; exact ⟨rfl, rfl⟩
    generalize t.delayClosure r h e p = u at *
    have hne : t.rtu.closeQueue ≠ [] := by
      obtain hne | ⟨_, hnil⟩ := hwaits
      · exact hne
      · intro hempty
        exact hq (by simp [State.queueOpen, hempty, hnil, Limits.closeQueue])
    refine ⟨hkeep.1.trans hrsc, hkeep.2.trans hmli, ?_, ?_, hkeep.1 ▸ hfull, .inl (by rw [hqueue]; exact hne)⟩
    · simp only [State.owed, hqueue, hwait, List.length_append, List.length_singleton]; omega
    · simp only [hwait, List.length_append, List.length_singleton]; omega

/-- A flush that stalls at once loses every closure: those that waited and those of the periods just closed. -/
theorem State.closeAll_stalls {closed : Nat} {r : CloseReason} {s : State} (hnd : s.handles.Nodup) (hwork : s.flushing closed)
    (hst : s.stalls) (hroom : s.rtu.waitList.length + s.openPeriods ≤ Limits.waitList) :
    s.lostAtOnce closed s.owed (s.closeAll r).endFlush := by
  have hround : s.stallsOn (s.closeAll r) :=
    State.eachOf_keeps (P := s.stallsOn) s.handles (fun h _ t ht => State.closePeriod_stallsOn hwork ht)
      ⟨rfl, rfl, rfl, hroom, hst⟩
  have hnone := State.closeAll_openPeriods r hnd
  generalize s.closeAll r = u at *
  obtain ⟨hrsc, hmli, howed, _, ⟨hfree, hbuffer, hjob⟩, hwaits⟩ := hround
  have hqueue : u.rtu.closeQueue ≠ [] := hwaits.resolve_right fun ⟨hsome, _⟩ => hsome hnone
  have huwork : u.flushing closed := by unfold State.flushing; rw [hmli]; exact hwork
  have hcount : u.stillWaiting = s.owed := by rw [← howed, State.owed, hnone]; rfl
  rw [← hcount]
  refine (State.endFlush_stalled huwork (State.writeStalled_iff.2 ⟨hqueue, hfree, hbuffer, hjob⟩)).congr ?_
  exact ⟨by rw [hrsc], by rw [hrsc], by rw [hrsc], by rw [hmli], by rw [hmli]⟩

/-! ### A flush that goes on -/

/-- Where no write is under way behind the arbiter, it has left the store full or not, as it was. -/
theorem State.full_of_arbitrate {s : State} (h : s.arbitrate.rsc.full) : s.rsc.full := by
  obtain ⟨op, w, heq⟩ | ⟨_, hjob⟩ := State.arbitrate_cases s
  · rw [heq] at h; exact h
  · exact absurd h.2.2 hjob

theorem State.full_of_enqueueClosure {r : CloseReason} {h : Nat} {e : Entry} {p : Period} {s : State}
    (hfull : (s.enqueueClosure r h e p).rsc.full) : s.rsc.full :=
  State.full_of_arbitrate (s := ((s.countClosure r).onRtu fun u => { u with
    closeQueue := u.closeQueue ++ [s.closureRecord e p r false] }).onEntry h fun e => { e with period := none }) hfull

theorem State.makeRoom_full {s : State} (h : s.makeRoom.rsc.full) : s.rsc.full := by
  unfold State.makeRoom at h
  split at h
  · exact h
  · split at h
    · exact h
    · unfold State.closuresLost State.storeFault at h
      rw [State.raise_frame] at h
      exact h

/-- A closure makes no flush stall that would not have stalled. -/
theorem State.stalls_of_closePeriod {r : CloseReason} {h : Nat} {s : State} (hst : (s.closePeriod r h).stalls) :
    s.stalls := by
  obtain ⟨hsame, _⟩ | ⟨e, p, he, hp, hc⟩ := State.closePeriod_cases r h s
  · rw [hsame] at hst; exact hst
  have hopen := State.closePeriod_openPeriods (r := r) he (show e.unfrozen = true by simp [Entry.unfrozen, hp, hc])
  obtain ⟨hfull, hwaits⟩ := hst
  rw [State.closePeriod_unfrozen he hp hc] at hfull hwaits
  split at hfull
  case isTrue hq =>
    have hnil : s.rtu.waitList = [] := by
      simp only [State.queueOpen, Bool.and_eq_true, List.isEmpty_iff] at hq
      exact hq.2
    exact ⟨State.full_of_enqueueClosure hfull, .inr ⟨by omega, hnil⟩⟩
  case isFalse hq =>
    rw [if_neg hq, State.delayClosure_closeQueue, State.delayClosure_waitList] at hwaits
    refine ⟨State.makeRoom_full (s := s.countClosure r) hfull, .inl (hwaits.resolve_right ?_)⟩
    rintro ⟨_, hnil⟩
    exact List.cons_ne_nil _ _ (List.append_eq_nil_iff.1 hnil).2

theorem State.stalls_of_closeAll {r : CloseReason} {s : State} (hst : (s.closeAll r).stalls) : s.stalls := by
  have hround : (s.closeAll r).stalls → s.stalls :=
    State.eachOf_keeps (P := fun t => t.stalls → s.stalls) s.handles
      (fun h _ t ht hclosed => ht (State.stalls_of_closePeriod hclosed)) id
  exact hround hst

/-! ### RESET -/

/-- A taken RESET holds the head of the input, with the periods it is to close. -/
def State.resetBegun (tag : Byte) (s : State) : State :=
  (s.joined (.reset ⟨tag, some ()⟩)).onMli fun m => { m with work := some (.resetting s.openPeriods none) }

theorem exec_reset {s : State} (tag : Byte) (hs : s.hostReady) :
    exec (.reset ⟨tag, some ()⟩) s = .next ((s.resetBegun tag).closeAll .reset).endFlush := by
  have hexec : exec (.reset ⟨tag, some ()⟩) s = execReset ⟨tag, some ()⟩ s := rfl
  rw [hexec, execReset, taken_checked hs rfl rfl]
  rfl

/-- What RESET leaves as it was, and that no period is left to close (R157, R180). -/
theorem State.resetBegun_closed {tag : Byte} {s t : State} (hnd : s.handles.Nodup)
    (ht : ((s.resetBegun tag).closeAll .reset).endFlush = t) :
    t.mli.input = [.reset ⟨tag, some ()⟩] ∧ t.openPeriods = 0 ∧ t.handles = s.handles ∧ t.mli.device = s.mli.device ∧
      t.tracker = s.tracker := by
  have hkept := State.endFlush_kept ((s.resetBegun tag).closeAll .reset)
  have htable := State.endFlush_table ((s.resetBegun tag).closeAll .reset)
  have hhandles := State.closeAll_handles .reset (s.resetBegun tag)
  have hnone := State.closeAll_openPeriods .reset (s := s.resetBegun tag) hnd
  rw [State.closeAll_kept, ht] at hkept
  rw [ht] at htable
  generalize (s.resetBegun tag).closeAll .reset = u at *
  refine ⟨congrArg Kept.input hkept, ?_, ?_, congrArg Kept.device hkept, congrArg Kept.tracker hkept⟩
  · rw [State.openPeriods, htable]; exact hnone
  · rw [State.handles, htable]; exact hhandles

/-- A flush that does not stall at once goes on. -/
theorem State.resetBegun_goesOn (tag : Byte) {s : State} (hno : ¬ s.stalls) :
    ((s.resetBegun tag).closeAll .reset).endFlush.mli.work = some (.resetting s.openPeriods none) := by
  have hbegun : ¬ (s.resetBegun tag).stalls := hno
  have hflush : ((s.resetBegun tag).closeAll .reset).writeStalled = false :=
    Bool.eq_false_iff.2 fun hst => hbegun (State.stalls_of_closeAll (State.stalls_of_writeStalled hst))
  rw [State.endFlush_goesOn hflush]
  exact congrArg Kept.work (State.closeAll_kept .reset (s.resetBegun tag))

/-- One that does loses every closure: those that waited and those of the periods just closed. -/
theorem State.resetBegun_stalls (tag : Byte) {s : State} (hnd : s.handles.Nodup) (hst : s.stalls)
    (hroom : s.rtu.waitList.length + s.openPeriods ≤ Limits.waitList) :
    s.lostAtOnce s.openPeriods s.owed ((s.resetBegun tag).closeAll .reset).endFlush := by
  have hlost : (s.resetBegun tag).lostAtOnce s.openPeriods (s.resetBegun tag).owed _ :=
    State.closeAll_stalls (r := .reset) hnd rfl hst hroom
  exact hlost.congr ⟨rfl, rfl, rfl, rfl, rfl⟩

end Sys2Proof.Machine
end

