-- ==== Sys2Proof/Proofs/ResetStalls.lean ====
section
/-! SUPPORT. A commit, or the kill of a slot, that leaves a write waiting ends the flush of a RESET STALLED (R163, R170,
R180). -/

namespace Sys2Proof.Machine

/-! ### A commit -/

/-- The record of job `j` has joined the ring, and the port is free. -/
def State.onRing (j : WriteJob) (s : State) : State :=
  s.onRsc fun r => { r with
    op := none, job := none, ring := r.ring ++ [{ serial := j.record.serial.getD 0, slot := j.slot, inFlight := false }],
    buffer := if j.direct then r.buffer else r.buffer.tail,
    counters := { r.counters with committed := bump32 r.counters.committed } }

/-- The close queue has given up its head. -/
def State.offQueue (s : State) : State := s.onRtu fun u => { u with closeQueue := u.closeQueue.tail }

/-- The record of job `j` has left the buffer or the close queue for the ring, and the wait list has fed the queue. -/
def State.putAway (j : WriteJob) (s : State) : State :=
  if j.direct then (s.onRing j).offQueue.feedQueue else s.onRing j

theorem State.commitRecord_eq (j : WriteJob) (s : State) : s.commitRecord j = (s.putAway j).nextOperation := rfl

/-- The slot of the write holds the record. -/
def State.written (slot : Nat) (j : WriteJob) (s : State) : State :=
  s.onRsc fun r => { r with memory := writeBytes (slotAddress r.remaps slot) j.record.bytes r.memory }

theorem exec_writeSlotDone_commits {s : State} {slot : Nat} {j : WriteJob} (hp : s.powered = true)
    (hop : s.rsc.op = some (.write slot)) (hjob : s.rsc.job = some j) (hsure : slot ∉ s.rsc.candidates) :
    exec (.writeSlotDone true) s = .next ((s.written slot j).commitRecord j) := by
  have hexec : exec (.writeSlotDone true) s = execWriteSlotDone true s := rfl
  have hno : ¬ (s.written slot j).rsc.candidates.contains slot = true := by
    simpa [State.written] using hsure
  rw [hexec, execWriteSlotDone, whenPowered_on _ hp]
  simp only [hop, hjob, if_true]
  exact congrArg _ (if_neg hno)

/-- What the commit of `j` leaves for the arbiter. -/
structure State.committed (j : WriteJob) (s t : State) : Prop where
  op : t.rsc.op = none
  job : t.rsc.job = none
  lowStands : t.rsc.lowStands = s.rsc.lowStands
  buffer : t.rsc.buffer = if j.direct then s.rsc.buffer else s.rsc.buffer.tail
  free : s.rsc.job = some j → (j.direct = false → s.rsc.buffer ≠ []) → t.rsc.freeLevel = s.rsc.freeLevel
  waiting : t.stillWaiting = (if j.direct then s.rtu.closeQueue.tail else s.rtu.closeQueue).length + s.rtu.waitList.length
  queue : (if j.direct then s.rtu.closeQueue.tail else s.rtu.closeQueue) ≠ [] → t.rtu.closeQueue ≠ []
  mli : t.mli = s.mli
  fault : s.sameFault t

/-- A commit takes as much from the write buffer, or from the write under way, as it gives the ring (R160). -/
theorem State.onRing_freeLevel {j : WriteJob} {s : State} (hjob : s.rsc.job = some j)
    (hbuffer : j.direct = false → s.rsc.buffer ≠ []) : (s.onRing j).rsc.freeLevel = s.rsc.freeLevel := by
  simp only [State.onRing, State.onRsc_rsc, Rsc.freeLevel, Rsc.capacity, Rsc.directWrites, hjob, List.length_append,
    List.length_singleton]
  cases hdirect : j.direct with
  | true => simp only [if_true]; omega
  | false =>
    obtain ⟨c, rest, hcons⟩ := List.exists_cons_of_ne_nil (hbuffer hdirect)
    simp only [hcons, Bool.false_eq_true, if_false, List.tail_cons, List.length_cons]
    omega

theorem State.putAway_committed (j : WriteJob) (s : State) : s.committed j (s.putAway j) := by
  unfold State.putAway
  by_cases hdirect : j.direct = true
  · rw [if_pos hdirect]
    obtain ⟨hframe, hwaiting, hqueue⟩ := State.feedQueue_frame (s.onRing j).offQueue
    have hrsc : (s.onRing j).offQueue.feedQueue.rsc = (s.onRing j).rsc := (congrArg State.rsc hframe :)
    have hmli : (s.onRing j).offQueue.feedQueue.mli = s.mli := (congrArg State.mli hframe :)
    generalize (s.onRing j).offQueue.feedQueue = t at *
    exact { op := congrArg Rsc.op hrsc, job := congrArg Rsc.job hrsc, lowStands := (congrArg Rsc.lowStands hrsc :),
            buffer := congrArg Rsc.buffer hrsc,
            free := fun hjob hbuffer => (congrArg Rsc.freeLevel hrsc).trans (State.onRing_freeLevel hjob hbuffer),
            waiting := by rw [if_pos hdirect]; exact hwaiting, queue := by rw [if_pos hdirect]; exact hqueue, mli := hmli,
            fault := ⟨(congrArg Rsc.usedSpares hrsc :), (congrArg Rsc.dead hrsc :),
              (congrArg (fun r : Rsc => r.counters.lostClosures) hrsc :), congrArg Mli.shipTime hmli, congrArg Mli.tx hmli⟩ }
  · rw [if_neg hdirect]
    exact { op := rfl, job := rfl, lowStands := rfl, buffer := rfl, free := State.onRing_freeLevel,
            waiting := by rw [if_neg hdirect]; rfl, queue := by rw [if_neg hdirect]; exact id, mli := rfl,
            fault := ⟨rfl, rfl, rfl, rfl, rfl⟩ }

/-- The end of a flush leaves the port as it is. -/
theorem State.endFlush_op (s : State) : s.endFlush.rsc.op = s.rsc.op := by
  unfold State.endFlush State.closuresLost State.storeFault
  split
  · split
    · rw [State.raise_frame]; rfl
    · rfl
  · rfl

/-- A commit that leaves a write waiting ends the flush STALLED (R170). -/
theorem State.commitRecord_stalls {closed : Nat} {j : WriteJob} {s : State} (hwork : s.flushing closed)
    (hfree : s.rsc.freeLevel = 0) (hjob : s.rsc.job = some j) (hlow : s.rsc.lowStands = true)
    (hqueue : (if j.direct then s.rtu.closeQueue.tail else s.rtu.closeQueue) ≠ [])
    (hbuffer : if j.direct then s.rsc.buffer = [] else s.rsc.buffer.length = 1) :
    (s.commitRecord j).rsc.op = none ∧ s.lostAtOnce closed
      ((if j.direct then s.rtu.closeQueue.tail else s.rtu.closeQueue).length + s.rtu.waitList.length) (s.commitRecord j) := by
  have hc := State.putAway_committed j s
  rw [State.commitRecord_eq, ← hc.waiting]
  generalize s.putAway j = t at *
  have hempty : t.rsc.buffer = [] := by
    rw [hc.buffer]
    split at hbuffer
    case isTrue hd => rw [if_pos hd]; exact hbuffer
    case isFalse hd =>
      rw [if_neg hd]
      exact List.length_eq_zero_iff.1 (by rw [List.length_tail, hbuffer])
  have hsome : j.direct = false → s.rsc.buffer ≠ [] := by
    rintro hd hnil
    simp [hd, hnil] at hbuffer
  have hst : t.writeStalled = true :=
    State.writeStalled_iff.2 ⟨hc.queue hqueue, (hc.free hjob hsome).trans hfree, hempty, hc.job⟩
  have htwork : t.flushing closed := by unfold State.flushing; rw [hc.mli]; exact hwork
  rw [State.nextOperation_stalled htwork hst (hc.lowStands.trans hlow)]
  exact ⟨(State.endFlush_op t).trans hc.op, (State.endFlush_stalled htwork hst).congr hc.fault⟩

/-- The bytes of the record change nothing that a commit looks at. -/
theorem State.written_commit_stalls {closed slot : Nat} {j : WriteJob} {s : State} (hwork : s.flushing closed)
    (hfree : s.rsc.freeLevel = 0) (hjob : s.rsc.job = some j) (hlow : s.rsc.lowStands = true)
    (hqueue : (if j.direct then s.rtu.closeQueue.tail else s.rtu.closeQueue) ≠ [])
    (hbuffer : if j.direct then s.rsc.buffer = [] else s.rsc.buffer.length = 1) :
    ((s.written slot j).commitRecord j).rsc.op = none ∧ s.lostAtOnce closed
      ((if j.direct then s.rtu.closeQueue.tail else s.rtu.closeQueue).length + s.rtu.waitList.length)
      ((s.written slot j).commitRecord j) := by
  obtain ⟨m, hm⟩ : ∃ m, s.written slot j = s.onRsc fun r => { r with memory := m } :=
    ⟨writeBytes (slotAddress s.rsc.remaps slot) j.record.bytes s.rsc.memory, by simp only [State.written, State.onRsc]⟩
  rw [hm]
  obtain ⟨hop, hlost⟩ := State.commitRecord_stalls (s := s.onRsc fun r => { r with memory := m }) hwork hfree hjob hlow
    hqueue hbuffer
  exact ⟨hop, hlost.congr ⟨rfl, rfl, rfl, rfl, rfl⟩⟩

/-! ### A kill -/

theorem Rsc.searchFree_congr {r r' : Rsc} (h : ∀ k, r'.slotFree k = r.slotFree k) (fuel slot : Nat) :
    r'.searchFree fuel slot = r.searchFree fuel slot := by
  induction fuel generalizing slot with
  | zero => rfl
  | succ n ih => simp only [Rsc.searchFree, h, ih]

/-- What the map area holds gives no slot. -/
theorem Rsc.nextFree_mapArea (r : Rsc) (m : MapArea) : ({ r with mapArea := m } : Rsc).nextFree = r.nextFree := by
  simp only [Rsc.nextFree]
  exact Rsc.searchFree_congr (fun k => by simp only [Rsc.slotFree]) _ _

/-- The map area holds the change. -/
def State.mapped (change : MapChange) (s : State) : State := s.onRsc fun r => { r with mapArea := r.mapArea.put change }

theorem exec_mapWriteDone_waits {s : State} {slot : Nat} {again : Bool} (hp : s.powered = true)
    (hop : s.rsc.op = some (.mapWrite (.kill slot) again)) (hno : s.rsc.nextFree = none) :
    exec (.mapWriteDone true) s =
      .next (((s.mapped (.kill slot)).onRsc fun r => { r with op := none, job := none }).nextOperation) := by
  have hexec : exec (.mapWriteDone true) s = execMapWriteDone true s := rfl
  have hnone : (s.mapped (.kill slot)).rsc.nextFree = none := (Rsc.nextFree_mapArea _ _).trans hno
  rw [hexec, execMapWriteDone, whenPowered_on _ hp]
  simp only [hop, if_true]
  change Host.Outcome.next ((s.mapped (.kill slot)).rewrite (.kill slot)) = _
  rw [State.rewrite]
  simp only [hnone]

/-- A kill that leaves no slot for the record ends the flush STALLED (R163, R170). -/
theorem State.kill_stalls {closed slot : Nat} {s : State} (hwork : s.flushing closed) (hlow : s.rsc.lowStands = true)
    (hqueue : s.rtu.closeQueue ≠ []) (hbuffer : s.rsc.buffer = [])
    (hfree : ({ s.rsc with job := none } : Rsc).freeLevel = 0) :
    let t := ((s.mapped (.kill slot)).onRsc fun r => { r with op := none, job := none }).nextOperation
    t.rsc.op = none ∧ s.lostAtOnce closed (s.rtu.closeQueue.length + s.rtu.waitList.length) t := by
  generalize ha : ((s.mapped (.kill slot)).onRsc fun r => { r with op := none, job := none }) = a
  have hst : a.writeStalled = true := by
    subst ha
    exact State.writeStalled_iff.2 ⟨hqueue, hfree, hbuffer, rfl⟩
  have hawork : a.flushing closed := by subst ha; exact hwork
  have halow : a.rsc.lowStands = true := by subst ha; exact hlow
  have hop : a.rsc.op = none := by subst ha; rfl
  have hfault : s.sameFault a := by subst ha; exact ⟨rfl, rfl, rfl, rfl, rfl⟩
  have hcount : a.stillWaiting = s.rtu.closeQueue.length + s.rtu.waitList.length := by subst ha; rfl
  rw [State.nextOperation_stalled hawork hst halow, ← hcount]
  exact ⟨(State.endFlush_op a).trans hop, (State.endFlush_stalled hawork hst).congr hfault⟩

end Sys2Proof.Machine
end

