-- ==== Sys2Proof/Proofs/ResetEnds.lean ====
section
/-! SUPPORT. RESET_COMPLETE: what is sent, what takes its reset values, and when it does nothing (R41, R173, R180, R184). -/

namespace Sys2Proof.Machine

/-! ### What the ports are sent -/

/-- The ports that listen. -/
def State.listeners (s : State) (l : List (Fin 6)) : List (Fin 6) := l.filter fun p => decide ((s.port p).state ≠ .down)

theorem State.eachOf_toHead (r : HeadRecord) (l : List (Fin 6)) (s : State) :
    s.eachOf l (fun p u => u.toHead p r) = { s with sent := s.sent ++ (s.listeners l).map fun p => .toHead p r } := by
  induction l generalizing s with
  | nil => simp [State.eachOf, State.listeners]
  | cons p l ih =>
    rw [State.eachOf_cons, ih]
    by_cases hdown : (s.port p).state = .down
    · have hsame : s.toHead p r = s := by simp [State.toHead, CellPort.listening, hdown]
      simp [hsame, State.listeners, hdown]
    · have hlisten : (s.toHead p r).listeners l = s.listeners l := by rw [State.toHead_up _ hdown]; rfl
      have hcons : s.listeners (p :: l) = p :: s.listeners l := by simp [State.listeners, hdown]
      rw [hlisten, hcons, State.toHead_up _ hdown]
      simp [State.sends]

/-! ### The arbiter with nothing to write -/

theorem State.arbitrate_idle {s : State} (hqueue : s.rtu.closeQueue = []) (hbuffer : s.rsc.buffer = []) :
    ∃ op w, s.arbitrate = s.onRsc fun r => { r with op := op, lastWasWrite := w } :=
  (State.arbitrate_cases s).resolve_right fun ⟨hready, _⟩ => by
    simp [State.writeReady, hqueue, hbuffer] at hready

/-! ### RESET_COMPLETE -/

/-- What stands until the blocks take their reset values: QUIET sent, the carriers withheld. -/
def State.silenced (s : State) : State := (s.eachOf allPorts fun p s => s.toHead p .quiet).cellCarriers false

theorem State.silenced_eq (s : State) : s.silenced = { s with
    sent := s.sent ++ ((s.listeners allPorts).map fun p => .toHead p .quiet)
      ++ allPorts.map fun p => .cellCarrier p false } := by
  rw [State.silenced, State.cellCarriers_eq, State.eachOf_toHead]

theorem State.silenced_mli (s : State) : s.silenced.mli = s.mli := by rw [State.silenced_eq]

theorem State.silenced_rsc (s : State) : s.silenced.rsc = s.rsc := by rw [State.silenced_eq]

/-- A RESET whose flush and memory operation have ended. -/
theorem State.resetMayEnd_ended {closed : Nat} {lost : Option Nat} {s : State}
    (hwork : s.mli.work = some (.resetting closed lost)) (hop : s.rsc.op = none)
    (hdone : lost ≠ none ∨ s.rtu.closeQueue = [] ∧ s.rsc.buffer = []) : s.resetMayEnd = some (closed, lost) := by
  have hended : (lost.isSome || s.flushEmpty) = true := by
    obtain hlost | ⟨hqueue, hbuffer⟩ := hdone
    · simp [Option.isSome_iff_ne_none.2 hlost]
    · simp [State.flushEmpty, hqueue, hbuffer]
  simp [State.resetMayEnd, hwork, hop, hended]

theorem State.resetMayEnd_waits {closed : Nat} {lost : Option Nat} {s : State}
    (hwork : s.mli.work = some (.resetting closed lost))
    (hwaits : s.rsc.op ≠ none ∨ lost = none ∧ (s.rtu.closeQueue ≠ [] ∨ s.rsc.buffer ≠ [])) : s.resetMayEnd = none := by
  have hnot : ((lost.isSome || s.flushEmpty) && s.rsc.op.isNone) = false := by
    obtain hop | ⟨hlost, hqueue | hbuffer⟩ := hwaits
    · simp [Option.isSome_iff_ne_none.2 hop]
    · simp [hlost, State.flushEmpty, hqueue]
    · simp [hlost, State.flushEmpty, hbuffer]
  simp [State.resetMayEnd, hwork, hnot]

/-- The reply of a RESET: the outcome, and the numbers of periods closed, closures lost and notices discarded. -/
def resetReply (closed : Nat) (lost : Option Nat) (discarded : Nat) : List Byte :=
  le 1 (if lost.isSome then 1 else 0) ++ le 2 closed ++ le 2 (lost.getD 0) ++ le 1 discarded

/-- The part reset and its reply made ready, before the arbiter looks at the port again. -/
def State.wiped (closed : Nat) (lost : Option Nat) (s : State) : State :=
  s.silenced.afterReset.ok Kind.reset s.silenced.headTag false (resetReply closed lost (noticeCount s.silenced.mli.tx))

theorem exec_resetComplete {closed : Nat} {lost : Option Nat} {s : State} (hp : s.powered = true)
    (hmay : s.resetMayEnd = some (closed, lost)) :
    exec .resetComplete s = .next ((s.wiped closed lost).arbitrate.cellCarriers true) := by
  have hexec : exec .resetComplete s = execResetComplete s := rfl
  rw [hexec, execResetComplete, whenPowered_on _ hp]
  simp only [hmay]
  rfl

theorem exec_resetComplete_waits {s : State} (hno : s.resetMayEnd = none) : exec .resetComplete s = .next s := by
  have hexec : exec .resetComplete s = execResetComplete s := rfl
  rw [hexec, execResetComplete, whenPowered_eq]
  simp only [hno, ite_self]

theorem Slm.resetLinks_absent (m : Slm) (l : Fin 4) :
    (m.resetLinks[l]).state = .absent ∧ (m.resetLinks[l]).longOwed = true := by
  unfold Slm.resetLinks
  match l with
  | 0 => exact ⟨rfl, rfl⟩
  | 1 => exact ⟨rfl, rfl⟩
  | 2 => exact ⟨rfl, rfl⟩
  | 3 => exact ⟨rfl, rfl⟩

end Sys2Proof.Machine
end

