-- ==== Sys2Proof/Proofs/Reset.lean ====
section
/-! SUPPORT. START and RESET whole (R20, R109, R157, R170, R173, R179, R180, R184). -/

namespace Sys2Proof.Machine

/-- What RESET_COMPLETE leaves of the part: every block at its reset values, with record memory, the ring and the requests
behind kept (R41, R173, R180, R184). -/
def State.resetTo (s t : State) : Prop :=
  t.tracker = Tracker.initial ∧ t.cpc = Cpc.initial ∧ t.table = Table.initial ∧
  t.rge = Rge.initial ∧ t.rtu = Rtu.initial ∧ t.sws = SwapStore.initial ∧ t.router.additions = [] ∧
  (∀ l, (t.link l).state = .absent ∧ (t.link l).longOwed = true) ∧ t.slm.swap = Swap.initial ∧
  t.mli.device = .unconfigured ∧ t.mli.clock = 0 ∧ t.mli.shipTime = 0 ∧ t.mli.work = none ∧
  t.mli.input = s.mli.input.tail ∧ t.rsc.memory = s.rsc.memory ∧ t.rsc.mapArea = s.rsc.mapArea ∧
  t.rsc.ring = s.rsc.ring.map (fun p => { p with inFlight := false }) ∧ t.rsc.nextSerial = s.rsc.nextSerial ∧
  t.rsc.batch = none ∧ t.rsc.counters = RecordCounters.zero ∧
  t.sent = s.sent ++ ((s.listeners allPorts).map fun p => .toHead p .quiet)
    ++ (allPorts.map fun p => .cellCarrier p false) ++ allPorts.map fun p => .cellCarrier p true

theorem State.wiped_resetTo (closed : Nat) (lost : Option Nat) (s : State) :
    s.resetTo ((s.wiped closed lost).arbitrate.cellCarriers true) := by
  obtain ⟨op, w, harb⟩ := State.arbitrate_idle (s := s.wiped closed lost) rfl rfl
  have hmli := s.silenced_mli
  have hrsc := s.silenced_rsc
  have hsent := congrArg State.sent s.silenced_eq
  rw [harb, State.cellCarriers_eq]
  unfold State.wiped
  generalize s.silenced = u at *
  refine ⟨rfl, rfl, rfl, rfl, rfl, rfl, rfl, Slm.resetLinks_absent u.slm, rfl, rfl, rfl, rfl, rfl, ?_, ?_, ?_, ?_, ?_, rfl, rfl,
    ?_⟩
  · exact (congrArg (fun m : Mli => m.input.tail) hmli :)
  · exact (congrArg Rsc.memory hrsc :)
  · exact (congrArg Rsc.mapArea hrsc :)
  · exact (congrArg (fun r : Rsc => r.ring.map fun p => { p with inFlight := false }) hrsc :)
  · exact (congrArg Rsc.nextSerial hrsc :)
  · exact (congrArg (· ++ allPorts.map fun p => Sent.cellCarrier p true) hsent :)

/-- The reply tells the outcome, the periods closed, the closures lost and the notices discarded (R180). -/
theorem State.wiped_replies (closed : Nat) (lost : Option Nat) {s : State} {tag : Byte}
    (hhead : s.mli.input.head? = some (.reset ⟨tag, some ()⟩)) :
    RepliedOk Kind.reset tag false (resetReply closed lost (noticeCount s.mli.tx))
      ((s.wiped closed lost).arbitrate.cellCarriers true) := by
  obtain ⟨op, w, harb⟩ := State.arbitrate_idle (s := s.wiped closed lost) rfl rfl
  have hmli := s.silenced_mli
  have htag : s.silenced.headTag = tag := by
    unfold State.headTag
    rw [hmli, hhead]
    rfl
  have hready : ((s.wiped closed lost).arbitrate.cellCarriers true).mli = (s.wiped closed lost).mli := by
    rw [harb, State.cellCarriers_eq]
    rfl
  unfold RepliedOk
  rw [hready, State.wiped, htag, hmli]
  exact State.ok_repliedOk Kind.reset tag false _ _

/-- Settles O55: START's device, the closures of RESET, the three ways its flush ends STALLED, and its completion. -/
theorem startAndReset : Obligations.StartAndReset := by
  unfold Obligations.StartAndReset
  refine ⟨fun s tag hs => ⟨?running, ?missing, ?accepted⟩, fun s tag => ⟨?begins, ?commit, ?kill, ?ends, ?waits⟩⟩
  case running => exact exec_start_running tag hs
  case missing =>
    rw [← State.missing_eq]
    exact exec_start_missing tag hs
  case accepted =>
    rw [← State.missing_eq]
    intro hdev hmiss
    obtain ⟨fields, hexec⟩ := exec_start_accepted tag hs hdev hmiss
    exact ⟨_, hexec, State.startDevice_started _ s Kind.start tag false fields⟩
  case begins =>
    intro hs hnd
    obtain ⟨hinput, hopen, hhandles, hdevice, htracker⟩ := State.resetBegun_closed (tag := tag) hnd rfl
    refine ⟨_, exec_reset tag hs, hinput, hopen, hhandles, hdevice, htracker, fun hno => ?_, fun hst hroom => ?_⟩
    · refine State.resetBegun_goesOn tag fun ⟨⟨hfree, hbuffer, hjob⟩, hwaits⟩ => hno ⟨hfree, hbuffer, hjob, hwaits⟩
    · obtain ⟨hfree, hbuffer, hjob, hwaits⟩ := hst
      exact State.resetBegun_stalls tag hnd ⟨⟨hfree, hbuffer, hjob⟩, hwaits⟩ hroom
  case commit =>
    intro closed slot j hp hwork hfree hop hjob hsure hlow queue hqueue hbuffer
    exact ⟨_, exec_writeSlotDone_commits hp hop hjob hsure,
      State.written_commit_stalls hwork hfree hjob hlow hqueue hbuffer⟩
  case kill =>
    intro closed slot j again hp hwork hno hop hjob hlow hqueue hbuffer hfree
    exact ⟨_, exec_mapWriteDone_waits hp hop hno, State.kill_stalls hwork hlow hqueue hbuffer hfree⟩
  case ends =>
    intro closed lost hp hwork hhead hop wiped reply hdone
    refine ⟨_, exec_resetComplete hp (State.resetMayEnd_ended hwork hop hdone), State.wiped_resetTo closed lost s, ?_⟩
    have hreply := State.wiped_replies closed lost hhead
    cases lost with
    | none => exact hreply
    | some n => exact hreply
  case waits =>
    intro closed lost hwork hwaits
    exact exec_resetComplete_waits (State.resetMayEnd_waits hwork hwaits)

end Sys2Proof.Machine
end

