-- ==== Sys2Proof/Proofs/Queries.lean ====
section
/-! SUPPORT. The queries (R23, R58, R59, R96, R173, R184): each is taken in either device state and while the scan runs, and
leaves its reply behind and nothing else. -/

namespace Sys2Proof.Machine

/-- A query into an idle interface is carried out by its own rule, while the scan runs too (R177). -/
theorem taken_query {α : Type} {c : Instr} {kind : Byte} {r : Request α} {wf : α → Bool} {own : α → State → State}
    {s : State} {b : α} (hs : s.hostFree) (hb : r.body = some b) (hw : wf b = true) :
    takeRequest c s (checked kind r true wf own) = .next (own b (s.joined c)) := by
  obtain ⟨hp, hwork, hinput⟩ := hs
  rw [takeRequest_free _ hp hwork hinput, State.joinInput_empty c hinput]
  exact congrArg _ (checked_query hb hw)

/-- A query that answers what `reply` reads of the state leaves the state as it was but for that reply. -/
theorem taken_query_ok {α : Type} {c : Instr} {kind : Byte} {r : Request α} {wf : α → Bool}
    {reply : α → State → List Byte} {s : State} {b : α} (hs : s.hostFree) (hb : r.body = some b) (hw : wf b = true) :
    takeRequest c s (checked kind r true wf fun b u => u.ok kind r.tag false (reply b u)) =
      .next (s.replied kind r.tag false (reply b (s.joined c))) := by
  rw [taken_query hs hb hw, State.joined_ok _ _ _ _ hs.2]

theorem exec_queryLinkCell {s : State} (tag : Byte) (p : Fin 6) (hs : s.hostFree) :
    exec (.queryLinkCell ⟨tag, some p.val⟩) s = .next (s.replied Kind.queryLink tag false (s.cellReply p)) := by
  have hexec : exec (.queryLinkCell ⟨tag, some p.val⟩) s = execQueryLinkCell ⟨tag, some p.val⟩ s := rfl
  rw [hexec, execQueryLinkCell, taken_query_ok (wf := fun p => decide (p < 6)) hs rfl (decide_eq_true p.isLt),
    Fin.ofNat_eq_cast, Fin.cast_val_eq_self]
  rfl

theorem exec_queryLinkShore {s : State} (tag : Byte) (l : Fin 4) (hs : s.hostFree) :
    exec (.queryLinkShore ⟨tag, some l.val⟩) s = .next (s.replied Kind.queryLink tag false
      (s.linkReply (s.link l) ++ s.selectionReply ++ s.swapReply ++ s.storeReply)) := by
  have hexec : exec (.queryLinkShore ⟨tag, some l.val⟩) s = execQueryLinkShore ⟨tag, some l.val⟩ s := rfl
  rw [hexec, execQueryLinkShore, taken_query_ok (wf := fun l => decide (l < 4)) hs rfl (decide_eq_true l.isLt),
    Fin.ofNat_eq_cast, Fin.cast_val_eq_self]
  rfl

/-- The MANAGEMENT reply counts the query itself as taken (assumption 37). -/
theorem exec_queryLinkManagement {s : State} (tag : Byte) (hs : s.hostFree) :
    exec (.queryLinkManagement ⟨tag, some ()⟩) s = .next (s.replied Kind.queryLink tag false
      (s.joined (.queryLinkManagement ⟨tag, some ()⟩)).managementReply) := by
  have hexec : exec (.queryLinkManagement ⟨tag, some ()⟩) s = execQueryLinkManagement ⟨tag, some ()⟩ s := rfl
  rw [hexec, execQueryLinkManagement, taken_query_ok hs rfl rfl]

theorem exec_querySubscriberSingle_named {s : State} {h : Nat} {e : Entry} (tag : Byte) (name : SubscriberName)
    (hs : s.hostFree) (hn : s.entryNamed name = some (h, e)) :
    exec (.querySubscriberSingle ⟨tag, some name⟩) s =
      .next (s.replied Kind.querySubscriber tag false (s.entryReply h e)) := by
  have hexec : exec (.querySubscriberSingle ⟨tag, some name⟩) s = execQuerySubscriberSingle ⟨tag, some name⟩ s := rfl
  have hj : (s.joined (.querySubscriberSingle ⟨tag, some name⟩)).entryNamed name = some (h, e) := by
    cases name <;> exact hn
  rw [hexec, execQuerySubscriberSingle, taken_query hs rfl rfl]
  simp only [hj]
  rw [State.joined_ok _ _ _ _ hs.2]
  rfl

theorem exec_querySubscriberSingle_unnamed {s : State} (tag : Byte) (name : SubscriberName) (hs : s.hostFree)
    (hn : s.entryNamed name = none) : exec (.querySubscriberSingle ⟨tag, some name⟩) s =
      .next (s.turnedAway Kind.querySubscriber tag .noSuchSubscriber []) := by
  have hexec : exec (.querySubscriberSingle ⟨tag, some name⟩) s = execQuerySubscriberSingle ⟨tag, some name⟩ s := rfl
  have hj : (s.joined (.querySubscriberSingle ⟨tag, some name⟩)).entryNamed name = none := by
    cases name <;> exact hn
  rw [hexec, execQuerySubscriberSingle, taken_query hs rfl rfl]
  simp only [hj]
  exact congrArg _ (State.joined_refused Kind.querySubscriber tag false .noSuchSubscriber hs.2)

theorem exec_querySubscriberSummary {s : State} (tag : Byte) (hs : s.hostFree) :
    exec (.querySubscriberSummary ⟨tag, some ()⟩) s = .next (s.replied Kind.querySubscriber tag false
      (s.tableReply ++ s.routerReply ++ s.engineReply ++ s.ratingReply)) := by
  have hexec : exec (.querySubscriberSummary ⟨tag, some ()⟩) s = execQuerySubscriberSummary ⟨tag, some ()⟩ s := rfl
  rw [hexec, execQuerySubscriberSummary, taken_query_ok hs rfl rfl]
  rfl

theorem exec_queryStore {s : State} (tag : Byte) (hs : s.hostFree) :
    exec (.queryStore ⟨tag, some ()⟩) s = .next (s.replied Kind.queryStore tag false s.recordsReply) := by
  have hexec : exec (.queryStore ⟨tag, some ()⟩) s = execQueryStore ⟨tag, some ()⟩ s := rfl
  rw [hexec, execQueryStore, taken_query_ok hs rfl rfl]
  rfl

/-- Settles O59, query by query: what each reply reads of the state is not changed by the query's joining the input, but for
the number of requests taken. -/
theorem queriesChangeNothing : Obligations.QueriesChangeNothing := by
  unfold Obligations.QueriesChangeNothing
  intro s tag hs
  refine ⟨fun p => exec_queryLinkCell tag p hs, fun l => exec_queryLinkShore tag l hs, ?management, fun name => ?single,
    exec_querySubscriberSummary tag hs, exec_queryStore tag hs⟩
  case management =>
    exact exec_queryLinkManagement tag hs
  case single =>
    cases hn : s.entryNamed name with
    | none => exact exec_querySubscriberSingle_unnamed tag name hs hn
    | some x => exact exec_querySubscriberSingle_named tag name hs hn

end Sys2Proof.Machine
end

