-- ==== Sys2Proof/Proofs/LinkPosture.lean ====
section
/-! SUPPORT. The state of a shore link and its owed long probe (R77, R81, R83, R92, R105): which operations change them, and
for which link. -/

namespace Sys2Proof.Machine

/-- A link's state, and whether a long probe is owed on it. -/
def State.posture (s : State) (l : Fin 4) : LinkState × Bool := ((s.link l).state, (s.link l).longOwed)

/-! ### What changes neither -/

theorem State.posture_of_links {s t : State} (h : t.slm.links = s.slm.links) : t.posture = s.posture := by
  funext l
  simp only [State.posture, State.link, h]

theorem State.posture_of_slm {s t : State} (h : t.slm = s.slm) : t.posture = s.posture :=
  State.posture_of_links (congrArg Slm.links h)

@[simp] theorem State.onSlm_posture (f : Slm → Slm) (s : State) (h : ∀ m, (f m).links = m.links) :
    (s.onSlm f).posture = s.posture := State.posture_of_links (h s.slm)

@[simp] theorem State.onLink_posture (l : Fin 4) (f : Link → Link) (s : State)
    (h : ∀ k, (f k).state = k.state ∧ (f k).longOwed = k.longOwed) : (s.onLink l f).posture = s.posture := by
  funext k
  unfold State.posture
  rw [State.link_onLink]
  split
  · rename_i hk
    rw [(h _).1, (h _).2, hk]
  · rfl

theorem State.eachOf_posture {α : Type} (l : List α) (f : α → State → State) (hf : ∀ a s, (f a s).posture = s.posture)
    (s : State) : (s.eachOf l f).posture = s.posture :=
  State.eachOf_keeps (P := fun t => t.posture = s.posture) l (fun a _ t ht => (hf a t).trans ht) rfl

@[simp] theorem State.raise_posture (n : Notice) (s : State) : (s.raise n).posture = s.posture :=
  State.posture_of_slm (by rw [State.raise_frame])

@[simp] theorem State.toHead_posture (p : Fin 6) (r : HeadRecord) (s : State) : (s.toHead p r).posture = s.posture := by
  obtain ⟨_, h⟩ | ⟨_, h⟩ := State.toHead_cases p r s
  · rw [h]; rfl
  · rw [h]

@[simp] theorem State.sendLevel_posture (h : Nat) (level : ServeLevel) (s : State) :
    (s.sendLevel h level).posture = s.posture := State.posture_of_slm (by rw [State.sendLevel_frame])

@[simp] theorem State.raiseLoss_posture (h a : Nat) (s : State) : (s.raiseLoss h a).posture = s.posture := by
  unfold State.raiseLoss
  split
  · rfl
  · dsimp only
    split <;> rfl

@[simp] theorem State.reportFall_posture (s : State) : s.reportFall.posture = s.posture := by
  unfold State.reportFall
  split
  · refine State.eachOf_posture _ _ (fun p t => ?_) _
    split
    · exact State.toHead_posture p .resume t
    · rfl
  · rfl

/-- Withdrawing an offer touches what waits at the ports, and no link's state. -/
@[simp] theorem State.withdrawOffer_posture (s : State) : s.withdrawOffer.posture = s.posture := by
  unfold State.withdrawOffer
  split
  · exact State.eachOf_posture _ _ (fun l t => by simp) _
  · rfl

@[simp] theorem State.shedHead_posture (s : State) : s.shedHead.posture = s.posture := by
  unfold State.shedHead
  split
  · rfl
  · exact (State.raiseLoss_posture ..).trans s.withdrawOffer_posture

@[simp] theorem State.shedAll_posture (n : Nat) (s : State) : (s.shedAll n).posture = s.posture := by
  induction n generalizing s with
  | zero => rfl
  | succ n ih => exact (ih _).trans s.shedHead_posture

@[simp] theorem State.beginCutOff_posture (s : State) : s.beginCutOff.posture = s.posture := by
  unfold State.beginCutOff
  dsimp only
  rw [State.eachOf_posture _ _ (fun h t => by simp)]
  simp

@[simp] theorem State.beginIsolation_posture (l : Option (Fin 4)) (c : LossCause) (s : State) :
    (s.beginIsolation l c).posture = s.posture := by
  unfold State.beginIsolation
  dsimp only
  repeat' split
  all_goals simp

@[simp] theorem State.failSwap_posture (lost : Bool) (s : State) : (s.failSwap lost).posture = s.posture :=
  State.raise_posture _ _

@[simp] theorem State.returnBatch_posture (c : ReturnCause) (s : State) : (s.returnBatch c).posture = s.posture := rfl

@[simp] theorem State.batchLinkLeft_posture (l : Fin 4) (s : State) : (s.batchLinkLeft l).posture = s.posture := by
  unfold State.batchLinkLeft
  split
  · split <;> rfl
  · rfl

@[simp] theorem State.linkChanged_posture (l : Fin 4) (a b : LinkState) (c : LinkCause) (s : State) :
    (s.linkChanged l a b c).posture = s.posture := State.raise_posture _ s

@[simp] theorem State.dropWaiting_posture (l : Fin 4) (failed : Bool) (s : State) :
    (s.dropWaiting l failed).posture = s.posture := by
  have hdrop : (s.onLink l fun k => { k with waiting := [] }).posture = s.posture :=
    State.onLink_posture l _ s fun _ => ⟨rfl, rfl⟩
  unfold State.dropWaiting
  dsimp only
  split
  · split
    · exact (State.reportFall_posture _).trans ((State.shedHead_posture _).trans hdrop)
    · exact hdrop
  · exact hdrop

/-- A record at the port of a link, an echo or another block's, moves no link. -/
theorem State.offer_echo_posture (l : Fin 4) (purpose : Purpose) (due : Nat) (s : State) :
    (s.offer l (.echo purpose due)).posture = s.posture := by
  unfold State.offer
  split
  · exact State.onLink_posture l _ (s.emit _) fun _ => ⟨rfl, rfl⟩
  · exact State.onLink_posture l _ s fun _ => ⟨rfl, rfl⟩

theorem State.offer_plain_posture (l : Fin 4) (r : ShoreRecord) (s : State) :
    (s.offer l (.plain r)).posture = s.posture := by
  unfold State.offer
  split
  · refine State.posture_of_links ?_
    cases r
    case move n =>
      change (if _ then _ else _ : Slm).links = _
      split <;> rfl
    all_goals rfl
  · exact State.onLink_posture l _ s fun _ => ⟨rfl, rfl⟩

/-! ### What moves a link -/

/-- A link that takes a state has it, owing what it owed, and no other link moves. -/
theorem State.enterState_posture (l k : Fin 4) (new : LinkState) (s : State) :
    (s.enterState l new).posture k = if l = k then (new, (s.posture l).2) else s.posture k := by
  unfold State.enterState State.posture
  rw [State.link_onLink]
  split <;> rfl

theorem State.leaveFor_posture (l k : Fin 4) (new : LinkState) (cause : LinkCause) (quietly : Bool) (s : State) :
    (s.leaveFor l new cause quietly).posture k = if l = k then (new, (s.posture l).2) else s.posture k := by
  have hbatch : ∀ u : State, (if (s.link l).state = .active then u.batchLinkLeft l else u).posture = u.posture := by
    intro u
    split
    · exact u.batchLinkLeft_posture l
    · rfl
  have henter : ∀ u : State, ((u.enterState l new).requeue l).posture = (u.enterState l new).posture := fun _ => rfl
  unfold State.leaveFor
  dsimp only
  have hquiet : ∀ u v : State, v.posture = u.posture → (if quietly then u else v).posture = u.posture := by
    intro u v h
    split
    · rfl
    · exact h
  rw [hquiet _ _ (State.linkChanged_posture ..), henter, State.enterState_posture, hbatch, State.dropWaiting_posture]

theorem State.startProbe_posture (l k : Fin 4) (cause : LinkCause) (s : State) :
    (s.startProbe l cause).posture k = if l = k then (.probing, (s.posture l).2) else s.posture k := by
  have hchanged : ∀ (c : Bool) (u v : State), v.posture = u.posture → (if c then u else v).posture = u.posture := by
    intro c u v h
    split
    · rfl
    · exact h
  unfold State.startProbe
  dsimp only
  rw [State.offer_echo_posture, hchanged _ _ _ (State.linkChanged_posture ..)]
  simp [State.enterState_posture]

theorem State.beginSwap_posture {l k : Fin 4} (planned : Bool) (s : State) (hk : l ≠ k) :
    (s.beginSwap l planned).posture k = s.posture k := by
  unfold State.beginSwap
  dsimp only
  rw [State.offer_plain_posture, State.linkChanged_posture, State.enterState_posture, if_neg hk]
  rfl

/-! ### Selection -/

theorem mem_insertByCost {cost : Fin 4 → Nat} {a l : Fin 4} {ls : List (Fin 4)} (h : a ∈ insertByCost cost l ls) :
    a = l ∨ a ∈ ls := by
  induction ls with
  | nil => exact .inl (List.mem_singleton.1 h)
  | cons b rest ih =>
    unfold insertByCost at h
    split at h
    · exact List.mem_cons.1 h
    · obtain rfl | hmem := List.mem_cons.1 h
      · exact .inr List.mem_cons_self
      · exact (ih hmem).imp_right (List.mem_cons_of_mem _)

theorem State.mem_byCost {s : State} {a : Fin 4} {ls : List (Fin 4)} (h : a ∈ s.byCost ls) : a ∈ ls := by
  unfold State.byCost at h
  induction ls with
  | nil => exact h
  | cons b rest ih =>
    obtain rfl | hmem := mem_insertByCost h
    · exact List.mem_cons_self
    · exact List.mem_cons_of_mem _ (ih hmem)

/-- Selection desires a candidate alone: a link in READY or ACTIVE (R92). -/
theorem State.desired_candidate {s : State} {l : Fin 4} (h : s.desired = some l) : (s.link l).candidate = true := by
  have hmem : l ∈ s.ranking := List.mem_of_mem_head? h
  have hfilter : ∀ {p : Fin 4 → Bool} {ls : List (Fin 4)}, (∀ a ∈ ls, (s.link a).candidate = true) →
      l ∈ ls.filter p → (s.link l).candidate = true := fun hls hl => hls l (List.mem_of_mem_filter hl)
  have hcands : ∀ a ∈ allLinks.filter fun a => (s.link a).candidate, (s.link a).candidate = true :=
    fun a ha => (List.mem_filter.1 ha).2
  unfold State.ranking at hmem
  obtain hmem | hothers := List.mem_append.1 hmem
  · obtain hpinned | htyped := List.mem_append.1 hmem
    · exact hfilter hcands hpinned
    · obtain ⟨t, _, ht⟩ := List.mem_flatMap.1 htyped
      exact hfilter hcands (State.mem_byCost ht)
  · split at hothers
    · cases hothers
    · exact hfilter hcands (State.mem_byCost hothers)

/-- A link that is no candidate does not move when selection is worked out (R92, R94). -/
theorem State.workOut_posture {s : State} {l : Fin 4} (hl : (s.link l).candidate = false) :
    s.workOut.posture l = s.posture l := by
  have hswap : ∀ d planned, s.desired = some d → (s.beginSwap d planned).posture l = s.posture l := by
    intro d planned hd
    refine State.beginSwap_posture planned s fun hdl => ?_
    have hc := State.desired_candidate hd
    rw [hdl, hl] at hc
    cases hc
  unfold State.workOut
  split
  case isTrue => rfl
  split
  case isTrue => rfl
  split
  case h_1 d _ hd => exact hswap d false hd
  case h_2 => rfl
  case h_3 => rfl
  case h_4 a d _ hd =>
    split
    case isTrue => rfl
    split
    case isTrue => rfl
    split
    case isTrue => exact hswap d true hd
    case isFalse => rfl

theorem State.workOut_unconfigured {s : State} (h : s.mli.device = .unconfigured) : s.workOut = s := by
  have hno : s.running = false := by simp [State.running, h]
  unfold State.workOut
  rw [hno]
  rfl

/-- An ABSENT link stays ABSENT when selection is worked out. -/
theorem State.workOut_absent {s : State} {l : Fin 4} {owed : Bool} (hl : s.posture l = (.absent, owed)) :
    s.workOut.posture l = (.absent, owed) := by
  have hstate : (s.link l).state = .absent := congrArg Prod.fst hl
  rw [State.workOut_posture (by simp [Link.candidate, hstate]), hl]

/-- The failure of an ACTIVE link moves that link (R90). -/
theorem State.activeFails_posture (l : Fin 4) (new : LinkState) (cause : LossCause) (s : State) :
    (s.activeFails l new cause).posture l = (new, (s.posture l).2) := by
  unfold State.activeFails
  dsimp only
  repeat' split
  all_goals simp [State.leaveFor_posture]

/-- A link that goes ABSENT by loss of its carrier or by disabling is ABSENT, and owes a long probe (R78, R81). -/
theorem State.goAbsent_posture (l : Fin 4) (cause : LossCause) (s : State) :
    (s.goAbsent l cause).posture l = (.absent, true) := by
  have howed : ((s.onLink l fun k => { k with longOwed := true }).posture l).2 = true := by
    unfold State.posture
    rw [State.link_onLink, if_pos rfl]
  unfold State.goAbsent
  dsimp only
  apply State.workOut_absent
  repeat' split
  all_goals simp [State.activeFails_posture, State.leaveFor_posture, howed]

end Sys2Proof.Machine
end

