-- ==== Sys2Proof/Proofs/SettingRequests.lean ====
section
/-! SUPPORT. CONFIGURE-LINK, PIN-LINK, SET-DELIVERY, SET-TIME and SET-BILLING (R23, R78, R93, R167, R168, R181, R182): each
takes its values, held in their ranges, and answers with what it took. -/

namespace Sys2Proof.Machine

/-! ### Values held in range -/

theorem clampTo_eq (lo hi v : Nat) : clampTo lo hi v = max lo (min v hi) := by
  rw [clampTo, Nat.min_comm]

theorem isClamped_eq (lo hi v : Nat) : isClamped lo hi v = decide (clampTo lo hi v ≠ v) := by
  by_cases h : clampTo lo hi v = v <;> simp [isClamped, h]

theorem noDup_iff {l : List HomeCode} : noDup l = true ↔ l.Nodup := by
  induction l with
  | nil => simp [noDup]
  | cons a rest ih => simp [noDup, ih]

/-! ### A request answered at once -/

/-- A request whose rule is one change of state and an answer of OK leaves the changed state but for the answer. -/
theorem State.joined_effect_ok {c : Instr} {f : State → State} {s : State} (kind tag : Byte) (clamped : Bool)
    (fields : List Byte) (hf : f (s.joined c) = (f s).joined c) (hidle : (f s).hostIdle) :
    (f (s.joined c)).ok kind tag clamped fields = (f s).replied kind tag clamped fields := by
  rw [hf, State.joined_ok _ _ _ _ hidle]

/-! ### A cell port -/

theorem exec_configureLinkCell {s : State} (tag : Byte) (p : Fin 6) (limit time : Nat) (hs : s.hostReady) :
    exec (.configureLinkCell ⟨tag, some ⟨p.val, limit, time⟩⟩) s = .next
      ((s.onPort p fun q => { q with limit := clampTo 0 2048 limit, portLostTime := clampTo 10 600 time }).replied
        Kind.configureLink tag (isClamped 0 2048 limit || isClamped 10 600 time)
        (le 2 (clampTo 0 2048 limit) ++ le 2 (clampTo 10 600 time))) := by
  have hexec : exec (.configureLinkCell ⟨tag, some ⟨p.val, limit, time⟩⟩) s =
      execConfigureLinkCell ⟨tag, some ⟨p.val, limit, time⟩⟩ s := rfl
  rw [hexec, execConfigureLinkCell,
    taken_checked (wf := fun b : CellConfig => decide (b.port < 6)) hs rfl (decide_eq_true p.isLt)]
  simp only [p.isLt, dif_pos, Fin.eta]
  exact congrArg _ (State.joined_effect_ok (f := fun u => u.onPort p _) _ _ _ _ rfl hs.idle)

/-! ### A shore port -/

/-- The RTT limit of a link: as given, held in its range, or by its type (R78). -/
def rttTaken (rtt : Option Nat) (ty : LinkType) : Nat :=
  match rtt with
  | some v => max 50 (min v 5000)
  | none => match ty with | .satellite => 900 | .coastal => 200 | .harbour => 50

/-- Whether CONFIGURE-LINK clamps a number of a shore link (R78). -/
def shoreClamped (b : ShoreConfig) : Bool :=
  (match b.rttLimit with | some v => decide (rttTaken b.rttLimit b.type ≠ v) | none => false)
    || decide (min b.costRank 15 ≠ b.costRank) || decide (max 5 (min b.holddown 300) ≠ b.holddown)
    || decide (max 10 (min b.reprobe 600) ≠ b.reprobe)

/-- The fields of CONFIGURE-LINK's reply for a shore link (R78). -/
def shoreFields (b : ShoreConfig) : List Byte :=
  le 1 b.type.code ++ le 1 (min b.costRank 15) ++ le 2 (rttTaken b.rttLimit b.type) ++ le 2 (max 5 (min b.holddown 300))
    ++ le 2 (max 10 (min b.reprobe 600)) ++ bFlag b.enabled

theorem linkConfigured_eq (b : ShoreConfig) (k : Link) : linkConfigured b k =
    { k with
      type := some b.type, costRank := min b.costRank 15, rttLimit := some (rttTaken b.rttLimit b.type),
      holddownTime := max 5 (min b.holddown 300), reprobeTime := max 10 (min b.reprobe 600), enabled := b.enabled } := by
  cases hr : b.rttLimit with
  | some v => simp only [linkConfigured, rttTaken, hr, clampTo_eq, Nat.zero_max]
  | none =>
    cases ht : b.type <;>
      simp only [linkConfigured, rttTaken, defaultRtt, hr, ht, clampTo_eq, Nat.zero_max]

theorem shoreClamped_eq (b : ShoreConfig) : shoreClamped b =
    ((match b.rttLimit with | some v => isClamped 50 5000 v | none => false) || isClamped 0 15 b.costRank
      || isClamped 5 300 b.holddown || isClamped 10 600 b.reprobe) := by
  simp only [shoreClamped, isClamped_eq, clampTo_eq, Nat.zero_max]
  cases b.rttLimit <;> rfl

theorem exec_configureLinkShore {s : State} (tag : Byte) (l : Fin 4) (b : ShoreConfig) (hs : s.hostReady)
    (hl : b.port = l.val) :
    let c : Instr := .configureLinkShore ⟨tag, some b⟩
    exec c s = .next ((((s.joined c).onLink l (linkConfigured b)).afterConfigure l b.enabled (s.link l).enabled).ok
      Kind.configureLink tag (shoreClamped b) (shoreFields b)) := by
  intro c
  have hexec : exec c s = execConfigureLinkShore ⟨tag, some b⟩ s := rfl
  have hport : b.port < 4 := hl ▸ l.isLt
  have hsame : (⟨b.port, hport⟩ : Fin 4) = l := Fin.ext hl
  have hfields : shoreFields b = le 1 b.type.code ++ le 1 (linkConfigured b (s.link l)).costRank
      ++ le 2 ((linkConfigured b (s.link l)).rttLimit.getD 0) ++ le 2 (linkConfigured b (s.link l)).holddownTime
      ++ le 2 (linkConfigured b (s.link l)).reprobeTime ++ bFlag b.enabled := by
    rw [linkConfigured_eq]
    rfl
  rw [hexec, execConfigureLinkShore,
    taken_checked (wf := fun b : ShoreConfig => decide (b.port < 4)) hs rfl (decide_eq_true hport), shoreClamped_eq,
    hfields]
  simp only [hport, dif_pos, hsame]
  rfl

/-- What stands of link `l` when its record has been written is what the request wrote (R78). -/
theorem State.configured_settings {c : Instr} {l : Fin 4} {b : ShoreConfig} {s : State} (was : Bool) :
    ((((s.joined c).onLink l (linkConfigured b)).afterConfigure l b.enabled was).link l).settings =
      (linkConfigured b (s.link l)).settings := by
  have hset := State.settings_of_standing
    (State.afterConfigure_standing l b.enabled was ((s.joined c).onLink l (linkConfigured b)))
  have hlink := congrFun (congrArg Settings.links hset) l
  have hwrote : ((s.joined c).onLink l (linkConfigured b)).link l = linkConfigured b (s.link l) := by
    rw [State.link_onLink, if_pos rfl]
    rfl
  exact hlink.trans (congrArg Link.settings hwrote)

/-- Enabling an ABSENT link with a carrier starts its probe (R83). -/
theorem State.afterConfigure_enabled {l : Fin 4} {s : State} (hcarrier : (s.link l).carrier = true)
    (habsent : (s.link l).state = .absent) : ((s.afterConfigure l true false).link l).state = .probing := by
  have hstarts : s.afterConfigure l true false = (s.startProbe l .enabled).workOut := by
    simp [State.afterConfigure, hcarrier, habsent]
  have hprobing := State.startProbe_posture l l .enabled s
  rw [if_pos rfl] at hprobing
  have hstate : ((s.startProbe l .enabled).link l).state = .probing := congrArg Prod.fst hprobing
  have hno : ((s.startProbe l .enabled).link l).candidate = false := by simp [Link.candidate, hstate]
  rw [hstarts]
  exact (congrArg Prod.fst (State.workOut_posture hno)).trans hstate

/-- Disabling a link takes it to ABSENT, owing a long probe (R78). -/
theorem State.afterConfigure_disabled (l : Fin 4) (s : State) :
    (s.afterConfigure l false true).posture l = (.absent, true) := by
  by_cases habsent : (s.link l).state = .absent
  · have howes : s.afterConfigure l false true = (s.onLink l fun k => { k with longOwed := true }).workOut := by
      simp [State.afterConfigure, habsent]
    rw [howes]
    apply State.workOut_absent
    unfold State.posture
    rw [State.link_onLink, if_pos rfl, habsent]
  · have hgoes : s.afterConfigure l false true = s.goAbsent l .disabled := by simp [State.afterConfigure, habsent]
    rw [hgoes, State.goAbsent_posture]

/-- A link whose new record enables it while it is ABSENT with a carrier probes (R78, R83). -/
theorem State.configured_probes {c : Instr} {l : Fin 4} {b : ShoreConfig} {s : State} (hon : b.enabled = true)
    (hwas : (s.link l).enabled = false) (habsent : (s.link l).state = .absent) (hcarrier : (s.link l).carrier = true) :
    ((((s.joined c).onLink l (linkConfigured b)).afterConfigure l b.enabled (s.link l).enabled).link l).state = .probing := by
  have hlink : ((s.joined c).onLink l (linkConfigured b)).link l = linkConfigured b (s.link l) := by
    rw [State.link_onLink, if_pos rfl]
    rfl
  rw [hon, hwas]
  exact State.afterConfigure_enabled (by rw [hlink]; exact hcarrier) (by rw [hlink]; exact habsent)

/-- With the enabled flag as it was, an UNCONFIGURED device does nothing more (R94). -/
theorem State.afterConfigure_same {l : Fin 4} (on : Bool) {s : State} (hdev : s.mli.device = .unconfigured) :
    s.afterConfigure l on on = s := by
  have hwork : s.afterConfigure l on on = s.workOut := by cases on <;> rfl
  rw [hwork, State.workOut_unconfigured hdev]

/-- What stands where an UNCONFIGURED device takes a link's settings and leaves its enabled flag (R78). -/
theorem exec_configureLinkShore_unconfigured {s : State} (tag : Byte) (l : Fin 4) (b : ShoreConfig) (hs : s.hostReady)
    (hl : b.port = l.val) (hdev : s.mli.device = .unconfigured) (hsame : b.enabled = (s.link l).enabled) :
    exec (.configureLinkShore ⟨tag, some b⟩) s = .next ((s.onLink l (linkConfigured b)).replied Kind.configureLink tag
      (shoreClamped b) (shoreFields b)) := by
  have hexec := exec_configureLinkShore tag l b hs hl
  have hstays : ((s.joined (.configureLinkShore ⟨tag, some b⟩)).onLink l (linkConfigured b)).afterConfigure l b.enabled
      (s.link l).enabled = (s.joined (.configureLinkShore ⟨tag, some b⟩)).onLink l (linkConfigured b) := by
    rw [← hsame]
    exact State.afterConfigure_same _ hdev
  dsimp only at hexec
  rw [hexec, hstays]
  exact congrArg _ (State.joined_effect_ok (f := fun u => u.onLink l (linkConfigured b)) _ _ _ _ rfl hs.idle)

/-! ### The pin and the timings -/

/-- What PIN-LINK writes (R93). -/
def pinned (b : PinBody) (m : Slm) : Slm :=
  { m with
    pin := b.port.map (Fin.ofNat 4), settleTime := clampTo 0 120 b.settleTime,
    moveAckTimer := clampTo 500 30000 b.moveAckTimer, guardTime := clampTo 500 10000 b.guardTime,
    grace := clampTo 0 60000 b.grace }

theorem exec_pinLink {s : State} (tag : Byte) (pin : Option (Fin 4)) (settle ack guardTime grace : Nat) (hs : s.hostReady) :
    let b : PinBody := ⟨pin.map (·.val), settle, ack, guardTime, grace⟩
    let c : Instr := .pinLink ⟨tag, some b⟩
    exec c s = .next (((s.joined c).onSlm (pinned b)).workOut.ok Kind.pinLink tag
      (isClamped 0 120 settle || isClamped 500 30000 ack || isClamped 500 10000 guardTime || isClamped 0 60000 grace)
      (le 1 (clampTo 0 120 settle) ++ le 2 (clampTo 500 30000 ack) ++ le 2 (clampTo 500 10000 guardTime)
        ++ le 2 (clampTo 0 60000 grace))) := by
  intro b c
  have hexec : exec c s = execPinLink ⟨tag, some b⟩ s := rfl
  rw [hexec, execPinLink]
  refine (taken_checked (b := b) hs rfl ?fits).trans rfl
  case fits =>
    cases pin with
    | none => rfl
    | some p => exact decide_eq_true p.isLt

theorem pinned_eq (pin : Option (Fin 4)) (settle ack guardTime grace : Nat) (m : Slm) :
    pinned ⟨pin.map (·.val), settle, ack, guardTime, grace⟩ m =
      { m with pin := pin, settleTime := min settle 120, moveAckTimer := max 500 (min ack 30000),
               guardTime := max 500 (min guardTime 10000), grace := min grace 60000 } := by
  have hport : (pin.map (·.val)).map (Fin.ofNat 4) = pin := by
    cases pin with
    | none => rfl
    | some p => exact congrArg some (Fin.cast_val_eq_self p)
  simp only [pinned, hport, clampTo_eq, Nat.zero_max]

/-- An UNCONFIGURED device takes the pin and the timings and does nothing more (R93, R94). -/
theorem exec_pinLink_unconfigured {s : State} (tag : Byte) (pin : Option (Fin 4)) (settle ack guardTime grace : Nat)
    (hs : s.hostReady) (hdev : s.mli.device = .unconfigured) :
    exec (.pinLink ⟨tag, some ⟨pin.map (·.val), settle, ack, guardTime, grace⟩⟩) s = .next
      (({ s with slm := { s.slm with
          pin := pin, settleTime := min settle 120, moveAckTimer := max 500 (min ack 30000),
          guardTime := max 500 (min guardTime 10000), grace := min grace 60000 } } : State).replied Kind.pinLink tag
        (isClamped 0 120 settle || isClamped 500 30000 ack || isClamped 500 10000 guardTime || isClamped 0 60000 grace)
        (le 1 (clampTo 0 120 settle) ++ le 2 (clampTo 500 30000 ack) ++ le 2 (clampTo 500 10000 guardTime)
          ++ le 2 (clampTo 0 60000 grace))) := by
  rw [exec_pinLink tag pin settle ack guardTime grace hs, State.workOut_unconfigured (by exact hdev),
    State.joined_effect_ok (f := fun u => u.onSlm _) _ _ _ _ rfl hs.idle, ← pinned_eq]
  rfl

/-- Selection leaves the pin and the timings (R94). -/
theorem State.workOut_slmSettings (s : State) : s.workOut.slm.settings = s.slm.settings :=
  congrArg Settings.swap (State.settings_of_standing s.workOut_standing)

/-! ### Delivery, time and billing -/

/-- The channel and the batch timer are taken; a change of channel returns a batch in flight (R167, R168). -/
def State.deliveryTaken (channel : Channel) (timer : Nat) (s : State) : State :=
  (if s.rsc.channel = channel then s else s.returnBatch .channel).onRsc fun r =>
    { r with channel := channel, batchTimer := timer }

theorem exec_setDelivery {s : State} (tag : Byte) (channel : Channel) (timer : Nat) (hs : s.hostReady) :
    exec (.setDelivery ⟨tag, some ⟨channel, timer⟩⟩) s = .next ((s.deliveryTaken channel (clampTo 2 60 timer)).replied
      Kind.setDelivery tag (isClamped 2 60 timer) (le 1 channel.code ++ le 1 (clampTo 2 60 timer))) := by
  have hexec : exec (.setDelivery ⟨tag, some ⟨channel, timer⟩⟩) s = execSetDelivery ⟨tag, some ⟨channel, timer⟩⟩ s := rfl
  have hjoined : ∀ c, (s.joined c).deliveryTaken channel (clampTo 2 60 timer) =
      (s.deliveryTaken channel (clampTo 2 60 timer)).joined c := by
    intro c
    unfold State.deliveryTaken
    by_cases hsame : s.rsc.channel = channel
    · rw [if_pos hsame, if_pos (by exact hsame)]
      rfl
    · rw [if_neg hsame, if_neg (by exact hsame)]
      rfl
  have hidle : (s.deliveryTaken channel (clampTo 2 60 timer)).hostIdle := by
    unfold State.deliveryTaken
    split <;> exact hs.idle
  rw [hexec, execSetDelivery, taken_checked hs rfl rfl]
  exact congrArg _ (State.joined_effect_ok (f := State.deliveryTaken channel (clampTo 2 60 timer)) _ _ _ _ (hjoined _) hidle)

theorem State.deliveryTaken_same {channel : Channel} {timer : Nat} {s : State} (hsame : s.rsc.channel = channel) :
    s.deliveryTaken channel timer = { s with rsc := { s.rsc with batchTimer := timer } } := by
  subst hsame
  rw [State.deliveryTaken, if_pos rfl]
  rfl

theorem State.deliveryTaken_returned {channel : Channel} {timer : Nat} {b : Batch} {s : State}
    (hdiff : s.rsc.channel ≠ channel) (hbatch : s.rsc.batch = some b) (hbuild : s.rsc.build = none) :
    s.deliveryTaken channel timer = { s with rsc := { s.rsc with
      channel := channel, batchTimer := timer, batch := none, ring := s.rsc.ring.map (fun p => { p with inFlight := false }),
      counters := { s.rsc.counters with returned := bumpAt 5 s.rsc.counters.returned 3 } } } := by
  rw [State.deliveryTaken, if_neg hdiff]
  simp only [State.returnBatch, State.onRsc, hbatch, hbuild]
  rfl

theorem State.deliveryTaken_abandoned {channel : Channel} {timer : Nat} {s : State}
    (hdiff : s.rsc.channel ≠ channel) (hbatch : s.rsc.batch = none)
    (hbuild : ∀ b, s.rsc.build = some b → b.purpose = .settle) :
    s.deliveryTaken channel timer =
      { s with rsc := { s.rsc with channel := channel, batchTimer := timer, build := none } } := by
  rw [State.deliveryTaken, if_neg hdiff]
  cases hb : s.rsc.build with
  | none => simp only [State.returnBatch, State.onRsc, hbatch, hb]
  | some b => simp only [State.returnBatch, State.onRsc, hbatch, hb, hbuild b hb, if_true]

theorem exec_setTime {s : State} (tag : Byte) (v : Nat) (hs : s.hostReady) :
    exec (.setTime ⟨tag, some v⟩) s = .next
      ((s.onMli fun m => { m with shipTime := clampTo 0 4294967295 v, shipPhase := 0 }).replied Kind.setTime tag false
        (le 4 (clampTo 0 4294967295 v))) := by
  have hexec : exec (.setTime ⟨tag, some v⟩) s = execSetTime ⟨tag, some v⟩ s := rfl
  rw [hexec, execSetTime, taken_checked hs rfl rfl]
  exact congrArg _ (State.joined_effect_ok (f := fun u => u.onMli _) _ _ _ _ rfl hs.idle)

/-- The billing settings that SET-BILLING takes, its numbers held in their ranges (R182). -/
def billingTaken (b : BillingBody) : Billing :=
  { defaultCap := clampTo 0 4294967295 b.defaultCap, alertPercent := clampTo 50 100 b.alertPercent,
    maxAge := clampTo 60 3600 b.maxAge, exemptList := b.exemptList }

/-- Whether SET-BILLING clamps a number (R182). -/
def billingClamped (b : BillingBody) : Bool :=
  isClamped 0 4294967295 b.defaultCap || isClamped 50 100 b.alertPercent || isClamped 60 3600 b.maxAge

theorem exec_setBilling {s : State} (tag : Byte) (b : BillingBody) (hs : s.hostReady) (hfit : billingWellFormed b = true) :
    (b.exemptList.Nodup → exec (.setBilling ⟨tag, some b⟩) s = .next
      ((s.onMli fun m => { m with billing := billingTaken b }).replied Kind.setBilling tag (billingClamped b)
        (billingBytes (billingTaken b)))) ∧
    (¬ b.exemptList.Nodup → exec (.setBilling ⟨tag, some b⟩) s = .next
      (s.turnedAwayClamped Kind.setBilling tag (billingClamped b) .badTable [])) := by
  have hexec : exec (.setBilling ⟨tag, some b⟩) s = execSetBilling ⟨tag, some b⟩ s := rfl
  rw [hexec, execSetBilling, taken_checked hs rfl hfit]
  constructor
  · intro hnd
    simp only [noDup_iff.2 hnd, Bool.not_true, Bool.false_eq_true, if_false]
    exact congrArg _ (State.joined_effect_ok (f := fun u => u.onMli _) _ _ _ _ rfl hs.idle)
  · intro hdup
    have hno : noDup b.exemptList = false := Bool.eq_false_iff.2 fun h => hdup (noDup_iff.1 h)
    simp only [hno, Bool.not_false, if_true]
    exact congrArg _ (State.joined_refused Kind.setBilling tag _ .badTable hs.idle)

/-- Settles O54, request by request: what each writes, read off its rule, and for a shore link what its new record makes of
it. -/
theorem settingsAreTaken : Obligations.SettingsAreTaken := by
  unfold Obligations.SettingsAreTaken
  refine ⟨fun s tag p limit time hs => ?cell, fun s tag l ty rank rtt hold reprobe on hs => ?shore,
    fun s tag pin settle ack guardTime grace hs => ?pin, fun s tag channel timer hs => ?delivery,
    fun s tag hs => ⟨fun v hv => ?time, fun cap percent age codes hlen hcodes => ?billing⟩⟩
  case cell =>
    have hexec := exec_configureLinkCell tag p limit time hs
    rw [isClamped_eq, isClamped_eq, clampTo_eq, clampTo_eq, Nat.zero_max] at hexec
    exact hexec
  case shore =>
    have hset := State.configured_settings (c := .configureLinkShore ⟨tag, some ⟨l.val, ty, rank, rtt, hold, reprobe, on⟩⟩)
      (l := l) (b := ⟨l.val, ty, rank, rtt, hold, reprobe, on⟩) (s := s) (s.link l).enabled
    rw [linkConfigured_eq] at hset
    obtain ⟨htype, hrank, hrtt, hhold, hreprobe, hon⟩ := LinkSettings.mk.inj hset
    refine ⟨fun hdev hsame => ?unconfigured, _,
      exec_configureLinkShore tag l ⟨l.val, ty, rank, rtt, hold, reprobe, on⟩ hs rfl, State.ok_repliedOk ..,
      htype, hrank, hrtt, hhold, hreprobe, hon, fun hon hwas habsent hcarrier => ?probes, fun hoff hwas => ?goes⟩
    case unconfigured =>
      have hexec := exec_configureLinkShore_unconfigured tag l ⟨l.val, ty, rank, rtt, hold, reprobe, on⟩ hs rfl hdev hsame
      rw [State.onLink, State.onSlm, linkConfigured_eq] at hexec
      exact hexec
    case probes =>
      exact State.configured_probes hon hwas habsent hcarrier
    case goes =>
      have hgone := State.afterConfigure_disabled l ((s.joined (.configureLinkShore ⟨tag, some ⟨l.val, ty, rank, rtt, hold,
        reprobe, on⟩⟩)).onLink l (linkConfigured ⟨l.val, ty, rank, rtt, hold, reprobe, on⟩))
      rw [hwas]
      subst hoff
      exact Prod.mk.inj hgone
  case pin =>
    have hexec := exec_pinLink tag pin settle ack guardTime grace hs
    have hset := State.workOut_slmSettings ((s.joined (.pinLink ⟨tag, some ⟨pin.map (·.val), settle, ack, guardTime,
      grace⟩⟩)).onSlm (pinned ⟨pin.map (·.val), settle, ack, guardTime, grace⟩))
    have hstays := exec_pinLink_unconfigured tag pin settle ack guardTime grace hs
    simp only [isClamped_eq, clampTo_eq, Nat.zero_max] at hexec hstays
    rw [State.onSlm_slm, pinned_eq] at hset
    obtain ⟨hpin, hsettle, hack, hguard, hgrace⟩ := SwapSettings.mk.inj hset
    exact ⟨_, hexec, ⟨hpin, hsettle, hack, hguard, hgrace⟩, State.ok_repliedOk .., fun hdev =>
      Host.Outcome.next.inj (hexec.symm.trans (hstays hdev))⟩
  case delivery =>
    have hexec := exec_setDelivery tag channel timer hs
    rw [isClamped_eq, clampTo_eq] at hexec
    refine ⟨fun hsame => ?same, fun b hdiff hbatch hbuild => ?returned, fun hdiff hbatch hbuild => ?abandoned⟩
    case same => rw [hexec, State.deliveryTaken_same hsame]
    case returned => rw [hexec, State.deliveryTaken_returned hdiff hbatch hbuild]
    case abandoned => rw [hexec, State.deliveryTaken_abandoned hdiff hbatch hbuild]
  case time =>
    have hexec := exec_setTime tag v hs
    rw [clampTo_eq, Nat.zero_max, Nat.min_eq_left hv] at hexec
    exact hexec
  case billing =>
    have hfit : billingWellFormed ⟨cap, percent, age, codes⟩ = true := by simp [billingWellFormed, hlen, hcodes]
    have hexec := exec_setBilling tag ⟨cap, percent, age, codes⟩ hs hfit
    simp only [billingTaken, billingClamped, isClamped_eq, clampTo_eq, Nat.zero_max] at hexec
    exact hexec

end Sys2Proof.Machine
end

