-- ==== Sys2Proof/Proofs/AttachAsks.lean ====
section
/-! SUPPORT. ATTACH-ASK and the arbiter's decision of the next ask (R25, R28, R29): what a port makes of a record, and each
check of R29 as a lemma. -/

namespace Sys2Proof.Machine

/-! ### A record on a cell port -/

/-- A record on a DOWN port is counted as discarded there alone (R25; assumption 50). -/
theorem State.onRecord_down {p : Fin 6} {wf : Bool} {f : State → State} {s : State} (hdown : (s.port p).state = .down) :
    s.onRecord p wf f = s.portCounted p fun c => { c with discardedDown := bump32 c.discardedDown } := by
  simp only [State.onRecord, CellPort.listening, hdown, bne_self_eq_false, Bool.not_false, if_true]
  rfl

/-- A malformed record on a listening port is counted, and nothing else (R25). -/
theorem State.onRecord_malformed {p : Fin 6} {f : State → State} {s : State} (hup : (s.port p).state ≠ .down) :
    s.onRecord p false f = s.portCounted p fun c => { c with malformed := bump32 c.malformed } := by
  have hl : (s.port p).listening = true := by simpa [CellPort.listening] using hup
  simp only [State.onRecord, hl, Bool.not_true, Bool.not_false, Bool.false_eq_true, if_false, if_true]
  rfl

theorem State.onRecord_taken {p : Fin 6} {f : State → State} {s : State} (hup : (s.port p).state ≠ .down) :
    s.onRecord p true f = f s := by
  have hl : (s.port p).listening = true := by simpa [CellPort.listening] using hup
  simp only [State.onRecord, hl, Bool.not_true, Bool.false_eq_true, if_false]

/-! ### A DECLINE -/

/-- A DOWN port is sent nothing (R27). -/
theorem State.toHead_down {p : Fin 6} {s : State} (r : HeadRecord) (hdown : (s.port p).state = .down) : s.toHead p r = s := by
  simp [State.toHead, CellPort.listening, hdown]

/-- A DECLINE on a listening port is sent and counted by its reason (R28, R29). -/
theorem State.decline_up {p : Fin 6} {s : State} (token : Token) (r : DeclineReason) (delay : Nat)
    (hup : (s.port p).state ≠ .down) : s.decline p token r delay =
      (s.countPort p fun c => { c with declines := bumpAt 4 c.declines r.place }).sends [.toHead p (.decline token r delay)] := by
  rw [State.decline, State.toHead_up _ hup]
  rfl

/-! ### An ask comes in -/

theorem askWellFormed_iff {code digits : Nat} :
    askWellFormed code digits = true ↔ digits = 5 ∧ code ≤ 99999 ∨ digits = 6 ∧ code ≤ 999999 := by
  simp [askWellFormed]

theorem exec_attachAsk {s : State} (p : Fin 6) (token : Token) (code digits : Nat) (hp : s.powered = true) :
    exec (.attachAsk p token code digits) s = .next (s.onRecord p (askWellFormed code digits) fun s =>
      if (s.port p).asks.length < 32 then
        s.onPort p fun q => { q with asks := q.asks ++ [{ token := token, home := { number := code, six := digits == 6 } }] }
      else s.decline p token .unavailable 0) := by
  have hexec : exec (.attachAsk p token code digits) s = execAttachAsk p token code digits s := rfl
  rw [hexec, execAttachAsk, whenPowered_on _ hp]
  rfl

/-! ### The next ask is decided -/

/-- The first ask of port `p` leaves its queue, and `p` is the port last served (R28). -/
def State.askTaken (p : Fin 6) (rest : List Ask) (s : State) : State :=
  (s.onPort p fun q => { q with asks := rest }).onCpc fun c => { c with lastServed := p }

theorem exec_decideAttachAsk {s : State} {p : Fin 6} {a : Ask} {rest : List Ask} (hp : s.powered = true)
    (hnext : s.nextAsk = some p) (hasks : (s.port p).asks = a :: rest) :
    exec .decideAttachAsk s = .next ((s.askTaken p rest).decideAsk p a) := by
  have hexec : exec .decideAttachAsk s = execDecideAttachAsk s := rfl
  rw [hexec, execDecideAttachAsk, whenPowered_on _ hp]
  simp only [hnext, hasks]
  rfl

/-- The port whose ask is decided has one ask less, and is otherwise as it was. -/
theorem State.askTaken_port (p : Fin 6) (rest : List Ask) (s : State) :
    (s.askTaken p rest).port p = { s.port p with asks := rest } := by
  have hport : (s.askTaken p rest).port p = (s.onPort p fun q => { q with asks := rest }).port p := rfl
  rw [hport, State.port_onPort, if_pos rfl]

/-! ### The checks of R29 -/

/-- Check 1: the device is RUNNING and the port RADIATING, or the ask is declined UNAVAILABLE. -/
theorem State.decideAsk_unavailable {p : Fin 6} {a : Ask} {s : State}
    (h : s.mli.device = .unconfigured ∨ (s.port p).state ≠ .radiating) :
    s.decideAsk p a = s.decline p a.token .unavailable 0 := by
  have hclosed : (!s.running || (s.port p).state != .radiating) = true := by
    obtain hdev | hport := h
    · simp [State.running, hdev]
    · simp [hport]
  rw [State.decideAsk, if_pos hclosed]

section Radiating
variable {p : Fin 6} {a : Ask} {s : State} (hdev : s.mli.device = .running) (hradiates : (s.port p).state = .radiating)
include hdev hradiates

theorem State.decideAsk_open : s.decideAsk p a = match s.byToken? a.token with
    | some (h, e) => s.reAttach p h e
    | none =>
      if (s.port p).effectiveLimit ≤ s.portCount p then s.decline p a.token .portFull 0
      else if 2048 ≤ s.table.entries.length then s.decline p a.token .tableFull 0
      else if s.rsc.freeLevel < 2048 && !s.isExempt a.home then s.decline p a.token .retryLater 60
      else s.admitNew p a := by
  have hopen : ¬ (!s.running || (s.port p).state != .radiating) = true := by simp [State.running, hdev, hradiates]
  rw [State.decideAsk, if_neg hopen]
  rfl

/-- Check 2: a device that the table knows is taken back. -/
theorem State.decideAsk_known {h : Nat} {e : Entry} (hknown : s.byToken? a.token = some (h, e)) :
    s.decideAsk p a = s.reAttach p h e := by
  rw [State.decideAsk_open hdev hradiates, hknown]

variable (hnew : s.byToken? a.token = none)
include hnew

/-- Check 3. -/
theorem State.decideAsk_portFull (hfull : (s.port p).effectiveLimit ≤ s.portCount p) :
    s.decideAsk p a = s.decline p a.token .portFull 0 := by
  simp only [State.decideAsk_open hdev hradiates, hnew, if_pos hfull]

variable (hroom : s.portCount p < (s.port p).effectiveLimit)
include hroom

/-- Check 4. -/
theorem State.decideAsk_tableFull (hfull : 2048 ≤ s.table.entries.length) :
    s.decideAsk p a = s.decline p a.token .tableFull 0 := by
  simp only [State.decideAsk_open hdev hradiates, hnew, if_neg (Nat.not_le.2 hroom), if_pos hfull]

variable (htable : s.table.entries.length < 2048)
include htable

/-- Check 5. -/
theorem State.decideAsk_retryLater (hlow : s.rsc.freeLevel < 2048) (hexempt : a.home ∉ s.mli.billing.exemptList) :
    s.decideAsk p a = s.decline p a.token .retryLater 60 := by
  have hstore : (decide (s.rsc.freeLevel < 2048) && !s.isExempt a.home) = true := by
    simp [hlow, State.isExempt, hexempt]
  simp only [State.decideAsk_open hdev hradiates, hnew, if_neg (Nat.not_le.2 hroom),
    if_neg (Nat.not_le.2 htable), if_pos hstore]

/-- An ask that no check turns away is admitted. -/
theorem State.decideAsk_admitted (hstore : 2048 ≤ s.rsc.freeLevel ∨ a.home ∈ s.mli.billing.exemptList) :
    s.decideAsk p a = s.admitNew p a := by
  have hpasses : ¬ (decide (s.rsc.freeLevel < 2048) && !s.isExempt a.home) = true := by
    obtain hlevel | hexempt := hstore
    · simp [hlevel]
    · simp [State.isExempt, hexempt]
  simp only [State.decideAsk_open hdev hradiates, hnew, if_neg (Nat.not_le.2 hroom),
    if_neg (Nat.not_le.2 htable), if_neg hpasses]

end Radiating

/-- An ask that is declined leaves its port's queue, and the DECLINE is sent and counted. -/
theorem State.askTaken_decline {p : Fin 6} {s : State} (rest : List Ask) (token : Token) (r : DeclineReason) (delay : Nat)
    (hup : (s.port p).state ≠ .down) : (s.askTaken p rest).decline p token r delay =
      { s with
        cpc := { s.cpc with
          lastServed := p,
          ports := s.cpc.ports.set p { s.cpc.ports[p] with
            asks := rest,
            counters := { s.cpc.ports[p].counters with declines := bumpAt 4 s.cpc.ports[p].counters.declines r.place } } },
        sent := s.sent ++ [.toHead p (.decline token r delay)] } := by
  have hup' : ((s.askTaken p rest).port p).state ≠ .down := by
    rw [State.askTaken_port]
    exact hup
  rw [State.decline_up _ _ _ hup']
  simp [State.askTaken, State.sends, State.onPort, State.onCpc, State.countPort]

/-- Settles O20: the queue of the port, and the checks of R29 in their order. -/
theorem askJoinsOrIsDeclined : Obligations.AskJoinsOrIsDeclined := by
  unfold Obligations.AskJoinsOrIsDeclined
  refine ⟨fun s p token code digits hp hfit => ⟨fun hup hroom => ?joins, fun hup hfull => ?full, fun hdown => ?discarded⟩,
    fun s p token code digits hp hbad => ?malformed, fun s p a rest hp hnext hasks => ⟨fun h hup => ?unavailable,
    fun hdev hrad hnew => ⟨fun hfull => ?portFull, fun hroom hfull => ?tableFull, fun hroom htable hlow hex => ?later⟩⟩⟩
  case joins =>
    rw [exec_attachAsk _ _ _ _ hp, askWellFormed_iff.2 hfit, State.onRecord_taken hup, if_pos hroom]
    rfl
  case full =>
    rw [exec_attachAsk _ _ _ _ hp, askWellFormed_iff.2 hfit, State.onRecord_taken hup, if_neg (Nat.not_lt.2 hfull),
      State.decline_up _ _ _ hup]
    rfl
  case discarded =>
    rw [exec_attachAsk _ _ _ _ hp, State.onRecord_down hdown]
    rfl
  case malformed =>
    rw [exec_attachAsk _ _ _ _ hp, Bool.eq_false_iff.2 fun h => hbad (askWellFormed_iff.1 h)]
    by_cases hdown : (s.port p).state = .down
    · simp only [State.onRecord_down hdown, if_pos hdown]
    · simp only [State.onRecord_malformed hdown, if_neg hdown]
  case unavailable =>
    rw [exec_decideAttachAsk hp hnext hasks, State.decideAsk_unavailable, State.askTaken_decline _ _ _ _ hup]
    rw [State.askTaken_port]
    exact h
  all_goals
    have hport := State.askTaken_port p rest s
    have hup : (s.port p).state ≠ .down := by rw [hrad]; exact PortState.noConfusion
    have hrad' : ((s.askTaken p rest).port p).state = .radiating := by rw [hport]; exact hrad
    have hlimit : ((s.askTaken p rest).port p).effectiveLimit = min (s.port p).limit (s.port p).headCapacity := by
      rw [hport]; rfl
    rw [exec_decideAttachAsk hp hnext hasks]
  case portFull =>
    rw [State.decideAsk_portFull (s := s.askTaken p rest) hdev hrad' hnew (by rw [hlimit]; exact hfull),
      State.askTaken_decline _ _ _ _ hup]
  case tableFull =>
    rw [State.decideAsk_tableFull (s := s.askTaken p rest) hdev hrad' hnew (by rw [hlimit]; exact hroom) hfull,
      State.askTaken_decline _ _ _ _ hup]
  case later =>
    rw [State.decideAsk_retryLater (s := s.askTaken p rest) hdev hrad' hnew (by rw [hlimit]; exact hroom) htable hlow
      hex, State.askTaken_decline _ _ _ _ hup]

end Sys2Proof.Machine
end

