-- ==== Sys2Proof/Proofs/Admission.lean ====
section
/-! SUPPORT. A new entry (R30, R45, R46, R122): what it holds, and what its head is sent. -/

namespace Sys2Proof.Machine

/-! ### Lists by key -/

/-- What is put under a key is found there, and every other key as before, in whatever order the keys stand. -/
theorem lookupKey_putKey_any {α : Type} (k j : Nat) (v : α) (l : List (Nat × α)) :
    lookupKey j (putKey k v l) = if k = j then some v else lookupKey j l := by
  induction l with
  | nil => simp [putKey, lookupKey]
  | cons p rest ih =>
    obtain ⟨a, e⟩ := p
    unfold putKey
    split
    · simp [lookupKey]
    · split
      · rename_i ha
        subst ha
        by_cases h : a = j <;> simp [lookupKey, h]
      · rename_i hne
        by_cases h : a = j
        · subst h
          simp [lookupKey, Ne.symm hne]
        · simp [lookupKey, h, ih]

/-! ### Serve levels and candidates -/

@[simp] theorem State.sends_nil (s : State) : s.sends [] = s := by simp [State.sends]

/-- SERVE-LEVEL goes to a listening port for an entry that carries no port-lost marker and is not RESTING (R33). -/
theorem State.sendLevel_eq {h : Nat} {e : Entry} {s : State} (level : ServeLevel) (he : s.entry? h = some e) :
    s.sendLevel h level = s.sends (if e.portLost = none ∧ e.reg ≠ .resting ∧ (s.port e.port).state ≠ .down then
      [.toHead e.port (.serveLevel h e.token level)] else []) := by
  unfold State.sendLevel
  simp only [he]
  by_cases hgoes : (e.portLost.isNone && e.reg != .resting) = true
  · rw [if_pos hgoes]
    simp only [Bool.and_eq_true, Option.isNone_iff_eq_none, bne_iff_ne] at hgoes
    obtain ⟨hlost, hreg⟩ := hgoes
    by_cases hup : (s.port e.port).state ≠ .down
    · rw [State.toHead_up _ hup, if_pos ⟨hlost, hreg, hup⟩]
    · rw [State.toHead_down _ (not_not.1 hup), if_neg (fun hall => hup hall.2.2), State.sends_nil]
  · rw [if_neg hgoes, if_neg, State.sends_nil]
    rintro ⟨hlost, hreg, _⟩
    exact hgoes (by simp [hlost, hreg])

/-- An entry that needs a partner has its chosen one as its candidate, or is UNROAMED (R122). -/
def Entry.asking (chosen : Option (Nat × Nat)) (e : Entry) : Entry :=
  { e with reg := if chosen = none then .unroamed else .registering, candidate := chosen }

theorem State.giveCandidate_eq {h : Nat} {e : Entry} {s : State} (he : s.entry? h = some e) :
    s.giveCandidate h = s.onEntry h (Entry.asking (s.chosen e.home)) := by
  unfold State.giveCandidate
  simp only [he]
  cases hc : s.chosen e.home with
  | none => rfl
  | some c =>
    have hreg : ∀ x : Entry, x.asking (some c) = { x with reg := .registering, candidate := some c } := fun x => by
      simp [Entry.asking]
    rw [funext hreg]

theorem Entry.asking_unroamed {c : Option (Nat × Nat)} {e : Entry} : (e.asking c).reg = .unroamed ↔ c = none := by
  cases c <;> simp [Entry.asking]

/-! ### The entry is made -/

/-- Entry `e` takes the first free handle, `rest` being the others, and the next attach number (R44 to R46). -/
def State.enrolled (h : Nat) (rest : List Nat) (e : Entry) (s : State) : State :=
  s.onTable fun t => { t with
    entries := putKey h e t.entries, freeHandles := rest, attachCounter := bump32 t.attachCounter,
    counters := { t.counters with created := bump32 t.counters.created } }

theorem State.enrolled_entry? (h j : Nat) (rest : List Nat) (e : Entry) (s : State) :
    (s.enrolled h rest e).entry? j = if h = j then some e else s.entry? j :=
  lookupKey_putKey_any h j e s.table.entries

/-- The entry of an admitted ask is made, and its port counts it (R30, R40). -/
def State.created (p : Fin 6) (a : Ask) (h : Nat) (rest : List Nat) (s : State) : State :=
  (s.enrolled h rest (s.newEntry p a)).countPort p fun c => { c with newAdmissions := bump32 c.newAdmissions }

theorem State.created_entry? (p : Fin 6) (a : Ask) (h j : Nat) (rest : List Nat) (s : State) :
    (s.created p a h rest).entry? j = if h = j then some (s.newEntry p a) else s.entry? j :=
  State.enrolled_entry? h j rest (s.newEntry p a) s

theorem State.created_port (p : Fin 6) (a : Ask) (h : Nat) (rest : List Nat) (s : State) :
    ((s.created p a h rest).port p).state = (s.port p).state ∧ ((s.created p a h rest).port p).asks = (s.port p).asks := by
  rw [State.created, State.countPort_eq, State.port_onPort, if_pos rfl]
  exact ⟨rfl, rfl⟩

theorem State.created_standing (p : Fin 6) (a : Ask) (h : Nat) (rest : List Nat) (s : State) :
    (s.created p a h rest).standing = s.standing := by
  rw [State.created, State.countPort_standing]
  rfl

/-- A new entry's candidate is worked out behind its ADMIT, and one without is served on board alone (R122). -/
def State.admits (p : Fin 6) (a : Ask) (h : Nat) (rest : List Nat) (s : State) : State :=
  ((s.created p a h rest).onEntry h (Entry.asking (s.chosen a.home))).sends
    (.toHead p (.admitted a.token h) ::
      if s.chosen a.home = none then [.toHead p (.serveLevel h a.token .onboardOnly)] else [])

theorem State.admits_entry? (p : Fin 6) (a : Ask) (h j : Nat) (rest : List Nat) (s : State) : (s.admits p a h rest).entry? j =
    if h = j then some ((s.newEntry p a).asking (s.chosen a.home)) else s.entry? j := by
  have hread : (s.admits p a h rest).entry? j =
      ((s.created p a h rest).onEntry h (Entry.asking (s.chosen a.home))).entry? j := rfl
  rw [hread, State.entry?_onEntry, State.created_entry?]
  by_cases hj : h = j <;> simp [hj]

theorem State.admitNew_eq {p : Fin 6} {a : Ask} {h : Nat} {rest : List Nat} {s : State}
    (hfree : s.table.freeHandles = h :: rest) (hup : (s.port p).state ≠ .down) :
    s.admitNew p a = s.admits p a h rest := by
  have hupCreated : ((s.created p a h rest).port p).state ≠ .down := by
    rw [(State.created_port p a h rest s).1]
    exact hup
  have hcreated : ((s.created p a h rest).sends [.toHead p (.admitted a.token h)]).entry? h = some (s.newEntry p a) := by
    have hread := State.created_entry? p a h h rest s
    rw [if_pos rfl] at hread
    exact hread
  have hchosen : ((s.created p a h rest).sends [.toHead p (.admitted a.token h)]).chosen = s.chosen :=
    State.chosen_of_standing (State.created_standing p a h rest s)
  have hgiven := State.giveCandidate_eq hcreated
  rw [hchosen] at hgiven
  have hadmit : s.admitNew p a =
      match (((s.created p a h rest).toHead p (.admitted a.token h)).giveCandidate h).entry? h with
      | some e => if e.reg = .unroamed then
            (((s.created p a h rest).toHead p (.admitted a.token h)).giveCandidate h).sendLevel h .onboardOnly
          else ((s.created p a h rest).toHead p (.admitted a.token h)).giveCandidate h
      | none => ((s.created p a h rest).toHead p (.admitted a.token h)).giveCandidate h := by
    rw [State.admitNew, hfree] <;> rfl
  rw [hadmit, State.toHead_up _ hupCreated, hgiven, State.admits]
  generalize hb : ((s.created p a h rest).sends [.toHead p (.admitted a.token h)]).onEntry h
    (Entry.asking (s.chosen (s.newEntry p a).home)) = b
  have hentry : b.entry? h = some ((s.newEntry p a).asking (s.chosen a.home)) := by
    rw [← hb, State.entry?_onEntry, if_pos rfl, hcreated]
    rfl
  simp only [hentry, Entry.asking_unroamed]
  by_cases hnone : s.chosen a.home = none
  · have hgoes : ((s.newEntry p a).asking (s.chosen a.home)).portLost = none ∧
        ((s.newEntry p a).asking (s.chosen a.home)).reg ≠ .resting ∧
        (b.port ((s.newEntry p a).asking (s.chosen a.home)).port).state ≠ .down := by
      refine ⟨rfl, ?_, ?_⟩
      · rw [Entry.asking_unroamed.2 hnone]
        exact RegState.noConfusion
      · rw [← hb]
        exact hupCreated
    rw [if_pos hnone, if_pos hnone, State.sendLevel_eq _ hentry, if_pos hgoes, ← hb]
    simp [State.sends, State.onEntry, State.onTable, State.newEntry, Entry.asking]
  · rw [if_neg hnone, if_neg hnone, ← hb]
    rfl

/-- Settles O21: the ask passes the checks of R29, and the entry made is read off. -/
theorem newDeviceIsAdmitted : Obligations.NewDeviceIsAdmitted := by
  unfold Obligations.NewDeviceIsAdmitted
  intro s p a rest h hs hp hnext hasks hdev hrad hnew hroom htable hstore hfree hvacant
  have hport := State.askTaken_port p rest s
  have hrad' : ((s.askTaken p rest).port p).state = .radiating := by rw [hport]; exact hrad
  have hlimit : ((s.askTaken p rest).port p).effectiveLimit = min (s.port p).limit (s.port p).headCapacity := by
    rw [hport]; rfl
  have hup : ((s.askTaken p rest).port p).state ≠ .down := by rw [hrad']; exact PortState.noConfusion
  have hstands : (s.askTaken p rest).standing = s.standing := by simp [State.askTaken]
  have hchosen : (s.askTaken p rest).chosen = s.chosen := State.chosen_of_standing hstands
  have hexec := exec_decideAttachAsk hp hnext hasks
  rw [State.decideAsk_admitted (s := s.askTaken p rest) hdev hrad' hnew (by rw [hlimit]; exact hroom) htable hstore,
    State.admitNew_eq (s := s.askTaken p rest) hfree hup] at hexec
  refine ⟨_, (s.newEntry p a).asking (s.chosen a.home), hexec, ?entry, rfl, fun k hk => ?others, rfl, ?asks, rfl, ?fields,
    ?sent⟩
  case entry =>
    rw [State.admits_entry?, if_pos rfl, hchosen]
    rfl
  case others =>
    rw [State.admits_entry?, if_neg hk.symm]
    rfl
  case asks =>
    have hasksLeft := (State.created_port p a h hs (s.askTaken p rest)).2
    rw [hport] at hasksLeft
    exact hasksLeft
  case fields =>
    have hcls : (s.newEntry p a).cls = if a.home ∈ s.mli.billing.exemptList then .exempt else .passenger := by
      simp [State.newEntry, State.isExempt]
    exact ⟨rfl, rfl, rfl, rfl, rfl, hcls, rfl, rfl, rfl, rfl, rfl, rfl, rfl, rfl, rfl, rfl, rfl, rfl, rfl⟩
  case sent =>
    rw [State.admits, hchosen]
    rfl

end Sys2Proof.Machine
end

