-- ==== Sys2Proof/Proofs/TakenBack.lean ====
section
/-! SUPPORT. A device taken back (R31, R48, R130, R136): its entry moored on the ask's port, a RESTING one revived, and what the
head is sent. -/

namespace Sys2Proof.Machine

/-! ### A turn that rewrites one entry -/

/-- In `t`, entry `h` is `e`, and every other entry and the rest of the table are as in `s`; so is what stands, the work under
way and the shore cut-off. -/
structure State.rewrites (h : Nat) (e : Entry) (s t : State) : Prop where
  entry : t.entry? h = some e
  others : ∀ k, k ≠ h → t.entry? k = s.entry? k
  table : t.table = { s.table with entries := t.table.entries }
  stands : t.standing = s.standing
  work : t.mli.work = s.mli.work
  cutOff : t.slm.cutOff = s.slm.cutOff

theorem State.rewrites.refl {h : Nat} {e : Entry} {s : State} (he : s.entry? h = some e) : s.rewrites h e s :=
  ⟨he, fun _ _ => rfl, rfl, rfl, rfl, rfl⟩

theorem State.rewrites.onEntry {h : Nat} {e : Entry} {s t : State} (ht : s.rewrites h e t) (f : Entry → Entry) :
    s.rewrites h (f e) (t.onEntry h f) where
  entry := by rw [State.entry?_onEntry, if_pos rfl, ht.entry]; rfl
  others k hk := by rw [State.entry?_onEntry, if_neg hk.symm, ht.others k hk]
  table := congrArg (fun x : Table => { x with entries := (t.onEntry h f).table.entries }) ht.table
  stands := ht.stands
  work := ht.work
  cutOff := ht.cutOff

/-- What leaves the table, and all that `rewrites` speaks of beside it, leaves the rewriting. -/
theorem State.rewrites.frame {h : Nat} {e : Entry} {s t u : State} (ht : s.rewrites h e t) (htable : u.table = t.table)
    (hstands : u.standing = t.standing) (hwork : u.mli.work = t.mli.work) (hcut : u.slm.cutOff = t.slm.cutOff) :
    s.rewrites h e u where
  entry := by rw [State.entry?, htable]; exact ht.entry
  others k hk := by rw [State.entry?, htable]; exact ht.others k hk
  table := by rw [htable]; exact ht.table
  stands := hstands.trans ht.stands
  work := hwork.trans ht.work
  cutOff := hcut.trans ht.cutOff

theorem State.rewrites.entitled {h : Nat} {e : Entry} {s t : State} (ht : s.rewrites h e t) (x : Entry) :
    t.entitled x = s.entitled x := by
  simp only [State.entitled, ht.cutOff]

/-! ### Moored on the ask's port -/

/-- The entry as it is taken back on port `p`: no marker, no bearer (R31). -/
def Entry.backOn (p : Fin 6) (e : Entry) : Entry := { e with port := p, portLost := none, bearers := [] }

def State.moored (p : Fin 6) (h : Nat) (s : State) : State :=
  (s.freeBearers h).onEntry h fun e => { e with port := p, portLost := none }

theorem State.moored_rewrites (p : Fin 6) {h : Nat} {e : Entry} {s : State} (he : s.entry? h = some e) :
    s.rewrites h (e.backOn p) (s.moored p h) := by
  have hfreed : s.rewrites h { e with bearers := [] } (s.freeBearers h) := by
    have hframe := State.freeBearers_frame h s
    exact ((State.rewrites.refl he).onEntry fun e => { e with bearers := [] }).frame (congrArg State.table hframe :)
      (congrArg State.standing hframe :) (congrArg (·.mli.work) hframe :) (congrArg (·.slm.cutOff) hframe :)
  exact hfreed.onEntry fun e => { e with port := p, portLost := none }

theorem State.moored_frame (p : Fin 6) (h : Nat) (s : State) :
    s.moored p h = { s with table := (s.moored p h).table, router := (s.moored p h).router } := by
  rw [State.moored, State.freeBearers_frame]
  rfl

/-! ### The answer to the head -/

/-- What a head is sent for a device taken back (R31). -/
def State.welcome (p : Fin 6) (h : Nat) (s : State) (e : Entry) : List Sent :=
  .toHead p (.admitted e.token h) ::
    if e.reg = .registering then []
    else [.toHead p (.serveLevel h e.token (if s.entitled e then .full else .onboardOnly))]

/-- The entry taken back, before its head is answered (R31). -/
def State.takenBack (p : Fin 6) (h : Nat) (e : Entry) (s : State) : State :=
  if e.reg = .resting then (s.moored p h).revive h else s.moored p h

theorem State.reAttach_answers {p : Fin 6} {h : Nat} {e e' : Entry} {s : State}
    (hentry : (s.takenBack p h e).entry? h = some e') (htoken : e'.token = e.token) (hport : e'.port = p)
    (hlost : e'.portLost = none) (hreg : e'.reg ≠ .resting) (hup : ((s.takenBack p h e).port p).state ≠ .down) :
    s.reAttach p h e = ((s.takenBack p h e).countPort p fun c => { c with reAttaches := bump32 c.reAttaches }).sends
      ((s.takenBack p h e).welcome p h e') := by
  have hdef : s.reAttach p h e =
      let u := ((s.takenBack p h e).countPort p fun c => { c with reAttaches := bump32 c.reAttaches }).toHead p
        (.admitted e.token h)
      match u.entry? h with
      | some e => if e.reg = .registering then u else u.sendLevelByEntitlement h
      | none => u := rfl
  rw [hdef]
  generalize s.takenBack p h e = t at hentry hup ⊢
  have hupCounted : ((t.countPort p fun c => { c with reAttaches := bump32 c.reAttaches }).port p).state ≠ .down := by
    rw [State.countPort_eq, State.port_onPort, if_pos rfl]
    exact hup
  rw [State.toHead_up _ hupCounted]
  generalize hu : (t.countPort p fun c => { c with reAttaches := bump32 c.reAttaches }) = u at hupCounted ⊢
  have hread : (u.sends [.toHead p (.admitted e.token h)]).entry? h = some e' := by rw [← hu]; exact hentry
  have hent : (u.sends [.toHead p (.admitted e.token h)]).entitled e' = t.entitled e' := by rw [← hu]; rfl
  dsimp only
  simp only [hread]
  unfold State.welcome
  by_cases hasks : e'.reg = .registering
  · rw [if_pos hasks, if_pos hasks, htoken]
  · have hgoes : e'.portLost = none ∧ e'.reg ≠ .resting ∧
        ((u.sends [.toHead p (.admitted e.token h)]).port e'.port).state ≠ .down := by
      rw [hport]
      exact ⟨hlost, hreg, hupCounted⟩
    rw [if_neg hasks, if_neg hasks, State.sendLevelByEntitlement]
    simp only [hread]
    rw [State.sendLevel_eq _ hread, if_pos hgoes, hent, hport, htoken]
    simp [State.sends]

/-! ### A revival -/

theorem State.dropUnfit_eq {h : Nat} {e : Entry} {s : State} (he : s.entry? h = some e) :
    s.dropUnfit h = s.onRge fun g => { g with inFlight := g.inFlight.filter fun x => x.handle != h || e.fits x } := by
  simp only [State.dropUnfit, he]

/-- The revival is counted (R48, R59). -/
def State.countRevival (s : State) : State :=
  s.onTable fun t => { t with counters := { t.counters with revivals := bump32 t.counters.revivals } }

/-- An entry revived to ask for a partner: REGISTERING with its chosen partner, or UNROAMED, and without the exchanges that no
longer fit it (R122, R136). -/
theorem State.rewrites.asks {h : Nat} {e : Entry} {s t : State} (f : Entry → Entry) (ht : s.rewrites h e t)
    (hhome : (f e).home = e.home) :
    let u := ((t.onEntry h f).giveCandidate h).dropUnfit h
    s.rewrites h ((f e).asking (s.chosen e.home)) u ∧ u.sent = t.sent ∧ u.rge.inFlight =
      t.rge.inFlight.filter fun x => x.handle != h || ((f e).asking (s.chosen e.home)).fits x := by
  have hf := ht.onEntry f
  have hchosen : (t.onEntry h f).chosen = s.chosen := State.chosen_of_standing hf.stands
  have hgiven := State.giveCandidate_eq hf.entry
  rw [hchosen, hhome] at hgiven
  have hasks := hf.onEntry (Entry.asking (s.chosen e.home))
  dsimp only
  rw [hgiven, State.dropUnfit_eq hasks.entry]
  exact ⟨hasks.frame rfl (State.onRge_standing _ _ fun _ => rfl) rfl rfl, rfl, rfl⟩

/-- What becomes of the period of an entry that may open one (R146). -/
def State.periodOpened (s : State) (e : Entry) : Option Period :=
  if e.qualifies && e.period.isNone && !e.closing && !s.openingStopped then s.periodFor? e else e.period

theorem State.openPeriod_eq {h : Nat} {e : Entry} {s : State} (he : s.entry? h = some e) :
    ∃ g : Rtu → Rtu, s.openPeriod h = (s.onEntry h fun x => { x with period := s.periodOpened e }).onRtu g := by
  have hsame : s.periodOpened e = e.period → s.openPeriod h = s →
      ∃ g : Rtu → Rtu, s.openPeriod h = (s.onEntry h fun x => { x with period := s.periodOpened e }).onRtu g := by
    intro hperiod hopen
    refine ⟨id, ?_⟩
    have hid : (s.onEntry h fun x => { x with period := s.periodOpened e }) = s := by
      refine Eq.trans (State.onEntry_congr fun x hx => ?_) (State.onEntry_id h s)
      obtain rfl : e = x := Option.some.inj (he.symm.trans hx)
      rw [hperiod]
      rfl
    rw [hopen, hid]
    rfl
  by_cases hopens : (e.qualifies && e.period.isNone && !e.closing && !s.openingStopped) = true
  · have hread : s.periodOpened e = s.periodFor? e := by rw [State.periodOpened, if_pos hopens]
    cases hp : s.periodFor? e with
    | none =>
      have hnone : e.period = none := by
        simp only [Bool.and_eq_true, Option.isNone_iff_eq_none] at hopens
        exact hopens.1.1.2
      exact hsame (by rw [hread, hp, hnone]) (by simp only [State.openPeriod, he, hp]; split <;> rfl)
    | some x =>
      refine ⟨fun u => { u with counters := { u.counters with opened := bump32 u.counters.opened } }, ?_⟩
      rw [hread, hp]
      simp only [State.openPeriod, he, hp, if_pos hopens]
  · have hread : s.periodOpened e = e.period := by rw [State.periodOpened, if_neg hopens]
    exact hsame hread (by simp only [State.openPeriod, he, if_neg hopens])

theorem State.rewrites.moves {h : Nat} {b : Entry} {s t : State} (ht : s.rewrites h b t) (c : Nat × Nat) :
    s.rewrites h { b with reg := .moving, candidate := some c } (t.beginMove h c) :=
  (ht.onEntry fun e => { e with reg := .moving, candidate := some c }).frame rfl (State.countRge_standing _ _) rfl rfl

/-- At the end of a revival the exchanges that no longer fit the entry go, and a period may open (R136, R146). -/
theorem State.rewrites.settles {h : Nat} {b : Entry} {s t : State} (ht : s.rewrites h b t) :
    let u := (t.dropUnfit h).openPeriod h
    s.rewrites h { b with period := s.periodOpened b } u ∧ u.sent = t.sent ∧
      u.rge.inFlight = t.rge.inFlight.filter fun x => x.handle != h || b.fits x := by
  dsimp only
  have hfit : s.rewrites h b (t.dropUnfit h) := by
    rw [State.dropUnfit_eq ht.entry]
    exact ht.frame rfl (State.onRge_standing _ _ fun _ => rfl) rfl rfl
  obtain ⟨g, hopen⟩ := State.openPeriod_eq hfit.entry
  have hperiod : (t.dropUnfit h).periodOpened b = s.periodOpened b := by
    have hstop : (t.dropUnfit h).openingStopped = s.openingStopped := by
      simp only [State.openingStopped, hfit.work]
    simp only [State.periodOpened, hstop, State.periodFor_of_standing hfit.stands]
  rw [hopen, hperiod]
  have hopened := (hfit.onEntry fun x => { x with period := s.periodOpened b })
  have hstands : ((t.dropUnfit h).openPeriod h).standing = (t.dropUnfit h).standing := State.openPeriod_standing ..
  rw [hopen, hperiod] at hstands
  refine ⟨hopened.frame rfl hstands rfl rfl, ?_, ?_⟩ <;>
    rw [State.dropUnfit_eq ht.entry] <;> rfl

/-- A RESTING entry whose serving partner is still eligible is served again: its schedule resumes with the time that was left
(R130), and it moves if another partner is chosen (R31, R136). -/
def Entry.servedAgain (now : Nat) (move : Option (Nat × Nat)) (e : Entry) : Entry :=
  { e with
    retention := none, reg := if move = none then .served else .moving, candidate := move,
    nextDue := some (now + e.paused.getD 0), paused := none }

/-- The partner that an entry served by `i` is to move to, if any (R136). -/
def moveFrom (chosen : Option (Nat × Nat)) (i : Nat) : Option (Nat × Nat) :=
  match chosen with
  | some c => if c.1 = i then none else some c
  | none => none

/-- What is sent for the DEREG of a device (R137): it goes at once when a link may carry it and its modem is free, and when no
link may carry it nothing goes. The shore cut-off stays as it is. -/
theorem State.sendDereg_sends (h : Nat) (token : Token) (i : Nat) (s : State) : ∃ dereg : List Sent,
    (s.sendDereg h token i).sent = s.sent ++ dereg ∧ (s.sendDereg h token i).slm.cutOff = s.slm.cutOff ∧
    (∀ l q, s.activeLink? = some l → s.slm.swap.inProgress = false → (s.link l).free = true → s.partner? i = some q →
      dereg = [.toShore l (.dereg h token i q.code)]) ∧ (s.mayCarry = false → dereg = []) := by
  by_cases hgoes : ∃ l q, s.activeLink? = some l ∧ s.partner? i = some q ∧ s.slm.swap.inProgress = false
  · obtain ⟨l, q, hl, hq, hw⟩ := hgoes
    have hcarry : s.mayCarry = true := by simp [State.mayCarry, hl, hw]
    rw [State.sendDereg_offered hl hq hw]
    cases hf : (s.link l).free with
    | true =>
      rw [State.offer_free h i token q.code hf]
      refine ⟨_, rfl, rfl, fun k r hk _ _ hr => ?_, fun hno => nomatch hno.symm.trans hcarry⟩
      obtain rfl := Option.some.inj (hl.symm.trans hk)
      obtain rfl := Option.some.inj (hq.symm.trans hr)
      rfl
    | false =>
      rw [State.offer_waits _ hf]
      refine ⟨[], (List.append_nil _).symm, rfl, fun k r hk _ hfree _ => ?_, fun _ => rfl⟩
      obtain rfl := Option.some.inj (hl.symm.trans hk)
      exact nomatch hf.symm.trans hfree
  · have hdrop : s.sendDereg h token i = s.countRge fun c => { c with deregsDropped := bump32 c.deregsDropped } := by
      unfold State.sendDereg
      split
      · rename_i l q hl hq hw
        exact absurd ⟨l, q, hl, hq, hw⟩ hgoes
      · rfl
    rw [hdrop]
    exact ⟨[], (List.append_nil _).symm, rfl, fun l q hl hw _ hq => absurd ⟨l, q, hl, hq, hw⟩ hgoes, fun _ => rfl⟩

section Revival
variable {h : Nat} {e : Entry} {s : State} (he : s.entry? h = some e)
include he

/-- Without a serving partner a revived entry asks for one. -/
theorem State.revive_unserved (hserving : e.serving = none) :
    s.countRevival.rewrites h (Entry.asking (s.chosen e.home) { e with retention := none }) (s.revive h) ∧
      (s.revive h).sent = s.sent ∧ (s.revive h).rge.inFlight = s.rge.inFlight.filter fun x =>
        x.handle != h || (Entry.asking (s.chosen e.home) { e with retention := none }).fits x := by
  have hrev : s.revive h = (((s.countRevival.onEntry h fun e => { e with
      retention := none, reg := .registering, candidate := none }).giveCandidate h).dropUnfit h) := by
    simp only [State.revive, he, hserving]
    rfl
  rw [hrev]
  exact State.rewrites.asks (s := s.countRevival) (fun e => { e with
    retention := none, reg := .registering, candidate := none }) (State.rewrites.refl he) rfl

/-- With a serving partner no longer eligible, the registration of a revived entry is void: a DEREG goes where one may, and
the entry asks for a partner (R134, R136; assumption 60). -/
theorem State.revive_void {i : Nat} (hserving : e.serving = some i) (hno : s.servingEligible e = false) :
    s.countRevival.rewrites h (Entry.asking (s.chosen e.home) { e.unregistered with retention := none }) (s.revive h) ∧
      (s.revive h).sent = (s.countRevival.sendDereg h e.token i).sent ∧
      (s.revive h).rge.inFlight = s.rge.inFlight.filter fun x => x.handle != h ||
        (Entry.asking (s.chosen e.home) { e.unregistered with retention := none }).fits x := by
  have hcounted : s.countRevival.servingEligible e = false := hno
  have hrev : s.revive h = (((((s.countRevival.sendDereg h e.token i).countRge fun c => { c with
      voids := bump32 c.voids }).onEntry h fun e => { e.unregistered with
      retention := none, reg := .registering, candidate := none }).giveCandidate h).dropUnfit h) := by
    simp only [State.revive, he, hserving]
    rw [if_neg (by exact Bool.eq_false_iff.1 hcounted)]
    rfl
  have hframe := State.sendDereg_frame h e.token i s.countRevival
  obtain ⟨_, _, hcut, _⟩ := State.sendDereg_sends h e.token i s.countRevival
  have hvoid : s.countRevival.rewrites h e ((s.countRevival.sendDereg h e.token i).countRge fun c => { c with
      voids := bump32 c.voids }) := by
    have hcounted : s.countRevival.entry? h = some e := he
    exact (State.rewrites.refl hcounted).frame (congrArg State.table hframe :)
      ((State.countRge_standing _ _).trans (State.sendDereg_standing ..)) (congrArg (·.mli.work) hframe :) hcut
  obtain ⟨hwrites, hsame, hflight⟩ := hvoid.asks (fun e => { e.unregistered with
    retention := none, reg := .registering, candidate := none }) rfl
  rw [hrev]
  exact ⟨hwrites, hsame, hflight.trans (congrArg (List.filter _) (congrArg (·.rge.inFlight) hframe :))⟩

/-- With a serving partner still eligible a revived entry is served again, or moves, and a period may open (R31, R136,
R146). -/
theorem State.revive_served {i : Nat} (hserving : e.serving = some i) (hel : s.servingEligible e = true) :
    let b := e.servedAgain s.now (moveFrom (s.chosen e.home) i)
    s.countRevival.rewrites h { b with period := s.periodOpened b } (s.revive h) ∧
      (s.revive h).sent = s.sent ∧ (s.revive h).rge.inFlight = s.rge.inFlight.filter fun x => x.handle != h || b.fits x := by
  have hcounted : s.countRevival.servingEligible e = true := hel
  have hstays := (State.rewrites.refl (s := s.countRevival) he).onEntry (Entry.servedAgain s.now none)
  have hrev : s.revive h = (((moveFrom (s.chosen e.home) i).elim (s.countRevival.onEntry h (Entry.servedAgain s.now none))
      fun c => (s.countRevival.onEntry h (Entry.servedAgain s.now none)).beginMove h c).dropUnfit h).openPeriod h := by
    have hchosen : (s.countRevival.onEntry h (Entry.servedAgain s.now none)).chosen e.home = s.chosen e.home := rfl
    simp only [State.revive, he, hserving]
    rw [if_pos (by exact hcounted)]
    refine congrArg (fun u : State => (u.dropUnfit h).openPeriod h) ?_
    change (match (s.countRevival.onEntry h (Entry.servedAgain s.now none)).chosen e.home with | some c => _ | none => _) = _
    rw [hchosen]
    cases hc : s.chosen e.home with
    | none => rfl
    | some c => by_cases hi : c.1 = i <;> simp only [moveFrom, if_pos, hi] <;> rfl
  rw [hrev]
  cases moveFrom (s.chosen e.home) i with
  | none => exact hstays.settles
  | some c =>
    exact (hstays.moves c).settles

end Revival

theorem Entry.asking_not_resting (c : Option (Nat × Nat)) (e : Entry) : (e.asking c).reg ≠ .resting := by
  cases c <;> simp [Entry.asking]

theorem Entry.servedAgain_not_resting (now : Nat) (move : Option (Nat × Nat)) (e : Entry) :
    (e.servedAgain now move).reg ≠ .resting := by
  cases move <;> simp [Entry.servedAgain]

/-! ### The obligation -/

/-- What a re-attach leaves of the state when, before its head was answered, it had rewritten entry `h` of `r` alone. -/
theorem State.reAttach_result {p : Fin 6} {h : Nat} {e e' : Entry} {r s : State} (hr : r.standing = s.standing)
    (hcut : r.slm.cutOff = s.slm.cutOff) (hup : (s.port p).state ≠ .down) (htaken : r.rewrites h e' (s.takenBack p h e))
    (htoken : e'.token = e.token) (hport : e'.port = p) (hlost : e'.portLost = none) (hreg : e'.reg ≠ .resting) :
    (s.reAttach p h e).entry? h = some e' ∧ (∀ k, k ≠ h → (s.reAttach p h e).entry? k = r.entry? k) ∧
      (s.reAttach p h e).table = { r.table with entries := (s.reAttach p h e).table.entries } ∧
      (s.reAttach p h e).rge = (s.takenBack p h e).rge ∧
      (s.reAttach p h e).sent = (s.takenBack p h e).sent ++ s.welcome p h e' := by
  have hports : ((s.takenBack p h e).port p).state = (s.port p).state :=
    congrFun (congrArg Radio.ports (State.radio_of_standing (htaken.stands.trans hr))) p
  have hwelcome : (s.takenBack p h e).welcome p h e' = s.welcome p h e' := by
    have hent : (s.takenBack p h e).entitled e' = s.entitled e' := by
      rw [htaken.entitled, State.entitled, hcut, State.entitled]
    rw [State.welcome, hent, State.welcome]
  rw [State.reAttach_answers htaken.entry htoken hport hlost hreg (by rw [hports]; exact hup), hwelcome]
  exact ⟨htaken.entry, htaken.others, htaken.table, rfl, rfl⟩

/-- What is sent and left when a RESTING entry is taken back, read off from what its revival made of it. -/
theorem State.reAttach_revives {p : Fin 6} {h : Nat} {e e' : Entry} {s : State} (he : s.entry? h = some e)
    (hreg : e.reg = .resting) (hup : (s.port p).state ≠ .down)
    (hrevived : (s.moored p h).countRevival.rewrites h e' ((s.moored p h).revive h)) (htoken : e'.token = e.token)
    (hport : e'.port = p) (hlost : e'.portLost = none) (hr : e'.reg ≠ .resting) :
    (s.reAttach p h e).entry? h = some e' ∧ (∀ k, k ≠ h → (s.reAttach p h e).entry? k = s.entry? k) ∧
      (s.reAttach p h e).table.freeHandles = s.table.freeHandles ∧
      (s.reAttach p h e).table.counters.revivals = bump32 s.table.counters.revivals ∧
      (s.reAttach p h e).rge = ((s.moored p h).revive h).rge ∧
      (s.reAttach p h e).sent = ((s.moored p h).revive h).sent ++ s.welcome p h e' := by
  have hmoored := State.moored_rewrites p he
  have htaken : s.takenBack p h e = (s.moored p h).revive h := if_pos hreg
  obtain ⟨hentry, hothers, htable, hrge, hsent⟩ := State.reAttach_result (r := (s.moored p h).countRevival) (s := s)
    hmoored.stands hmoored.cutOff hup (by rw [htaken]; exact hrevived) htoken hport hlost hr
  rw [htaken] at hrge hsent
  have hcounted : (s.moored p h).countRevival.table.freeHandles = s.table.freeHandles ∧
      (s.moored p h).countRevival.table.counters.revivals = bump32 s.table.counters.revivals :=
    ⟨(congrArg Table.freeHandles hmoored.table :),
      (congrArg (fun x : Table => bump32 x.counters.revivals) hmoored.table :)⟩
  refine ⟨hentry, fun k hk => (hothers k hk).trans (hmoored.others k hk), ?_, ?_, hrge, hsent⟩
  · rw [htable]; exact hcounted.1
  · rw [htable]; exact hcounted.2

/-- Settles O22: the entry moored on the ask's port, then, for a RESTING one, the three ways of a revival. -/
theorem knownDeviceIsTakenBack : Obligations.KnownDeviceIsTakenBack := by
  unfold Obligations.KnownDeviceIsTakenBack
  intro s p a rest h e hp hnext hasks hdev hrad hknown he back answer
  have htoken : e.token = a.token := eq_of_beq (List.find?_some hknown :)
  have hrad' : ((s.askTaken p rest).port p).state = .radiating := by rw [State.askTaken_port]; exact hrad
  have hup : ((s.askTaken p rest).port p).state ≠ .down := by rw [hrad']; exact PortState.noConfusion
  have hexec := exec_decideAttachAsk hp hnext hasks
  rw [State.decideAsk_known (s := s.askTaken p rest) hdev hrad' hknown] at hexec
  have hwelcome {e' : Entry} (htok : e'.token = e.token) : (s.askTaken p rest).welcome p h e' = answer e' := by
    rw [State.welcome, htok, htoken]
    rfl
  have hstands : (s.askTaken p rest).standing = s.standing := by simp [State.askTaken]
  have hmoored := State.moored_rewrites p (s := s.askTaken p rest) he
  have hframe := State.moored_frame p h (s.askTaken p rest)
  constructor
  · intro hreg
    have htaken : (s.askTaken p rest).takenBack p h e = (s.askTaken p rest).moored p h := if_neg hreg
    obtain ⟨hentry, hothers, htable, _, hsent⟩ := State.reAttach_result (h := h) (e := e) (e' := back) rfl rfl hup
      (by rw [htaken]; exact hmoored) rfl rfl rfl hreg
    refine ⟨_, hexec, hentry, hothers, (congrArg Table.freeHandles htable :), ?_⟩
    rw [hsent, htaken, hframe]
    exact congrArg (s.sent ++ ·) (hwelcome rfl)
  · intro hreg chosen asks move serves
    have hresult {e' : Entry} := State.reAttach_revives (e' := e') (s := s.askTaken p rest) he hreg hup
    generalize (s.askTaken p rest).moored p h = m at hmoored hframe hresult
    have hmstands : m.standing = s.standing := hmoored.stands.trans hstands
    have hmchosen : m.chosen = s.chosen := State.chosen_of_standing hmstands
    have heligible : m.servingEligible back = s.servingEligible e := State.servingEligible_of_standing hmstands e
    have hflight : m.rge.inFlight = s.rge.inFlight := by rw [hframe]; rfl
    have hsentBefore : m.sent = s.sent := by rw [hframe]; rfl
    obtain hserving | ⟨i, hserving⟩ := Option.eq_none_or_eq_some e.serving
    · have hno : s.servingEligible e = false := by simp only [State.servingEligible, hserving]; cases s.rules? <;> rfl
      obtain ⟨hrev, hsent, hfits⟩ := State.revive_unserved hmoored.entry hserving
      obtain ⟨hentry, hothers, hfree, hcount, hrge, hsends⟩ := hresult hrev rfl rfl rfl
        (Entry.asking_not_resting _ _)
      rw [hmchosen] at hentry hsends hfits
      refine ⟨_, asks back, hexec, hentry, hothers, hfree, hcount, ?_, fun _ => ⟨rfl, ?_⟩,
        fun hyes => absurd hyes (Bool.eq_false_iff.1 hno),
        fun i hi => absurd (hserving.symm.trans hi) (Option.some_ne_none i).symm⟩
      · rw [hrge, hfits, hflight]; rfl
      · rw [hsends, hsent, hsentBefore]; exact congrArg (s.sent ++ ·) (hwelcome rfl)
    have hsome : e.serving ≠ none := by rw [hserving]; exact Option.some_ne_none i
    obtain hel | hel := Bool.eq_false_or_eq_true (s.servingEligible e)
    · obtain ⟨hrev, hsent, hfits⟩ := State.revive_served hmoored.entry hserving (heligible.trans hel)
      have hserves : (e.backOn p).servedAgain m.now (moveFrom (m.chosen (e.backOn p).home) i) = serves := by
        have hmove : moveFrom (m.chosen (e.backOn p).home) i = move := by
          rw [hmchosen]
          show _ = match s.chosen e.home, e.serving with | some x, some i => if x.1 = i then none else some x | _, _ => none
          rw [hserving]
          cases hc : s.chosen e.home <;> simp only [moveFrom, Entry.backOn, hc]
        have hnow : m.now = s.mli.clock := congrArg (fun x => x.clocks.1) hmstands
        rw [hmove, hnow]
        rfl
      have hperiod : m.periodOpened serves = if serves.qualifies && e.period.isNone && !e.closing && !s.openingStopped then
          s.periodFor? e else e.period := by
        have hstop : m.openingStopped = s.openingStopped := by simp only [State.openingStopped, hmoored.work]; rfl
        simp only [State.periodOpened, hstop, State.periodFor_of_standing hmstands]
        rfl
      have hresting : serves.reg ≠ .resting := Entry.servedAgain_not_resting s.mli.clock move back
      rw [hserves] at hfits
      rw [hserves, hperiod] at hrev
      obtain ⟨hentry, hothers, hfree, hcount, hrge, hsends⟩ := hresult hrev rfl rfl rfl hresting
      refine ⟨_, _, hexec, hentry, hothers, hfree, hcount, ?_, fun hnone => absurd hnone hsome,
        fun _ => ⟨rfl, ?_⟩, fun j _ hno => absurd hel (Bool.eq_false_iff.1 hno)⟩
      · rw [hrge, hfits, hflight]; rfl
      · rw [hsends, hsent, hsentBefore]; exact congrArg (s.sent ++ ·) (hwelcome rfl)
    · obtain ⟨hrev, hsent, hfits⟩ := State.revive_void hmoored.entry hserving (heligible.trans hel)
      obtain ⟨hentry, hothers, hfree, hcount, hrge, hsends⟩ := hresult hrev rfl rfl rfl (Entry.asking_not_resting _ _)
      obtain ⟨dereg, hgoes, _, hoffered, hdropped⟩ := State.sendDereg_sends h e.token i m.countRevival
      rw [hmchosen] at hentry hsends hfits
      refine ⟨_, asks back.unregistered, hexec, hentry, hothers, hfree, hcount, ?_,
        fun hnone => absurd hnone hsome, fun hyes => absurd hyes (Bool.eq_false_iff.1 hel),
        fun j hj _ => ⟨rfl, dereg, ?_, fun l q hl hq hfreeLink hpartner => ?_, fun hcarry => hdropped ?_⟩⟩
      · rw [hrge, hfits, hflight]; rfl
      · rw [hsends, hsent, ← hsentBefore, ← show m.countRevival.sent = m.sent from rfl, ← hgoes]
        exact congrArg (_ ++ ·) (hwelcome rfl)
      · obtain rfl : i = j := Option.some.inj (hserving.symm.trans hj)
        rw [hframe] at hoffered
        exact hoffered l q hl hq hfreeLink hpartner
      · rw [hframe]
        exact hcarry

end Sys2Proof.Machine
end

