-- ==== Sys2Proof/Proofs/PortFailures.lean ====
section
/-! SUPPORT. A port that lost its head (R27, R35 to R37): its entries marked and their bearers freed, its asks dropped. -/

namespace Sys2Proof.Machine

/-! ### Entries marked -/

theorem alterKey_alterKey {α : Type} (k : Nat) (f g : α → α) (l : List (Nat × α)) :
    alterKey k g (alterKey k f l) = alterKey k (fun x => g (f x)) l := by
  induction l with
  | nil => rfl
  | cons p rest ih =>
    obtain ⟨a, x⟩ := p
    by_cases ha : a = k <;> simp [alterKey, ha, ih]

theorem State.onEntry_onEntry (h : Nat) (f g : Entry → Entry) (s : State) :
    (s.onEntry h f).onEntry h g = s.onEntry h fun e => g (f e) := by
  simp only [State.onEntry, State.onTable, alterKey_alterKey]

/-- An entry whose port lost its head (R36, R37). -/
def State.marking (s : State) (e : Entry) : Entry :=
  { e with
    bearers := [],
    portLost := if e.reg = .resting ∨ e.portLost ≠ none then e.portLost
      else some (s.mli.clock + (s.port e.port).portLostTime * 1000) }

theorem State.markLost_eq (h : Nat) (s : State) : ∃ g, s.markLost h = (s.onEntry h s.marking).onRouter g := by
  cases he : s.entry? h with
  | none =>
    have hid : s.onEntry h s.marking = s := (State.onEntry_congr fun x hx => nomatch he.symm.trans hx).trans (s.onEntry_id h)
    exact ⟨id, by rw [hid]; simp only [State.markLost, he]; rfl⟩
  | some e =>
    have hmarks (f : Entry → Entry) (hf : f e = s.marking e) : s.onEntry h f = s.onEntry h s.marking :=
      State.onEntry_congr fun x hx => by
        obtain rfl : e = x := Option.some.inj (he.symm.trans hx)
        exact hf
    refine ⟨fun r => { r with
      totals := { r.totals with freedOther := (r.totals.freedOther + e.bearers.length) % 4294967296 } }, ?_⟩
    by_cases hkeeps : e.reg = .resting ∨ e.portLost ≠ none
    · rw [← hmarks (fun e => { e with bearers := [] }) (by simp only [State.marking, if_pos hkeeps])]
      have hcond : (e.reg = .resting || e.portLost.isSome) = true := by
        simpa [Option.isSome_iff_ne_none] using hkeeps
      simp only [State.markLost, he, State.freeBearers, if_pos hcond]
    · have hcond : ¬ (e.reg = .resting || e.portLost.isSome) = true := by
        simpa [Option.isSome_iff_ne_none] using hkeeps
      rw [← hmarks (fun x => { x with
        bearers := [], portLost := some (s.now + (s.port e.port).portLostTime * 1000) })
        (by simp only [State.marking, if_neg hkeeps]; rfl)]
      have hboth := State.onEntry_onEntry h (fun x => { x with bearers := [] })
        (fun x => { x with portLost := some (s.now + (s.port e.port).portLostTime * 1000) }) s
      rw [← hboth]
      simp only [State.markLost, he, State.freeBearers, if_neg hcond]
      rfl

/-- The entries of a list are marked, each once; nothing else of the table changes. -/
theorem State.eachOf_markLost {hs : List Nat} (hnd : hs.Nodup) (s : State) : ∃ es r,
    s.eachOf hs State.markLost = { s with table := { s.table with entries := es }, router := r } ∧
      es.map (·.1) = s.handles ∧ ∀ k, lookupKey k es = if k ∈ hs then (s.entry? k).map s.marking else s.entry? k := by
  induction hs generalizing s with
  | nil => exact ⟨_, _, rfl, rfl, fun k => by simp [State.entry?]⟩
  | cons h hs ih =>
    obtain ⟨hfirst, hrest⟩ := List.nodup_cons.1 hnd
    obtain ⟨g, hmark⟩ := State.markLost_eq h s
    obtain ⟨es, r, hall, hhandles, hreads⟩ := ih hrest ((s.onEntry h s.marking).onRouter g)
    refine ⟨es, r, ?_, hhandles.trans (State.handles_onEntry h s.marking s), fun k => (hreads k).trans ?_⟩
    · rw [State.eachOf_cons, hmark, hall]
      rfl
    · have hread : ((s.onEntry h s.marking).onRouter g).entry? k = if h = k then (s.entry? k).map s.marking else s.entry? k :=
        State.entry?_onEntry ..
      have hsame : ((s.onEntry h s.marking).onRouter g).marking = s.marking := rfl
      rw [hread, hsame]
      by_cases hk : h = k
      · subst hk
        simp [hfirst]
      · simp [hk, Ne.symm hk]

/-! ### The port fails -/

theorem mem_of_lookupKey {α : Type} {k : Nat} {e : α} {l : List (Nat × α)} (h : lookupKey k l = some e) : (k, e) ∈ l := by
  induction l with
  | nil => cases h
  | cons x rest ih =>
    obtain ⟨a, y⟩ := x
    by_cases ha : a = k
    · simp only [lookupKey, if_pos ha, Option.some.injEq] at h
      simp [ha, h]
    · simp only [lookupKey, if_neg ha] at h
      exact List.mem_cons_of_mem _ (ih h)

/-- The entries on a port are those that its handles name. -/
theorem State.mem_onPortHandles {s : State} (hnd : s.handles.Nodup) {p : Fin 6} {h : Nat} {e : Entry}
    (he : s.entry? h = some e) : h ∈ s.onPortHandles p ↔ e.port = p := by
  simp only [State.onPortHandles, List.mem_map, List.mem_filter, beq_iff_eq, Prod.exists, exists_and_right, exists_eq_right]
  constructor
  · rintro ⟨x, hmem, hport⟩
    obtain rfl : e = x := Option.some.inj (he.symm.trans (lookupKey_of_mem hnd hmem))
    exact hport
  · exact fun hport => ⟨e, mem_of_lookupKey he, hport⟩

theorem State.onPortHandles_nodup {s : State} (hnd : s.handles.Nodup) (p : Fin 6) : (s.onPortHandles p).Nodup :=
  hnd.sublist (List.filter_sublist.map _)

theorem State.onPort_congr {p : Fin 6} {f g : CellPort → CellPort} {s : State} (h : f (s.port p) = g (s.port p)) :
    s.onPort p f = s.onPort p g :=
  congrArg (fun q => s.onCpc fun c => { c with ports := c.ports.set p q }) h

/-- The asks dropped are counted, and the hold flag clears (R36, R37). -/
def CellPort.failed (q : CellPort) : CellPort :=
  { q with
    asks := [], hold := false,
    counters := { q.counters with asksDropped := (q.counters.asksDropped + q.asks.length) % 4294967296 } }

/-- The failed port of a HEAD-RESYNC, before it is sent its order (R36). -/
def CellPort.resynced (q : CellPort) : CellPort :=
  { q.failed with state := .ready, counters := { q.failed.counters with resyncs := bump32 q.counters.resyncs } }

/-- The failed port of a HEAD-RESYNC, once it is sent its order (R35, R36). -/
def CellPort.ordered (state : PortState) (held : Bool) (q : CellPort) : CellPort :=
  { q.resynced with state := state, hold := q.resynced.hold || held }

/-- The failed port of a carrier loss (R27, R37). -/
def CellPort.lost (q : CellPort) : CellPort :=
  { q.failed with
    state := .down, headCapacity := 1024, counters := { q.failed.counters with portLosses := bump32 q.counters.portLosses } }

/-- `s` with port `p` rewritten, and the entries `es` and the router `r`. -/
def State.failedTo (p : Fin 6) (f : CellPort → CellPort) (es : List (Nat × Entry)) (r : Router) (s : State) : State :=
  { s.onPort p f with table := { s.table with entries := es }, router := r }

theorem State.failedTo_onPort (p : Fin 6) (f g : CellPort → CellPort) (es : List (Nat × Entry)) (r : Router) (s : State) :
    (s.failedTo p f es r).onPort p g = s.failedTo p (fun q => g (f q)) es r :=
  congrArg (fun t : State => { t with table := { s.table with entries := es }, router := r }) (State.onPort_onPort p f g s)

theorem State.failedTo_port (p : Fin 6) (f : CellPort → CellPort) (es : List (Nat × Entry)) (r : Router) (s : State) :
    (s.failedTo p f es r).port p = f (s.port p) :=
  (State.port_onPort p p f s).trans (if_pos rfl)

/-- What a HEAD-RESYNC and a carrier loss do alike (R36, R37): the port has failed, and its entries are marked. -/
theorem State.portFails_eq {s : State} (hnd : s.handles.Nodup) (p : Fin 6) : ∃ es r,
    s.portFails p = s.failedTo p CellPort.failed es r ∧
      es.map (·.1) = s.handles ∧
      ∀ h e, s.entry? h = some e → lookupKey h es = some (if e.port = p then s.marking e else e) := by
  have hfails : s.portFails p = (s.onPort p CellPort.failed).eachOf (s.onPortHandles p) State.markLost := by
    have hport : (s.countPort p fun c => { c with asksDropped := (c.asksDropped + (s.port p).asks.length) % 4294967296 }).onPort
        p (fun q => { q with asks := [], hold := false }) = s.onPort p CellPort.failed := by
      rw [State.countPort_eq, State.onPort_onPort]
      exact State.onPort_congr rfl
    rw [State.portFails, hport]
    rfl
  obtain ⟨es, r, hall, hhandles, hreads⟩ := State.eachOf_markLost (s.onPortHandles_nodup hnd p) (s.onPort p CellPort.failed)
  refine ⟨es, r, hfails.trans hall, hhandles, fun h e he => ?_⟩
  have hread : (s.onPort p CellPort.failed).entry? h = some e := he
  have hmarking : (s.onPort p CellPort.failed).marking e = s.marking e := by
    have htime : ((s.onPort p CellPort.failed).port e.port).portLostTime = (s.port e.port).portLostTime := by
      rw [State.port_onPort]
      split
      · rename_i hp
        rw [← hp]
        rfl
      · rfl
    rw [State.marking, htime, State.marking]
    rfl
  rw [hreads, hread]
  by_cases hport : e.port = p
  · rw [if_pos ((State.mem_onPortHandles hnd he).2 hport), if_pos hport, Option.map_some, hmarking]
  · rw [if_neg (mt (State.mem_onPortHandles hnd he).1 hport), if_neg hport]

/-! ### The obligation -/

theorem State.raise_mli_congr (n : Notice) {s a : State} (h : a.mli = s.mli) : (a.raise n).mli = (s.raise n).mli := by
  unfold State.raise State.onMli
  dsimp only
  rw [h]

theorem State.newlyMarked_eq (s : State) (p : Fin 6) : s.newlyMarked p =
    s.table.entries.countP fun x => decide (x.2.port = p ∧ x.2.reg ≠ .resting ∧ x.2.portLost = none) := by
  refine congrArg (fun f => List.countP f s.table.entries) (funext fun x => ?_)
  rw [Bool.eq_iff_iff]
  simp [and_assoc]

/-- A HEAD-RESYNC on a listening port whose asks and entries `portFails` deals with (R36, R39). -/
theorem exec_headResync {s : State} {p : Fin 6} (hp : s.powered = true) (hup : (s.port p).state ≠ .down) :
    exec (.headResync p) s =
      let u := (((s.portFails p).countPort p fun c => { c with resyncs := bump32 c.resyncs }).onPort p
        fun q => { q with state := .ready }).sendOrder p
      .next (u.raise (.headResync p (satAt 65535 (s.newlyMarked p)) (satAt 65535 (s.port p).asks.length) (u.port p).state
        u.mli.shipTime 1)) := by
  have hexec : exec (.headResync p) s = execHeadResync p s := rfl
  rw [hexec, execHeadResync, whenPowered_on _ hp, State.onRecord_taken hup]

theorem exec_cellCarrierLost {s : State} {p : Fin 6} (hp : s.powered = true) (hup : (s.port p).state ≠ .down) :
    exec (.cellCarrierLost p) s =
      let u := ((s.portFails p).countPort p fun c => { c with portLosses := bump32 c.portLosses }).onPort p
        fun q => { q with state := .down, headCapacity := 1024 }
      .next (u.raise (.portLost p (satAt 65535 (s.newlyMarked p)) (satAt 65535 (s.port p).asks.length) u.mli.shipTime 1)) := by
  have hexec : exec (.cellCarrierLost p) s = execCellCarrierLost p s := rfl
  have hl : (s.port p).listening = true := by simpa [CellPort.listening] using hup
  rw [hexec, execCellCarrierLost, whenPowered_on _ hp]
  simp only [hl]
  rfl

/-- Settles O24: the port's part and its entries' part read off, then the records a DOWN port discards. -/
theorem portFailureMarksItsEntries : Obligations.PortFailureMarksItsEntries := by
  unfold Obligations.PortFailureMarksItsEntries
  constructor
  · intro s p hp hup hnd marked newly asks counters state held
    obtain ⟨es, r, hfails, hhandles, hreads⟩ := State.portFails_eq hnd p
    have hmarks (t : State) (htable : t.table.entries = es) (hasks : (t.port p).asks = []) : marked t := by
      refine ⟨fun h e he => ?_, ?_, hasks⟩
      · rw [State.entry?, htable, hreads h e he]
        by_cases hport : e.port = p
        · rw [if_pos hport, if_pos hport, State.marking, hport]
        · rw [if_neg hport, if_neg hport]
      · rw [State.handles, htable, hhandles]
    have hnewly : satAt 65535 (s.newlyMarked p) = newly := by rw [State.newlyMarked_eq]; rfl
    have hraised (f : CellPort → CellPort) (l : List Sent) (n : Notice) (hasks : (f (s.port p)).asks = []) :
        let t := ((s.failedTo p f es r).sends l).raise n
        marked t ∧ t.port p = f (s.port p) ∧ t.sent = s.sent ++ l ∧ t.mli = (s.raise n).mli := by
      have hport : ((s.failedTo p f es r).sends l).port p = f (s.port p) :=
        State.failedTo_port p _ es r s
      have hframe := State.raise_frame n ((s.failedTo p f es r).sends l)
      have hports : (((s.failedTo p f es r).sends l).raise n).port p = f (s.port p) := by rw [hframe]; exact hport
      exact ⟨hmarks _ (by rw [hframe]; rfl) (by rw [hports]; exact hasks), hports, by rw [hframe]; rfl,
        State.raise_mli_congr n rfl⟩
    constructor
    · have hready : (((s.portFails p).countPort p fun c => { c with resyncs := bump32 c.resyncs }).onPort p
          fun q => { q with state := .ready }) = s.failedTo p CellPort.resynced es r := by
        rw [hfails, State.countPort_eq, State.failedTo_onPort, State.failedTo_onPort]
        rfl
      have hport : (s.failedTo p CellPort.resynced es r).port p = (s.port p).resynced :=
        State.failedTo_port p _ es r s
      have hheld : (s.failedTo p CellPort.resynced es r).entersHeld p = held := by
        have horder : (s.failedTo p CellPort.resynced es r).order = s.order := rfl
        rw [State.entersHeld, hport, horder]
        simp [held, CellPort.resynced]
        rfl
      have hstate : (s.failedTo p CellPort.resynced es r).orderedState = state := by
        have horder : (s.failedTo p CellPort.resynced es r).order = s.order := rfl
        rw [State.orderedState, horder]
        cases ho : s.order <;> simp [state, ho]
      have hexec := exec_headResync hp hup
      rw [hready] at hexec
      rw [State.sendOrder_up (by rw [hport]; exact PortState.noConfusion), hheld, hstate, State.failedTo_onPort] at hexec
      have hports : (((s.failedTo p (CellPort.ordered state held) es r).sends
          (.toHead p (s.failedTo p CellPort.resynced es r).orderRecord :: holdAfter p held)).port p).state = state :=
        congrArg CellPort.state (State.failedTo_port p (CellPort.ordered state held) es r s)
      have hordered : s.failedTo p (fun q => { q.resynced with state := state, hold := q.resynced.hold || held }) es r =
          s.failedTo p (CellPort.ordered state held) es r := rfl
      dsimp only at hexec
      rw [hordered, hports, hnewly] at hexec
      obtain ⟨hmarked, hport, hsent, hmli⟩ := hraised (CellPort.ordered state held)
        (.toHead p (s.failedTo p CellPort.resynced es r).orderRecord :: holdAfter p held)
        (.headResync p newly (min 65535 asks) state s.mli.shipTime 1) rfl
      refine ⟨_, hexec, hmarked, ?_, ?_, ?_, ?_, hmli⟩
      · exact congrArg CellPort.state hport
      · exact congrArg CellPort.hold hport
      · exact congrArg CellPort.counters hport
      · refine hsent.trans ?_
        have horder : (s.failedTo p CellPort.resynced es r).orderRecord = s.orderRecord := rfl
        rw [horder, State.orderRecord]
        cases s.order <;> rfl
    · have hlost : (((s.portFails p).countPort p fun c => { c with portLosses := bump32 c.portLosses }).onPort p
          fun q => { q with state := .down, headCapacity := 1024 }) = s.failedTo p CellPort.lost es r := by
        rw [hfails, State.countPort_eq, State.failedTo_onPort, State.failedTo_onPort]
        rfl
      have hexec := exec_cellCarrierLost hp hup
      rw [hlost, ← State.sends_nil (s.failedTo p CellPort.lost es r)] at hexec
      dsimp only at hexec
      rw [hnewly] at hexec
      obtain ⟨hmarked, hport, hsent, hmli⟩ := hraised CellPort.lost []
        (.portLost p newly (min 65535 asks) s.mli.shipTime 1) rfl
      exact ⟨_, hexec, hmarked, congrArg CellPort.state hport, congrArg CellPort.headCapacity hport,
        congrArg CellPort.hold hport, congrArg CellPort.counters hport, hsent.trans (List.append_nil _), hmli⟩
  · intro s p token slot identity kind payload hp hdown discarded
    have hdiscards (wf : Bool) (f : State → State) : whenPowered s (State.onRecord p wf f) = .next discarded := by
      rw [whenPowered_on _ hp, State.onRecord_down hdown]
    have hlost : exec (.cellCarrierLost p) s = .next s := by
      have hexec : exec (.cellCarrierLost p) s = execCellCarrierLost p s := rfl
      have hl : (s.port p).listening = false := by simp [CellPort.listening, hdown]
      rw [hexec, execCellCarrierLost, whenPowered_on _ hp]
      simp only [hl]
      rfl
    exact ⟨hdiscards .., hdiscards .., hdiscards .., hdiscards .., hdiscards .., hlost⟩

end Sys2Proof.Machine
end

