-- ==== Sys2Proof/Proofs/CapCharging.lean ====
section
/-! SUPPORT. Charging up to the cap (R147, R148): what each increment adds, and what the cap's reaching does. -/

namespace Sys2Proof.Machine

/-! ### Increments charged in turn -/

/-- Of the next `j` increments of an account, those at the first rate (R147). -/
def Account.tier1 (a : Account) (j : Nat) : Nat := min j (a.period.threshold - a.entry.dayCount)

/-- The total that `j` increments would carry the account to, were there no cap. -/
def Account.totalAt (a : Account) (j : Nat) : Nat :=
  a.entry.total + a.tier1 j * a.period.rate1 + (j - a.tier1 j) * a.period.rate2

/-- The rate of the increment after `j` others. -/
def Account.rateAt (a : Account) (j : Nat) : Nat :=
  if a.entry.dayCount + j < a.period.threshold then a.period.rate1 else a.period.rate2

theorem Account.tier1_le (a : Account) (j : Nat) : a.tier1 j ≤ j := Nat.min_le_left ..

theorem Account.tier1_succ (a : Account) (j : Nat) :
    a.tier1 (j + 1) = if a.entry.dayCount + j < a.period.threshold then a.tier1 j + 1 else a.tier1 j := by
  unfold Account.tier1
  split <;> omega

theorem Account.totalAt_succ (a : Account) (j : Nat) : a.totalAt (j + 1) = a.totalAt j + a.rateAt j := by
  have hle := a.tier1_le j
  unfold Account.totalAt Account.rateAt
  rw [Account.tier1_succ]
  by_cases hfirst : a.entry.dayCount + j < a.period.threshold
  · rw [if_pos hfirst, if_pos hfirst, Nat.add_sub_add_right]
    ring
  · rw [if_neg hfirst, if_neg hfirst, Nat.sub_add_comm hle]
    ring

theorem Account.le_totalAt (a : Account) (j : Nat) : a.entry.total ≤ a.totalAt j := by
  rw [Account.totalAt, Nat.add_assoc]
  exact Nat.le_add_right ..

/-- The account's entry and period after `j` increments, the last of which may have reached the cap. -/
def Account.entryAt (a : Account) (j : Nat) : Entry :=
  { a.entry with total := min a.entry.cap (a.totalAt j), dayCount := a.entry.dayCount + j }

def Account.periodAt (a : Account) (j : Nat) : Period :=
  let charged := min a.entry.cap (a.totalAt j) - a.entry.total
  { a.period with
    inc1 := a.period.inc1 + a.tier1 j, inc2 := a.period.inc2 + (j - a.tier1 j),
    charge := min 4294967295 (a.period.charge + charged), clamped := a.period.clamped || decide (a.entry.cap < a.totalAt j),
    saturated := a.period.saturated || decide (4294967295 < a.period.charge + charged) }

/-- The account stands after `j` increments of `a`. -/
def Account.stands (a : Account) (j : Nat) (x : Account) : Prop := x.entry = a.entryAt j ∧ x.period = a.periodAt j

/-- As `Account.stands`, with a charge and a saturated flag that the next increment makes the same (the charge a period
starts with is not bounded here). -/
def Account.reaches (a : Account) (j : Nat) (x : Account) : Prop :=
  x.entry = a.entryAt j ∧ ∃ charge saturated,
    x.period = { a.periodAt j with charge := charge, saturated := saturated } ∧
      min 4294967295 charge = (a.periodAt j).charge ∧
      (saturated || decide (4294967295 < charge)) = (a.periodAt j).saturated

theorem Account.reaches_zero {a : Account} (hcap : a.entry.total < a.entry.cap) : a.reaches 0 a := by
  have hzero : a.totalAt 0 = a.entry.total := by simp [Account.totalAt, Account.tier1]
  have htotal : min a.entry.cap (a.totalAt 0) = a.entry.total := by omega
  have hclamped : decide (a.entry.cap < a.totalAt 0) = false := decide_eq_false (by omega)
  have htier : a.tier1 0 = 0 := Nat.zero_min _
  refine ⟨?_, a.period.charge, a.period.saturated, ?_, ?_, ?_⟩
  · rw [Account.entryAt, htotal]
    rfl
  · simp only [Account.periodAt, htier, hclamped, Bool.or_false]
    rfl
  · simp only [Account.periodAt, htotal, Nat.sub_self, Nat.add_zero]
  · simp only [Account.periodAt, htotal, Nat.sub_self, Nat.add_zero]

theorem Account.stands.reaches {a x : Account} {j : Nat} (hx : a.stands j x) : a.reaches j x := by
  obtain ⟨hentry, hperiod⟩ := hx
  refine ⟨hentry, (a.periodAt j).charge, (a.periodAt j).saturated, hperiod, ?_, ?_⟩
  · simp only [Account.periodAt]
    omega
  · have hno : decide (4294967295 < (a.periodAt j).charge) = false := by
      refine decide_eq_false ?_
      simp only [Account.periodAt]
      omega
    rw [hno, Bool.or_false]

/-- An increment before the cap carries the account on by one. -/
theorem Account.reaches_succ {a x : Account} {j : Nat} (hx : a.reaches j x) (hbelow : a.totalAt j < a.entry.cap)
    (hcap : a.entry.cap ≤ 4294967295) (hday : a.entry.dayCount + j < 65535) : a.stands (j + 1) (chargeIncrement x) := by
  obtain ⟨e, p, c⟩ := x
  obtain ⟨he, charge, saturated, hp, hcharged, hsat⟩ := hx
  obtain rfl : e = a.entryAt j := he
  obtain rfl : p = { a.periodAt j with charge := charge, saturated := saturated } := hp
  have hstart := a.le_totalAt j
  have hsucc := a.totalAt_succ j
  have hat : (a.entryAt j).total = a.totalAt j := by simp only [Account.entryAt]; omega
  have hrate : (if (decide ((a.entryAt j).dayCount < (a.periodAt j).threshold)) = true then (a.periodAt j).rate1
      else (a.periodAt j).rate2) = a.rateAt j := by
    simp only [decide_eq_true_eq]
    rfl
  have hclamp : ((a.entryAt j).cap != 0 && decide ((a.entryAt j).cap < (a.entryAt j).total + a.rateAt j)) =
      decide (a.entry.cap < a.totalAt (j + 1)) := by
    have hzero : (a.entryAt j).cap ≠ 0 := by show a.entry.cap ≠ 0; omega
    rw [hat, hsucc, bne_iff_ne.2 hzero, Bool.true_and]
    rfl
  have hadded : (if decide (a.entry.cap < a.totalAt (j + 1)) = true then (a.entryAt j).cap - a.totalAt j else a.rateAt j) =
      min a.entry.cap (a.totalAt (j + 1)) - a.totalAt j := by
    have hread : (a.entryAt j).cap = a.entry.cap := rfl
    simp only [decide_eq_true_eq, hread]
    split <;> omega
  have hbefore : min a.entry.cap (a.totalAt j) - a.entry.total = a.totalAt j - a.entry.total := by omega
  unfold Account.stands chargeIncrement
  dsimp only
  rw [hrate, hclamp, hat, hadded]
  constructor
  · have htotal : (if decide (a.entry.cap < a.totalAt (j + 1)) = true then (a.entryAt j).cap
        else satAt Limits.max32 (a.totalAt j + a.rateAt j)) = min a.entry.cap (a.totalAt (j + 1)) := by
      simp only [decide_eq_true_eq, Account.entryAt, satAt, Limits.max32]
      split <;> omega
    have hdays : satAt Limits.max16 ((a.entryAt j).dayCount + 1) = a.entry.dayCount + (j + 1) := by
      simp only [Account.entryAt, satAt, Limits.max16]
      omega
    rw [htotal, hdays]
    rfl
  · have hinc1 : (if decide ((a.entryAt j).dayCount < (a.periodAt j).threshold) = true then (a.periodAt j).inc1 + 1
        else (a.periodAt j).inc1) = a.period.inc1 + a.tier1 (j + 1) := by
      by_cases hfirst : a.entry.dayCount + j < a.period.threshold <;>
        simp [Account.entryAt, Account.periodAt, Account.tier1_succ, hfirst, Nat.add_assoc]
    have hinc2 : (if decide ((a.entryAt j).dayCount < (a.periodAt j).threshold) = true then (a.periodAt j).inc2
        else (a.periodAt j).inc2 + 1) = a.period.inc2 + (j + 1 - a.tier1 (j + 1)) := by
      have hle := a.tier1_le j
      by_cases hfirst : a.entry.dayCount + j < a.period.threshold <;>
        simp [Account.entryAt, Account.periodAt, Account.tier1_succ, hfirst, Nat.add_assoc]
      omega
    have hcharge : satAt Limits.max32 (charge + (min a.entry.cap (a.totalAt (j + 1)) - a.totalAt j)) =
        min 4294967295 (a.period.charge + (min a.entry.cap (a.totalAt (j + 1)) - a.entry.total)) := by
      simp only [Account.periodAt, hbefore] at hcharged
      simp only [satAt, Limits.max32]
      omega
    have hclamped : ((a.periodAt j).clamped || decide (a.entry.cap < a.totalAt (j + 1))) =
        (a.period.clamped || decide (a.entry.cap < a.totalAt (j + 1))) := by
      have hno : decide (a.entry.cap < a.totalAt j) = false := decide_eq_false (by omega)
      simp only [Account.periodAt, hno, Bool.or_false]
    have hsaturated : (saturated || ((!decide (a.entry.cap < a.totalAt (j + 1)) &&
          decide (Limits.max32 < a.totalAt j + a.rateAt j)) || decide (Limits.max32 < charge +
            (min a.entry.cap (a.totalAt (j + 1)) - a.totalAt j)))) = (a.period.saturated ||
          decide (4294967295 < a.period.charge + (min a.entry.cap (a.totalAt (j + 1)) - a.entry.total))) := by
      simp only [Account.periodAt, hbefore] at hsat
      rw [Bool.eq_iff_iff] at hsat ⊢
      simp only [Bool.or_eq_true, Bool.and_eq_true, Bool.not_eq_true', decide_eq_true_eq, decide_eq_false_iff_not] at hsat ⊢
      simp only [Limits.max32]
      simp only [Account.periodAt, hbefore] at hcharged
      by_cases hyes : saturated = true ∨ 4294967295 < charge
      · exact iff_of_true (hyes.imp_right fun hover => .inr (by omega)) ((hsat.1 hyes).imp_right fun hover => by omega)
      · obtain ⟨hclear, hunder⟩ := not_or.1 hyes
        obtain ⟨hclearToo, hunderToo⟩ := not_or.1 (mt hsat.2 hyes)
        refine (or_iff_right hclear).trans (Iff.trans ?_ (or_iff_right hclearToo).symm)
        omega
    rw [hinc1, hinc2, hcharge, hclamped, hsaturated]
    rfl

/-- The increments stop at the first that reaches the cap (R147, step 3). -/
theorem Account.chargeIncrements_stands {a : Account} {k : Nat} (hcap : a.entry.cap ≤ 4294967295)
    (hday : a.entry.dayCount + k ≤ 65535) (hreached : a.entry.cap ≤ a.totalAt k)
    (hbelow : ∀ j < k, a.totalAt j < a.entry.cap) (m : Nat) {j : Nat} {x : Account} (hx : a.reaches j x) (hj : j < k)
    (hm : k ≤ j + m) : a.stands k (chargeIncrements m x) := by
  induction m generalizing j x with
  | zero => omega
  | succ m ih =>
    have hnext := Account.reaches_succ hx (hbelow j hj) hcap (by omega)
    have hcapped : (chargeIncrement x).entry.atCap = true ↔ a.entry.cap ≤ a.totalAt (j + 1) := by
      have hfirst := hbelow j hj
      rw [hnext.1]
      simp only [Entry.atCap, Account.entryAt, Bool.and_eq_true, bne_iff_ne, beq_iff_eq]
      omega
    rw [chargeIncrements]
    obtain hlast | hmore : j + 1 = k ∨ j + 1 < k := by omega
    · rw [if_pos (hcapped.2 (hlast ▸ hreached)), ← hlast]
      exact hnext
    · have hnot := hbelow (j + 1) hmore
      rw [if_neg (mt hcapped.1 (by omega))]
      exact ih hnext.reaches hmore (by omega)

/-- The caps reached are not counted by an increment. -/
theorem chargeIncrements_capsReached (m : Nat) (x : Account) :
    (chargeIncrements m x).counters.capsReached = x.counters.capsReached := by
  induction m generalizing x with
  | zero => rfl
  | succ m ih =>
    rw [chargeIncrements]
    split
    · rfl
    · exact ih _

/-- What the account holds when its last increment has reached the cap. -/
theorem Account.entryAt_capped {a : Account} {k : Nat} (hk : a.entry.cap ≤ a.totalAt k) :
    a.entryAt k = { a.entry with total := a.entry.cap, dayCount := a.entry.dayCount + k } := by
  rw [Account.entryAt, Nat.min_eq_left hk]

theorem Account.periodAt_capped {a : Account} {k : Nat} (hk : a.entry.cap ≤ a.totalAt k) :
    a.periodAt k = { a.period with
      inc1 := a.period.inc1 + a.tier1 k, inc2 := a.period.inc2 + (k - a.tier1 k),
      charge := min 4294967295 (a.period.charge + (a.entry.cap - a.entry.total)),
      clamped := a.period.clamped || decide (a.entry.cap < a.totalAt k),
      saturated := a.period.saturated || decide (4294967295 < a.period.charge + (a.entry.cap - a.entry.total)) } := by
  rw [Account.periodAt, Nat.min_eq_left hk]

/-! ### The cap reached -/

/-- While an operation holds the memory port, or records pass through the write buffer, the arbiter raises nothing. -/
theorem State.arbitrate_mli {s : State} (hcalm : s.rsc.op ≠ none ∨ s.rsc.bufferOn = true) : s.arbitrate.mli = s.mli := by
  unfold State.arbitrate
  by_cases hop : s.rsc.op = none
  · have hon : s.rsc.bufferOn = true := hcalm.resolve_left (not_not.2 hop)
    have hwrite : s.beginWrite.mli = s.mli := by
      unfold State.beginWrite
      split
      · rfl
      · rw [if_pos hon]
        split <;> rfl
    dsimp only
    split
    · rfl
    · split
      · exact hwrite
      · split
        · rw [State.beginOther_frame]
        · rfl
  · have hbusy : s.rsc.op.isSome = true := Option.isSome_iff_ne_none.2 hop
    rw [hbusy]
    rfl

theorem State.joinWaitList_capsReached (w : WaitingClosure) (s : State) :
    (s.joinWaitList w).rtu.counters.capsReached = s.rtu.counters.capsReached := by
  have hroom : s.makeRoom.rtu.counters.capsReached = s.rtu.counters.capsReached := by
    unfold State.makeRoom
    split
    · rfl
    · split <;> rfl
  exact hroom

theorem State.closePeriod_capsReached (r : CloseReason) (h : Nat) (s : State) :
    (s.closePeriod r h).rtu.counters.capsReached = s.rtu.counters.capsReached := by
  obtain ⟨hsame, _⟩ | ⟨e, p, he, hp, hc⟩ := State.closePeriod_cases r h s
  · rw [hsame]
  · rw [State.closePeriod_unfrozen he hp hc]
    split
    · rw [State.enqueueClosure, State.arbitrate_frame]
      rfl
    · exact State.joinWaitList_capsReached _ (s.countClosure r)

/-- Entry `h`'s turn at the cap, up to the notice: it is barred and its period closes (R148). -/
def State.capped (h : Nat) (s : State) : State :=
  ((s.onEntry h fun e => { e with barred := true }).closePeriod .cap h).countRtu fun c =>
    { c with capsReached := bump32 c.capsReached }

section Capped
variable {h : Nat} {e : Entry} {p : Period} {s : State} (he : s.entry? h = some e) (hp : e.period = some p)
  (hc : e.closing = false)
include he hp hc

/-- A closure with room in the queue joins it (R154). -/
theorem State.capped_queued (hqueue : s.rtu.closeQueue.length < 64) (hwait : s.rtu.waitList = []) :
    (s.capped h).entry? h = some { e with barred := true, period := none } ∧ (s.capped h).rtu.waitList = [] ∧
      (s.capped h).closures = s.closures ++ [s.closureRecord e p .cap false] ∧
      (s.rsc.op ≠ none ∨ s.rsc.bufferOn = true → (s.capped h).mli = s.mli) := by
  have hbarred := (State.rewrites.refl he).onEntry fun e => { e with barred := true }
  have hopen : (s.onEntry h fun e => { e with barred := true }).queueOpen = true := by
    have hsame : (s.onEntry h fun e => { e with barred := true }).queueOpen = s.queueOpen := rfl
    rw [hsame]
    simp [State.queueOpen, Limits.closeQueue, hqueue, hwait]
  have hclosed : (s.capped h).entry? h = ((s.onEntry h fun e => { e with barred := true }).closePeriod .cap h).entry? h := rfl
  have hshut := State.closePeriod_unfrozen (r := .cap) hbarred.entry hp hc
  rw [if_pos hopen] at hshut
  refine ⟨?_, ?_, ?_, fun hcalm => ?_⟩
  · rw [hclosed, State.closePeriod_entry?, if_pos rfl, hbarred.entry, hopen]
    simp [Entry.closed, hp, hc]
  · rw [State.capped, hshut]
    exact (State.enqueueClosure_waitList ..).trans hwait
  · rw [State.capped, hshut]
    exact State.enqueueClosure_closures ..
  · rw [State.capped, hshut]
    exact State.arbitrate_mli hcalm

/-- A closure without room in the queue waits, and the period stays frozen (R154). -/
theorem State.capped_waits (hfull : 64 ≤ s.rtu.closeQueue.length ∨ s.rtu.waitList ≠ []) :
    (s.capped h).entry? h = some { e with barred := true, closing := true } ∧
      (s.capped h).rtu.closeQueue = s.rtu.closeQueue ∧
      (s.rtu.waitList.length < 4096 → (s.capped h).mli = s.mli ∧
        (s.capped h).rtu.waitList = s.rtu.waitList ++ [⟨h, e.attach, s.closureRecord e p .cap true⟩]) := by
  have hbarred := (State.rewrites.refl he).onEntry fun e => { e with barred := true }
  have hshutQueue : (s.onEntry h fun e => { e with barred := true }).queueOpen = false := by
    have hsame : (s.onEntry h fun e => { e with barred := true }).queueOpen = s.queueOpen := rfl
    rw [hsame]
    refine Bool.eq_false_iff.2 fun hyes => ?_
    simp only [State.queueOpen, Bool.and_eq_true, decide_eq_true_eq, List.isEmpty_iff] at hyes
    obtain ⟨hroom, hnone⟩ := hyes
    exact hfull.elim (fun hlong => absurd hroom (Nat.not_lt.2 hlong)) (fun hsome => hsome hnone)
  have hclosed : (s.capped h).entry? h = ((s.onEntry h fun e => { e with barred := true }).closePeriod .cap h).entry? h := rfl
  have hshut := State.closePeriod_unfrozen (r := .cap) hbarred.entry hp hc
  rw [if_neg (by rw [hshutQueue]; exact Bool.false_ne_true)] at hshut
  refine ⟨?_, ?_, fun hroom => ?_⟩
  · rw [hclosed, State.closePeriod_entry?, if_pos rfl, hbarred.entry, hshutQueue]
    simp [Entry.closed, hp, hc]
  · rw [State.capped, hshut]
    exact State.delayClosure_closeQueue .cap h { e with barred := true } p _
  · rw [State.capped, hshut, State.delayClosure_roomy (by exact hroom)]
    exact ⟨rfl, rfl⟩

/-- The capped entry has lost its period, or holds it frozen. -/
theorem State.capped_entry : ∃ e', (s.capped h).entry? h = some e' ∧
    e' = { e with barred := true, period := e'.period, closing := e'.closing } ∧ (e'.period = none ∨ e'.closing = true) := by
  by_cases hroom : s.rtu.closeQueue.length < 64 ∧ s.rtu.waitList = []
  · obtain ⟨hqueue, hwait⟩ := hroom
    exact ⟨_, (State.capped_queued he hp hc hqueue hwait).1, rfl, .inl rfl⟩
  · have hfull : 64 ≤ s.rtu.closeQueue.length ∨ s.rtu.waitList ≠ [] :=
      (not_and_or.1 hroom).imp_left Nat.not_lt.1
    exact ⟨_, (State.capped_waits he hp hc hfull).1, rfl, .inr rfl⟩

end Capped

theorem State.capped_frame (h : Nat) (s : State) : s.capped h =
    { s with table := (s.capped h).table, rtu := (s.capped h).rtu, rsc := (s.capped h).rsc, mli := (s.capped h).mli } := by
  rw [State.capped, State.closePeriod_frame]
  rfl

theorem State.capped_others {h j : Nat} (hj : j ≠ h) (s : State) : (s.capped h).entry? j = s.entry? j := by
  have hread : (s.capped h).entry? j = ((s.onEntry h fun e => { e with barred := true }).closePeriod .cap h).entry? j := rfl
  rw [hread, State.closePeriod_entry?, if_neg hj.symm, State.entry?_onEntry, if_neg hj.symm]

theorem State.capped_capsReached (h : Nat) (s : State) :
    (s.capped h).rtu.counters.capsReached = bump32 s.rtu.counters.capsReached :=
  congrArg bump32 (State.closePeriod_capsReached .cap h (s.onEntry h fun e => { e with barred := true }))

/-- At the cap the closure is taken, the notice raised, and the level on board alone is sent (R33, R148). -/
theorem State.capReached_eq {h : Nat} {e : Entry} {p : Period} {s : State} (clamped : Bool) (he : s.entry? h = some e)
    (hp : e.period = some p) (hc : e.closing = false) : s.capReached h clamped =
      ((s.capped h).raise (.subscriberCapped h e.token e.cap e.total clamped s.mli.shipTime)).sends
        (if e.portLost = none ∧ e.reg ≠ .resting ∧ (s.port e.port).state ≠ .down then
          [.toHead e.port (.serveLevel h e.token .onboardOnly)] else []) := by
  obtain ⟨e', hcapped, hsame, _⟩ := State.capped_entry he hp hc
  have hport : e'.port = e.port := by rw [hsame]
  have htoken : e'.token = e.token := by rw [hsame]
  have hlost : e'.portLost = e.portLost := by rw [hsame]
  have hreg : e'.reg = e.reg := by rw [hsame]
  have htime : (s.capped h).mli.shipTime = s.mli.shipTime :=
    State.shipTime_of_standing (State.closePeriod_standing .cap h (s.onEntry h fun e => { e with barred := true }))
  have hdef : s.capReached h clamped = ((s.capped h).raise
      (.subscriberCapped h e.token e.cap e.total clamped (s.capped h).mli.shipTime)).sendLevel h .onboardOnly := by
    simp only [State.capReached, he]
    rfl
  have hraised (n : Notice) : ((s.capped h).raise n).entry? h = some e' ∧ ((s.capped h).raise n).port = s.port := by
    rw [State.raise_frame, State.capped_frame]
    exact ⟨hcapped, rfl⟩
  obtain ⟨hentry, hports⟩ := hraised (.subscriberCapped h e.token e.cap e.total clamped s.mli.shipTime)
  rw [hdef, htime, State.sendLevel_eq _ hentry, hports, hport, htoken, hlost, hreg]

/-! ### An addition that reaches the cap -/

/-- `t` is `s` with entry `h` as `e`, and with the router's and the Rating Unit's counters changed but the caps reached. -/
structure State.rates (h : Nat) (e : Entry) (s t : State) : Prop where
  entry : t.entry? h = some e
  others : ∀ j, j ≠ h → t.entry? j = s.entry? j
  queue : t.rtu.closeQueue = s.rtu.closeQueue
  waits : t.rtu.waitList = s.rtu.waitList
  caps : t.rtu.counters.capsReached = s.rtu.counters.capsReached
  store : t.rsc = s.rsc
  ports : t.cpc = s.cpc
  sent : t.sent = s.sent
  time : t.mli.shipTime = s.mli.shipTime
  billing : t.mli.billing = s.mli.billing

/-- The state in which an alert that is due has been raised (R148). -/
def State.alertedAt (h : Nat) (e : Entry) (s : State) : State :=
  if e.alertSent then s
  else s.raise (.billAlert h e.token e.cap (e.cap * s.mli.billing.alertPercent / 100) e.total s.mli.shipTime)

theorem State.billAlert_rates {h : Nat} {e : Entry} {s t : State} (ht : s.rates h e t) :
    s.rates h { e with alertSent := true } (t.billAlert h) ∧ (t.billAlert h).mli =
      (t.raise (.billAlert h e.token e.cap (e.cap * t.mli.billing.alertPercent / 100) e.total t.mli.shipTime)).mli := by
  have hdef : t.billAlert h = ((t.onEntry h fun e => { e with alertSent := true }).countRtu fun c =>
      { c with alerts := bump32 c.alerts }).raise
        (.billAlert h e.token e.cap (e.cap * t.mli.billing.alertPercent / 100) e.total t.mli.shipTime) := by
    simp only [State.billAlert, ht.entry]
    rfl
  rw [hdef]
  refine ⟨?_, State.raise_mli_congr _ rfl⟩
  have hframe (n : Notice) := State.raise_frame n ((t.onEntry h fun e => { e with alertSent := true }).countRtu fun c =>
      { c with alerts := bump32 c.alerts })
  rw [hframe]
  refine ⟨?_, fun j hj => ?_, ht.queue, ht.waits, ht.caps, ht.store, ht.ports, ht.sent, ht.time, ht.billing⟩
  · exact (State.entry?_onEntry h h _ t).trans (by rw [if_pos rfl, ht.entry]; rfl)
  · exact (State.entry?_onEntry h j _ t).trans (by rw [if_neg hj.symm]; exact ht.others j hj)

/-- The last step of the charging of an addition: an unfrozen period whose volume stands at its largest value is closed, and
another may open (R147, step 5). -/
def State.volumeEnds (h : Nat) (s : State) : State :=
  match (s.entry? h).bind (·.period) with
  | some p =>
    if s.hasUnfrozen h && (p.up == Limits.maxVolume || p.down == Limits.maxVolume) then
      ((s.onEntry h fun e => { e with period := e.period.map fun (p : Period) => { p with saturated := true } }).closePeriod .age
        h).openPeriod h
    else s
  | none => s

theorem State.volumeEnds_closed {h : Nat} {s : State} (hno : s.hasUnfrozen h = false) : s.volumeEnds h = s := by
  unfold State.volumeEnds
  rw [hno]
  split <;> rfl

/-- Behind a cap reached the last step does nothing, as the period is gone or frozen. -/
theorem State.volumeEnds_capReached {h : Nat} {e : Entry} {p : Period} {s : State} (clamped : Bool)
    (he : s.entry? h = some e) (hp : e.period = some p) (hc : e.closing = false) :
    (s.capReached h clamped).volumeEnds h = s.capReached h clamped := by
  obtain ⟨e', hcapped, _, hends⟩ := State.capped_entry he hp hc
  refine State.volumeEnds_closed ?_
  have hread : (s.capReached h clamped).entry? h = some e' := by
    rw [State.capReached_eq clamped he hp hc, State.raise_frame]
    exact hcapped
  unfold State.hasUnfrozen
  rw [hread]
  obtain hnone | hclosing := hends
  · simp [hnone]
  · simp [hclosing]

/-- An addition that has brought the total to its cap is followed by the alert, if it is due, and by the cap's own steps
(R147, R148); the period is then gone or frozen, and nothing else is done. -/
theorem State.afterCharging_capped {h : Nat} {e : Entry} {p : Period} {s t : State} (ht : s.rates h e t) (hmli : t.mli = s.mli)
    (hp : e.period = some p) (hc : e.closing = false) (hat : e.total = e.cap) (hcap : e.cap ≠ 0)
    (hpercent : s.mli.billing.alertPercent ≤ 100) : ∃ u, t.afterCharging h = u.capReached h p.clamped ∧
      s.rates h { e with alertSent := true } u ∧ u.mli = (s.alertedAt h e).mli := by
  have hdue : (e.cap != 0 && !e.alertSent && decide (t.alertLevel e.cap ≤ e.total)) = !e.alertSent := by
    have hlevel : t.alertLevel e.cap ≤ e.total := by
      rw [State.alertLevel, hat, hmli]
      exact Nat.div_le_of_le_mul (Nat.mul_comm 100 _ ▸ Nat.mul_le_mul_left _ hpercent)
    simp [hcap, hlevel]
  have hcapped : e.atCap = true := by simp [Entry.atCap, hat, hcap]
  cases hsent : e.alertSent with
  | true =>
    have hsame : { e with alertSent := true } = e := by rw [← hsent]
    refine ⟨t, ?_, by rw [hsame]; exact ht, by rw [State.alertedAt, hsent, hmli]; rfl⟩
    refine Eq.trans ?_ (State.volumeEnds_capReached p.clamped ht.entry hp hc)
    have hnotDue := hdue.trans (congrArg Bool.not hsent)
    rw [Bool.not_true] at hnotDue
    simp only [State.afterCharging, ht.entry, hnotDue, Bool.false_eq_true, if_false, hcapped, if_true, hp,
      Option.map_some, Option.getD_some]
    rfl
  | false =>
    obtain ⟨hbilled, hraised⟩ := State.billAlert_rates ht
    refine ⟨t.billAlert h, ?_, hbilled, ?_⟩
    · refine Eq.trans ?_ (State.volumeEnds_capReached p.clamped hbilled.entry hp hc)
      have hcappedToo : Entry.atCap { e with alertSent := true } = true := hcapped
      have hperiod : Entry.period { e with alertSent := true } = some p := hp
      have hread := hbilled.entry
      generalize { e with alertSent := true } = x at hread hcappedToo hperiod
      have hisDue := hdue.trans (congrArg Bool.not hsent)
      rw [Bool.not_false] at hisDue
      simp only [State.afterCharging, ht.entry, hisDue, if_true, hread, hcappedToo, hperiod,
        Option.map_some, Option.getD_some]
      rfl
    · rw [hraised, State.alertedAt, hsent, hmli]
      exact State.raise_mli_congr _ hmli

/-- What the cap's own steps leave, behind an alert (R33, R148, R154). -/
theorem State.rates.capReached {h : Nat} {e : Entry} {p : Period} {s u : State} (hu : s.rates h e u) (hp : e.period = some p)
    (hc : e.closing = false) :
    (s.rtu.closeQueue.length < 64 → s.rtu.waitList = [] →
      (u.capReached h p.clamped).entry? h = some { e with barred := true, period := none } ∧
      (u.capReached h p.clamped).rtu.waitList = [] ∧
      (u.capReached h p.clamped).closures = s.closures ++ [s.closureRecord e p .cap false]) ∧
    (64 ≤ s.rtu.closeQueue.length ∨ s.rtu.waitList ≠ [] →
      (u.capReached h p.clamped).entry? h = some { e with barred := true, closing := true } ∧
      (u.capReached h p.clamped).rtu.closeQueue = s.rtu.closeQueue ∧
      (s.rtu.waitList.length < 4096 → (u.capReached h p.clamped).rtu.waitList =
        s.rtu.waitList ++ [⟨h, e.attach, s.closureRecord e p .cap true⟩])) ∧
    (s.rsc.op ≠ none ∨ s.rsc.bufferOn = true → s.rtu.waitList.length < 4096 → (u.capReached h p.clamped).mli =
      (u.raise (.subscriberCapped h e.token e.cap e.total p.clamped s.mli.shipTime)).mli) ∧
    (∀ j, j ≠ h → (u.capReached h p.clamped).entry? j = s.entry? j) ∧
    (u.capReached h p.clamped).rtu.counters.capsReached = bump32 s.rtu.counters.capsReached ∧
    (u.capReached h p.clamped).sent = s.sent ++ (if e.portLost = none ∧ e.reg ≠ .resting ∧ (s.port e.port).state ≠ .down then
      [.toHead e.port (.serveLevel h e.token .onboardOnly)] else []) := by
  have hports : u.port = s.port := by
    funext q
    rw [State.port, hu.ports, State.port]
  have hrecord (delayed : Bool) : u.closureRecord e p .cap delayed = s.closureRecord e p .cap delayed := by
    simp only [State.closureRecord, hu.time]
  have hclosures : u.closures = s.closures := congrArg (List.map bare) hu.queue
  rw [State.capReached_eq p.clamped hu.entry hp hc, hports, hu.time]
  have hframe := State.raise_frame (.subscriberCapped h e.token e.cap e.total p.clamped s.mli.shipTime) (u.capped h)
  refine ⟨fun hqueue hwait => ?_, fun hfull => ?_, fun hcalm hroom => ?_, fun j hj => ?_, ?_, ?_⟩
  · obtain ⟨hentry, hwaits, hqueued, _⟩ := State.capped_queued hu.entry hp hc (hu.queue ▸ hqueue) (hu.waits.trans hwait)
    rw [hrecord, hclosures] at hqueued
    rw [hframe]
    exact ⟨hentry, hwaits, hqueued⟩
  · obtain ⟨hentry, hqueue, hroomy⟩ := State.capped_waits hu.entry hp hc (by rw [hu.queue, hu.waits]; exact hfull)
    rw [hu.waits, hrecord] at hroomy
    rw [hframe]
    exact ⟨hentry, hqueue.trans hu.queue, fun hroom => (hroomy hroom).2⟩
  · refine State.raise_mli_congr _ ?_
    by_cases hopen : s.rtu.closeQueue.length < 64 ∧ s.rtu.waitList = []
    · obtain ⟨hqueue, hwait⟩ := hopen
      obtain ⟨_, _, _, hmli⟩ := State.capped_queued hu.entry hp hc (hu.queue ▸ hqueue) (hu.waits.trans hwait)
      exact hmli (hu.store ▸ hcalm)
    · obtain ⟨_, _, hroomy⟩ := State.capped_waits hu.entry hp hc
        (by rw [hu.queue, hu.waits]; exact (not_and_or.1 hopen).imp_left Nat.not_lt.1)
      exact (hroomy (hu.waits ▸ hroom)).1
  · rw [hframe]
    exact (State.capped_others hj u).trans (hu.others j hj)
  · rw [hframe]
    exact (State.capped_capsReached h u).trans (congrArg bump32 hu.caps)
  · rw [hframe]
    have hsent : (u.capped h).sent = s.sent := by rw [State.capped_frame]; exact hu.sent
    exact congrArg (· ++ _) hsent

theorem Period.addVolume_eq {p : Period} {dir : Direction} {b up down : Nat}
    (hup : up = if dir = .uplink then p.up + b else p.up) (hdown : down = if dir = .downlink then p.down + b else p.down)
    (hu : up ≤ 1099511627775) (hd : down ≤ 1099511627775) : p.addVolume dir b = { p with up := up, down := down } := by
  subst hup hdown
  cases dir <;> simp_all [Period.addVolume, satAt, Limits.maxVolume]

/-- An addition rated in an open period, up to the alert and the cap (R147, steps 1 to 3). -/
theorem exec_meteredAddition_rated {s : State} {h a b : Nat} {dir : Direction} {e : Entry} {p : Period} {x : Account}
    (hs : s.powered = true) (hlife : s.life? h a = some e) (hp : e.period = some p) (hc : e.closing = false)
    (hx : chargeIncrements (p.addVolume dir b).owed ⟨e, p.addVolume dir b, s.rtu.counters⟩ = x) :
    ∃ t, exec (.meteredAddition h a dir b) s = .next (t.afterCharging h) ∧
      s.rates h { x.entry with period := some x.period } t ∧ t.mli = s.mli := by
  have hexec : exec (.meteredAddition h a dir b) s = execMeteredAddition h a dir b s := rfl
  obtain ⟨hentry, _⟩ := Option.filter_eq_some_iff.1 hlife
  have hlifeToo (f : Router → Router) : (s.onRouter f).life? h a = some e := hlife
  subst hx
  rw [hexec, execMeteredAddition, whenPowered_on _ hs]
  simp only [hlifeToo, hp, hc, Bool.false_eq_true, if_false]
  refine ⟨_, rfl, ⟨?_, fun j hj => ?_, rfl, rfl, ?_, rfl, rfl, rfl, rfl, rfl⟩, rfl⟩
  · refine (State.entry?_onEntry h h _ (s.onRouter _)).trans ?_
    rw [if_pos rfl]
    exact congrArg (Option.map _) hentry
  · exact (State.entry?_onEntry h j _ (s.onRouter _)).trans (if_neg hj.symm)
  · have hcaps := chargeIncrements_capsReached (p.addVolume dir b).owed ⟨e, p.addVolume dir b, s.rtu.counters⟩
    cases dir <;> exact hcaps

/-- The account that an addition opens, its volumes added (R147). -/
def State.account (s : State) (e : Entry) (p : Period) (up down : Nat) : Account :=
  ⟨e, { p with up := up, down := down }, s.rtu.counters⟩

/-- Settles O47: the increments up to the cap, then the alert, the cap's own steps, and nothing more. -/
theorem chargingStopsAtTheCap : Obligations.ChargingStopsAtTheCap := by
  unfold Obligations.ChargingStopsAtTheCap
  intro s h a b dir e p hs hlife hp hc hbelowCap hcap hpercent up down n tier1 total queue hup hdown hdays hreached
  have hvolume : p.addVolume dir b = { p with up := up, down := down } := Period.addVolume_eq rfl rfl hup hdown
  obtain ⟨k, hk, hfirst⟩ : ∃ k, e.cap ≤ total k ∧ ∀ j < k, total j < e.cap := by
    have hsome : ∃ k, e.cap ≤ total k := ⟨n, hreached⟩
    exact ⟨Nat.find hsome, Nat.find_spec hsome, fun j hj => Nat.lt_of_not_le (Nat.find_min hsome hj)⟩
  have hkn : k ≤ n := Nat.le_of_not_lt fun hlt => absurd (hfirst n hlt) (Nat.not_lt.2 hreached)
  have hk1 : 1 ≤ k := by
    refine Nat.one_le_iff_ne_zero.2 fun hzero => ?_
    have hstart : total 0 = e.total := by simp [total, tier1]
    rw [hzero, hstart] at hk
    omega
  have hstands : (s.account e p up down).stands k (chargeIncrements n (s.account e p up down)) :=
    Account.chargeIncrements_stands hcap (by show e.dayCount + k ≤ 65535; omega) hk hfirst n
      (Account.reaches_zero hbelowCap) (by omega) (by omega)
  obtain ⟨hentry, hperiod⟩ := hstands
  rw [Account.entryAt_capped hk] at hentry
  rw [Account.periodAt_capped hk] at hperiod
  obtain ⟨t, hexec, hrated, hmli⟩ := exec_meteredAddition_rated hs hlife hp hc (dir := dir) (b := b)
    (x := chargeIncrements n (s.account e p up down)) (by rw [hvolume]; rfl)
  rw [hentry, hperiod] at hrated
  obtain ⟨u, hafter, halerted, hmliAlerted⟩ := State.afterCharging_capped hrated hmli rfl hc rfl
    (by show e.cap ≠ 0; omega) hpercent
  obtain ⟨hqueued, hwaits, hraised, hothers, hcaps, hsent⟩ := halerted.capReached rfl hc
  rw [hafter] at hexec
  refine ⟨_, k, hexec, hk1, hkn, hk, hfirst, ⟨fun hqueue hwait => ?_, hwaits, fun hcalm hroom hclear => ?_⟩, hothers, hcaps,
    hsent⟩
  · obtain ⟨hcapped, hnone, hclosures⟩ := hqueued hqueue hwait
    refine ⟨hcapped, hnone, hclosures.trans ?_⟩
    simp only [queue, List.map_append]
    rfl
  · have hcut : (p.clamped || decide (e.cap < total k)) = decide (e.cap < total k) := by rw [hclear, Bool.false_or]
    rw [← hcut]
    exact (hraised hcalm hroom).trans (State.raise_mli_congr _ hmliAlerted)

end Sys2Proof.Machine
end

