-- ==== Sys2Proof/Proofs/Spoken.lean ====
section
/-! SUPPORT. What is sent (R27): from one state to another the part may only have spoken, to no cell port that is DOWN. -/

namespace Sys2Proof.Machine

/-! ### Only spoken -/

/-- From `s` to `t` nothing sent is taken back, no cell port that is DOWN is sent anything, and the same cell ports are DOWN. -/
def State.tells (s t : State) : Prop :=
  (∃ new : List Sent, t.sent = s.sent ++ new ∧ ∀ p r, Sent.toHead p r ∈ new → (s.port p).state ≠ .down) ∧
    ∀ p, (t.port p).state = .down ↔ (s.port p).state = .down

/-- `State.tells` again, under a name that `simp` leaves alone: the lemmas below rewrite `s₀.tells (f s)` to `s₀.tells s` where
`f` sends nothing, and to `s₀.tells s ∨ s₀.toldBy (f s)` where it may send, so that one `simp` follows a whole composition
back to its first state. -/
def State.toldBy (s t : State) : Prop := s.tells t

@[simp] theorem State.tells_refl (s : State) : s.tells s :=
  ⟨⟨[], (List.append_nil _).symm, fun _ _ h => nomatch h⟩, fun _ => Iff.rfl⟩

theorem State.tells.trans {s t u : State} (hst : s.tells t) (htu : t.tells u) : s.tells u := by
  obtain ⟨⟨new, hnew, hheads⟩, hports⟩ := hst
  obtain ⟨⟨more, hmore, hheadsToo⟩, hportsToo⟩ := htu
  refine ⟨⟨new ++ more, by rw [hmore, hnew, List.append_assoc], fun p r hmem => ?_⟩, fun p => (hportsToo p).trans (hports p)⟩
  obtain hin | hin := List.mem_append.1 hmem
  · exact hheads p r hin
  · exact mt (hports p).2 (hheadsToo p r hin)

/-- A step that only speaks, as `simp` is to use it. -/
theorem State.tells.step {s t : State} (h : s.tells t) {s₀ : State} : s₀.tells t ↔ s₀.tells s ∨ s₀.toldBy t :=
  ⟨.inr, fun hor => hor.elim (fun hs => hs.trans h) id⟩

variable {s₀ : State}

/-! ### Updates of one block -/

@[simp] theorem State.onTracker_tells (f : Tracker → Tracker) (s : State) : s₀.tells (s.onTracker f) ↔ s₀.tells s := Iff.rfl
@[simp] theorem State.onTable_tells (f : Table → Table) (s : State) : s₀.tells (s.onTable f) ↔ s₀.tells s := Iff.rfl
@[simp] theorem State.onRouter_tells (f : Router → Router) (s : State) : s₀.tells (s.onRouter f) ↔ s₀.tells s := Iff.rfl
@[simp] theorem State.onSlm_tells (f : Slm → Slm) (s : State) : s₀.tells (s.onSlm f) ↔ s₀.tells s := Iff.rfl
@[simp] theorem State.onSws_tells (f : SwapStore → SwapStore) (s : State) : s₀.tells (s.onSws f) ↔ s₀.tells s := Iff.rfl
@[simp] theorem State.onRge_tells (f : Rge → Rge) (s : State) : s₀.tells (s.onRge f) ↔ s₀.tells s := Iff.rfl
@[simp] theorem State.onRtu_tells (f : Rtu → Rtu) (s : State) : s₀.tells (s.onRtu f) ↔ s₀.tells s := Iff.rfl
@[simp] theorem State.onRsc_tells (f : Rsc → Rsc) (s : State) : s₀.tells (s.onRsc f) ↔ s₀.tells s := Iff.rfl
@[simp] theorem State.onMli_tells (f : Mli → Mli) (s : State) : s₀.tells (s.onMli f) ↔ s₀.tells s := Iff.rfl
@[simp] theorem State.onLink_tells (l : Fin 4) (f : Link → Link) (s : State) : s₀.tells (s.onLink l f) ↔ s₀.tells s := Iff.rfl
@[simp] theorem State.onEntry_tells (h : Nat) (f : Entry → Entry) (s : State) : s₀.tells (s.onEntry h f) ↔ s₀.tells s := Iff.rfl
@[simp] theorem State.onBearer_tells (h k : Nat) (f : Bearer → Bearer) (s : State) :
    s₀.tells (s.onBearer h k f) ↔ s₀.tells s := Iff.rfl

@[simp] theorem State.onPort_tells (p : Fin 6) (f : CellPort → CellPort) (s : State)
    (hf : ∀ q, (f q).state = .down ↔ q.state = .down) : s₀.tells (s.onPort p f) ↔ s₀.tells s := by
  have hports (q : Fin 6) : ((s.onPort p f).port q).state = .down ↔ (s.port q).state = .down := by
    rw [State.port_onPort]
    split
    · rename_i hq
      rw [hf, hq]
    · rfl
  simp only [State.tells, hports]
  rfl

@[simp] theorem State.onCpc_tells (f : Cpc → Cpc) (s : State) (hf : ∀ x, (f x).ports = x.ports) :
    s₀.tells (s.onCpc f) ↔ s₀.tells s := by
  simp only [State.tells, State.port, State.onCpc_cpc, hf]
  rfl

/-! ### Records sent -/

/-- A record to anything but a head. -/
theorem State.emit_tells_of {r : Sent} (hr : ∀ p x, r ≠ .toHead p x) (s : State) : s.tells (s.emit r) :=
  ⟨⟨[r], rfl, fun p x hmem => absurd (List.mem_singleton.1 hmem).symm (hr p x)⟩, fun _ => Iff.rfl⟩

@[simp] theorem State.emit_toShore_tells (l : Fin 4) (r : ShoreRecord) (s : State) :
    s₀.tells (s.emit (.toShore l r)) ↔ s₀.tells s ∨ s₀.toldBy (s.emit (.toShore l r)) :=
  (State.emit_tells_of (by simp) s).step

@[simp] theorem State.emit_toOnboard_tells (r : OnboardRecord) (s : State) :
    s₀.tells (s.emit (.toOnboard r)) ↔ s₀.tells s ∨ s₀.toldBy (s.emit (.toOnboard r)) :=
  (State.emit_tells_of (by simp) s).step

@[simp] theorem State.emit_toHost_tells (b : List Byte) (s : State) :
    s₀.tells (s.emit (.toHost b)) ↔ s₀.tells s ∨ s₀.toldBy (s.emit (.toHost b)) :=
  (State.emit_tells_of (by simp) s).step

@[simp] theorem State.emit_cellCarrier_tells (p : Fin 6) (given : Bool) (s : State) :
    s₀.tells (s.emit (.cellCarrier p given)) ↔ s₀.tells s ∨ s₀.toldBy (s.emit (.cellCarrier p given)) :=
  (State.emit_tells_of (by simp) s).step

/-- A head is sent a record while its port is listening alone (R27). -/
@[simp] theorem State.toHead_tells (p : Fin 6) (r : HeadRecord) (s : State) :
    s₀.tells (s.toHead p r) ↔ s₀.tells s ∨ s₀.toldBy (s.toHead p r) := by
  refine State.tells.step ?_
  by_cases hdown : (s.port p).state = .down
  · rw [State.toHead_down r hdown]
    exact s.tells_refl
  · rw [State.toHead_up r hdown]
    refine ⟨⟨[.toHead p r], rfl, fun q x hmem => ?_⟩, fun _ => Iff.rfl⟩
    obtain ⟨rfl, _⟩ := Sent.toHead.inj (List.mem_singleton.1 hmem)
    exact hdown

theorem State.eachOf_tells {α : Type} (l : List α) (f : α → State → State) (hf : ∀ a (s : State), s.tells (f a s)) (s : State) :
    s.tells (s.eachOf l f) :=
  State.eachOf_keeps (P := s.tells) l (fun a _ u hu => hu.trans (hf a u)) s.tells_refl

theorem State.eachEntry_tells (f : Nat → State → State) (hf : ∀ h (s : State), s.tells (f h s)) (s : State) :
    s.tells (s.eachEntry f) := State.eachOf_tells s.handles f hf s

end Sys2Proof.Machine
end

