-- ==== Sys2Proof/Proofs/SpokenOperations.lean ====
section
/-! SUPPORT. The operations that commands share either send nothing, and then what was told before them is all that is told, or
only speak (R27). The lemmas stand in the order of the operations. -/

namespace Sys2Proof.Machine
variable {s₀ : State}

/-! ### Counters -/

@[simp] theorem State.countPort_tells (p : Fin 6) (f : PortCounters → PortCounters) (s : State) :
    s₀.tells (s.countPort p f) ↔ s₀.tells s := by
  unfold State.countPort
  simp

@[simp] theorem State.countRge_tells (f : RoamingCounters → RoamingCounters) (s : State) :
    s₀.tells (s.countRge f) ↔ s₀.tells s := Iff.rfl

@[simp] theorem State.countRtu_tells (f : RatingCounters → RatingCounters) (s : State) :
    s₀.tells (s.countRtu f) ↔ s₀.tells s := Iff.rfl

@[simp] theorem State.countRouter_tells (f : RouterTotals → RouterTotals) (s : State) :
    s₀.tells (s.countRouter f) ↔ s₀.tells s := Iff.rfl

@[simp] theorem State.countLink_tells (l : Fin 4) (f : LinkCounters → LinkCounters) (s : State) :
    s₀.tells (s.countLink l f) ↔ s₀.tells s := Iff.rfl

@[simp] theorem State.countRsc_tells (f : RecordCounters → RecordCounters) (s : State) :
    s₀.tells (s.countRsc f) ↔ s₀.tells s := Iff.rfl

@[simp] theorem State.countMli_tells (f : MliCounters → MliCounters) (s : State) :
    s₀.tells (s.countMli f) ↔ s₀.tells s := Iff.rfl

/-! ### Notices and records sent -/

@[simp] theorem State.raise_tells (n : Notice) (s : State) : s₀.tells (s.raise n) ↔ s₀.tells s := Iff.rfl

@[simp] theorem State.sendLevel_tells (h : Nat) (level : ServeLevel) (s : State) :
    s₀.tells (s.sendLevel h level) ↔ s₀.tells s ∨ s₀.toldBy (s.sendLevel h level) := by
  refine State.tells.step ?_
  unfold State.sendLevel
  repeat' split
  all_goals simp

@[simp] theorem State.sendLevelByEntitlement_tells (h : Nat) (s : State) :
    s₀.tells (s.sendLevelByEntitlement h) ↔ s₀.tells s ∨ s₀.toldBy (s.sendLevelByEntitlement h) := by
  refine State.tells.step ?_
  unfold State.sendLevelByEntitlement
  split <;> simp

@[simp] theorem State.sendHold_tells (p : Fin 6) (s : State) :
    s₀.tells (s.sendHold p) ↔ s₀.tells s ∨ s₀.toldBy (s.sendHold p) := by
  refine State.tells.step ?_
  unfold State.sendHold
  simp

@[simp] theorem State.storeFault_tells (r : StoreFault) (slot : Option Nat) (s : State) :
    s₀.tells (s.storeFault r slot) ↔ s₀.tells s := Iff.rfl

@[simp] theorem State.linkChanged_tells (l : Fin 4) (a b : LinkState) (c : LinkCause) (s : State) :
    s₀.tells (s.linkChanged l a b c) ↔ s₀.tells s := Iff.rfl

/-! ### The record store -/

@[simp] theorem State.checkLow_tells (s : State) : s₀.tells s.checkLow ↔ s₀.tells s := by
  unfold State.checkLow
  dsimp only
  repeat' split
  all_goals simp

@[simp] theorem State.beginWrite_tells (s : State) : s₀.tells s.beginWrite ↔ s₀.tells s := by
  unfold State.beginWrite
  repeat' split
  all_goals simp

@[simp] theorem State.beginOther_tells (s : State) : s₀.tells s.beginOther ↔ s₀.tells s := by
  unfold State.beginOther
  repeat' split
  all_goals simp

@[simp] theorem State.arbitrate_tells (s : State) : s₀.tells s.arbitrate ↔ s₀.tells s := by
  unfold State.arbitrate
  dsimp only
  repeat' split
  all_goals simp

@[simp] theorem State.returnBatch_tells (c : ReturnCause) (s : State) : s₀.tells (s.returnBatch c) ↔ s₀.tells s := Iff.rfl

@[simp] theorem State.batchLinkLeft_tells (l : Fin 4) (s : State) : s₀.tells (s.batchLinkLeft l) ↔ s₀.tells s := by
  unfold State.batchLinkLeft
  repeat' split
  all_goals simp

/-! ### Periods -/

@[simp] theorem State.openPeriod_tells (h : Nat) (s : State) : s₀.tells (s.openPeriod h) ↔ s₀.tells s := by
  unfold State.openPeriod
  repeat' split
  all_goals simp

@[simp] theorem State.closuresLost_tells (n : Nat) (s : State) : s₀.tells (s.closuresLost n) ↔ s₀.tells s := Iff.rfl

@[simp] theorem State.makeRoom_tells (s : State) : s₀.tells s.makeRoom ↔ s₀.tells s := by
  unfold State.makeRoom
  repeat' split
  all_goals simp

@[simp] theorem State.joinWaitList_tells (w : WaitingClosure) (s : State) : s₀.tells (s.joinWaitList w) ↔ s₀.tells s := by
  unfold State.joinWaitList
  simp

@[simp] theorem State.closePeriod_tells (r : CloseReason) (h : Nat) (s : State) :
    s₀.tells (s.closePeriod r h) ↔ s₀.tells s := by
  unfold State.closePeriod
  dsimp only
  repeat' split
  all_goals simp

@[simp] theorem State.feedQueue_tells (s : State) : s₀.tells s.feedQueue ↔ s₀.tells s := by
  unfold State.feedQueue
  dsimp only
  repeat' split
  all_goals simp

@[simp] theorem State.raiseLoss_tells (h a : Nat) (s : State) : s₀.tells (s.raiseLoss h a) ↔ s₀.tells s := by
  unfold State.raiseLoss
  repeat' split
  all_goals simp

@[simp] theorem State.endFlush_tells (s : State) : s₀.tells s.endFlush ↔ s₀.tells s := by
  unfold State.endFlush
  repeat' split
  all_goals simp

@[simp] theorem State.nextOperation_tells (s : State) : s₀.tells s.nextOperation ↔ s₀.tells s := by
  unfold State.nextOperation
  simp

/-! ### The swap store and the shore ports -/

@[simp] theorem State.reportRise_tells (s : State) : s₀.tells s.reportRise ↔ s₀.tells s ∨ s₀.toldBy s.reportRise := by
  refine State.tells.step ?_
  unfold State.reportRise
  split
  · refine State.tells.trans ?_ (State.eachOf_tells _ _ (fun p s => by split <;> simp) _)
    simp
  · simp

@[simp] theorem State.reportFall_tells (s : State) : s₀.tells s.reportFall ↔ s₀.tells s ∨ s₀.toldBy s.reportFall := by
  refine State.tells.step ?_
  unfold State.reportFall
  split
  · refine State.tells.trans ?_ (State.eachOf_tells _ _ (fun p s => by split <;> simp) _)
    simp
  · simp

@[simp] theorem State.makeAddition_tells (a : Addition) (s : State) : s₀.tells (s.makeAddition a) ↔ s₀.tells s := Iff.rfl

@[simp] theorem State.popFrame_tells (s : State) : s₀.tells s.popFrame ↔ s₀.tells s := Iff.rfl

@[simp] theorem State.withdrawOffer_tells (s : State) :
    s₀.tells s.withdrawOffer ↔ s₀.tells s ∨ s₀.toldBy s.withdrawOffer := by
  refine State.tells.step ?_
  unfold State.withdrawOffer
  split
  · refine State.tells.trans ?_ (State.eachOf_tells _ _ (fun l s => by simp) _)
    simp
  · simp

@[simp] theorem State.shedHead_tells (s : State) : s₀.tells s.shedHead ↔ s₀.tells s ∨ s₀.toldBy s.shedHead := by
  refine State.tells.step ?_
  unfold State.shedHead
  split <;> simp

@[simp] theorem State.shedFor_tells (len n : Nat) (s : State) :
    s₀.tells (s.shedFor len n) ↔ s₀.tells s ∨ s₀.toldBy (s.shedFor len n) := by
  refine State.tells.step ?_
  induction n generalizing s with
  | zero => exact s.tells_refl
  | succ n ih =>
    unfold State.shedFor
    split
    · exact s.tells_refl
    · exact State.tells.trans (by simp) (ih s.shedHead)

@[simp] theorem State.storeFrame_tells (f : StoredFrame) (s : State) :
    s₀.tells (s.storeFrame f) ↔ s₀.tells s ∨ s₀.toldBy (s.storeFrame f) := by
  refine State.tells.step ?_
  unfold State.storeFrame
  simp

@[simp] theorem State.shedAll_tells (n : Nat) (s : State) : s₀.tells (s.shedAll n) ↔ s₀.tells s ∨ s₀.toldBy (s.shedAll n) := by
  refine State.tells.step ?_
  induction n generalizing s with
  | zero => exact s.tells_refl
  | succ n ih => exact State.tells.trans (by simp) (ih s.shedHead)

@[simp] theorem State.handOffStored_tells (l : Fin 4) (t : Token) (s : State) :
    s₀.tells (s.handOffStored l t) ↔ s₀.tells s ∨ s₀.toldBy (s.handOffStored l t) := by
  refine State.tells.step ?_
  unfold State.handOffStored
  dsimp only
  repeat' split
  all_goals simp

@[simp] theorem State.takeEcho_tells (l : Fin 4) (p : Purpose) (d : Nat) (s : State) :
    s₀.tells (s.takeEcho l p d) ↔ s₀.tells s ∨ s₀.toldBy (s.takeEcho l p d) := by
  refine State.tells.step ?_
  unfold State.takeEcho
  simp

@[simp] theorem State.modemTakes_tells (l : Fin 4) (w : Waiting) (s : State) :
    s₀.tells (s.modemTakes l w) ↔ s₀.tells s ∨ s₀.toldBy (s.modemTakes l w) := by
  refine State.tells.step ?_
  unfold State.modemTakes
  split <;> simp

@[simp] theorem State.offer_tells (l : Fin 4) (w : Waiting) (s : State) :
    s₀.tells (s.offer l w) ↔ s₀.tells s ∨ s₀.toldBy (s.offer l w) := by
  refine State.tells.step ?_
  unfold State.offer
  split <;> simp

/-! ### Links -/

@[simp] theorem State.requeue_tells (l : Fin 4) (s : State) : s₀.tells (s.requeue l) ↔ s₀.tells s := Iff.rfl

@[simp] theorem State.enterState_tells (l : Fin 4) (n : LinkState) (s : State) :
    s₀.tells (s.enterState l n) ↔ s₀.tells s := Iff.rfl

@[simp] theorem State.dropWaiting_tells (l : Fin 4) (failed : Bool) (s : State) :
    s₀.tells (s.dropWaiting l failed) ↔ s₀.tells s ∨ s₀.toldBy (s.dropWaiting l failed) := by
  refine State.tells.step ?_
  unfold State.dropWaiting
  dsimp only
  repeat' split
  all_goals simp

@[simp] theorem State.startProbe_tells (l : Fin 4) (c : LinkCause) (s : State) :
    s₀.tells (s.startProbe l c) ↔ s₀.tells s ∨ s₀.toldBy (s.startProbe l c) := by
  refine State.tells.step ?_
  unfold State.startProbe
  dsimp only
  repeat' split
  all_goals simp

@[simp] theorem State.leaveFor_tells (l : Fin 4) (n : LinkState) (c : LinkCause) (q : Bool) (s : State) :
    s₀.tells (s.leaveFor l n c q) ↔ s₀.tells s ∨ s₀.toldBy (s.leaveFor l n c q) := by
  refine State.tells.step ?_
  unfold State.leaveFor
  dsimp only
  repeat' split
  all_goals simp

/-! ### Roaming -/

@[simp] theorem State.sendDereg_tells (h : Nat) (t : Token) (i : Nat) (s : State) :
    s₀.tells (s.sendDereg h t i) ↔ s₀.tells s ∨ s₀.toldBy (s.sendDereg h t i) := by
  refine State.tells.step ?_
  unfold State.sendDereg
  split <;> simp

@[simp] theorem State.dropExchange_tells (h : Nat) (s : State) : s₀.tells (s.dropExchange h) ↔ s₀.tells s := Iff.rfl

@[simp] theorem State.dropRegAsk_tells (h : Nat) (k : Option Nat) (s : State) :
    s₀.tells (s.dropRegAsk h k) ↔ s₀.tells s := Iff.rfl

@[simp] theorem State.giveCandidate_tells (h : Nat) (s : State) : s₀.tells (s.giveCandidate h) ↔ s₀.tells s := by
  unfold State.giveCandidate
  repeat' split
  all_goals simp

@[simp] theorem State.lapse_tells (h : Nat) (r : Bool) (s : State) :
    s₀.tells (s.lapse h r) ↔ s₀.tells s ∨ s₀.toldBy (s.lapse h r) := by
  refine State.tells.step ?_
  unfold State.lapse
  split <;> simp

@[simp] theorem State.voidRegistration_tells (h : Nat) (s : State) :
    s₀.tells (s.voidRegistration h) ↔ s₀.tells s ∨ s₀.toldBy (s.voidRegistration h) := by
  refine State.tells.step ?_
  unfold State.voidRegistration
  dsimp only
  repeat' split
  all_goals simp

@[simp] theorem State.beginMove_tells (h : Nat) (c : Nat × Nat) (s : State) : s₀.tells (s.beginMove h c) ↔ s₀.tells s := Iff.rfl

@[simp] theorem State.moveCheck_tells (h : Nat) (s : State) :
    s₀.tells (s.moveCheck h) ↔ s₀.tells s ∨ s₀.toldBy (s.moveCheck h) := by
  refine State.tells.step ?_
  unfold State.moveCheck
  dsimp only
  repeat' split
  all_goals simp

@[simp] theorem State.askFailed_tells (h : Nat) (s : State) :
    s₀.tells (s.askFailed h) ↔ s₀.tells s ∨ s₀.toldBy (s.askFailed h) := by
  refine State.tells.step ?_
  unfold State.askFailed
  dsimp only
  repeat' split
  all_goals simp

@[simp] theorem State.dropUnfit_tells (h : Nat) (s : State) : s₀.tells (s.dropUnfit h) ↔ s₀.tells s := by
  unfold State.dropUnfit
  split <;> simp

@[simp] theorem State.sendExchange_tells (l : Fin 4) (h : Nat) (e : Entry) (k : ExchangeKind) (p : Nat) (r : ShoreRecord)
    (s : State) : s₀.tells (s.sendExchange l h e k p r) ↔ s₀.tells s ∨ s₀.toldBy (s.sendExchange l h e k p r) := by
  refine State.tells.step ?_
  unfold State.sendExchange
  simp

@[simp] theorem State.sendAsk_tells (l : Fin 4) (h : Nat) (s : State) :
    s₀.tells (s.sendAsk l h) ↔ s₀.tells s ∨ s₀.toldBy (s.sendAsk l h) := by
  refine State.tells.step ?_
  unfold State.sendAsk
  repeat' split
  all_goals simp

/-! ### Swaps, selection and isolation -/

@[simp] theorem State.beginSwap_tells (l : Fin 4) (p : Bool) (s : State) :
    s₀.tells (s.beginSwap l p) ↔ s₀.tells s ∨ s₀.toldBy (s.beginSwap l p) := by
  refine State.tells.step ?_
  unfold State.beginSwap
  simp

@[simp] theorem State.workOut_tells (s : State) : s₀.tells s.workOut ↔ s₀.tells s ∨ s₀.toldBy s.workOut := by
  refine State.tells.step ?_
  unfold State.workOut
  repeat' split
  all_goals simp

@[simp] theorem State.beginCutOff_tells (s : State) : s₀.tells s.beginCutOff ↔ s₀.tells s ∨ s₀.toldBy s.beginCutOff := by
  refine State.tells.step ?_
  unfold State.beginCutOff
  dsimp only
  refine State.tells.trans ?_ (State.eachOf_tells _ _ (fun h s => by simp) _)
  simp

@[simp] theorem State.beginIsolation_tells (l : Option (Fin 4)) (c : LossCause) (s : State) :
    s₀.tells (s.beginIsolation l c) ↔ s₀.tells s ∨ s₀.toldBy (s.beginIsolation l c) := by
  refine State.tells.step ?_
  unfold State.beginIsolation
  dsimp only
  repeat' split
  all_goals simp

@[simp] theorem State.endIsolation_tells (l : Fin 4) (s : State) :
    s₀.tells (s.endIsolation l) ↔ s₀.tells s ∨ s₀.toldBy (s.endIsolation l) := by
  refine State.tells.step ?_
  unfold State.endIsolation
  split
  · exact s.tells_refl
  · dsimp only
    split
    · refine State.tells.trans ?_ (State.eachOf_tells _ _ (fun h s => by simp) _)
      simp
    · simp

@[simp] theorem State.failSwap_tells (lost : Bool) (s : State) : s₀.tells (s.failSwap lost) ↔ s₀.tells s := Iff.rfl

@[simp] theorem State.completeSwap_tells (l : Fin 4) (s : State) :
    s₀.tells (s.completeSwap l) ↔ s₀.tells s ∨ s₀.toldBy (s.completeSwap l) := by
  refine State.tells.step ?_
  unfold State.completeSwap
  dsimp only
  repeat' split
  all_goals simp

@[simp] theorem State.activeFails_tells (l : Fin 4) (n : LinkState) (c : LossCause) (s : State) :
    s₀.tells (s.activeFails l n c) ↔ s₀.tells s ∨ s₀.toldBy (s.activeFails l n c) := by
  refine State.tells.step ?_
  unfold State.activeFails
  dsimp only
  repeat' split
  all_goals simp

@[simp] theorem State.goAbsent_tells (l : Fin 4) (c : LossCause) (s : State) :
    s₀.tells (s.goAbsent l c) ↔ s₀.tells s ∨ s₀.toldBy (s.goAbsent l c) := by
  refine State.tells.step ?_
  unfold State.goAbsent
  dsimp only
  repeat' split
  all_goals simp

/-! ### Entries -/

@[simp] theorem State.freeBearers_tells (h : Nat) (s : State) : s₀.tells (s.freeBearers h) ↔ s₀.tells s := by
  unfold State.freeBearers
  split <;> simp

@[simp] theorem State.rest_tells (h : Nat) (s : State) : s₀.tells (s.rest h) ↔ s₀.tells s := by
  unfold State.rest
  repeat' split
  all_goals simp

@[simp] theorem State.markLost_tells (h : Nat) (s : State) : s₀.tells (s.markLost h) ↔ s₀.tells s := by
  unfold State.markLost
  repeat' split
  all_goals simp

@[simp] theorem State.rotatePeriod_tells (h : Nat) (s : State) : s₀.tells (s.rotatePeriod h) ↔ s₀.tells s := by
  unfold State.rotatePeriod
  repeat' split
  all_goals simp

@[simp] theorem State.revive_tells (h : Nat) (s : State) : s₀.tells (s.revive h) ↔ s₀.tells s ∨ s₀.toldBy (s.revive h) := by
  refine State.tells.step ?_
  unfold State.revive
  dsimp only
  repeat' split
  all_goals simp

@[simp] theorem State.reAttach_tells (p : Fin 6) (h : Nat) (e : Entry) (s : State) :
    s₀.tells (s.reAttach p h e) ↔ s₀.tells s ∨ s₀.toldBy (s.reAttach p h e) := by
  refine State.tells.step ?_
  unfold State.reAttach
  dsimp only
  repeat' split
  all_goals simp

@[simp] theorem State.removeEntry_tells (h : Nat) (c : RemovalCause) (r : Option CloseReason) (s : State) :
    s₀.tells (s.removeEntry h c r) ↔ s₀.tells s ∨ s₀.toldBy (s.removeEntry h c r) := by
  refine State.tells.step ?_
  unfold State.removeEntry
  repeat' split
  all_goals simp

@[simp] theorem State.admitNew_tells (p : Fin 6) (a : Ask) (s : State) :
    s₀.tells (s.admitNew p a) ↔ s₀.tells s ∨ s₀.toldBy (s.admitNew p a) := by
  refine State.tells.step ?_
  unfold State.admitNew
  dsimp only
  repeat' split
  all_goals simp

/-! ### Rating -/

@[simp] theorem State.closeAll_tells (r : CloseReason) (s : State) :
    s₀.tells (s.closeAll r) ↔ s₀.tells s ∨ s₀.toldBy (s.closeAll r) :=
  State.tells.step (State.eachEntry_tells _ (fun h s => by simp) s)

@[simp] theorem State.openAll_tells (s : State) : s₀.tells s.openAll ↔ s₀.tells s ∨ s₀.toldBy s.openAll :=
  State.tells.step (State.eachEntry_tells _ (fun h s => by simp) s)

@[simp] theorem State.billAlert_tells (h : Nat) (s : State) : s₀.tells (s.billAlert h) ↔ s₀.tells s := by
  unfold State.billAlert
  split <;> simp

@[simp] theorem State.capReached_tells (h : Nat) (c : Bool) (s : State) :
    s₀.tells (s.capReached h c) ↔ s₀.tells s ∨ s₀.toldBy (s.capReached h c) := by
  refine State.tells.step ?_
  unfold State.capReached
  split <;> simp

@[simp] theorem State.unbarred_tells (h : Nat) (s : State) :
    s₀.tells (s.unbarred h) ↔ s₀.tells s ∨ s₀.toldBy (s.unbarred h) := by
  refine State.tells.step ?_
  unfold State.unbarred
  repeat' split
  all_goals simp

@[simp] theorem State.takeCap_tells (h v : Nat) (e : Entry) (s : State) :
    s₀.tells (s.takeCap h v e) ↔ s₀.tells s ∨ s₀.toldBy (s.takeCap h v e) := by
  refine State.tells.step ?_
  unfold State.takeCap
  dsimp only
  repeat' split
  all_goals simp

@[simp] theorem State.afterCharging_tells (h : Nat) (s : State) :
    s₀.tells (s.afterCharging h) ↔ s₀.tells s ∨ s₀.toldBy (s.afterCharging h) := by
  refine State.tells.step ?_
  unfold State.afterCharging
  dsimp only
  repeat' split
  all_goals simp

@[simp] theorem State.rate_tells (h : Nat) (d : Direction) (b : Nat) (e : Entry) (p : Period) (s : State) :
    s₀.tells (s.rate h d b e p) ↔ s₀.tells s ∨ s₀.toldBy (s.rate h d b e p) := by
  refine State.tells.step ?_
  unfold State.rate
  simp

/-! ### Requests -/

@[simp] theorem State.joinInput_tells (c : Instr) (s : State) : s₀.tells (s.joinInput c) ↔ s₀.tells s := Iff.rfl

@[simp] theorem State.complete_tells (kind tag : Byte) (reason : Option Reason) (clamped : Bool) (fields : List Byte)
    (s : State) : s₀.tells (s.complete kind tag reason clamped fields) ↔ s₀.tells s := Iff.rfl

@[simp] theorem State.ok_tells (kind tag : Byte) (clamped : Bool) (fields : List Byte) (s : State) :
    s₀.tells (s.ok kind tag clamped fields) ↔ s₀.tells s := Iff.rfl

@[simp] theorem State.refuse_tells (kind tag : Byte) (reason : Reason) (s : State) :
    s₀.tells (s.refuse kind tag reason) ↔ s₀.tells s := Iff.rfl

@[simp] theorem State.refuseClamped_tells (kind tag : Byte) (clamped : Bool) (reason : Reason) (s : State) :
    s₀.tells (s.refuseClamped kind tag clamped reason) ↔ s₀.tells s := Iff.rfl

/-! ### Cell ports and router -/

@[simp] theorem State.decline_tells (p : Fin 6) (t : Token) (r : DeclineReason) (d : Nat) (s : State) :
    s₀.tells (s.decline p t r d) ↔ s₀.tells s ∨ s₀.toldBy (s.decline p t r d) := by
  refine State.tells.step ?_
  unfold State.decline
  simp

@[simp] theorem State.decideAsk_tells (p : Fin 6) (a : Ask) (s : State) :
    s₀.tells (s.decideAsk p a) ↔ s₀.tells s ∨ s₀.toldBy (s.decideAsk p a) := by
  refine State.tells.step ?_
  unfold State.decideAsk
  repeat' split
  all_goals simp

@[simp] theorem State.refuseBearer_tells (p : Fin 6) (i : Nat) (r : BearerRefusal) (s : State) :
    s₀.tells (s.refuseBearer p i r) ↔ s₀.tells s ∨ s₀.toldBy (s.refuseBearer p i r) := by
  refine State.tells.step ?_
  unfold State.refuseBearer
  simp

@[simp] theorem State.sendOnboard_tells (r : OnboardRecord) (len : Nat) (s : State) :
    s₀.tells (s.sendOnboard r len) ↔ s₀.tells s ∨ s₀.toldBy (s.sendOnboard r len) := by
  refine State.tells.step ?_
  unfold State.sendOnboard
  split <;> simp

@[simp] theorem State.sendShore_tells (h : Nat) (e : Entry) (i : Nat) (payload : List Byte) (s : State) :
    s₀.tells (s.sendShore h e i payload) ↔ s₀.tells s ∨ s₀.toldBy (s.sendShore h e i payload) := by
  refine State.tells.step ?_
  unfold State.sendShore
  repeat' split
  all_goals simp

/-! ### Probes and the store -/

@[simp] theorem State.concludeProbe_tells (l : Fin 4) (p : Probe) (early : Bool) (s : State) :
    s₀.tells (s.concludeProbe l p early) ↔ s₀.tells s ∨ s₀.toldBy (s.concludeProbe l p early) := by
  refine State.tells.step ?_
  unfold State.concludeProbe
  dsimp only
  repeat' split
  all_goals simp

@[simp] theorem State.judgeProbe_tells (l : Fin 4) (s : State) :
    s₀.tells (s.judgeProbe l) ↔ s₀.tells s ∨ s₀.toldBy (s.judgeProbe l) := by
  refine State.tells.step ?_
  unfold State.judgeProbe
  repeat' split
  all_goals simp

@[simp] theorem State.withdrawHead_tells (f : StoredFrame) (e : Option Entry) (s : State) :
    s₀.tells (s.withdrawHead f e) ↔ s₀.tells s ∨ s₀.toldBy (s.withdrawHead f e) := by
  refine State.tells.step ?_
  unfold State.withdrawHead
  simp

/-! ### Record memory -/

@[simp] theorem State.commitRecord_tells (j : WriteJob) (s : State) : s₀.tells (s.commitRecord j) ↔ s₀.tells s := by
  unfold State.commitRecord
  split <;> simp

@[simp] theorem State.disableBuffer_tells (s : State) : s₀.tells s.disableBuffer ↔ s₀.tells s := by
  unfold State.disableBuffer
  simp

@[simp] theorem State.writeFailed_tells (slot : Nat) (s : State) : s₀.tells (s.writeFailed slot) ↔ s₀.tells s := by
  unfold State.writeFailed
  dsimp only
  repeat' split
  all_goals simp

@[simp] theorem State.scrambleSlot_tells (slot : Nat) (s : State) : s₀.tells (s.scrambleSlot slot) ↔ s₀.tells s := by
  simp only [State.scrambleSlot, State.tells, State.port]

@[simp] theorem State.scrambleState_tells (slot : Nat) (s : State) : s₀.tells (s.scrambleState slot) ↔ s₀.tells s := Iff.rfl

@[simp] theorem State.rewrite_tells (c : MapChange) (s : State) : s₀.tells (s.rewrite c) ↔ s₀.tells s := by
  unfold State.rewrite
  repeat' split
  all_goals simp

@[simp] theorem State.sendSettle_tells (got : List (Nat × List Byte)) (s : State) :
    s₀.tells (s.sendSettle got) ↔ s₀.tells s ∨ s₀.toldBy (s.sendSettle got) := by
  refine State.tells.step ?_
  unfold State.sendSettle
  dsimp only
  repeat' split
  all_goals simp

@[simp] theorem State.sendExport_tells (again : Bool) (got : List (Nat × List Byte)) (s : State) :
    s₀.tells (s.sendExport again got) ↔ s₀.tells s := by
  unfold State.sendExport
  dsimp only
  repeat' split
  all_goals rfl

@[simp] theorem State.finishBuild_tells (s : State) : s₀.tells s.finishBuild ↔ s₀.tells s ∨ s₀.toldBy s.finishBuild := by
  refine State.tells.step ?_
  unfold State.finishBuild
  repeat' split
  all_goals simp

@[simp] theorem State.dropUnreadable_tells (serial slot : Nat) (p : ReadFor) (s : State) :
    s₀.tells (s.dropUnreadable serial slot p) ↔ s₀.tells s := Iff.rfl

@[simp] theorem State.addRead_tells (serial slot : Nat) (s : State) : s₀.tells (s.addRead serial slot) ↔ s₀.tells s := by
  unfold State.addRead
  split <;> simp

@[simp] theorem State.confirmBatch_tells (host : Bool) (s : State) :
    s₀.tells (s.confirmBatch host) ↔ s₀.tells s ∨ s₀.toldBy (s.confirmBatch host) := by
  refine State.tells.step ?_
  unfold State.confirmBatch
  simp

@[simp] theorem State.receive_tells (fuel : Nat) (s : State) : s₀.tells (s.receive fuel) ↔ s₀.tells s := by
  induction fuel generalizing s with
  | zero => rfl
  | succ n ih =>
    unfold State.receive
    split <;> simp [ih]

end Sys2Proof.Machine
end

