-- ==== Sys2Proof/Proofs/SpokenCommands.lean ====
section
/-! SUPPORT. The commands that leave the cell ports' states as they are only speak (R27). -/

namespace Sys2Proof.Machine

/-! ### Commands by the way they are taken -/

/-- A command whose effect only speaks. -/
theorem effect_tells {s t : State} {f : State → State} (ht : whenPowered s f = .next t)
    (hf : ∀ s : State, s.tells (f s)) : s.tells t :=
  whenPowered_keeps (P := s.tells) ht s.tells_refl fun u hu => hu.trans (hf u)

theorem request_tells {α : Type} {c : Instr} {kind : Byte} {r : Request α} {query : Bool} {wf : α → Bool}
    {own : α → State → State} {s t : State} (ht : takeRequest c s (checked kind r query wf own) = .next t)
    (hf : ∀ b (s : State), wf b = true → s.tells (own b s)) : s.tells t :=
  takeRequest_keeps (P := s.tells) ht s.tells_refl (fun u hu => by simpa using hu)
    (fun u hu => checkedClamped_keeps (P := s.tells) (fun _ _ _ _ h => by simpa using h)
      (fun b v hw hv => hv.trans (hf b v hw)) hu)

theorem State.atExpiry_tells_of {e : Nat} {act : State → State} {s : State} (h : s.tells (act s)) :
    s.tells (s.atExpiry e act) := by
  obtain ⟨_, h'⟩ | ⟨_, h'⟩ := State.atExpiry_cases e act s
  · rw [h']; exact s.tells_refl
  · rw [h']; exact h

@[simp] theorem State.atExpiry_tells (e : Nat) (act : State → State) (s : State) {s₀ : State} (h : s.tells (act s)) :
    s₀.tells (s.atExpiry e act) ↔ s₀.tells s ∨ s₀.toldBy (s.atExpiry e act) := (State.atExpiry_tells_of h).step

theorem State.onRecord_tells {p : Fin 6} {wf : Bool} {act : State → State} {s : State} (h : s.tells (act s)) :
    s.tells (s.onRecord p wf act) := by
  unfold State.onRecord
  split
  · simp
  · split
    · simp
    · exact h

theorem State.onShoreRecord_tells {l : Fin 4} {act : State → State} {s : State} (h : s.tells (act s)) :
    s.tells (s.onShoreRecord l act) := by
  unfold State.onShoreRecord
  split
  · exact h
  · simp

theorem State.onAnswer_tells {l : Fin 4} {h : Nat} {token : Token} {kind : ExchangeKind} {partner : Nat}
    {act : Entry → State → State} (ha : ∀ e (s : State), s.tells (act e s)) (s : State) :
    s.tells (s.onAnswer l h token kind partner act) := by
  apply State.onShoreRecord_tells
  split
  · simp
  · split
    · split
      · exact State.tells.trans (by simp) (ha _ _)
      · simp
    · simp

theorem report_tells {l : Fin 4} {f : Link → Link} {act : State → State} {s t : State}
    (ht : whenPowered (s.onLink l f) act = .next t) (ha : ∀ s : State, s.tells (act s)) : s.tells t :=
  State.tells.trans (by simp) (effect_tells ht ha)

/-! ### Cell ports, table and router -/

theorem execAttachAsk_tells {p : Fin 6} {token : Token} {code digits : Nat} {s t : State}
    (ht : execAttachAsk p token code digits s = .next t) : s.tells t := by
  refine effect_tells ht (fun s => ?_)
  apply State.onRecord_tells
  split <;> simp

theorem execDecideAttachAsk_tells {s t : State} (ht : execDecideAttachAsk s = .next t) : s.tells t := by
  refine effect_tells ht (fun s => ?_)
  split
  · simp
  · split
    · simp
    · simp [State.decideAsk_tells]

theorem execDepart_tells {p : Fin 6} {token : Token} {s t : State} (ht : execDepart p token s = .next t) :
    s.tells t := by
  refine effect_tells ht (fun s => ?_)
  apply State.onRecord_tells
  repeat' split
  all_goals simp

theorem execPortLostExpiry_tells {h : Nat} {s t : State} (ht : execPortLostExpiry h s = .next t) :
    s.tells t := by
  refine effect_tells ht (fun s => ?_)
  split
  · simp
  · split
    · simp
    · simp

theorem execRetentionExpiry_tells {h : Nat} {s t : State} (ht : execRetentionExpiry h s = .next t) :
    s.tells t := by
  refine effect_tells ht (fun s => ?_)
  split <;> simp

theorem execBearerOpen_tells {p : Fin 6} {token : Token} {slot : Nat} {kind : Option BearerKind} {s t : State}
    (ht : execBearerOpen p token slot kind s = .next t) : s.tells t := by
  refine effect_tells ht (fun s => ?_)
  apply State.onRecord_tells
  dsimp only
  repeat' split
  all_goals simp

theorem execBearerClose_tells {p : Fin 6} {identity : Nat} {s t : State} (ht : execBearerClose p identity s = .next t) :
    s.tells t := by
  refine effect_tells ht (fun s => ?_)
  apply State.onRecord_tells
  repeat' split
  all_goals simp

theorem execUpFrame_tells {p : Fin 6} {identity : Nat} {payload : List Byte} {s t : State}
    (ht : execUpFrame p identity payload s = .next t) : s.tells t := by
  refine effect_tells ht (fun s => ?_)
  apply State.onRecord_tells
  repeat' split
  all_goals simp

theorem execLocalDown_tells {identity : Nat} {payload : List Byte} {s t : State}
    (ht : execLocalDown identity payload s = .next t) : s.tells t := by
  unfold execLocalDown at ht
  refine effect_tells ht (fun s => ?_)
  repeat' split
  all_goals simp

theorem execShoreDown_tells {l : Fin 4} {identity : Nat} {token : Token} {payload : List Byte} {s t : State}
    (ht : execShoreDown l identity token payload s = .next t) : s.tells t := by
  refine effect_tells ht (fun s => ?_)
  apply State.onShoreRecord_tells
  dsimp only
  repeat' split
  all_goals simp

/-! ### Shore links, swaps and the store -/

theorem execShoreCarrierLost_tells {l : Fin 4} {s t : State} (ht : execShoreCarrierLost l s = .next t) :
    s.tells t := by
  dsimp only [execShoreCarrierLost] at ht
  refine report_tells ht (fun s => ?_)
  split <;> simp

theorem execShoreCarrierReturn_tells {l : Fin 4} {s t : State} (ht : execShoreCarrierReturn l s = .next t) :
    s.tells t := by
  dsimp only [execShoreCarrierReturn] at ht
  refine report_tells ht (fun s => ?_)
  split <;> simp

theorem execModemReady_tells {l : Fin 4} {s t : State} (ht : execModemReady l s = .next t) :
    s.tells t := by
  dsimp only [execModemReady] at ht
  refine report_tells ht (fun s => ?_)
  split <;> simp

theorem execProbeEchoDue_tells {l : Fin 4} {s t : State} (ht : execProbeEchoDue l s = .next t) :
    s.tells t := by
  refine effect_tells ht (fun s => ?_)
  dsimp only
  split <;> simp

theorem execEchoBack_tells {l : Fin 4} {number seq : Nat} {purpose : Purpose} {s t : State}
    (ht : execEchoBack l number seq purpose s = .next t) : s.tells t := by
  refine effect_tells ht (fun s => ?_)
  dsimp only
  repeat' split
  all_goals simp

theorem execEchoWindowEnd_tells {l : Fin 4} {seq : Nat} {s t : State} (ht : execEchoWindowEnd l seq s = .next t) :
    s.tells t := by
  refine effect_tells ht (fun s => ?_)
  split <;> simp

theorem execKeepaliveDue_tells {l : Fin 4} {s t : State} (ht : execKeepaliveDue l s = .next t) :
    s.tells t := by
  refine effect_tells ht (fun s => ?_)
  split
  · apply State.atExpiry_tells_of
    dsimp only
    split <;> simp
  · simp

theorem execHolddownExpiry_tells {l : Fin 4} {s t : State} (ht : execHolddownExpiry l s = .next t) :
    s.tells t := by
  refine effect_tells ht (fun s => ?_)
  split <;> simp

theorem execReprobeExpiry_tells {l : Fin 4} {s t : State} (ht : execReprobeExpiry l s = .next t) :
    s.tells t := by
  refine effect_tells ht (fun s => ?_)
  split <;> simp

theorem execSettleTimerExpiry_tells {s t : State} (ht : execSettleTimerExpiry s = .next t) : s.tells t := by
  refine effect_tells ht (fun s => ?_)
  split
  · simp
  · apply State.atExpiry_tells_of
    dsimp only
    split <;> simp

theorem execMoveAck_tells {l : Fin 4} {n : Nat} {s t : State} (ht : execMoveAck l n s = .next t) :
    s.tells t := by
  refine effect_tells ht (fun s => ?_)
  apply State.onShoreRecord_tells
  split <;> simp

theorem execMoveAckTimerExpiry_tells {s t : State} (ht : execMoveAckTimerExpiry s = .next t) :
    s.tells t := by
  refine effect_tells ht (fun s => ?_)
  split <;> simp

theorem execDrainingGuardExpiry_tells {l : Fin 4} {s t : State} (ht : execDrainingGuardExpiry l s = .next t) :
    s.tells t := by
  refine effect_tells ht (fun s => ?_)
  split <;> simp

theorem execGraceExpiry_tells {s t : State} (ht : execGraceExpiry s = .next t) : s.tells t := by
  refine effect_tells ht (fun s => ?_)
  split <;> simp

theorem execStoreDrain_tells {s t : State} (ht : execStoreDrain s = .next t) : s.tells t := by
  refine effect_tells ht (fun s => ?_)
  repeat' split
  all_goals simp

/-! ### Roaming -/

theorem execLoadPartnersPart_tells {r : Request PartnersPart} {s t : State} (ht : execLoadPartnersPart r s = .next t) :
    s.tells t := by
  refine takeRequest_keeps (P := s.tells) ht s.tells_refl (fun u hu => by simpa using hu) (fun u hu => hu.trans ?_)
  dsimp only
  repeat' split
  all_goals simp

theorem execPacerSend_tells {s t : State} (ht : execPacerSend s = .next t) : s.tells t := by
  refine effect_tells ht (fun s => ?_)
  dsimp only
  repeat' split
  all_goals simp

theorem execRegOk_tells {l : Fin 4} {h : Nat} {token : Token} {i : Nat} {s t : State}
    (ht : execRegOk l h token i s = .next t) : s.tells t := by
  refine effect_tells ht (State.onAnswer_tells fun e s => ?_)
  dsimp only
  repeat' split
  all_goals simp

theorem execRegRefused_tells {l : Fin 4} {h : Nat} {token : Token} {i : Nat} {r : RefusedReason} {s t : State}
    (ht : execRegRefused l h token i r s = .next t) : s.tells t :=
  effect_tells ht (State.onAnswer_tells fun e s => by simp)

theorem execRefreshOk_tells {l : Fin 4} {h : Nat} {token : Token} {i : Nat} {s t : State}
    (ht : execRefreshOk l h token i s = .next t) : s.tells t :=
  effect_tells ht (State.onAnswer_tells fun e s => by simp)

theorem execRefreshRefused_tells {l : Fin 4} {h : Nat} {token : Token} {i : Nat} {s t : State}
    (ht : execRefreshRefused l h token i s = .next t) : s.tells t := by
  refine effect_tells ht (State.onAnswer_tells fun e s => ?_)
  dsimp only
  split <;> simp

theorem execExchangeTimerExpiry_tells {h : Nat} {s t : State} (ht : execExchangeTimerExpiry h s = .next t) :
    s.tells t := by
  refine effect_tells ht (fun s => ?_)
  split
  · simp
  · apply State.atExpiry_tells_of
    dsimp only
    split <;> simp

theorem execRefreshDue_tells {h : Nat} {s t : State} (ht : execRefreshDue h s = .next t) : s.tells t := by
  refine effect_tells ht (fun s => ?_)
  split
  · simp
  · split
    · split
      · simp
      · apply State.atExpiry_tells_of
        dsimp only
        split <;> simp
    · simp

/-! ### Rating -/

theorem execMeteredAddition_tells {h a : Nat} {d : Direction} {b : Nat} {s t : State}
    (ht : execMeteredAddition h a d b s = .next t) : s.tells t := by
  refine effect_tells ht (fun s => ?_)
  dsimp only
  repeat' split
  all_goals simp

theorem execAgeExpiry_tells {h : Nat} {s t : State} (ht : execAgeExpiry h s = .next t) : s.tells t := by
  refine effect_tells ht (fun s => ?_)
  repeat' split
  all_goals simp

theorem execSetCap_tells {r : Request CapBody} {s t : State} (ht : execSetCap r s = .next t) :
    s.tells t := by
  refine request_tells ht (fun b s _ => ?_)
  split <;> simp

theorem execSetClass_tells {r : Request ClassBody} {s t : State} (ht : execSetClass r s = .next t) :
    s.tells t := by
  refine request_tells ht (fun b s _ => ?_)
  dsimp only
  repeat' split
  all_goals simp

theorem execEvict_tells {r : Request SubscriberRef} {s t : State} (ht : execEvict r s = .next t) :
    s.tells t := by
  refine request_tells ht (fun b s _ => ?_)
  split <;> simp

/-! ### Record memory -/

theorem execAcceptRecord_tells {s t : State} (ht : execAcceptRecord s = .next t) : s.tells t := by
  refine effect_tells ht (fun s => ?_)
  dsimp only
  repeat' split
  all_goals simp

theorem execWriteSlotDone_tells {ok : Bool} {s t : State} (ht : execWriteSlotDone ok s = .next t) :
    s.tells t := by
  refine effect_tells ht (fun s => ?_)
  split
  · split
    · dsimp only
      split <;> simp
    · simp
  · simp

theorem execMapWriteDone_tells {ok : Bool} {s t : State} (ht : execMapWriteDone ok s = .next t) :
    s.tells t := by
  refine effect_tells ht (fun s => ?_)
  dsimp only
  repeat' split
  all_goals simp

theorem execVerifyReadDone_tells {ok : Bool} {s t : State} (ht : execVerifyReadDone ok s = .next t) :
    s.tells t := by
  refine effect_tells ht (fun s => ?_)
  dsimp only
  repeat' split
  all_goals simp

theorem execReadSlotDone_tells {ok : Bool} {s t : State} (ht : execReadSlotDone ok s = .next t) :
    s.tells t := by
  refine effect_tells ht (fun s => ?_)
  dsimp only
  repeat' split
  all_goals simp

theorem execClearSlotDone_tells {ok : Bool} {s t : State} (ht : execClearSlotDone ok s = .next t) :
    s.tells t := by
  refine effect_tells ht (fun s => ?_)
  dsimp only
  repeat' split
  all_goals simp

theorem execBuildSettleBatch_tells {s t : State} (ht : execBuildSettleBatch s = .next t) : s.tells t := by
  refine effect_tells ht (fun s => ?_)
  split <;> simp

theorem execSettleAck_tells {l : Fin 4} {batch : Nat} {s t : State} (ht : execSettleAck l batch s = .next t) :
    s.tells t := by
  refine effect_tells ht (fun s => ?_)
  apply State.onShoreRecord_tells
  split <;> simp

theorem execBatchTimerExpiry_tells {s t : State} (ht : execBatchTimerExpiry s = .next t) : s.tells t := by
  refine effect_tells ht (fun s => ?_)
  split <;> simp

theorem execExportRecords_tells {r : Request Unit} {s t : State} (ht : execExportRecords r s = .next t) :
    s.tells t := by
  refine request_tells ht (fun b s _ => ?_)
  split <;> simp

theorem execConfirmExport_tells {r : Request Nat} {s t : State} (ht : execConfirmExport r s = .next t) :
    s.tells t := by
  refine request_tells ht (fun b s _ => ?_)
  split <;> simp

theorem execFlushRecords_tells {r : Request Unit} {s t : State} (ht : execFlushRecords r s = .next t) :
    s.tells t := request_tells ht (fun _ _ _ => by simp)

theorem execFlushRecordsDone_tells {s t : State} (ht : execFlushRecordsDone s = .next t) : s.tells t := by
  refine effect_tells ht (fun s => ?_)
  split <;> simp

theorem execPowerOnScanEnd_tells {m : Bool} {u : List Nat} {s t : State} (ht : execPowerOnScanEnd m u s = .next t) :
    s.tells t := by
  refine effect_tells ht (fun s => ?_)
  dsimp only
  repeat' split
  all_goals simp

/-! ### The management link -/

theorem execReset_tells {r : Request Unit} {s t : State} (ht : execReset r s = .next t) : s.tells t :=
  request_tells ht (fun b s _ => by simp)

theorem execUnknownKindRequest_tells {kind tag : Byte} {s t : State} (ht : execUnknownKindRequest kind tag s = .next t) :
    s.tells t :=
  takeRequest_keeps (P := s.tells) ht s.tells_refl (fun u hu => by simpa using hu) (fun u hu => by simpa using hu)

theorem execFrameReceived_tells {bytes : List Byte} {s t : State} (ht : execFrameReceived bytes s = .next t) :
    s.tells t :=
  effect_tells ht (fun s => by simp)

theorem execFrameGap_tells {s t : State} (ht : execFrameGap s = .next t) : s.tells t := by
  refine effect_tells ht (fun s => ?_)
  split <;> simp

theorem execSendFrame_tells {s t : State} (ht : execSendFrame s = .next t) : s.tells t := by
  refine effect_tells ht (fun s => ?_)
  split <;> simp

theorem execQuerySubscriberSingle_tells {r : Request SubscriberName} {s t : State}
    (ht : execQuerySubscriberSingle r s = .next t) : s.tells t := by
  refine request_tells ht (fun b s _ => ?_)
  split <;> simp


end Sys2Proof.Machine
end

