-- ==== Sys2Proof/Proofs/DownPorts.lean ====
section
/-! SUPPORT. The orders, the tracker's commands, the settings, and the commands that a port enters or leaves DOWN by (R27). -/

namespace Sys2Proof.Machine
variable {s₀ : State}

/-! ### Orders and the tracker -/

/-- A listening port stays listening. -/
theorem State.onPort_up_tells {p : Fin 6} {f : CellPort → CellPort} {s : State} (hup : (s.port p).state ≠ .down)
    (hf : (f (s.port p)).state ≠ .down) : s.tells (s.onPort p f) := by
  refine ⟨⟨[], (List.append_nil _).symm, fun _ _ h => nomatch h⟩, fun q => ?_⟩
  rw [State.port_onPort]
  split
  · rename_i hq
    rw [← hq]
    exact iff_of_false hf hup
  · rfl

@[simp] theorem State.sendOrder_tells (p : Fin 6) (s : State) :
    s₀.tells (s.sendOrder p) ↔ s₀.tells s ∨ s₀.toldBy (s.sendOrder p) := by
  refine State.tells.step ?_
  by_cases hdown : (s.port p).state = .down
  · have hnone : s.sendOrder p = s := by simp [State.sendOrder, CellPort.listening, hdown]
    rw [hnone]
    exact s.tells_refl
  · have hordered : s.orderedState ≠ .down := by unfold State.orderedState; split <;> simp
    rw [State.sendOrder_up hdown]
    obtain ⟨_, hports⟩ := State.onPort_up_tells (s := s)
      (f := fun q => { q with state := s.orderedState, hold := q.hold || s.entersHeld p }) hdown hordered
    refine ⟨⟨_, rfl, fun q r hmem => ?_⟩, hports⟩
    have hq : q = p := by
      obtain hfirst | hrest := List.mem_cons.1 hmem
      · exact (Sent.toHead.inj hfirst).1
      · unfold holdAfter at hrest
        split at hrest
        · exact (Sent.toHead.inj (List.mem_singleton.1 hrest)).1
        · cases hrest
    rw [hq]
    exact hdown

@[simp] theorem State.sendOrders_tells (s : State) : s₀.tells s.sendOrders ↔ s₀.tells s ∨ s₀.toldBy s.sendOrders := by
  refine State.tells.step ?_
  unfold State.sendOrders
  split
  · exact State.eachOf_tells _ _ (fun p s => by simp) s
  · exact s.tells_refl

theorem State.eachEntry_step (f : Nat → State → State) (hf : ∀ h (s : State), s.tells (f h s)) (s : State) :
    s₀.tells (s.eachEntry f) ↔ s₀.tells s ∨ s₀.toldBy (s.eachEntry f) := (State.eachEntry_tells f hf s).step

@[simp] theorem State.changeVerdict_tells (new : Option VerdictZone) (cause : ZoneCause) (d : Option Nat) (s : State) :
    s₀.tells (s.changeVerdict new cause d) ↔ s₀.tells s ∨ s₀.toldBy (s.changeVerdict new cause d) := by
  refine State.tells.step ?_
  have hrest := State.eachEntry_step (s₀ := s) State.rest (by simp)
  have hrotate := State.eachEntry_step (s₀ := s) State.rotatePeriod (by simp)
  have hmove := State.eachEntry_step (s₀ := s) State.moveCheck (by simp)
  unfold State.changeVerdict
  dsimp only
  repeat' split
  all_goals simp [hrest, hrotate, hmove]

@[simp] theorem State.evaluate_tells (q : Quality) (d : Nat) (cause : ZoneCause) (s : State) :
    s₀.tells (s.evaluate q d cause) ↔ s₀.tells s ∨ s₀.toldBy (s.evaluate q d cause) := by
  refine State.tells.step ?_
  unfold State.evaluate
  repeat' split
  all_goals simp

@[simp] theorem State.endHold_tells (s : State) : s₀.tells s.endHold ↔ s₀.tells s ∨ s₀.toldBy s.endHold := by
  refine State.tells.step ?_
  unfold State.endHold
  dsimp only
  split <;> simp

@[simp] theorem State.beginHold_tells (s : State) : s₀.tells s.beginHold ↔ s₀.tells s ∨ s₀.toldBy s.beginHold := by
  refine State.tells.step ?_
  unfold State.beginHold
  dsimp only
  split <;> simp

@[simp] theorem State.freeze_tells (s : State) : s₀.tells s.freeze ↔ s₀.tells s := Iff.rfl

@[simp] theorem State.takeFix_tells (q : Quality) (d : Nat) (s : State) :
    s₀.tells (s.takeFix q d) ↔ s₀.tells s ∨ s₀.toldBy (s.takeFix q d) := by
  refine State.tells.step ?_
  unfold State.takeFix
  repeat' split
  all_goals simp

theorem execFix_tells {r : Request FixBody} {s t : State} (ht : execFix r s = .next t) : s.tells t := by
  refine request_tells ht (fun b s _ => ?_)
  dsimp only
  repeat' split
  all_goals simp

theorem execThawZone_tells {r : Request Unit} {s t : State} (ht : execThawZone r s = .next t) : s.tells t := by
  refine request_tells ht (fun b s _ => ?_)
  dsimp only
  repeat' split
  all_goals simp

theorem execLoadZones_tells {r : Request LoadZonesBody} {s t : State} (ht : execLoadZones r s = .next t) : s.tells t := by
  refine takeRequest_keeps (P := s.tells) ht s.tells_refl (fun u hu => by simpa using hu)
    (fun u hu => checkedClamped_keeps (P := s.tells) (fun _ _ _ _ h => by simpa using h) (fun b v _ hv => hv.trans ?_) hu)
  dsimp only
  repeat' split
  all_goals simp

theorem execHoldExpiry_tells {s t : State} (ht : execHoldExpiry s = .next t) : s.tells t := by
  refine effect_tells ht (fun s => ?_)
  split <;> simp

theorem execFixTimerExpiry_tells {s t : State} (ht : execFixTimerExpiry s = .next t) : s.tells t := by
  refine effect_tells ht (fun s => ?_)
  split
  · simp
  · apply State.atExpiry_tells_of
    dsimp only
    split <;> simp

/-! ### Settings -/

@[simp] theorem State.startDevice_tells (s : State) : s₀.tells s.startDevice ↔ s₀.tells s ∨ s₀.toldBy s.startDevice := by
  refine State.tells.step ?_
  unfold State.startDevice
  dsimp only
  split <;> simp

theorem execStart_tells {r : Request Unit} {s t : State} (ht : execStart r s = .next t) : s.tells t := by
  refine request_tells ht (fun b s _ => ?_)
  repeat' split
  all_goals simp

theorem execLoadPartnersLast_tells {r : Request PartnersPart} {s t : State} (ht : execLoadPartnersLast r s = .next t) :
    s.tells t := by
  have htake : ∀ (st : Staging) (s₀ s : State), s₀.tells (s.takePartners st) ↔ s₀.tells s := fun _ _ _ => Iff.rfl
  refine takeRequest_keeps (P := s.tells) ht s.tells_refl (fun u hu => by simpa using hu) (fun u hu => hu.trans ?_)
  dsimp only
  repeat' split
  all_goals simp [htake]

theorem execConfigureLinkCell_tells {r : Request CellConfig} {s t : State} (ht : execConfigureLinkCell r s = .next t) :
    s.tells t := by
  refine request_tells ht (fun b s _ => ?_)
  split <;> simp

theorem execConfigureLinkShore_tells {r : Request ShoreConfig} {s t : State} (ht : execConfigureLinkShore r s = .next t) :
    s.tells t := by
  refine request_tells ht (fun b s _ => ?_)
  dsimp only
  repeat' split
  all_goals simp

theorem execPinLink_tells {r : Request PinBody} {s t : State} (ht : execPinLink r s = .next t) : s.tells t :=
  request_tells ht (fun b s _ => by simp)

theorem execLoadTariffPlan_tells {r : Request TariffLoad} {s t : State} (ht : execLoadTariffPlan r s = .next t) :
    s.tells t := by
  refine request_tells ht (fun b s _ => ?_)
  split <;> simp

@[simp] theorem State.swapBanks_tells (s : State) : s₀.tells s.swapBanks ↔ s₀.tells s := Iff.rfl

theorem execCommitTariffNow_tells {r : Request Unit} {s t : State} (ht : execCommitTariffNow r s = .next t) : s.tells t := by
  refine request_tells ht (fun b s _ => ?_)
  split <;> simp

theorem execCommitTariffAtDayRoll_tells {r : Request Unit} {s t : State} (ht : execCommitTariffAtDayRoll r s = .next t) :
    s.tells t := by
  refine request_tells ht (fun b s _ => ?_)
  split <;> simp

theorem execDayRoll_tells {r : Request Unit} {s t : State} (ht : execDayRoll r s = .next t) : s.tells t := by
  refine request_tells ht (fun b s _ => ?_)
  unfold State.rollDay
  dsimp only
  split <;> simp

theorem execSetBilling_tells {r : Request BillingBody} {s t : State} (ht : execSetBilling r s = .next t) : s.tells t := by
  refine request_tells ht (fun b s _ => ?_)
  split <;> simp

theorem execSetDelivery_tells {r : Request DeliveryBody} {s t : State} (ht : execSetDelivery r s = .next t) : s.tells t := by
  refine request_tells ht (fun b s _ => ?_)
  dsimp only
  split <;> simp

/-! ### Ports -/

@[simp] theorem State.portFails_tells (p : Fin 6) (s : State) :
    s₀.tells (s.portFails p) ↔ s₀.tells s ∨ s₀.toldBy (s.portFails p) := by
  refine State.tells.step ?_
  unfold State.portFails
  dsimp only
  refine State.tells.trans ?_ (State.eachOf_tells _ _ (fun h s => by simp) _)
  simp

theorem execHeadResync_tells {p : Fin 6} {s t : State} (ht : execHeadResync p s = .next t) : s.tells t := by
  refine effect_tells ht (fun s => ?_)
  by_cases hdown : (s.port p).state = .down
  · rw [State.onRecord_down hdown]
    have hcounted : s.tells (s.countPort p fun c => { c with discardedDown := bump32 c.discardedDown }) := by simp
    exact hcounted
  · rw [State.onRecord_taken hdown]
    have hfails : s.tells ((s.portFails p).countPort p fun c => { c with resyncs := bump32 c.resyncs }) := by simp
    have hready := State.onPort_up_tells (p := p) (f := fun q => { q with state := .ready }) (mt (hfails.2 p).1 hdown)
      PortState.noConfusion
    exact (hfails.trans hready).trans (by simp)

/-! ### All commands -/

/-- The commands that a port enters or leaves DOWN by. -/
def Instr.turnsPorts : Instr → Prop
  | .headHello _ _ | .cellCarrierLost _ | .resetComplete | .powerOn | .powerLoss => True
  | _ => False

/-- Every other command only speaks. -/
theorem exec_tells {c : Instr} {s t : State} (hc : ¬ Instr.turnsPorts c) (ht : exec c s = .next t) : s.tells t := by
  cases c <;> try exact absurd trivial hc
  case reset => exact execReset_tells ht
  case loadPartnersPart => exact execLoadPartnersPart_tells ht
  case setCap => exact execSetCap_tells ht
  case setClass => exact execSetClass_tells ht
  case evict => exact execEvict_tells ht
  case queryZone => exact request_tells ht (fun _ _ _ => by simp)
  case queryLinkCell => exact request_tells ht (fun _ _ _ => by simp)
  case queryLinkShore => exact request_tells ht (fun _ _ _ => by simp)
  case queryLinkManagement => exact request_tells ht (fun _ _ _ => by simp)
  case querySubscriberSingle => exact execQuerySubscriberSingle_tells ht
  case querySubscriberSummary => exact request_tells ht (fun _ _ _ => by simp)
  case queryStore => exact request_tells ht (fun _ _ _ => by simp)
  case exportRecords => exact execExportRecords_tells ht
  case confirmExport => exact execConfirmExport_tells ht
  case flushRecords => exact execFlushRecords_tells ht
  case flushRecordsDone => exact execFlushRecordsDone_tells ht
  case unknownKindRequest => exact execUnknownKindRequest_tells ht
  case frameReceived => exact execFrameReceived_tells ht
  case frameGap => exact execFrameGap_tells ht
  case hostClearToSend => cases ht; exact s.tells_refl
  case sendFrame => exact execSendFrame_tells ht
  case powerOnScanEnd => exact execPowerOnScanEnd_tells ht
  case retentionExpiry => exact execRetentionExpiry_tells ht
  case attachAsk => exact execAttachAsk_tells ht
  case decideAttachAsk => exact execDecideAttachAsk_tells ht
  case depart => exact execDepart_tells ht
  case portLostExpiry => exact execPortLostExpiry_tells ht
  case bearerOpen => exact execBearerOpen_tells ht
  case bearerClose => exact execBearerClose_tells ht
  case upFrame => exact execUpFrame_tells ht
  case localDown => exact execLocalDown_tells ht
  case localCarrierChange => cases ht; exact s.tells_refl
  case shoreDown => exact execShoreDown_tells ht
  case meteredAddition => exact execMeteredAddition_tells ht
  case ageExpiry => exact execAgeExpiry_tells ht
  case shoreCarrierLost => exact execShoreCarrierLost_tells ht
  case shoreCarrierReturn => exact execShoreCarrierReturn_tells ht
  case modemReady => exact execModemReady_tells ht
  case probeEchoDue => exact execProbeEchoDue_tells ht
  case echoBack => exact execEchoBack_tells ht
  case echoWindowEnd => exact execEchoWindowEnd_tells ht
  case keepaliveDue => exact execKeepaliveDue_tells ht
  case holddownExpiry => exact execHolddownExpiry_tells ht
  case reprobeExpiry => exact execReprobeExpiry_tells ht
  case settleTimerExpiry => exact execSettleTimerExpiry_tells ht
  case moveAck => exact execMoveAck_tells ht
  case moveAckTimerExpiry => exact execMoveAckTimerExpiry_tells ht
  case drainingGuardExpiry => exact execDrainingGuardExpiry_tells ht
  case graceExpiry => exact execGraceExpiry_tells ht
  case storeDrain => exact execStoreDrain_tells ht
  case pacerSend => exact execPacerSend_tells ht
  case regOk => exact execRegOk_tells ht
  case regRefused => exact execRegRefused_tells ht
  case refreshOk => exact execRefreshOk_tells ht
  case refreshRefused => exact execRefreshRefused_tells ht
  case exchangeTimerExpiry => exact execExchangeTimerExpiry_tells ht
  case refreshDue => exact execRefreshDue_tells ht
  case acceptRecord => exact execAcceptRecord_tells ht
  case writeSlotDone => exact execWriteSlotDone_tells ht
  case mapWriteDone => exact execMapWriteDone_tells ht
  case verifyReadDone => exact execVerifyReadDone_tells ht
  case readSlotDone => exact execReadSlotDone_tells ht
  case clearSlotDone => exact execClearSlotDone_tells ht
  case buildSettleBatch => exact execBuildSettleBatch_tells ht
  case settleAck => exact execSettleAck_tells ht
  case batchTimerExpiry => exact execBatchTimerExpiry_tells ht
  case modemNotReady => cases ht; exact s.tells_refl
  case start => exact execStart_tells ht
  case fix => exact execFix_tells ht
  case thawZone => exact execThawZone_tells ht
  case loadZones => exact execLoadZones_tells ht
  case loadPartnersLast => exact execLoadPartnersLast_tells ht
  case configureLinkCell => exact execConfigureLinkCell_tells ht
  case configureLinkShore => exact execConfigureLinkShore_tells ht
  case pinLink => exact execPinLink_tells ht
  case loadTariffPlan => exact execLoadTariffPlan_tells ht
  case commitTariffNow => exact execCommitTariffNow_tells ht
  case commitTariffAtDayRoll => exact execCommitTariffAtDayRoll_tells ht
  case dayRoll => exact execDayRoll_tells ht
  case setBilling => exact execSetBilling_tells ht
  case setDelivery => exact execSetDelivery_tells ht
  case fixTimerExpiry => exact execFixTimerExpiry_tells ht
  case holdExpiry => exact execHoldExpiry_tells ht
  case headResync => exact execHeadResync_tells ht
  case setTime => exact request_tells ht (fun _ _ _ => by simp)
  case freezeZone => exact request_tells ht (fun _ _ _ => by simp)

/-- What a command sends, it sends for good, and to no cell port that is DOWN before and after it. -/
def State.sparesDown (s t : State) : Prop :=
  ∃ new : List Sent, t.sent = s.sent ++ new ∧ ∀ p r, Sent.toHead p r ∈ new → (s.port p).state ≠ .down ∨ (t.port p).state ≠ .down

theorem State.tells.sparesDown {s t : State} (h : s.tells t) : s.sparesDown t := by
  obtain ⟨⟨new, hnew, hheads⟩, _⟩ := h
  exact ⟨new, hnew, fun p r hmem => .inl (hheads p r hmem)⟩

/-- What follows without a record to a head sends no more to one. -/
theorem State.tells.sparesDown_append {s u t : State} (h : s.tells u) {more : List Sent} (hsent : t.sent = u.sent ++ more)
    (hmore : ∀ p r, Sent.toHead p r ∉ more) : s.sparesDown t := by
  obtain ⟨⟨new, hnew, hheads⟩, _⟩ := h
  refine ⟨new ++ more, by rw [hsent, hnew, List.append_assoc], fun p r hmem => ?_⟩
  exact (List.mem_append.1 hmem).elim (fun hin => .inl (hheads p r hin)) fun hin => absurd hin (hmore p r)

theorem State.tells.sparesDown_of_sent {s u t : State} (h : s.tells u) (hsent : t.sent = u.sent) : s.sparesDown t :=
  h.sparesDown_append (more := []) (by rw [hsent, List.append_nil]) fun _ _ => List.not_mem_nil

/-- What follows a change of the ports alone is sent to ports that are not DOWN behind it. -/
theorem State.tells.sparesDown_behind {s u t : State} (h : u.tells t) (hsent : u.sent = s.sent) : s.sparesDown t := by
  obtain ⟨⟨new, hnew, hheads⟩, hports⟩ := h
  exact ⟨new, by rw [hnew, hsent], fun p r hmem => .inr (mt (hports p).1 (hheads p r hmem))⟩

theorem execCellCarrierLost_sparesDown {p : Fin 6} {s t : State} (ht : execCellCarrierLost p s = .next t) :
    s.sparesDown t := by
  unfold execCellCarrierLost at ht
  rw [whenPowered_eq, Host.Outcome.next.injEq] at ht
  subst ht
  split
  · dsimp only
    split
    · exact s.tells_refl.sparesDown
    · have hfails : s.tells ((s.portFails p).countPort p fun c => { c with portLosses := bump32 c.portLosses }) := by simp
      refine hfails.sparesDown_of_sent ?_
      rw [State.raise_frame]
      rfl
  · exact s.tells_refl.sparesDown

/-- A HEAD-HELLO is answered behind the state that the port takes by it (R26). -/
theorem execHeadHello_sparesDown {p : Fin 6} {capacity : Nat} {s t : State} (ht : execHeadHello p capacity s = .next t) :
    s.sparesDown t := by
  unfold execHeadHello at ht
  rw [whenPowered_eq, Host.Outcome.next.injEq] at ht
  subst ht
  split
  · dsimp only
    split
    · exact State.tells.sparesDown (by simp)
    · refine State.tells.sparesDown_behind (u := s.onPort p fun q => { q with
        headCapacity := capacity, state := if q.state = .down then .ready else q.state }) ?_ rfl
      split <;> simp
  · exact s.tells_refl.sparesDown

theorem State.losePower_sent (s : State) : s.losePower.sent = s.sent := by
  have hcut : s.cutOperation.sent = s.sent := by
    unfold State.cutOperation
    split
    · simp only [State.scrambleSlot]
    · simp only [State.scrambleState]
    · dsimp only
      split <;> rfl
    all_goals rfl
  exact hcut

theorem exec_powerLoss_cases {s t : State} (ht : exec .powerLoss s = .next t) : t = s ∨ t = s.losePower := by
  have hexec : exec .powerLoss s = execPowerLoss s := rfl
  rw [hexec, execPowerLoss, whenPowered_eq, Host.Outcome.next.injEq] at ht
  subst ht
  split
  · exact .inr rfl
  · exact .inl rfl

/-- At its end a RESET has the listening ports fall silent, and reports every cell carrier (R180). -/
theorem execResetComplete_sparesDown {s t : State} (ht : execResetComplete s = .next t) : s.sparesDown t := by
  unfold execResetComplete at ht
  rw [whenPowered_eq, Host.Outcome.next.injEq] at ht
  subst ht
  split
  · split
    · exact s.tells_refl.sparesDown
    · dsimp only
      have hsilenced : s.tells s.silenced := by
        refine State.tells.trans (State.eachOf_tells allPorts (fun p u => u.toHead p .quiet) (fun p u => by simp) s) ?_
        exact State.eachOf_tells allPorts (fun p u => u.emit (.cellCarrier p false)) (fun p u => by simp) _
      refine hsilenced.sparesDown_append (more := allPorts.map (.cellCarrier · true)) ?_ (by simp)
      rw [State.cellCarriers_eq, State.arbitrate_frame]
      rfl
  · exact s.tells_refl.sparesDown

/-- Settles O7: most commands only speak; the ports' own, RESET's end and power are read one by one. -/
theorem downPortIsSentNothing : Obligations.DownPortIsSentNothing := by
  unfold Obligations.DownPortIsSentNothing
  intro c s t ht
  change s.sparesDown t
  by_cases hc : Instr.turnsPorts c
  case neg => exact (exec_tells hc ht).sparesDown
  cases c <;> try exact absurd hc id
  case headHello => exact execHeadHello_sparesDown ht
  case cellCarrierLost => exact execCellCarrierLost_sparesDown ht
  case resetComplete => exact execResetComplete_sparesDown ht
  case powerOn =>
    cases ht
    refine s.tells_refl.sparesDown_of_sent ?_
    by_cases hp : s.powered = true
    · have hlost : (if s.powered then s.losePower else s) = s.losePower := if_pos hp
      rw [hlost]
      exact s.losePower_sent
    · have hsame : (if s.powered then s.losePower else s) = s := if_neg hp
      rw [hsame]
      rfl
  case powerLoss =>
    obtain rfl | hlost := exec_powerLoss_cases ht
    · exact t.tells_refl.sparesDown
    · exact s.tells_refl.sparesDown_of_sent (hlost ▸ s.losePower_sent)

end Sys2Proof.Machine
end

