-- ==== Sys2Proof/Proofs/HandleBook.lean ====
section
/-! SUPPORT. Which handles are in use and which are free (R46): every command but those of `Instr.dealsHandles` leaves both
lists as they are. -/

namespace Sys2Proof.Machine

/-! ### The handles in use and the free ones -/

/-- The handles of the live entries, and the free-handle FIFO. The operations of `State.kept` keep both. -/
def Kept.handleBook (k : Kept) : List Nat × List Nat := (k.accounts.map (·.1), k.freeHandles)

theorem State.handleBook_eq (s : State) : s.kept.handleBook = (s.handles, s.table.freeHandles) := by
  simp [Kept.handleBook, State.kept, State.handles, Function.comp_def, Machine.account]

theorem State.handleBook_of_table {s t : State} (h : t.table = s.table) : t.kept.handleBook = s.kept.handleBook := by
  rw [State.handleBook_eq, State.handleBook_eq, State.handles, State.handles, h]

/-! ### Updates of one block -/

@[simp] theorem State.onTracker_handleBook (f : Tracker → Tracker) (s : State) :
    (s.onTracker f).kept.handleBook = s.kept.handleBook := rfl
@[simp] theorem State.onRsc_handleBook (f : Rsc → Rsc) (s : State) :
    (s.onRsc f).kept.handleBook = s.kept.handleBook := rfl
@[simp] theorem State.onMli_handleBook (f : Mli → Mli) (s : State) :
    (s.onMli f).kept.handleBook = s.kept.handleBook := rfl
@[simp] theorem State.onPort_handleBook (p : Fin 6) (f : CellPort → CellPort) (s : State) :
    (s.onPort p f).kept.handleBook = s.kept.handleBook := rfl

@[simp] theorem State.onEntry_handleBook (h : Nat) (f : Entry → Entry) (s : State) :
    (s.onEntry h f).kept.handleBook = s.kept.handleBook := by
  rw [State.handleBook_eq, State.handleBook_eq, State.handles_onEntry]
  rfl

@[simp] theorem State.onBearer_handleBook (h k : Nat) (f : Bearer → Bearer) (s : State) :
    (s.onBearer h k f).kept.handleBook = s.kept.handleBook := State.onEntry_handleBook h _ s

/-- An update of the table keeps the handles where it keeps those of the entries and the free ones. -/
@[simp] theorem State.onTable_handleBook (f : Table → Table) (s : State)
    (hf : (f s.table).entries.map (·.1) = s.table.entries.map (·.1) ∧ (f s.table).freeHandles = s.table.freeHandles) :
    (s.onTable f).kept.handleBook = s.kept.handleBook := by
  obtain ⟨hentries, hfree⟩ := hf
  rw [State.handleBook_eq, State.handleBook_eq, State.handles, State.handles, State.onTable_table, hentries, hfree]

/-! ### Shared operations beyond those of `State.kept` -/

@[simp] theorem State.countMli_handleBook (f : MliCounters → MliCounters) (s : State) :
    (s.countMli f).kept.handleBook = s.kept.handleBook := rfl
@[simp] theorem State.joinInput_handleBook (c : Instr) (s : State) :
    (s.joinInput c).kept.handleBook = s.kept.handleBook := rfl
@[simp] theorem State.complete_handleBook (kind tag : Byte) (reason : Option Reason) (clamped : Bool) (fields : List Byte)
    (s : State) : (s.complete kind tag reason clamped fields).kept.handleBook = s.kept.handleBook := rfl
@[simp] theorem State.ok_handleBook (kind tag : Byte) (clamped : Bool) (fields : List Byte) (s : State) :
    (s.ok kind tag clamped fields).kept.handleBook = s.kept.handleBook := rfl
@[simp] theorem State.refuse_handleBook (kind tag : Byte) (reason : Reason) (s : State) :
    (s.refuse kind tag reason).kept.handleBook = s.kept.handleBook := rfl
@[simp] theorem State.refuseClamped_handleBook (kind tag : Byte) (clamped : Bool) (reason : Reason) (s : State) :
    (s.refuseClamped kind tag clamped reason).kept.handleBook = s.kept.handleBook := rfl
@[simp] theorem State.endFlush_handleBook (s : State) : s.endFlush.kept.handleBook = s.kept.handleBook := by
  rw [State.endFlush_kept]
  rfl
@[simp] theorem State.nextOperation_handleBook (s : State) : s.nextOperation.kept.handleBook = s.kept.handleBook := by
  rw [State.nextOperation_kept]
  rfl

/-! ### Orders and the tracker -/

@[simp] theorem State.sendOrder_handleBook (p : Fin 6) (s : State) :
    (s.sendOrder p).kept.handleBook = s.kept.handleBook := by
  rw [State.sendOrder_frame]
  rfl
@[simp] theorem State.sendOrders_handleBook (s : State) : s.sendOrders.kept.handleBook = s.kept.handleBook := by
  rw [State.sendOrders_frame]
  rfl

@[simp] theorem State.changeVerdict_handleBook (new : Option VerdictZone) (cause : ZoneCause) (d : Option Nat) (s : State) :
    (s.changeVerdict new cause d).kept.handleBook = s.kept.handleBook := by
  rw [State.changeVerdict_eq, State.workOut_kept, State.entriesFollow_kept]
  simp [State.published]

@[simp] theorem State.freeze_handleBook (s : State) : s.freeze.kept.handleBook = s.kept.handleBook := rfl

@[simp] theorem State.endHold_handleBook (s : State) : s.endHold.kept.handleBook = s.kept.handleBook :=
  State.endHold_keeps (P := fun t => t.kept.handleBook = s.kept.handleBook) rfl (fun _ _ h => h)
    (fun u c why d => (State.changeVerdict_handleBook c why d u).trans)

@[simp] theorem State.beginHold_handleBook (s : State) : s.beginHold.kept.handleBook = s.kept.handleBook :=
  State.beginHold_keeps (P := fun t => t.kept.handleBook = s.kept.handleBook) rfl (fun _ _ h => h)
    (fun u c why d => (State.changeVerdict_handleBook c why d u).trans)

@[simp] theorem State.takeFix_handleBook (q : Quality) (d : Nat) (s : State) :
    (s.takeFix q d).kept.handleBook = s.kept.handleBook :=
  State.takeFix_keeps (P := fun t => t.kept.handleBook = s.kept.handleBook) q d rfl (fun _ _ h => h) (fun _ _ h => h)
    (fun u c why d => (State.changeVerdict_handleBook c why d u).trans)

@[simp] theorem State.portFails_handleBook (p : Fin 6) (s : State) :
    (s.portFails p).kept.handleBook = s.kept.handleBook := by
  unfold State.portFails
  dsimp only
  rw [State.eachOf_kept _ _ State.markLost_kept]
  simp

@[simp] theorem State.startDevice_handleBook (s : State) : s.startDevice.kept.handleBook = s.kept.handleBook := by
  unfold State.startDevice
  dsimp only
  split <;> simp

/-! ### Frames and probes -/

@[simp] theorem State.sendOnboard_handleBook (r : OnboardRecord) (len : Nat) (s : State) :
    (s.sendOnboard r len).kept.handleBook = s.kept.handleBook := by
  unfold State.sendOnboard
  split <;> rfl

@[simp] theorem State.sendShore_handleBook (h : Nat) (e : Entry) (i : Nat) (payload : List Byte) (s : State) :
    (s.sendShore h e i payload).kept.handleBook = s.kept.handleBook := by
  unfold State.sendShore
  dsimp only
  repeat' split
  all_goals simp [State.countRouter]

@[simp] theorem State.concludeProbe_kept (l : Fin 4) (p : Probe) (early : Bool) (s : State) :
    (s.concludeProbe l p early).kept = s.kept := by
  unfold State.concludeProbe
  dsimp only
  repeat' split
  all_goals simp

@[simp] theorem State.judgeProbe_kept (l : Fin 4) (s : State) : (s.judgeProbe l).kept = s.kept := by
  unfold State.judgeProbe
  repeat' split
  all_goals simp

@[simp] theorem State.withdrawHead_kept (f : StoredFrame) (e : Option Entry) (s : State) :
    (s.withdrawHead f e).kept = s.kept := by
  unfold State.withdrawHead
  simp

/-! ### Rating -/

@[simp] theorem State.capReached_handleBook (h : Nat) (clamped : Bool) (s : State) :
    (s.capReached h clamped).kept.handleBook = s.kept.handleBook := by
  unfold State.capReached
  split
  · rfl
  · simp

@[simp] theorem State.takeCap_handleBook (h v : Nat) (e : Entry) (s : State) :
    (s.takeCap h v e).kept.handleBook = s.kept.handleBook := by
  unfold State.takeCap
  dsimp only
  repeat' split
  all_goals simp

@[simp] theorem State.afterCharging_handleBook (h : Nat) (s : State) :
    (s.afterCharging h).kept.handleBook = s.kept.handleBook := by
  unfold State.afterCharging
  dsimp only
  repeat' split
  all_goals simp

@[simp] theorem State.rate_handleBook (h : Nat) (d : Direction) (b : Nat) (e : Entry) (p : Period) (s : State) :
    (s.rate h d b e p).kept.handleBook = s.kept.handleBook := by
  unfold State.rate
  dsimp only
  simp

@[simp] theorem State.rollDay_handleBook (s : State) : s.rollDay.kept.handleBook = s.kept.handleBook := by
  unfold State.rollDay
  dsimp only
  split <;> simp [State.swapBanks]

/-! ### Record memory -/

@[simp] theorem State.commitRecord_handleBook (j : WriteJob) (s : State) :
    (s.commitRecord j).kept.handleBook = s.kept.handleBook := by
  unfold State.commitRecord
  dsimp only
  split <;> simp

@[simp] theorem State.disableBuffer_handleBook (s : State) : s.disableBuffer.kept.handleBook = s.kept.handleBook := by
  unfold State.disableBuffer
  simp

@[simp] theorem State.writeFailed_handleBook (slot : Nat) (s : State) :
    (s.writeFailed slot).kept.handleBook = s.kept.handleBook := by
  unfold State.writeFailed
  dsimp only
  repeat' split
  all_goals simp

@[simp] theorem State.scrambleSlot_handleBook (slot : Nat) (s : State) :
    (s.scrambleSlot slot).kept.handleBook = s.kept.handleBook :=
  State.handleBook_of_table (by simp only [State.scrambleSlot])
@[simp] theorem State.scrambleState_handleBook (slot : Nat) (s : State) :
    (s.scrambleState slot).kept.handleBook = s.kept.handleBook :=
  State.handleBook_of_table (by simp only [State.scrambleState])

@[simp] theorem State.rewrite_handleBook (c : MapChange) (s : State) : (s.rewrite c).kept.handleBook = s.kept.handleBook := by
  unfold State.rewrite
  repeat' split
  all_goals simp

@[simp] theorem State.sendSettle_kept (got : List (Nat × List Byte)) (s : State) : (s.sendSettle got).kept = s.kept := by
  unfold State.sendSettle
  dsimp only
  split <;> simp

@[simp] theorem State.sendExport_handleBook (again : Bool) (got : List (Nat × List Byte)) (s : State) :
    (s.sendExport again got).kept.handleBook = s.kept.handleBook := by
  unfold State.sendExport
  dsimp only
  repeat' split
  all_goals rfl

@[simp] theorem State.finishBuild_handleBook (s : State) : s.finishBuild.kept.handleBook = s.kept.handleBook := by
  unfold State.finishBuild
  repeat' split
  all_goals simp

@[simp] theorem State.dropUnreadable_handleBook (serial slot : Nat) (p : ReadFor) (s : State) :
    (s.dropUnreadable serial slot p).kept.handleBook = s.kept.handleBook := by
  unfold State.dropUnreadable
  simp

@[simp] theorem State.addRead_handleBook (serial slot : Nat) (s : State) :
    (s.addRead serial slot).kept.handleBook = s.kept.handleBook := by
  unfold State.addRead
  split <;> rfl

@[simp] theorem State.confirmBatch_handleBook (host : Bool) (s : State) :
    (s.confirmBatch host).kept.handleBook = s.kept.handleBook := by
  unfold State.confirmBatch
  simp

@[simp] theorem State.receive_handleBook (fuel : Nat) (s : State) : (s.receive fuel).kept.handleBook = s.kept.handleBook := by
  induction fuel generalizing s with
  | zero => rfl
  | succ n ih =>
    unfold State.receive
    split <;> simp [ih]

end Sys2Proof.Machine
end

