-- ==== Sys2Proof/Proofs/HandleDeals.lean ====
section
/-! SUPPORT. The commands and the handles (R46): all but an admission, a removal and a reset keep both lists; those three
leave every handle in exactly one place. -/

namespace Sys2Proof.Machine
open scoped List

/-! ### Commands by the way they are taken -/

/-- A command whose effect keeps the handles keeps them. -/
theorem effect_handleBook {s t : State} {f : State → State} (ht : whenPowered s f = .next t)
    (hf : ∀ s, (f s).kept.handleBook = s.kept.handleBook) : t.kept.handleBook = s.kept.handleBook :=
  whenPowered_keeps (P := fun t => t.kept.handleBook = s.kept.handleBook) ht rfl (fun u => (hf u).trans)

/-- A request whose own rule keeps the handles keeps them. -/
theorem request_handleBook {α : Type} {c : Instr} {kind : Byte} {r : Request α} {query : Bool} {cl wf : α → Bool}
    {own : α → State → State} {s t : State} (ht : takeRequest c s (checkedClamped kind r query cl wf own) = .next t)
    (hf : ∀ b s, (own b s).kept.handleBook = s.kept.handleBook) : t.kept.handleBook = s.kept.handleBook :=
  takeRequest_keeps (P := fun t => t.kept.handleBook = s.kept.handleBook) ht rfl (fun _ h => h)
    (fun _ => checkedClamped_keeps (P := fun t => t.kept.handleBook = s.kept.handleBook) (fun _ _ _ _ h => h)
      (fun b u _ => (hf b u).trans))

@[simp] theorem State.atExpiry_handleBook (e : Nat) (act : State → State) (s : State)
    (h : (act s).kept.handleBook = s.kept.handleBook) : (s.atExpiry e act).kept.handleBook = s.kept.handleBook := by
  obtain ⟨_, h'⟩ | ⟨_, h'⟩ := State.atExpiry_cases e act s
  · rw [h']
  · rw [h', h]

@[simp] theorem State.onRecord_handleBook (p : Fin 6) (wf : Bool) (act : State → State) (s : State)
    (h : (act s).kept.handleBook = s.kept.handleBook) : (s.onRecord p wf act).kept.handleBook = s.kept.handleBook := by
  unfold State.onRecord
  split
  · rfl
  · split
    · rfl
    · exact h

@[simp] theorem State.onShoreRecord_handleBook (l : Fin 4) (act : State → State) (s : State)
    (h : (act s).kept.handleBook = s.kept.handleBook) : (s.onShoreRecord l act).kept.handleBook = s.kept.handleBook := by
  unfold State.onShoreRecord
  split
  · exact h
  · rfl

@[simp] theorem State.onAnswer_handleBook (l : Fin 4) (h : Nat) (token : Token) (kind : ExchangeKind) (partner : Nat)
    (act : Entry → State → State) (s : State) (ha : ∀ e s, (act e s).kept.handleBook = s.kept.handleBook) :
    (s.onAnswer l h token kind partner act).kept.handleBook = s.kept.handleBook := by
  apply State.onShoreRecord_handleBook
  repeat' split
  all_goals simp [ha]

/-! ### All but admissions, removals and resets -/

/-- The commands that may take a handle into use or give it back. -/
def Instr.dealsHandles : Instr → Prop
  | .decideAttachAsk | .depart _ _ | .portLostExpiry _ | .retentionExpiry _ | .evict _ | .resetComplete | .powerOn
  | .powerLoss => True
  | _ => False

/-- A command that deals no handle keeps the handles in use and the free ones. The commands stand grouped by the way they are
taken: requests, then what comes over a port or from a timer. -/
theorem exec_handleBook {c : Instr} {s t : State} (hc : ¬ Instr.dealsHandles c) (ht : exec c s = .next t) :
    t.kept.handleBook = s.kept.handleBook := by
  cases c <;> try exact absurd trivial hc
  all_goals dsimp only [exec] at ht
  case hostClearToSend | localCarrierChange | modemNotReady => cases ht; rfl
  case queryZone | queryLinkCell | queryLinkShore | queryLinkManagement | querySubscriberSummary | queryStore | reset
      | setTime | freezeZone | pinLink | dayRoll | flushRecords =>
    exact request_handleBook ht (fun b s => by simp)
  case start | configureLinkCell | loadTariffPlan | commitTariffNow | commitTariffAtDayRoll | setBilling | setDelivery | setCap
      | setClass | querySubscriberSingle | exportRecords | confirmExport =>
    refine request_handleBook ht (fun b s => ?_)
    repeat' split
    all_goals simp [State.swapBanks]
  case fix | thawZone | loadZones | configureLinkShore =>
    refine request_handleBook ht (fun b s => ?_)
    dsimp only
    repeat' split
    all_goals simp
  case loadPartnersPart | loadPartnersLast =>
    refine takeRequest_keeps (P := fun t => t.kept.handleBook = s.kept.handleBook) ht rfl (fun _ h => h)
      (fun u hu => Eq.trans ?_ hu)
    dsimp only
    repeat' split
    all_goals simp [State.takePartners]
  case unknownKindRequest =>
    exact takeRequest_keeps (P := fun t => t.kept.handleBook = s.kept.handleBook) ht rfl (fun _ h => h) (fun _ h => h)
  case attachAsk | headResync | bearerOpen | bearerClose | upFrame =>
    refine effect_handleBook ht (fun s => State.onRecord_handleBook _ _ _ s ?_)
    repeat' split
    all_goals simp [State.decline, State.refuseBearer]
  case shoreDown | moveAck | settleAck =>
    refine effect_handleBook ht (fun s => State.onShoreRecord_handleBook _ _ s ?_)
    repeat' split
    all_goals simp
  case regOk | regRefused | refreshOk | refreshRefused =>
    refine effect_handleBook ht (fun s => State.onAnswer_handleBook _ _ _ _ _ _ _ fun e s => ?_)
    repeat' split
    all_goals simp
  case shoreCarrierLost | shoreCarrierReturn | modemReady =>
    dsimp only [execShoreCarrierLost, execShoreCarrierReturn, execModemReady] at ht
    refine (effect_handleBook ht (fun s => ?_)).trans (congrArg Kept.handleBook (State.onLink_kept ..))
    split <;> simp
  case meteredAddition | powerOnScanEnd | probeEchoDue | pacerSend =>
    refine effect_handleBook ht (fun s => ?_)
    dsimp only
    repeat' split
    all_goals simp
  case exchangeTimerExpiry =>
    refine effect_handleBook ht (fun s => ?_)
    split
    · rfl
    · apply State.atExpiry_handleBook
      dsimp only
      split <;> simp
  case' localDown => unfold execLocalDown at ht
  all_goals
    refine effect_handleBook ht (fun s => ?_)
    repeat' split
    all_goals simp [apply_ite State.kept, apply_ite Kept.handleBook]

/-! ### Removals, admissions and resets -/

theorem State.handlesOk_iff (s : State) :
    s.handlesOk ↔ (s.kept.handleBook.1 ++ s.kept.handleBook.2).Perm (List.range 2048) := by
  rw [State.handleBook_eq]

/-- What keeps both lists keeps the account of the handles. -/
theorem State.handlesOk.of_handleBook {s t : State} (hs : s.handlesOk) (h : t.kept.handleBook = s.kept.handleBook) :
    t.handlesOk := by
  rw [State.handlesOk_iff] at hs ⊢
  rwa [h]

theorem State.handles_of_handleBook {s t : State} (h : t.kept.handleBook = s.kept.handleBook) : t.handles = s.handles := by
  rw [State.handleBook_eq, State.handleBook_eq] at h
  exact congrArg Prod.fst h

/-- No handle is in use twice. -/
theorem State.handlesOk.nodup {s : State} (hs : s.handlesOk) : s.handles.Nodup :=
  (List.nodup_append.1 (hs.nodup_iff.2 List.nodup_range)).1

theorem keys_eraseKey {α : Type} (k : Nat) (l : List (Nat × α)) :
    (eraseKey k l).map (·.1) = (l.map (·.1)).filter (· != k) := by
  rw [eraseKey, List.filter_map]
  rfl

/-- A value put under a key that no other value stands under adds that key to the list. -/
theorem keys_putKey {α : Type} (k : Nat) (v : α) (l : List (Nat × α)) (hk : k ∉ l.map (·.1)) :
    ((putKey k v l).map (·.1)).Perm (k :: l.map (·.1)) := by
  induction l with
  | nil => rfl
  | cons p rest ih =>
    obtain ⟨a, e⟩ := p
    simp only [List.map_cons, List.mem_cons, not_or] at hk
    obtain ⟨hka, hrest⟩ := hk
    unfold putKey
    split
    · rfl
    · rw [if_neg (Ne.symm hka)]
      exact ((ih hrest).cons a).trans (List.Perm.swap k a _)

/-- A handle given back leaves the ones in use for the tail of the free ones (R46, R50). -/
theorem State.freeHandle_handlesOk {h : Nat} {s : State} (cause : RemovalCause) (hs : s.handlesOk) (hmem : h ∈ s.handles) :
    (s.freeHandle h cause).handlesOk := by
  have hused : (s.freeHandle h cause).handles = s.handles.erase h := by
    rw [hs.nodup.erase_eq_filter]
    exact keys_eraseKey h s.table.entries
  have hfree : (s.freeHandle h cause).table.freeHandles = s.table.freeHandles ++ [h] := rfl
  rw [State.handlesOk, hused, hfree]
  refine List.Perm.trans ?_ hs
  calc s.handles.erase h ++ (s.table.freeHandles ++ [h])
      _ ~ h :: (s.handles.erase h ++ s.table.freeHandles) := by
        rw [← List.append_assoc]
        exact List.perm_append_singleton h _
      _ ~ s.handles ++ s.table.freeHandles := (List.perm_cons_erase hmem).symm.append_right _

/-- A removal gives its entry's handle back; without the entry it does nothing. -/
theorem State.removeEntry_handlesOk (h : Nat) (cause : RemovalCause) (reason : Option CloseReason) {s : State}
    (hs : s.handlesOk) : (s.removeEntry h cause reason).handlesOk := by
  cases he : s.entry? h with
  | none =>
    have hsame : s.removeEntry h cause reason = s := by simp only [State.removeEntry, he]
    rwa [hsame]
  | some e =>
    rw [State.removeEntry_eq cause reason he]
    have hkept : ((((s.closedFor reason h).freeBearers h).deregister h e).dropExchange h).kept.handleBook =
        s.kept.handleBook := by
      rw [State.dropExchange_kept]
      unfold State.deregister State.closedFor
      repeat' split
      all_goals simp
    refine State.freeHandle_handlesOk cause (hs.of_handleBook hkept) ?_
    rw [State.handles_of_handleBook hkept]
    exact State.mem_handles he

/-- The first free handle taken into use (R45, R46). -/
theorem State.created_handlesOk {p : Fin 6} {a : Ask} {h : Nat} {rest : List Nat} {s : State} (hs : s.handlesOk)
    (hfree : s.table.freeHandles = h :: rest) : (s.created p a h rest).handlesOk := by
  have hnew : h ∉ s.handles := fun hmem =>
    (List.nodup_append.1 (hs.nodup_iff.2 List.nodup_range)).2.2 h hmem h (by simp [hfree]) rfl
  have hrest : (s.created p a h rest).table.freeHandles = rest := rfl
  rw [State.handlesOk, hrest]
  refine List.Perm.trans ?_ hs
  calc (s.created p a h rest).handles ++ rest
      _ ~ h :: s.handles ++ rest := (keys_putKey h (s.newEntry p a) s.table.entries hnew).append_right rest
      _ ~ s.handles ++ s.table.freeHandles := hfree ▸ List.perm_middle.symm

theorem State.admitNew_handlesOk (p : Fin 6) (a : Ask) {s : State} (hs : s.handlesOk) : (s.admitNew p a).handlesOk := by
  unfold State.admitNew
  split
  · exact hs
  · rename_i h rest hfree
    refine (State.created_handlesOk (p := p) (a := a) hs hfree).of_handleBook ?_
    rw [State.created, State.enrolled]
    dsimp only
    repeat' split
    all_goals simp

/-- Only an ask that passes every check of R29 takes a handle into use. -/
theorem State.decideAsk_handlesOk (p : Fin 6) (a : Ask) {s : State} (hs : s.handlesOk) : (s.decideAsk p a).handlesOk := by
  unfold State.decideAsk
  repeat' split
  case h_2.isFalse.isFalse.isFalse => exact State.admitNew_handlesOk p a hs
  all_goals exact hs.of_handleBook (by simp [State.decline])

theorem execDecideAttachAsk_handlesOk {s t : State} (ht : execDecideAttachAsk s = .next t) (hs : s.handlesOk) :
    t.handlesOk := by
  refine whenPowered_keeps (P := State.handlesOk) ht hs (fun s hs => ?_)
  split
  · exact hs
  · split
    · exact hs
    · exact State.decideAsk_handlesOk _ _ (hs.of_handleBook (by simp))

theorem execDepart_handlesOk {p : Fin 6} {token : Token} {s t : State} (ht : execDepart p token s = .next t)
    (hs : s.handlesOk) : t.handlesOk := by
  refine whenPowered_keeps (P := State.handlesOk) ht hs (fun s hs => ?_)
  by_cases hdown : (s.port p).state = .down
  · rw [State.onRecord_down hdown]
    exact hs
  · rw [State.onRecord_taken hdown]
    split
    · split
      · exact State.removeEntry_handlesOk _ .depart (some .detach) hs
      · exact hs
    · exact hs

theorem execPortLostExpiry_handlesOk {h : Nat} {s t : State} (ht : execPortLostExpiry h s = .next t) (hs : s.handlesOk) :
    t.handlesOk := by
  refine whenPowered_keeps (P := State.handlesOk) ht hs (fun s hs => ?_)
  split
  · exact hs
  · split
    · exact hs
    · exact State.atExpiry_keeps (P := State.handlesOk) hs fun s hs =>
        (State.removeEntry_handlesOk h .portLost (some .portLost) hs).of_handleBook (by simp)

theorem execRetentionExpiry_handlesOk {h : Nat} {s t : State} (ht : execRetentionExpiry h s = .next t)
    (hs : s.handlesOk) : t.handlesOk := by
  refine whenPowered_keeps (P := State.handlesOk) ht hs (fun s hs => ?_)
  split
  · exact hs
  · exact State.atExpiry_keeps (P := State.handlesOk) hs fun s hs => State.removeEntry_handlesOk h .retention none hs

theorem execEvict_handlesOk {r : Request SubscriberRef} {s t : State} (ht : execEvict r s = .next t) (hs : s.handlesOk) :
    t.handlesOk := by
  refine takeRequest_keeps (P := State.handlesOk) ht hs (fun _ h => h)
    (fun u hu => checkedClamped_keeps (P := State.handlesOk) (fun _ _ _ _ h => h) (fun b v _ hv => ?_) hu)
  split
  · exact hv
  · exact (State.removeEntry_handlesOk b.handle .evict (some .evict) hv).of_handleBook (by simp)

/-- The table at its reset values holds no entry, and every handle is free (R60). -/
theorem State.handlesOk_of_initial {s : State} (h : s.table = Table.initial) : s.handlesOk := by
  have hused : s.handles = [] := by
    rw [State.handles, h]
    rfl
  have hfree : s.table.freeHandles = List.range 2048 := by simp only [h, Table.initial]
  rw [State.handlesOk, hused, hfree, List.nil_append]

theorem State.atPowerOn_handlesOk (powered : Bool) (s : State) : (s.atPowerOn powered).handlesOk :=
  State.handlesOk_of_initial (by simp only [State.atPowerOn])

theorem State.cellCarriers_table (given : Bool) (s : State) : (s.cellCarriers given).table = s.table := by
  rw [State.cellCarriers_eq]

theorem execResetComplete_handlesOk {s t : State} (ht : execResetComplete s = .next t) (hs : s.handlesOk) :
    t.handlesOk := by
  refine whenPowered_keeps (P := State.handlesOk) ht hs (fun s hs => ?_)
  split
  · exact hs
  · refine State.handlesOk_of_initial ?_
    have hreply (tag : Byte) (fields : List Byte) (s : State) : (s.ok Kind.reset tag false fields).table = s.table := rfl
    rw [State.cellCarriers_table, State.arbitrate_table, hreply, State.afterReset]

/-- Every command leaves each handle in exactly one place (R46). -/
theorem exec_handlesOk {c : Instr} {s t : State} (ht : exec c s = .next t) (hs : s.handlesOk) : t.handlesOk := by
  by_cases hc : Instr.dealsHandles c
  case neg => exact hs.of_handleBook (exec_handleBook hc ht)
  cases c <;> try exact absurd hc id
  case decideAttachAsk => exact execDecideAttachAsk_handlesOk ht hs
  case depart => exact execDepart_handlesOk ht hs
  case portLostExpiry => exact execPortLostExpiry_handlesOk ht hs
  case retentionExpiry => exact execRetentionExpiry_handlesOk ht hs
  case evict => exact execEvict_handlesOk ht hs
  case resetComplete => exact execResetComplete_handlesOk ht hs
  case powerOn =>
    cases ht
    exact State.atPowerOn_handlesOk true _
  case powerLoss =>
    exact whenPowered_keeps (P := State.handlesOk) ht hs fun s _ => State.atPowerOn_handlesOk false s.cutOperation

/-- Settles O10: a step runs one command, each of which keeps the account of the handles, or lets the part work of itself,
which deals none. -/
theorem stepKeepsHandles : Obligations.StepKeepsHandles := by
  unfold Obligations.StepKeepsHandles
  intro s t hs ht
  unfold step at ht
  split at ht
  · cases ht
    refine hs.of_handleBook ?_
    unfold State.idle
    repeat' split
    all_goals rfl
  · exact exec_handlesOk ht hs

end Sys2Proof.Machine
end

