-- ==== Sys2Proof/Proofs/RatedAdditions.lean ====
section
/-! SUPPORT. An addition that stays below the cap (R147, R148): all its increments are charged, and an alert follows where one
is due. -/

namespace Sys2Proof.Machine

/-! ### Increments below the cap -/

/-- The account's entry and period after `j` increments, none of them cut and nothing saturated. -/
def Account.entryBelow (a : Account) (j : Nat) : Entry :=
  { a.entry with total := a.totalAt j, dayCount := a.entry.dayCount + j }

def Account.periodBelow (a : Account) (j : Nat) : Period :=
  { a.period with
    inc1 := a.period.inc1 + a.tier1 j, inc2 := a.period.inc2 + (j - a.tier1 j),
    charge := a.period.charge + (a.totalAt j - a.entry.total) }

/-- The first `j` increments keep below a cap that is set, and carry neither the total, the charge nor the day count past
its largest value. -/
def Account.roomFor (a : Account) (j : Nat) : Prop :=
  (a.entry.cap = 0 ∨ a.totalAt j < a.entry.cap) ∧ a.totalAt j ≤ 4294967295 ∧
    a.period.charge + (a.totalAt j - a.entry.total) ≤ 4294967295 ∧ a.entry.dayCount + j ≤ 65535

theorem Account.totalAt_mono {a : Account} {j k : Nat} (h : j ≤ k) : a.totalAt j ≤ a.totalAt k :=
  monotone_nat_of_le_succ (fun j => a.totalAt_succ j ▸ Nat.le_add_right ..) h

theorem Account.roomFor.of_le {a : Account} {j k : Nat} (h : a.roomFor k) (hjk : j ≤ k) : a.roomFor j := by
  obtain ⟨hcap, htotal, hcharge, hday⟩ := h
  have hmono := Account.totalAt_mono (a := a) hjk
  exact ⟨hcap.imp_right (by omega), by omega, by omega, by omega⟩

/-- One increment more, where there is room for it, is charged whole at its tier's rate. -/
theorem chargeIncrement_below {a x : Account} {j : Nat} (hentry : x.entry = a.entryBelow j)
    (hperiod : x.period = a.periodBelow j) (hroom : a.roomFor (j + 1)) :
    (chargeIncrement x).entry = a.entryBelow (j + 1) ∧ (chargeIncrement x).period = a.periodBelow (j + 1) := by
  obtain ⟨e, p, c⟩ := x
  obtain rfl : e = a.entryBelow j := hentry
  obtain rfl : p = a.periodBelow j := hperiod
  obtain ⟨hcap, htotal, hcharge, hday⟩ := hroom
  have hle := a.tier1_le j
  have hstart := a.le_totalAt j
  have hsucc := a.totalAt_succ j
  have hrate : (if decide ((a.entryBelow j).dayCount < (a.periodBelow j).threshold) = true then (a.periodBelow j).rate1
      else (a.periodBelow j).rate2) = a.rateAt j := by
    simp only [decide_eq_true_eq]
    rfl
  have hclamp : ((a.entryBelow j).cap != 0 && decide ((a.entryBelow j).cap < (a.entryBelow j).total + a.rateAt j)) = false := by
    refine Bool.and_eq_false_iff.2 (hcap.imp (fun hzero => bne_eq_false_iff_eq.2 hzero) fun hbelow => decide_eq_false ?_)
    rw [hsucc] at hbelow
    exact Nat.not_lt.2 hbelow.le
  unfold chargeIncrement
  dsimp only
  rw [hrate, hclamp]
  simp only [Bool.false_eq_true, if_false, Bool.or_false, Bool.not_false, Bool.true_and]
  have hnewTotal : satAt Limits.max32 ((a.entryBelow j).total + a.rateAt j) = a.totalAt (j + 1) :=
    (Nat.min_eq_right (hsucc ▸ htotal)).trans hsucc.symm
  have hnewDays : satAt Limits.max16 ((a.entryBelow j).dayCount + 1) = a.entry.dayCount + (j + 1) := Nat.min_eq_right hday
  have hnewCharge : (a.periodBelow j).charge + a.rateAt j = a.period.charge + (a.totalAt (j + 1) - a.entry.total) := by
    simp only [Account.periodBelow]
    omega
  have hsaturates : (decide (Limits.max32 < (a.entryBelow j).total + a.rateAt j) ||
      decide (Limits.max32 < (a.periodBelow j).charge + a.rateAt j)) = false := by
    rw [hnewCharge]
    exact Bool.or_eq_false_iff.2 ⟨decide_eq_false (Nat.not_lt.2 (hsucc ▸ htotal)), decide_eq_false (Nat.not_lt.2 hcharge)⟩
  have hkeptCharge : satAt Limits.max32 (a.period.charge + (a.totalAt (j + 1) - a.entry.total)) =
      a.period.charge + (a.totalAt (j + 1) - a.entry.total) := Nat.min_eq_right hcharge
  rw [hnewTotal, hnewDays, hsaturates, Bool.or_false, hnewCharge, hkeptCharge]
  refine ⟨rfl, ?_⟩
  unfold Account.periodBelow
  rw [Account.tier1_succ]
  by_cases hfirst : a.entry.dayCount + j < a.period.threshold
  · simp [Account.entryBelow, hfirst, Nat.add_assoc]
  · have hover : j + 1 - a.tier1 j = j - a.tier1 j + 1 := Nat.sub_add_comm hle
    simp [Account.entryBelow, hfirst, hover, Nat.add_assoc]

/-- Where there is room for all of them, every increment is charged. -/
theorem chargeIncrements_below {a : Account} (m : Nat) {j : Nat} {x : Account} (hentry : x.entry = a.entryBelow j)
    (hperiod : x.period = a.periodBelow j) (hroom : a.roomFor (j + m)) :
    (chargeIncrements m x).entry = a.entryBelow (j + m) ∧ (chargeIncrements m x).period = a.periodBelow (j + m) := by
  induction m generalizing j x with
  | zero => exact ⟨hentry, hperiod⟩
  | succ m ih =>
    have hall : a.roomFor (j + 1 + m) := by rwa [Nat.add_assoc, Nat.add_comm 1]
    have hnext : a.roomFor (j + 1) := hall.of_le (Nat.le_add_right ..)
    obtain ⟨hentryNext, hperiodNext⟩ := chargeIncrement_below hentry hperiod hnext
    have huncapped : (chargeIncrement x).entry.atCap = false := by
      rw [hentryNext]
      exact Bool.and_eq_false_iff.2 (hnext.1.imp (fun hzero => bne_eq_false_iff_eq.2 hzero) fun hbelow =>
        beq_eq_false_iff_ne.2 hbelow.ne)
    rw [chargeIncrements, huncapped, ← Nat.add_assoc, Nat.add_right_comm]
    exact ih hentryNext hperiodNext hall

/-- The alerts raised are not counted by an increment. -/
theorem chargeIncrements_alerts (m : Nat) (x : Account) : (chargeIncrements m x).counters.alerts = x.counters.alerts := by
  induction m generalizing x with
  | zero => rfl
  | succ m ih =>
    rw [chargeIncrements]
    split
    · rfl
    · exact ih _

/-! ### An addition below the cap -/

/-- The counters behind the increments of an addition, which is counted in its direction (R156). -/
def Account.rated (dir : Direction) (a : Account) : RatingCounters :=
  match dir with
  | .uplink => { a.counters with ratedUp := bump32 a.counters.ratedUp }
  | .downlink => { a.counters with ratedDown := bump32 a.counters.ratedDown }

/-- Entry `h` and the Rating Unit's counters take over what an account holds behind its increments (R147). -/
def State.takeAccount (h : Nat) (dir : Direction) (a : Account) (s : State) : State :=
  (s.onEntry h fun _ => { a.entry with period := some a.period }).countRtu fun _ => a.rated dir

theorem State.rate_eq (h : Nat) (dir : Direction) (b : Nat) (e : Entry) (p : Period) (s : State) : s.rate h dir b e p =
    (s.takeAccount h dir (chargeIncrements (p.addVolume dir b).owed ⟨e, p.addVolume dir b, s.rtu.counters⟩)).afterCharging h :=
  rfl

/-- An alert is due to an entry whose cap is set, whose total has come to the alert level and which has had none (R148). -/
def State.alertDue (s : State) (e : Entry) : Bool := e.cap != 0 && !e.alertSent && decide (s.alertLevel e.cap ≤ e.total)

/-- The step of the charging of an addition behind its alert: an entry whose total has come to its cap is barred (R148). -/
def State.capEnds (h : Nat) (s : State) : State :=
  match s.entry? h with
  | some e => if e.atCap then s.capReached h ((e.period.map Period.clamped).getD false) else s
  | none => s

theorem State.afterCharging_eq {h : Nat} {e : Entry} {s : State} (he : s.entry? h = some e) :
    s.afterCharging h = ((if s.alertDue e then s.billAlert h else s).capEnds h).volumeEnds h := by
  rw [State.afterCharging, he]
  rfl

/-- Below the cap and below the largest volumes, nothing follows the alert. -/
theorem State.settled_below {h : Nat} {e : Entry} {p : Period} {s : State} (he : s.entry? h = some e)
    (hp : e.period = some p) (hbelow : e.atCap = false) (hup : p.up < 1099511627775) (hdown : p.down < 1099511627775) :
    (s.capEnds h).volumeEnds h = s := by
  have hcap : s.capEnds h = s := by simp [State.capEnds, he, hbelow]
  have hvolume : (p.up == Limits.maxVolume || p.down == Limits.maxVolume) = false :=
    Bool.or_eq_false_iff.2 ⟨beq_eq_false_iff_ne.2 hup.ne, beq_eq_false_iff_ne.2 hdown.ne⟩
  simp [hcap, State.volumeEnds, he, hp, hvolume]

/-- A BILL-ALERT sets the entry's flag, is counted and raised, and changes nothing else (R148). -/
theorem State.billAlert_spec {h : Nat} {e : Entry} {s : State} (he : s.entry? h = some e) :
    (s.billAlert h).entry? h = some { e with alertSent := true } ∧ (∀ k, k ≠ h → (s.billAlert h).entry? k = s.entry? k) ∧
      (s.billAlert h).rtu.counters.alerts = bump32 s.rtu.counters.alerts ∧
      s.billAlert h = { s with
        table := { s.table with entries := (s.billAlert h).table.entries },
        rtu := { s.rtu with counters := (s.billAlert h).rtu.counters },
        mli := (s.raise (.billAlert h e.token e.cap (s.alertLevel e.cap) e.total s.mli.shipTime)).mli } := by
  have halert : s.billAlert h = { (s.onEntry h fun e => { e with alertSent := true }).countRtu fun c =>
      { c with alerts := bump32 c.alerts } with
        mli := (s.raise (.billAlert h e.token e.cap (s.alertLevel e.cap) e.total s.mli.shipTime)).mli } := by
    rw [State.billAlert, he]
    rfl
  rw [halert]
  refine ⟨?_, fun k hk => ?_, rfl, rfl⟩
  · refine (State.entry?_onEntry h h _ s).trans ?_
    rw [if_pos rfl, he]
    rfl
  · exact (State.entry?_onEntry h k _ s).trans (if_neg hk.symm)

/-- An alert that is due is all that follows the increments of an addition below the cap (R147, R148). -/
theorem State.afterCharging_below {h : Nat} {e : Entry} {p : Period} {s : State} (he : s.entry? h = some e)
    (hp : e.period = some p) (hbelow : e.atCap = false) (hup : p.up < 1099511627775) (hdown : p.down < 1099511627775) :
    s.afterCharging h = if s.alertDue e then s.billAlert h else s := by
  rw [State.afterCharging_eq he]
  split
  · obtain ⟨halerted, _⟩ := State.billAlert_spec he
    exact State.settled_below halerted hp hbelow hup hdown
  · exact State.settled_below he hp hbelow hup hdown

theorem Account.below_zero (a : Account) : a.entry = a.entryBelow 0 ∧ a.period = a.periodBelow 0 := by
  have htier : a.tier1 0 = 0 := Nat.zero_min _
  have htotal : a.totalAt 0 = a.entry.total := by simp [Account.totalAt, htier]
  constructor
  · rw [Account.entryBelow, htotal]
    rfl
  · simp only [Account.periodBelow, htotal, htier, Nat.sub_self, Nat.add_zero]

/-- What an account below the cap holds behind `n` increments, as the entry that takes it over. -/
def Account.entryRated (a : Account) (n : Nat) : Entry := { a.entryBelow n with period := some (a.periodBelow n) }

/-- The state behind the increments of an addition, the account `a` having room for all `n` of them. -/
theorem State.takeAccount_below {h n : Nat} {e : Entry} (dir : Direction) {a : Account} {s : State} (he : s.entry? h = some e)
    (hroom : a.roomFor n) : let t := s.takeAccount h dir (chargeIncrements n a)
    t.entry? h = some (a.entryRated n) ∧ (∀ k, k ≠ h → t.entry? k = s.entry? k) ∧
      t.rtu.counters.alerts = a.counters.alerts := by
  obtain ⟨hentry, hperiod⟩ := a.below_zero
  obtain ⟨hentryAfter, hperiodAfter⟩ := chargeIncrements_below n hentry hperiod (by rwa [Nat.zero_add])
  rw [Nat.zero_add] at hentryAfter hperiodAfter
  refine ⟨?_, fun k hk => ?_, ?_⟩
  · refine (State.entry?_onEntry h h _ s).trans ?_
    rw [if_pos rfl, he, hentryAfter, hperiodAfter]
    rfl
  · exact (State.entry?_onEntry h k _ s).trans (if_neg hk.symm)
  · refine Eq.trans ?_ (chargeIncrements_alerts n a)
    cases dir <;> rfl

/-- An addition is off its way once it has reached the Rating Unit (R56, R73). -/
def State.arrived (add : Addition) (s : State) : State :=
  s.onRouter fun r => { r with additions := r.additions.erase add }

/-- An addition to an open, unfrozen period is rated (R147). -/
theorem exec_meteredAddition_unfrozen {s : State} {h a b : Nat} {dir : Direction} {e : Entry} {p : Period}
    (hs : s.powered = true) (he : s.life? h a = some e) (hp : e.period = some p) (hc : e.closing = false) :
    exec (.meteredAddition h a dir b) s = .next ((s.arrived ⟨h, a, dir, b⟩).rate h dir b e p) := by
  have hexec : exec (.meteredAddition h a dir b) s = execMeteredAddition h a dir b s := rfl
  have hlife (f : Router → Router) : (s.onRouter f).life? h a = some e := he
  rw [hexec, execMeteredAddition, whenPowered_on _ hs]
  simp only [hlife, hp, hc]
  rfl

/-- The increments of an addition below the cap and the alert that may follow them (R147, R148): the account's entry and
period, a counted alert, and nothing else beside. -/
theorem State.takeAccount_alerted {s : State} {h n : Nat} (dir : Direction) {e : Entry} {a : Account} (he : s.entry? h = some e)
    (hroom : a.roomFor n) (hcounters : a.counters = s.rtu.counters) (hup : a.period.up < 1099511627775)
    (hdown : a.period.down < 1099511627775) :
    let t := (s.takeAccount h dir (chargeIncrements n a)).afterCharging h
    let x := a.entryRated n
    let alert := s.alertDue x
    t.entry? h = some { x with alertSent := x.alertSent || alert } ∧ (∀ k, k ≠ h → t.entry? k = s.entry? k) ∧
      t.rtu.counters.alerts = (if alert then bump32 s.rtu.counters.alerts else s.rtu.counters.alerts) ∧
      t = { s with
        table := { s.table with entries := t.table.entries }, rtu := { s.rtu with counters := t.rtu.counters },
        mli := if alert then (s.raise (.billAlert h x.token x.cap (s.alertLevel x.cap) x.total s.mli.shipTime)).mli
          else s.mli } := by
  obtain ⟨hread, hothers, halerts⟩ := State.takeAccount_below dir he hroom
  have hframe (y : Account) : s.takeAccount h dir y = { s with
    table := { s.table with entries := (s.takeAccount h dir y).table.entries },
    rtu := { s.rtu with counters := (s.takeAccount h dir y).rtu.counters } } := rfl
  specialize hframe (chargeIncrements n a)
  have hbelow : (a.entryRated n).atCap = false :=
    Bool.and_eq_false_iff.2 (hroom.1.imp (fun hzero => bne_eq_false_iff_eq.2 hzero) fun hlt => beq_eq_false_iff_ne.2 hlt.ne)
  rw [hcounters] at halerts
  generalize s.takeAccount h dir (chargeIncrements n a) = u at *
  have hdue : u.alertDue (a.entryRated n) = s.alertDue (a.entryRated n) := by rw [hframe]; rfl
  dsimp only
  rw [State.afterCharging_below hread rfl hbelow hup hdown, hdue]
  cases s.alertDue (a.entryRated n) with
  | false =>
    refine ⟨?_, hothers, halerts, hframe⟩
    rw [Bool.or_false]
    exact hread
  | true =>
    obtain ⟨halerted, hothersToo, hcounted, hframeToo⟩ := State.billAlert_spec hread
    refine ⟨?_, fun k hk => (hothersToo k hk).trans (hothers k hk), hcounted.trans (congrArg bump32 halerts), ?_⟩
    · rw [Bool.or_true]
      exact halerted
    · have hmli : u.mli = s.mli := by rw [hframe]
      have hlevel : u.alertLevel (a.entryRated n).cap = s.alertLevel (a.entryRated n).cap := by
        rw [State.alertLevel, hmli, State.alertLevel]
      rw [hlevel, hmli, State.raise_mli_congr _ hmli] at hframeToo
      refine hframeToo.trans ?_
      generalize u.billAlert h = v
      rw [hframe]
      rfl

/-- Settles O46: an addition without an unfrozen period is counted; one below the cap has its increments charged, and is
followed by the alert if that is due. -/
theorem additionIsRated : Obligations.AdditionIsRated := by
  unfold Obligations.AdditionIsRated
  intro s h a b dir hs router
  have hexec : exec (.meteredAddition h a dir b) s = execMeteredAddition h a dir b s := rfl
  have hlife (f : Router → Router) : (s.onRouter f).life? h a = s.life? h a := rfl
  refine ⟨fun he => ?_, fun e he hp => ?_, fun e p he hp hc => ?_, fun e p he hp hc => ?_⟩
  · rw [hexec, execMeteredAddition, whenPowered_on _ hs]
    simp only [hlife, he]
    rfl
  · rw [hexec, execMeteredAddition, whenPowered_on _ hs]
    simp only [hlife, he, hp]
    rfl
  · rw [hexec, execMeteredAddition, whenPowered_on _ hs]
    simp only [hlife, he, hp, hc]
    rfl
  · intro up down n n1 charge level alert hcap hup hdown hdays htotal hcharge
    have hvolume : p.addVolume dir b = { p with up := up, down := down } := Period.addVolume_eq rfl rfl hup.le hdown.le
    have hentry : s.entry? h = some e := (Option.filter_eq_some_iff.1 he).1
    have hsum : (s.account e p up down).totalAt n = e.total + charge := Nat.add_assoc ..
    have hadded : e.total + charge - (s.account e p up down).entry.total = charge := Nat.add_sub_cancel_left ..
    have hroom : (s.account e p up down).roomFor n := by
      unfold Account.roomFor
      rw [hsum, hadded]
      exact ⟨hcap, htotal, hcharge, hdays⟩
    have hrated : (s.account e p up down).entryRated n = { e with
        total := e.total + charge, dayCount := e.dayCount + n,
        period := some { p with
          up := up, down := down, inc1 := p.inc1 + n1, inc2 := p.inc2 + (n - n1), charge := p.charge + charge } } := by
      simp only [Account.entryRated, Account.entryBelow, Account.periodBelow, hsum, hadded]
      rfl
    have hspec := State.takeAccount_alerted (s := s.arrived ⟨h, a, dir, b⟩) dir hentry hroom rfl hup hdown
    rw [hrated] at hspec
    rw [exec_meteredAddition_unfrozen hs he hp hc, State.rate_eq, hvolume]
    exact ⟨_, rfl, hspec⟩

end Sys2Proof.Machine
end

