-- ==== Sys2Proof/Proofs/StoreDrain.lean ====
section
/-! SUPPORT. The store's head frame at the ACTIVE link (R53, R113, R114), and the end of the store hold condition (R35). -/

namespace Sys2Proof.Machine

/-! ### The end of the store hold condition -/

theorem flatMap_ite_singleton {α β : Type} (c : α → Bool) (g : α → β) (l : List α) :
    (l.flatMap fun a => if c a then [g a] else []) = (l.filter c).map g := by
  induction l with
  | nil => rfl
  | cons a l ih => cases h : c a <;> simp [h, ih]

theorem allPorts_nodup : allPorts.Nodup := by decide

/-- A held port is sent RESUME, and its hold flag clears (R35). -/
def State.release (p : Fin 6) (s : State) : State :=
  if (s.port p).hold then (s.toHead p .resume).onPort p fun q => { q with hold := false } else s

/-- The RESUME that a port is sent, if it is held and listening. -/
def State.resumeOf (s : State) (p : Fin 6) : List Sent :=
  if (s.port p).hold && decide ((s.port p).state ≠ .down) then [.toHead p .resume] else []

theorem State.release_sent (p : Fin 6) (s : State) : (s.release p).sent = s.sent ++ s.resumeOf p := by
  unfold State.release State.resumeOf
  cases hhold : (s.port p).hold with
  | false => simp
  | true =>
    by_cases hdown : (s.port p).state = .down
    · simp [State.toHead_down _ hdown, hdown]
    · simp [State.toHead_up _ hdown, hdown, State.sends]

theorem State.release_port (p q : Fin 6) (s : State) :
    (s.release p).port q = if p = q then { s.port q with hold := false } else s.port q := by
  unfold State.release
  cases hhold : (s.port p).hold with
  | false =>
    by_cases hq : p = q
    · subst hq
      have hsame : { s.port p with hold := false } = s.port p := by rw [← hhold]
      rw [if_neg Bool.false_ne_true, if_pos rfl, hsame]
    · simp [hq]
  | true =>
    by_cases hq : p = q
    · subst hq
      simp
    · simp [hq]

theorem State.release_frame (p : Fin 6) (s : State) :
    s.release p = { s with cpc := { s.cpc with ports := (s.release p).cpc.ports }, sent := (s.release p).sent } := by
  unfold State.release
  split
  · obtain ⟨_, h⟩ | ⟨_, h⟩ := State.toHead_cases p .resume s <;> rw [h] <;> rfl
  · rfl

/-- Ports released in turn: each is sent its RESUME in the list's order, and its flag clears. -/
theorem State.releaseEach (l : List (Fin 6)) (hl : l.Nodup) (s : State) :
    (s.eachOf l State.release).sent = s.sent ++ l.flatMap s.resumeOf ∧
      (∀ q, (s.eachOf l State.release).port q = if q ∈ l then { s.port q with hold := false } else s.port q) ∧
      s.eachOf l State.release = { s with
        cpc := { s.cpc with ports := (s.eachOf l State.release).cpc.ports }, sent := (s.eachOf l State.release).sent } := by
  induction l generalizing s with
  | nil => exact ⟨(List.append_nil _).symm, fun q => rfl, rfl⟩
  | cons p l ih =>
    obtain ⟨hp, hrest⟩ := List.nodup_cons.1 hl
    obtain ⟨hsent, hports, hframe⟩ := ih hrest (s.release p)
    rw [State.eachOf_cons]
    refine ⟨?_, fun q => ?_, ?_⟩
    · have hsame : l.flatMap (s.release p).resumeOf = l.flatMap s.resumeOf := by
        refine List.flatMap_congr fun q hq => ?_
        have hne : p ≠ q := fun hpq => hp (hpq ▸ hq)
        unfold State.resumeOf
        rw [State.release_port, if_neg hne]
      rw [hsent, hsame, State.release_sent, List.append_assoc, List.flatMap_cons]
    · rw [hports, State.release_port]
      by_cases hq : p = q
      · subst hq
        simp
      · simp [hq, Ne.symm hq]
    · rw [hframe, State.release_frame p s]

/-- The store hold condition ends at 262,144 bytes or less: every held port is released (R35, R113). -/
theorem State.reportFall_ends {s : State} (hlow : occupancy s.sws.frames ≤ 262144) (hhold : s.cpc.storeHold = true) :
    s.reportFall = (s.onCpc fun c => { c with storeHold := false }).eachOf allPorts State.release := by
  unfold State.reportFall
  have hends : (decide (occupancy s.sws.frames ≤ Limits.holdEnds) && s.cpc.storeHold) = true := by
    rw [hhold, Bool.and_true]
    exact decide_eq_true hlow
  rw [if_pos hends]
  rfl

/-- Where the condition does not stand, or the occupancy is above its end, a fall changes nothing. -/
theorem State.reportFall_stays {s : State} (h : 262144 < occupancy s.sws.frames ∨ s.cpc.storeHold = false) :
    s.reportFall = s := by
  unfold State.reportFall
  refine if_neg fun hends => ?_
  obtain ⟨hlow, hhold⟩ := Bool.and_eq_true_iff.1 hends
  exact h.elim (fun hhigh => Nat.not_lt.2 (of_decide_eq_true hlow) hhigh) (fun hclear => by simp [hclear] at hhold)

/-- A fall touches the ports and what has been sent, and nothing else. -/
theorem State.reportFall_frame (s : State) :
    s.reportFall = { s with cpc := s.reportFall.cpc, sent := s.reportFall.sent } := by
  by_cases hends : occupancy s.sws.frames ≤ 262144 ∧ s.cpc.storeHold = true
  · obtain ⟨hlow, hhold⟩ := hends
    rw [State.reportFall_ends hlow hhold]
    obtain ⟨_, _, hframe⟩ := State.releaseEach allPorts allPorts_nodup (s.onCpc fun c => { c with storeHold := false })
    rw [hframe]
    rfl
  · rw [State.reportFall_stays ((not_and_or.1 hends).imp Nat.not_le.1 Bool.eq_false_iff.2)]

/-! ### The head frame -/

/-- A frame handed off leaves the store as SHORE-UP, is counted, and is metered for a PASSENGER (R70, R113). -/
def State.handedOff (l : Fin 4) (f : StoredFrame) (rest : List StoredFrame) (e : Entry) (s : State) : State :=
  let n := f.payload.length
  { s with
    sws := { s.sws with
      frames := rest, counters := { s.sws.counters with handedOff := s.sws.counters.handedOff.add n } },
    router :=
      let handed := { s.router.totals with handOffs := s.router.totals.handOffs.add n }
      if e.cls = .passenger then
        { s.router with
          totals := { handed with meteredUp := s.router.totals.meteredUp.add n },
          additions := s.router.additions ++ [⟨f.handle, f.attach, .uplink, n⟩] }
      else { s.router with totals := handed },
    sent := s.sent ++ [.toShore l (.shoreUp f.identity e.token f.payload)] }

section Head
variable {s : State} {l : Fin 4} {f : StoredFrame} {rest : List StoredFrame} (hframes : s.sws.frames = f :: rest)
  (hoffered : s.sws.offered = false)
include hframes hoffered

theorem State.popFrame_eq : s.popFrame = { s with sws := { s.sws with frames := rest } } := by
  simp only [State.popFrame, State.onSws, hframes, List.tail_cons, ← hoffered]

theorem State.handOffStored_eq {e : Entry} (he : s.life? f.handle f.attach = some e) :
    s.handOffStored l e.token = (s.handedOff l f rest e).reportFall := by
  have hlife (w : SwapStore) (x : Sent) (g : SwapStore → SwapStore) (r : Router → Router) :
      (((({ s with sws := w } : State).emit x).onSws g).onRouter r).life? f.handle f.attach = some e := he
  unfold State.handOffStored
  rw [hframes]
  dsimp only
  rw [State.popFrame_eq hframes hoffered, hlife]
  dsimp only
  by_cases hclass : e.cls = .passenger
  · rw [if_pos hclass, State.handedOff, if_pos hclass]
    rfl
  · rw [if_neg hclass, State.handedOff, if_neg hclass]
    rfl

/-- The head frame off the store and counted as withdrawn, for the cause that its entry gives (R114). -/
def State.withdrawn (f : StoredFrame) (rest : List StoredFrame) (e : Option Entry) (s : State) : State :=
  { s with sws := { s.sws with
    frames := rest, counters := { s.sws.counters with
      withdrawn := addAt 5 f.payload.length s.sws.counters.withdrawn (withdrawalCause e) } } }

theorem State.withdrawHead_eq (e : Option Entry) :
    s.withdrawHead f e = ((s.withdrawn f rest e).raiseLoss f.handle f.attach).reportFall := by
  rw [State.withdrawHead, State.popFrame_eq hframes hoffered]
  rfl

end Head

theorem withdrawalCause_some (e : Entry) : withdrawalCause (some e) =
    if e.portLost ≠ none then 1 else if e.barred = true then 2 else if e.closing = true then 3 else 4 := by
  cases h : e.portLost <;> simp [withdrawalCause, h]

theorem State.raiseLoss_dead {h a : Nat} {s : State} (he : s.life? h a = none) : s.raiseLoss h a = s := by
  rw [State.raiseLoss, he]

/-- A frame's loss touches its entry and, where the period is frozen, the closure that waits (R149). -/
theorem State.raiseLoss_frame (h a : Nat) (s : State) : s.raiseLoss h a = { s with
    table := { s.table with entries := (s.raiseLoss h a).table.entries },
    rtu := { s.rtu with waitList := (s.raiseLoss h a).rtu.waitList } } := by
  unfold State.raiseLoss
  split
  · rfl
  · dsimp only
    split <;> rfl

/-- An entry with one frame more lost in the store (R149). -/
def Entry.lost (e : Entry) : Entry :=
  { e with
    storeLoss := satAt Limits.max16 (e.storeLoss + 1),
    period := e.period.map fun p => { p with storeLoss := satAt Limits.max16 (p.storeLoss + 1) } }

theorem State.raiseLoss_table {h a : Nat} {e : Entry} {s : State} (he : s.life? h a = some e) :
    (s.raiseLoss h a).table = (s.onEntry h Entry.lost).table := by
  simp only [State.raiseLoss, he]
  split <;> rfl

theorem State.raiseLoss_entry {h a : Nat} {e : Entry} {s : State} (he : s.life? h a = some e) :
    (s.raiseLoss h a).entry? h = some e.lost := by
  have hentry : s.entry? h = some e := (Option.filter_eq_some_iff.1 he).1
  rw [State.entry?, State.raiseLoss_table he]
  refine (State.entry?_onEntry h h _ s).trans ?_
  rw [if_pos rfl, hentry]
  rfl

section Drain
variable {s : State} {l : Fin 4} {f : StoredFrame} {rest : List StoredFrame} (hlink : s.activeLink? = some l)
  (hswap : s.slm.swap.inProgress = false) (hframes : s.sws.frames = f :: rest) (hoffered : s.sws.offered = false)
include hlink hswap hframes hoffered

theorem State.mayDrain_head : s.mayDrain = true := by
  simp [State.mayDrain, State.mayCarry, hlink, hswap, hframes, hoffered]

variable (hs : s.powered = true)
include hs

/-- Without a living entry the head frame is withdrawn (R114). -/
theorem exec_storeDrain_dead (he : s.life? f.handle f.attach = none) :
    exec .storeDrain s = .next (s.withdrawHead f none) := by
  have hexec : exec .storeDrain s = execStoreDrain s := rfl
  rw [hexec, execStoreDrain, whenPowered_on _ hs]
  simp only [State.mayDrain_head hlink hswap hframes hoffered, hlink, hframes, he]
  rfl

/-- An entitled subscriber's head frame is handed off or offered (R53, R113). -/
theorem exec_storeDrain_entitled {e : Entry} (he : s.life? f.handle f.attach = some e) (hent : s.entitled e = true) :
    exec .storeDrain s = .next (if (s.link l).free then s.handOffStored l e.token
      else (s.onSws fun w => { w with offered := true }).onLink l fun k =>
        { k with waiting := k.waiting ++ [.storeFrame e.token] }) := by
  have hexec : exec .storeDrain s = execStoreDrain s := rfl
  rw [hexec, execStoreDrain, whenPowered_on _ hs]
  simp only [State.mayDrain_head hlink hswap hframes hoffered, hlink, hframes, he, hent]
  rfl

/-- The head frame of one not entitled is withdrawn (R53, R114). -/
theorem exec_storeDrain_unentitled {e : Entry} (he : s.life? f.handle f.attach = some e) (hent : s.entitled e = false) :
    exec .storeDrain s = .next (s.withdrawHead f (some e)) := by
  have hexec : exec .storeDrain s = execStoreDrain s := rfl
  rw [hexec, execStoreDrain, whenPowered_on _ hs]
  simp only [State.mayDrain_head hlink hswap hframes hoffered, hlink, hframes, he, hent]
  rfl

end Drain

/-- Settles O39: the head frame meets the entry's test, and a hand-off that brings the occupancy down releases the ports. -/
theorem storeDrains : Obligations.StoreDrains := by
  unfold Obligations.StoreDrains
  refine ⟨fun s l f rest hs hlink hswap hframes hoffered hclear => ?below,
    fun s l f rest e hs hlink hswap hframes hoffered hhold he hent hfree => ?held⟩
  case below =>
    intro n
    refine ⟨fun he => ?_, fun e he hent => ⟨fun hfree => ?_, fun hbusy => ?_⟩, fun e he hent => ?_⟩
    · rw [exec_storeDrain_dead hlink hswap hframes hoffered hs he]
      rw [State.withdrawHead_eq hframes hoffered, State.raiseLoss_dead (s := s.withdrawn f rest none) he,
        State.reportFall_stays (s := s.withdrawn f rest none) (.inr hclear)]
      rfl
    · rw [exec_storeDrain_entitled hlink hswap hframes hoffered hs he hent, if_pos hfree,
        State.handOffStored_eq hframes hoffered he, State.reportFall_stays (s := s.handedOff l f rest e) (.inr hclear)]
      rfl
    · rw [exec_storeDrain_entitled hlink hswap hframes hoffered hs he hent, hbusy]
      rfl
    · have hstill : ((s.withdrawn f rest (some e)).raiseLoss f.handle f.attach).cpc.storeHold = false := by
        rw [State.raiseLoss_frame]
        exact hclear
      refine ⟨_, exec_storeDrain_unentitled hlink hswap hframes hoffered hs he hent, ?_⟩
      rw [State.withdrawHead_eq hframes hoffered, State.reportFall_stays (.inr hstill), ← withdrawalCause_some]
      have hentry := State.raiseLoss_entry (s := s.withdrawn f rest (some e)) he
      rw [State.raiseLoss_frame] at hentry ⊢
      exact ⟨rfl, rfl, rfl, rfl, _, hentry, rfl⟩
  case held =>
    intro up
    have hdrain := exec_storeDrain_entitled hlink hswap hframes hoffered hs he hent
    rw [if_pos hfree, State.handOffStored_eq hframes hoffered he] at hdrain
    have hfreed : (s.handedOff l f rest e).sws.frames = rest := rfl
    refine ⟨_, hdrain, ?_, fun hlow => ?_, fun hhigh => ?_⟩
    · rw [State.reportFall_frame]
      rfl
    · rw [State.reportFall_ends (s := s.handedOff l f rest e) hlow hhold]
      obtain ⟨hsent, hports, hframe⟩ := State.releaseEach allPorts allPorts_nodup
        ((s.handedOff l f rest e).onCpc fun c => { c with storeHold := false })
      refine ⟨?_, fun p => ?_, ?_⟩
      · rw [hframe]
        rfl
      · rw [hports, if_pos (mem_allPorts p)]
        rfl
      · rw [hsent, ← flatMap_ite_singleton]
        exact List.append_assoc ..
    · rw [State.reportFall_stays (s := s.handedOff l f rest e) (.inl hhigh)]
      exact ⟨rfl, rfl⟩

end Sys2Proof.Machine
end

