-- ==== Sys2Proof/Proofs/CutOff.lean ====
section
/-! SUPPORT. The shore cut-off at the grace's end: the store emptied and SERVE-LEVEL LOCAL sent (R110, R115). -/

namespace Sys2Proof.Machine

/-! ### SERVE-LEVEL LOCAL at the cut-off -/

/-- What the cut-off sends an entry: LOCAL, if it is SERVED or MOVING, unmarked, and at a listening port (R33, R110). -/
def State.localLevel (s : State) (x : Nat × Entry) : List Sent :=
  if (x.2.reg = .served ∨ x.2.reg = .moving) ∧ x.2.portLost = none ∧ (s.port x.2.port).state ≠ .down then
    [.toHead x.2.port (.serveLevel x.1 x.2.token .onboardOnly)] else []

theorem RegState.onShore_iff (r : RegState) : r.onShore = true ↔ r = .served ∨ r = .moving := by
  cases r <;> simp [RegState.onShore]

theorem State.sendLevel_local {x : Nat × Entry} {s : State} (hread : s.entry? x.1 = some x.2)
    (hshore : x.2.reg.onShore = true) : s.sendLevel x.1 .onboardOnly = s.sends (s.localLevel x) := by
  have hreg := (RegState.onShore_iff _).1 hshore
  have hawake : x.2.reg ≠ .resting := fun hrest => by simp [hrest] at hreg
  simp only [State.sendLevel_eq _ hread, State.localLevel, hreg, hawake, ne_eq, not_false_eq_true, true_and]

theorem State.localLevel_offShore {x : Nat × Entry} {s : State} (hshore : x.2.reg.onShore = false) :
    s.localLevel x = [] :=
  if_neg fun hall => by simp [(RegState.onShore_iff _).2 hall.1] at hshore

/-- A round over entries that are read back under their handles sends each its level, in the list's order. -/
theorem State.eachOf_localLevel (l : List (Nat × Entry)) (s : State) (hread : ∀ x ∈ l, s.entry? x.1 = some x.2) :
    s.eachOf ((l.filter fun x => x.2.reg.onShore && true).map (·.1)) (fun h s => s.sendLevel h .onboardOnly) =
      s.sends (l.flatMap s.localLevel) := by
  induction l generalizing s with
  | nil => exact (State.sends_nil s).symm
  | cons x l ih =>
    have hrest (y : Nat × Entry) (hy : y ∈ l) : s.entry? y.1 = some y.2 := hread y (List.mem_cons_of_mem x hy)
    cases hshore : x.2.reg.onShore with
    | false =>
      rw [List.filter_cons_of_neg (by simp [hshore]), List.flatMap_cons, State.localLevel_offShore hshore]
      exact ih s hrest
    | true =>
      rw [List.filter_cons_of_pos (by simp [hshore]), List.map_cons, State.eachOf_cons,
        State.sendLevel_local (hread x List.mem_cons_self) hshore, ih (s.sends (s.localLevel x)) hrest, List.flatMap_cons,
        State.sends, State.sends, State.sends, List.append_assoc]
      rfl

theorem State.eachOf_onShoreHandles {s : State} (hnd : s.handles.Nodup) :
    s.eachOf (s.onShoreHandles fun _ => true) (fun h s => s.sendLevel h .onboardOnly) =
      s.sends (s.table.entries.flatMap s.localLevel) :=
  State.eachOf_localLevel s.table.entries s fun _ hx => lookupKey_of_mem hnd hx

/-- Whether or not handles repeat, the levels show in what has been sent alone. -/
theorem State.eachOf_sendLevel_frame (l : List Nat) (level : ServeLevel) (s : State) :
    s.eachOf l (fun h s => s.sendLevel h level) =
      { s with sent := (s.eachOf l fun h s => s.sendLevel h level).sent } :=
  State.eachOf_keeps (P := fun t => t = { s with sent := t.sent }) l
    (fun h _ t ht => by rw [State.sendLevel_frame, ht]) rfl

/-! ### The store emptied -/

theorem State.withdrawOffer_frame (s : State) :
    s.withdrawOffer = { s with sws := { s.sws with offered := false }, slm := s.withdrawOffer.slm } := by
  unfold State.withdrawOffer
  split
  case isTrue =>
    exact State.eachOf_keeps (P := fun t => t = { s with sws := { s.sws with offered := false }, slm := t.slm }) allLinks
      (f := fun l u => u.onLink l fun k => { k with waiting := withoutOffer k.waiting })
      (fun l _ t ht => by rw [ht]; rfl) rfl
  case isFalse hoffered =>
    rw [← Bool.eq_false_iff.2 hoffered]

/-- The head frame out of the store and counted as shed, its offer withdrawn. -/
def State.shedding (f : StoredFrame) (rest : List StoredFrame) (s : State) : State :=
  { s with
    sws := { s.sws with
      frames := rest, offered := false,
      counters := { s.sws.counters with shed := s.sws.counters.shed.add f.payload.length } },
    slm := s.withdrawOffer.slm }

theorem State.shedHead_eq {s : State} {f : StoredFrame} {rest : List StoredFrame} (hframes : s.sws.frames = f :: rest) :
    s.shedHead = (s.shedding f rest).raiseLoss f.handle f.attach := by
  unfold State.shedHead
  rw [hframes]
  dsimp only
  rw [State.popFrame, State.withdrawOffer_frame]
  simp only [State.onSws, hframes, List.tail_cons]
  rfl

theorem flatMap_alterKey {α β : Type} {g : Nat × α → List β} {f : α → α} (hg : ∀ k e, g (k, f e) = g (k, e)) (h : Nat)
    (l : List (Nat × α)) : (alterKey h f l).flatMap g = l.flatMap g := by
  induction l with
  | nil => rfl
  | cons x l ih =>
    obtain ⟨k, e⟩ := x
    by_cases hk : k = h
    · simp [alterKey, hk, hg]
    · simp [alterKey, hk, ih]

/-- What shedding leaves for the levels that follow it: what has been sent, the handles, and who is sent one. -/
structure State.shedsTo (s t : State) : Prop where
  sent : t.sent = s.sent
  handles : t.handles = s.handles
  levels : ∀ u : State, t.table.entries.flatMap u.localLevel = s.table.entries.flatMap u.localLevel

theorem State.shedsTo.trans {s t u : State} (hst : s.shedsTo t) (htu : t.shedsTo u) : s.shedsTo u where
  sent := htu.sent.trans hst.sent
  handles := htu.handles.trans hst.handles
  levels v := (htu.levels v).trans (hst.levels v)

theorem State.raiseLoss_shedsTo (h a : Nat) (s : State) : s.shedsTo (s.raiseLoss h a) := by
  cases he : s.life? h a with
  | none => rw [State.raiseLoss_dead he]; exact ⟨rfl, rfl, fun _ => rfl⟩
  | some e =>
    have hentries : (s.raiseLoss h a).table.entries = alterKey h Entry.lost s.table.entries :=
      congrArg Table.entries (State.raiseLoss_table he)
    refine ⟨by rw [State.raiseLoss_frame], ?_, fun u => ?_⟩
    · rw [State.handles, hentries, keys_alterKey, State.handles]
    · rw [hentries]
      exact flatMap_alterKey (f := Entry.lost) (fun _ _ => rfl) h _

theorem State.raiseLoss_sws (h a : Nat) (s : State) : (s.raiseLoss h a).sws = s.sws := by rw [State.raiseLoss_frame]

/-- Shedding as many frames as the store holds empties it, and counts each of them (R112, R115). -/
theorem State.shedAll_empties (l : List StoredFrame) (s : State) (hframes : s.sws.frames = l) :
    (s.shedAll l.length).sws.frames = [] ∧
      (s.shedAll l.length).sws.counters.shed = l.foldl (fun c f => c.add f.payload.length) s.sws.counters.shed ∧
      s.shedsTo (s.shedAll l.length) := by
  induction l generalizing s with
  | nil => exact ⟨hframes, rfl, rfl, rfl, fun _ => rfl⟩
  | cons f l ih =>
    have hhead := State.shedHead_eq hframes
    have hsws : s.shedHead.sws = (s.shedding f l).sws := by rw [hhead, State.raiseLoss_sws]
    have hfirst : s.shedsTo s.shedHead := by
      rw [hhead]
      exact .trans (t := s.shedding f l) ⟨rfl, rfl, fun _ => rfl⟩ (State.raiseLoss_shedsTo _ _ _)
    obtain ⟨hempty, hcount, hrest⟩ := ih s.shedHead (by rw [hsws]; rfl)
    rw [hsws] at hcount
    exact ⟨hempty, hcount, hfirst.trans hrest⟩

/-! ### The cut-off -/

/-- What a fall of the occupancy sends is RESUME alone (R35). -/
theorem State.reportFall_sent (s : State) : ∃ ps : List (Fin 6), s.reportFall.sent = s.sent ++ ps.map (.toHead · .resume) := by
  by_cases hends : occupancy s.sws.frames ≤ 262144 ∧ s.cpc.storeHold = true
  · obtain ⟨hlow, hhold⟩ := hends
    obtain ⟨hsent, _, _⟩ := State.releaseEach allPorts allPorts_nodup (s.onCpc fun c => { c with storeHold := false })
    refine ⟨allPorts.filter fun p => (s.port p).hold && decide ((s.port p).state ≠ .down), ?_⟩
    rw [State.reportFall_ends hlow hhold, hsent, ← flatMap_ite_singleton]
    rfl
  · refine ⟨[], ?_⟩
    rw [State.reportFall_stays ((not_and_or.1 hends).imp Nat.not_le.1 Bool.eq_false_iff.2)]
    exact (List.append_nil _).symm

theorem State.localLevel_congr {s t : State} (hports : ∀ p, (t.port p).state = (s.port p).state) :
    t.localLevel = s.localLevel :=
  funext fun x => by simp only [State.localLevel, hports]

/-- The store emptied, the fall reported and the condition set, before any level is sent. -/
def State.cutOff (s : State) : State :=
  ((s.shedAll s.sws.frames.length).reportFall).onSlm fun m => { m with
    graceAt := none, cutOff := true,
    cutOffShed := { frames := s.sws.frames.length, bytes := occupancy s.sws.frames },
    counters := { m.counters with cutOffs := bump32 m.counters.cutOffs } }

theorem State.beginCutOff_eq (s : State) : s.beginCutOff =
    s.cutOff.eachOf (s.cutOff.onShoreHandles fun _ => true) fun h s => s.sendLevel h .onboardOnly := rfl

theorem State.cutOff_sws (s : State) : s.cutOff.sws.frames = [] ∧
    s.cutOff.sws.counters.shed = s.sws.frames.foldl (fun c f => c.add f.payload.length) s.sws.counters.shed := by
  obtain ⟨hempty, hcount, _⟩ := State.shedAll_empties s.sws.frames s rfl
  rw [State.cutOff, State.onSlm_sws, State.reportFall_frame]
  exact ⟨hempty, hcount⟩

theorem State.cutOff_standing (s : State) : s.cutOff.standing = s.standing := by
  unfold State.cutOff
  simp

/-- The levels of the cut-off go to whom the state before it names. -/
theorem State.cutOff_levels (s : State) : s.cutOff.handles = s.handles ∧
    s.cutOff.table.entries.flatMap s.cutOff.localLevel = s.table.entries.flatMap s.localLevel := by
  obtain ⟨_, _, hshed⟩ := State.shedAll_empties s.sws.frames s rfl
  have htable : s.cutOff.table = (s.shedAll s.sws.frames.length).table := by
    rw [State.cutOff, State.onSlm_table, State.reportFall_frame]
  have hports (p : Fin 6) : (s.cutOff.port p).state = (s.port p).state :=
    congrFun (congrArg Radio.ports (State.radio_of_standing s.cutOff_standing)) p
  rw [State.localLevel_congr hports, State.handles, htable]
  exact ⟨hshed.handles, hshed.levels s⟩

/-- An expiry of the isolation grace at or after its moment begins the cut-off (R110). -/
theorem exec_graceExpiry {s : State} {since at_ : Nat} (hs : s.powered = true) (hisolated : s.slm.isolated = some since)
    (hgrace : s.slm.graceAt = some at_) (hdue : at_ ≤ s.mli.clock) : exec .graceExpiry s = .next s.beginCutOff := by
  have hexec : exec .graceExpiry s = execGraceExpiry s := rfl
  have hexpires : s.atExpiry at_ State.beginCutOff = s.beginCutOff := if_neg (Nat.not_lt.2 hdue)
  rw [hexec, execGraceExpiry, whenPowered_on _ hs]
  simp only [hisolated, hgrace, hexpires]

/-- Settles O38: the cut-off empties the store, and its levels follow the entries, whose handles are distinct. -/
theorem graceExpiryCutsOff : Obligations.GraceExpiryCutsOff := by
  unfold Obligations.GraceExpiryCutsOff
  intro s since at_ hs hisolated hgrace hdue
  obtain ⟨hempty, hcount⟩ := s.cutOff_sws
  have hframe : s.beginCutOff = { s.cutOff with sent := s.beginCutOff.sent } := State.eachOf_sendLevel_frame _ _ _
  have hsws : s.beginCutOff.sws = s.cutOff.sws := by rw [hframe]
  have hcut : s.beginCutOff.slm.cutOff = true := by rw [hframe]; rfl
  refine ⟨s.beginCutOff, exec_graceExpiry hs hisolated hgrace hdue, hcut, by rw [hframe]; rfl,
    s.beginCutOff_isolated.trans hisolated, by rw [hsws, hempty], by rw [hsws, hcount], fun e => ?_, ?_⟩
  · simp [State.entitled, hcut]
  · intro isLevel hnd
    obtain ⟨hhandles, hlevels⟩ := s.cutOff_levels
    obtain ⟨_, _, hshed⟩ := State.shedAll_empties s.sws.frames s rfl
    obtain ⟨ps, hresumes⟩ := (s.shedAll s.sws.frames.length).reportFall_sent
    have hsent : s.cutOff.sent = s.sent ++ ps.map (.toHead · .resume) := hresumes.trans (by rw [hshed.sent])
    refine ⟨ps.map (.toHead · .resume) ++ s.table.entries.flatMap s.localLevel, ?_, ?_⟩
    · rw [State.beginCutOff_eq, State.eachOf_onShoreHandles (hhandles ▸ hnd), hlevels, State.sends, hsent,
        List.append_assoc]
    · have hnone : (ps.map (Sent.toHead · .resume)).filter isLevel = [] := by simp [isLevel]
      have hall : (s.table.entries.flatMap s.localLevel).filter isLevel = s.table.entries.flatMap s.localLevel := by
        refine List.filter_eq_self.2 fun x hx => ?_
        obtain ⟨y, _, hy⟩ := List.mem_flatMap.1 hx
        unfold State.localLevel at hy
        split at hy
        · obtain rfl := List.mem_singleton.1 hy
          rfl
        · cases hy
      rw [List.filter_append, hnone, hall]
      rfl

end Sys2Proof.Machine
end

