-- ==== Sys2Proof/Proofs/Bearers.lean ====
section
/-! SUPPORT. BEARER-OPEN and BEARER-CLOSE, and malformed records of the router on a cell port (R25, R62 to R64). -/

namespace Sys2Proof.Machine

/-! ### BEARER-OPEN -/

/-- Refusals are counted for UNKNOWN-SUBSCRIBER and for SLOT-BUSY (R74). -/
def BearerRefusal.place : BearerRefusal → Fin 2
  | .unknownSubscriber => 0
  | .slotBusy => 1

/-- A BEARER-REFUSE on a listening port is sent and counted by its reason (R62, R74). -/
theorem State.refuseBearer_up {p : Fin 6} {s : State} (identity : Nat) (reason : BearerRefusal)
    (hup : (s.port p).state ≠ .down) : s.refuseBearer p identity reason =
      (s.countRouter fun t => { t with refusals := bumpAt 2 t.refusals reason.place }).sends
        [.toHead p (.bearerRefuse identity reason)] := by
  unfold State.refuseBearer
  rw [State.toHead_up _ hup]
  cases reason <;> rfl

/-- A bearer opens now, with counters of 0 (R62). -/
def State.bearerOpened (h slot : Nat) (kind : BearerKind) (s : State) : State :=
  (s.onEntry h fun e => { e with bearers := insertBearer (newBearer slot kind s.now) e.bearers }).countRouter
    fun t => { t with opens := bump32 t.opens }

section Open
variable {s : State} {p : Fin 6} {token : Token} {slot : Nat} (kind : BearerKind) (hs : s.powered = true)
  (hup : (s.port p).state ≠ .down) (hslot : slot ≤ 3)
include hs hup hslot

theorem exec_bearerOpen_stranger (hnone : s.byToken? token = none) :
    exec (.bearerOpen p token slot (some kind)) s = .next (s.refuseBearer p 8191 .unknownSubscriber) := by
  have hexec : exec (.bearerOpen p token slot (some kind)) s = execBearerOpen p token slot (some kind) s := rfl
  have hfit : (decide (slot ≤ 3) && (some kind).isSome) = true := by simp [hslot]
  rw [hexec, execBearerOpen, whenPowered_on _ hs, hfit, State.onRecord_taken hup]
  simp only [hnone, noIdentity]

variable {h : Nat} {e : Entry} (hknown : s.byToken? token = some (h, e))
include hknown

theorem exec_bearerOpen_known : exec (.bearerOpen p token slot (some kind)) s = .next
    (if e.port ≠ p ∨ e.reg = .resting then s.refuseBearer p (h * 4 + slot) .unknownSubscriber
    else if ∃ b ∈ e.bearers, b.slot = slot then s.refuseBearer p (h * 4 + slot) .slotBusy
    else (s.bearerOpened h slot kind).sends [.toHead p (.bearerAck (h * 4 + slot))]) := by
  have hexec : exec (.bearerOpen p token slot (some kind)) s = execBearerOpen p token slot (some kind) s := rfl
  have hfit : (decide (slot ≤ 3) && (some kind).isSome) = true := by simp [hslot]
  have hopened (f : Entry → Entry) : (s.onEntry h f).toHead p (.bearerAck (h * 4 + slot)) =
      (s.onEntry h f).sends [.toHead p (.bearerAck (h * 4 + slot))] := State.toHead_up _ hup
  rw [hexec, execBearerOpen, whenPowered_on _ hs, hfit, State.onRecord_taken hup]
  simp only [hknown, hopened, Bool.or_eq_true, bne_iff_ne, beq_iff_eq, List.any_eq_true]
  rfl

end Open

/-! ### BEARER-CLOSE -/

section Close
variable {s : State} {p : Fin 6} {identity : Nat} (hs : s.powered = true) (hup : (s.port p).state ≠ .down)
include hs hup

theorem exec_bearerClose_open {h : Nat} {e : Entry} {b : Bearer} (hat : s.bearerAt identity = some (h, e, b))
    (hport : e.port = p) : exec (.bearerClose p identity) s = .next
      ((s.onEntry h fun e => { e with bearers := e.bearers.filter fun c => c.slot != b.slot }).countRouter
        fun t => { t with closes := bump32 t.closes }) := by
  have hexec : exec (.bearerClose p identity) s = execBearerClose p identity s := rfl
  rw [hexec, execBearerClose, whenPowered_on _ hs, State.onRecord_taken hup]
  simp only [hat, if_pos hport]

/-- A close of an empty place, or of another port's bearer, is stale (R63). -/
theorem exec_bearerClose_stale (hother : ∀ h e b, s.bearerAt identity = some (h, e, b) → e.port ≠ p) :
    exec (.bearerClose p identity) s = .next (s.countRouter fun t => { t with staleCloses := bump32 t.staleCloses }) := by
  have hexec : exec (.bearerClose p identity) s = execBearerClose p identity s := rfl
  rw [hexec, execBearerClose, whenPowered_on _ hs, State.onRecord_taken hup]
  cases hat : s.bearerAt identity with
  | none => rfl
  | some x => simp only [if_neg (hother x.1 x.2.1 x.2.2 hat)]

end Close

/-! ### Malformed records -/

/-- A payload of a frame is of 1 to 1,536 bytes (R25, R65, R68). -/
theorem payloadFits_iff {n : Nat} : (decide (1 ≤ n) && decide (n ≤ Limits.maxPayload)) = true ↔ 1 ≤ n ∧ n ≤ 1536 := by
  rw [Bool.and_eq_true, decide_eq_true_iff, decide_eq_true_iff, Limits.maxPayload]

theorem payloadUnfit_iff {n : Nat} : (decide (n = 0) || decide (Limits.maxPayload < n)) = true ↔ n = 0 ∨ 1536 < n := by
  rw [Bool.or_eq_true, decide_eq_true_iff, decide_eq_true_iff, Limits.maxPayload]

section Malformed
variable {s : State} {p : Fin 6} (hs : s.powered = true) (hup : (s.port p).state ≠ .down)
include hs hup

theorem exec_bearerOpen_malformed (token : Token) {slot : Nat} {kind : Option BearerKind} (hbad : 3 < slot ∨ kind = none) :
    exec (.bearerOpen p token slot kind) s =
      .next (s.portCounted p fun c => { c with malformed := bump32 c.malformed }) := by
  have hexec : exec (.bearerOpen p token slot kind) s = execBearerOpen p token slot kind s := rfl
  have hunfit : (decide (slot ≤ 3) && kind.isSome) = false := by
    obtain hslot | hkind := hbad
    · simp [hslot]
    · simp [hkind]
  rw [hexec, execBearerOpen, whenPowered_on _ hs, hunfit, State.onRecord_malformed hup]

theorem exec_upFrame_malformed (identity : Nat) {payload : List Byte} (hbad : payload = [] ∨ 1536 < payload.length) :
    exec (.upFrame p identity payload) s =
      .next (s.portCounted p fun c => { c with malformed := bump32 c.malformed }) := by
  have hexec : exec (.upFrame p identity payload) s = execUpFrame p identity payload s := rfl
  have hunfit : (decide (1 ≤ payload.length) && decide (payload.length ≤ Limits.maxPayload)) = false := by
    rw [Bool.eq_false_iff, ne_eq, payloadFits_iff]
    obtain rfl | hlong := hbad
    · simp
    · omega
  rw [hexec, execUpFrame, whenPowered_on _ hs, hunfit, State.onRecord_malformed hup]

end Malformed

/-- Settles O25: the checks of R62 in their order, the two closes of R63, and the malformed records of R25. -/
theorem bearersOpenAndClose : Obligations.BearersOpenAndClose := by
  unfold Obligations.BearersOpenAndClose
  refine ⟨fun s p token slot kind h e hs hup hslot hknown hport hawake hfree => ?opened,
    fun s p token slot kind hs hup hslot => ⟨fun hnone => ?stranger, fun h e hknown haway => ?away,
      fun h e hknown hport hawake hbusy => ?busy⟩,
    fun s p identity hs hup => ⟨fun h e b hat hport => exec_bearerClose_open hs hup hat hport,
      exec_bearerClose_stale hs hup⟩,
    fun s p hs hup => ⟨fun token _ _ => exec_bearerOpen_malformed hs hup token,
      fun identity _ => exec_upFrame_malformed hs hup identity⟩⟩
  case opened =>
    have hhere : ¬ (e.port ≠ p ∨ e.reg = .resting) := by simp [hport, hawake]
    have hempty : ¬ ∃ b ∈ e.bearers, b.slot = slot := fun ⟨b, hb, hslot⟩ => hfree b hb hslot
    rw [exec_bearerOpen_known kind hs hup hslot hknown, if_neg hhere, if_neg hempty]
    rfl
  case stranger =>
    rw [exec_bearerOpen_stranger kind hs hup hslot hnone, State.refuseBearer_up _ _ hup]
    rfl
  case away =>
    rw [exec_bearerOpen_known kind hs hup hslot hknown, if_pos haway, State.refuseBearer_up _ _ hup]
    rfl
  case busy =>
    have hhere : ¬ (e.port ≠ p ∨ e.reg = .resting) := by simp [hport, hawake]
    rw [exec_bearerOpen_known kind hs hup hslot hknown, if_neg hhere, if_pos hbusy, State.refuseBearer_up _ _ hup]
    rfl

end Sys2Proof.Machine
end

