-- ==== Sys2Proof/Proofs/Frames.lean ====
section
/-! SUPPORT. Frames through the router: up to the ship, and down from the local port and from shore (R65 to R68, R71, R72). -/

namespace Sys2Proof.Machine

/-! ### UP-FRAME -/

/-- A frame counted against its bearer and taken along its route (R66). -/
def State.routeUp (s : State) (h : Nat) (e : Entry) (b : Bearer) (identity : Nat) (payload : List Byte) : Route → State
  | .shore => (s.onBearer h b.slot fun b => { b with upShore := b.upShore.add payload.length }).sendShore h e identity payload
  | .onboard =>
    ((s.onBearer h b.slot fun b => { b with upLocal := b.upLocal.add payload.length }).countRouter
      fun t => { t with upLocal := t.upLocal.add payload.length }).sendOnboard
        (.localUp identity h e.port payload) payload.length
  | .portal reason =>
    ((s.onBearer h b.slot fun b => { b with upPortal := b.upPortal.add payload.length }).countRouter
      fun t => { t with upPortal := addAt 6 payload.length t.upPortal reason.place }).sendOnboard
        (.portalUp identity h e.token e.home reason payload) payload.length
  | .isolated =>
    (s.onBearer h b.slot fun b => { b with upLost := b.upLost.add payload.length }).countRouter
      fun t => { t with upIsolated := t.upIsolated.add payload.length }

theorem State.route_shore_entitled {s : State} {e : Entry} (hent : s.entitled e = true) : s.route .shore e = .shore := by
  simp [State.route, hent]

theorem State.route_shore_portal {s : State} {e : Entry} {reason : PortalReason} (hent : s.entitled e = false)
    (hreason : e.portalReason? = some reason) : s.route .shore e = .portal reason := by
  simp [State.route, hent, hreason]

theorem State.route_shore_isolated {s : State} {e : Entry} (hent : s.entitled e = false)
    (hreason : e.portalReason? = none) : s.route .shore e = .isolated := by
  simp [State.route, hent, hreason]

section UpFrame
variable {s : State} {p : Fin 6} {identity : Nat} {payload : List Byte} (hs : s.powered = true)
  (hup : (s.port p).state ≠ .down) (hsome : 1 ≤ payload.length) (hmax : payload.length ≤ 1536)
include hs hup hsome hmax

/-- A frame on a bearer that is not open on its port is counted, and nothing else (R65). -/
theorem exec_upFrame_notOpen (hother : ∀ h e b, s.bearerAt identity = some (h, e, b) → e.port ≠ p) :
    exec (.upFrame p identity payload) s =
      .next (s.countRouter fun t => { t with upNotOpen := t.upNotOpen.add payload.length }) := by
  have hexec : exec (.upFrame p identity payload) s = execUpFrame p identity payload s := rfl
  rw [hexec, execUpFrame, whenPowered_on _ hs, payloadFits_iff.2 ⟨hsome, hmax⟩, State.onRecord_taken hup]
  cases hat : s.bearerAt identity with
  | none => rfl
  | some x =>
    have haway : (x.2.1.port != p) = true := bne_iff_ne.2 (hother x.1 x.2.1 x.2.2 hat)
    simp only [if_pos haway]

theorem exec_upFrame_routed {h : Nat} {e : Entry} {b : Bearer} (hat : s.bearerAt identity = some (h, e, b))
    (hport : e.port = p) :
    exec (.upFrame p identity payload) s = .next (s.routeUp h e b identity payload (s.route b.kind e)) := by
  have hexec : exec (.upFrame p identity payload) s = execUpFrame p identity payload s := rfl
  have hhere : ¬ (e.port != p) = true := by simp [hport]
  rw [hexec, execUpFrame, whenPowered_on _ hs, payloadFits_iff.2 ⟨hsome, hmax⟩, State.onRecord_taken hup]
  simp only [hat, if_neg hhere]
  cases s.route b.kind e <;> rfl

end UpFrame

/-- The causes of an entry's own in their order (R66, rows 3 to 8). -/
theorem Entry.portalReason?_cases (e : Entry) :
    (e.portLost ≠ none → e.portalReason? = some .portLost) ∧
    (e.portLost = none → e.barred = true → e.portalReason? = some .barred) ∧
    (e.portLost = none → e.barred = false → e.closing = true → e.portalReason? = some .closing) ∧
    (e.portLost = none → e.barred = false → e.closing = false →
      (e.reg = .registering → e.portalReason? = some .registering) ∧ (e.reg = .lapsed → e.portalReason? = some .lapsed) ∧
      (e.reg = .unroamed → e.portalReason? = some .unroamed) ∧
      (e.reg = .served ∨ e.reg = .moving ∨ e.reg = .resting → e.portalReason? = none)) := by
  refine ⟨fun hlost => if_pos (Option.isSome_iff_ne_none.2 hlost), fun hkept hbarred => ?_,
    fun hkept hbarred hclosing => ?_, fun hkept hbarred hclosing => ?_⟩
  · simp [Entry.portalReason?, hkept, hbarred]
  · simp [Entry.portalReason?, hkept, hbarred, hclosing]
  · cases hreg : e.reg <;> simp [Entry.portalReason?, hkept, hbarred, hclosing, hreg]

/-- Settles O26: the frame takes the route that its bearer's kind and its entry give. -/
theorem upFrameToTheShip : Obligations.UpFrameToTheShip := by
  unfold Obligations.UpFrameToTheShip
  refine ⟨fun s p identity payload hs hup hsome hmax hother => exec_upFrame_notOpen hs hup hsome hmax hother,
    fun s p identity payload h e b hs hup hsome hmax hat hport => ?routed, Entry.portalReason?_cases, fun _ _ => rfl⟩
  case routed =>
    have hrouted := exec_upFrame_routed hs hup hsome hmax hat hport
    refine ⟨fun hkind => ?onboard, fun reason hkind hent hreason => ?portal, fun hkind hent hreason => ?isolated⟩
    case onboard =>
      rw [hrouted, hkind, ← hport]
      rfl
    case portal =>
      rw [hrouted, hkind, State.route_shore_portal hent hreason]
      rfl
    case isolated =>
      rw [hrouted, hkind, State.route_shore_isolated hent hreason]
      rfl

/-! ### LOCAL-DOWN -/

section LocalDown
variable {s : State} {identity : Nat} {payload : List Byte} (hs : s.powered = true)
include hs

theorem exec_localDown_delivered {h : Nat} {e : Entry} {b : Bearer} (hat : s.bearerAt identity = some (h, e, b))
    (hup : (s.port e.port).state ≠ .down) (hsome : 1 ≤ payload.length) (hmax : payload.length ≤ 1536) :
    exec (.localDown identity payload) s = .next
      (((s.onBearer h b.slot fun b => { b with fromLocal := b.fromLocal.add payload.length }).countRouter
        fun t => { t with localDelivered := t.localDelivered.add payload.length }).sends
          [.toHead e.port (.downFrame identity payload)]) := by
  have hexec : exec (.localDown identity payload) s = execLocalDown identity payload s := rfl
  have hfit : ((s.port e.port).listening && decide (1 ≤ payload.length) &&
      decide (payload.length ≤ Limits.maxPayload)) = true := by
    rw [Bool.and_assoc, payloadFits_iff.2 ⟨hsome, hmax⟩]
    simpa [CellPort.listening] using hup
  rw [hexec, execLocalDown, whenPowered_on _ hs]
  simp only [hat, if_pos hfit]
  exact congrArg Host.Outcome.next (State.toHead_up _ hup)

theorem exec_localDown_discarded (hunfit : ∀ h e b, s.bearerAt identity = some (h, e, b) →
    (s.port e.port).state = .down ∨ payload.length = 0 ∨ 1536 < payload.length) :
    exec (.localDown identity payload) s =
      .next (s.countRouter fun t => { t with localDiscards := t.localDiscards.add payload.length }) := by
  have hexec : exec (.localDown identity payload) s = execLocalDown identity payload s := rfl
  rw [hexec, execLocalDown, whenPowered_on _ hs]
  cases hat : s.bearerAt identity with
  | none => rfl
  | some x =>
    obtain ⟨h, e, b⟩ := x
    refine congrArg Host.Outcome.next (if_neg fun hfit => ?_)
    rw [Bool.and_assoc, Bool.and_eq_true, payloadFits_iff, CellPort.listening, bne_iff_ne] at hfit
    obtain ⟨hup, hsome, hmax⟩ := hfit
    obtain hdown | hempty | hlong := hunfit h e b hat
    · exact hup hdown
    · omega
    · omega

end LocalDown

/-- Settles O28: the head's port and the payload's length decide. -/
theorem localDownlink : Obligations.LocalDownlink := by
  unfold Obligations.LocalDownlink
  intro s identity payload hs n
  exact ⟨fun h e b hat hup hsome hmax => exec_localDown_delivered hs hat hup hsome hmax, exec_localDown_discarded hs⟩

/-! ### SHORE-DOWN -/

/-- A SHORE-DOWN at the bearer that its identity names: discarded under the first of three totals, or delivered to the head
and metered for a PASSENGER (R71, R72). -/
def State.deliverDown (s : State) (h : Nat) (e : Entry) (b : Bearer) (identity : Nat) (token : Token)
    (payload : List Byte) : State :=
  if e.token ≠ token then s.countRouter fun t => { t with downStaleBearer := t.downStaleBearer.add payload.length }
  else if b.kind = .onboard then s.countRouter fun t => { t with downWrongKind := t.downWrongKind.add payload.length }
  else if s.entitled e = false then
    s.countRouter fun t => { t with downNotEntitled := addAt 7 payload.length t.downNotEntitled (downCause e) }
  else
    let delivered := ((s.onBearer h b.slot fun b => { b with fromShore := b.fromShore.add payload.length }).countRouter
      fun t => { t with downDelivered := t.downDelivered.add payload.length }).toHead e.port (.downFrame identity payload)
    if e.cls = .passenger then
      delivered.makeAddition { handle := h, attach := e.attach, dir := .downlink, bytes := payload.length }
    else delivered

section ShoreDown
variable {s : State} {l : Fin 4} {identity : Nat} {payload : List Byte} (token : Token) (hs : s.powered = true)
include hs

/-- A record on a link that does not take it is out-of-state (R80). -/
theorem exec_shoreDown_outOfState (htakes : s.takes l = false) : exec (.shoreDown l identity token payload) s =
    .next (s.countLink l fun c => { c with outOfState := bump32 c.outOfState }) := by
  have hexec : exec (.shoreDown l identity token payload) s = execShoreDown l identity token payload s := rfl
  rw [hexec, execShoreDown, whenPowered_on _ hs, State.onShoreRecord, htakes]
  rfl

variable (htakes : s.takes l = true) (hsome : 1 ≤ payload.length) (hmax : payload.length ≤ 1536)
include htakes hsome hmax

theorem exec_shoreDown_notOpen (hnone : s.bearerAt identity = none) : exec (.shoreDown l identity token payload) s =
    .next (s.countRouter fun t => { t with downNotOpen := t.downNotOpen.add payload.length }) := by
  have hexec : exec (.shoreDown l identity token payload) s = execShoreDown l identity token payload s := rfl
  have hfit : ¬ (decide (payload.length = 0) || decide (Limits.maxPayload < payload.length)) = true := by
    rw [payloadUnfit_iff]
    omega
  rw [hexec, execShoreDown, whenPowered_on _ hs, State.onShoreRecord, if_pos htakes, if_neg hfit]
  simp only [hnone]

theorem exec_shoreDown_open {h : Nat} {e : Entry} {b : Bearer} (hat : s.bearerAt identity = some (h, e, b)) :
    exec (.shoreDown l identity token payload) s = .next (s.deliverDown h e b identity token payload) := by
  have hexec : exec (.shoreDown l identity token payload) s = execShoreDown l identity token payload s := rfl
  have hfit : ¬ (decide (payload.length = 0) || decide (Limits.maxPayload < payload.length)) = true := by
    rw [payloadUnfit_iff]
    omega
  rw [hexec, execShoreDown, whenPowered_on _ hs, State.onShoreRecord, if_pos htakes, if_neg hfit]
  simp only [hat, bne_iff_ne, beq_iff_eq, Bool.not_eq_true', State.deliverDown]

end ShoreDown

/-- What reaches an entitled subscriber's SHORE bearer under its own token is delivered (R71, R72). -/
theorem State.deliverDown_delivered {s : State} {e : Entry} {b : Bearer} (h identity : Nat) (payload : List Byte)
    (hkind : b.kind = .shore) (hent : s.entitled e = true) (hup : (s.port e.port).state ≠ .down) :
    s.deliverDown h e b identity e.token payload =
      let delivered := ((s.onBearer h b.slot fun b => { b with fromShore := b.fromShore.add payload.length }).countRouter
        fun t => { t with downDelivered := t.downDelivered.add payload.length }).sends
          [.toHead e.port (.downFrame identity payload)]
      if e.cls = .passenger then
        delivered.makeAddition { handle := h, attach := e.attach, dir := .downlink, bytes := payload.length }
      else delivered := by
  have hsent (f : Bearer → Bearer) (g : RouterTotals → RouterTotals) (r : HeadRecord) :
      ((s.onBearer h b.slot f).countRouter g).toHead e.port r = ((s.onBearer h b.slot f).countRouter g).sends
        [.toHead e.port r] := State.toHead_up _ hup
  simp [State.deliverDown, hkind, hent, hsent]

/-- Settles O29: the tests of R71 in their order, and the delivery of R72. -/
theorem shoreDownlink : Obligations.ShoreDownlink := by
  unfold Obligations.ShoreDownlink
  intro s l identity token payload hs hsome hmax n counted
  refine ⟨fun htakes => exec_shoreDown_outOfState token hs htakes,
    fun htakes hnone => exec_shoreDown_notOpen token hs htakes hsome hmax hnone, fun h e b htakes hat => ?opened⟩
  case opened =>
    have hopen := exec_shoreDown_open token hs htakes hsome hmax hat
    refine ⟨fun htoken => ?stale, fun htoken hkind => ?wrongKind, fun htoken hkind hent => ?notEntitled,
      fun htoken hkind hent hup => ?delivered⟩
    case stale => exact hopen.trans (congrArg _ (if_pos htoken))
    case wrongKind =>
      refine hopen.trans (congrArg _ ?_)
      rw [State.deliverDown, if_neg (not_not_intro htoken), if_pos hkind]
      rfl
    case notEntitled =>
      have hshore : b.kind ≠ .onboard := by simp [hkind]
      refine hopen.trans (congrArg _ ?_)
      rw [State.deliverDown, if_neg (not_not_intro htoken), if_neg hshore, if_pos hent]
      rfl
    case delivered =>
      subst htoken
      rw [hopen, State.deliverDown_delivered h identity payload hkind hent hup]
      by_cases hcls : e.cls = .passenger
      · simp only [if_pos hcls]
        rfl
      · simp only [if_neg hcls]
        rfl

end Sys2Proof.Machine
end

