-- ==== Sys2Proof/Proofs/ShoreFrames.lean ====
section
/-! SUPPORT. Frames routed SHORE: straight to the ACTIVE link, or into the swap store, which may hold the ports or shed what
it holds (R34, R35, R69, R70, R73, R112, R149). -/

namespace Sys2Proof.Machine

/-! ### The store hold condition begins -/

/-- A RADIATING port is sent HOLD, and its hold flag is set (R34). -/
def State.holdRadiating (p : Fin 6) (s : State) : State :=
  if (s.port p).state == .radiating then s.sendHold p else s

theorem State.holdRadiating_radiating {p : Fin 6} {s : State} (hradiates : (s.port p).state = .radiating) :
    s.holdRadiating p = (s.onPort p fun q => { q with hold := true }).sends [.toHead p .hold] := by
  have hup : (s.port p).state ≠ .down := by simp [hradiates]
  rw [State.holdRadiating, hradiates, State.sendHold_up hup]
  rfl

theorem State.holdRadiating_silent {p : Fin 6} {s : State} (hsilent : (s.port p).state ≠ .radiating) :
    s.holdRadiating p = s := by
  rw [State.holdRadiating, if_neg (by simpa using hsilent)]

/-- A port that radiates, held. -/
def CellPort.held (q : CellPort) : CellPort := { q with hold := q.hold || decide (q.state = .radiating) }

@[simp] theorem CellPort.held_held (q : CellPort) : q.held.held = q.held := by
  by_cases hradiates : q.state = .radiating <;> simp [CellPort.held, hradiates]

theorem State.holdRadiating_port (p q : Fin 6) (s : State) :
    (s.holdRadiating p).port q = if p = q then (s.port q).held else s.port q := by
  by_cases hradiates : (s.port p).state = .radiating
  · have hports : (s.holdRadiating p).port q = (s.onPort p fun q => { q with hold := true }).port q := by
      rw [State.holdRadiating_radiating hradiates]
      rfl
    rw [hports, State.port_onPort]
    by_cases hq : p = q
    · subst hq
      simp [CellPort.held, hradiates]
    · simp [hq]
  · rw [State.holdRadiating_silent hradiates]
    by_cases hq : p = q
    · subst hq
      simp [CellPort.held, hradiates]
    · simp [hq]

theorem State.holdRadiating_frame (p : Fin 6) (s : State) : s.holdRadiating p =
    { s with cpc := { s.cpc with ports := (s.holdRadiating p).cpc.ports }, sent := (s.holdRadiating p).sent } := by
  by_cases hradiates : (s.port p).state = .radiating
  · rw [State.holdRadiating_radiating hradiates]
    rfl
  · rw [State.holdRadiating_silent hradiates]

/-- The ports of a list that radiate. -/
def State.radiators (s : State) (l : List (Fin 6)) : List (Fin 6) := l.filter fun p => decide ((s.port p).state = .radiating)

/-- Ports held in turn: each that radiates is sent its HOLD in the list's order, and its flag is set. -/
theorem State.holdEach (l : List (Fin 6)) (s : State) :
    (s.eachOf l State.holdRadiating).sent = s.sent ++ (s.radiators l).map (.toHead · .hold) ∧
      (∀ q, (s.eachOf l State.holdRadiating).port q = if q ∈ l then (s.port q).held else s.port q) ∧
      s.eachOf l State.holdRadiating = { s with
        cpc := { s.cpc with ports := (s.eachOf l State.holdRadiating).cpc.ports },
        sent := (s.eachOf l State.holdRadiating).sent } := by
  induction l generalizing s with
  | nil => exact ⟨(List.append_nil _).symm, fun q => rfl, rfl⟩
  | cons p l ih =>
    obtain ⟨hsent, hports, hframe⟩ := ih (s.holdRadiating p)
    rw [State.eachOf_cons]
    refine ⟨?_, fun q => ?_, ?_⟩
    · have hsame : (s.holdRadiating p).radiators l = s.radiators l := by
        refine List.filter_congr fun q _ => ?_
        rw [State.holdRadiating_port]
        split <;> rfl
      rw [hsent, hsame]
      by_cases hradiates : (s.port p).state = .radiating
      · simp [State.holdRadiating_radiating hradiates, State.radiators, hradiates, State.sends]
      · simp [State.holdRadiating_silent hradiates, State.radiators, hradiates]
    · rw [hports, State.holdRadiating_port]
      by_cases hq : p = q
      · subst hq
        simp
      · simp [hq, Ne.symm hq]
    · rw [hframe, State.holdRadiating_frame p s]

/-- The condition begins at 393,216 bytes, and every RADIATING port is held (R34). -/
theorem State.reportRise_begins {s : State} (hhigh : 393216 ≤ occupancy s.sws.frames) (hclear : s.cpc.storeHold = false) :
    s.reportRise = (s.onCpc fun c => { c with storeHold := true }).eachOf allPorts State.holdRadiating := by
  have hbegins : (decide (Limits.holdBegins ≤ occupancy s.sws.frames) && !s.cpc.storeHold) = true := by
    rw [hclear, Bool.not_false, Bool.and_true]
    exact decide_eq_true hhigh
  rw [State.reportRise, if_pos hbegins]
  rfl

/-- Below that level, or while the condition stands, a rise changes nothing. -/
theorem State.reportRise_stays {s : State} (h : occupancy s.sws.frames < 393216 ∨ s.cpc.storeHold = true) :
    s.reportRise = s := by
  unfold State.reportRise
  refine if_neg fun hbegins => ?_
  obtain ⟨hhigh, hclear⟩ := Bool.and_eq_true_iff.1 hbegins
  have hlevel := of_decide_eq_true hhigh
  exact h.elim (fun hlow => Nat.not_le.2 hlow hlevel) (fun hhold => by simp [hhold] at hclear)

/-- A rise touches the ports and what has been sent, and nothing else. -/
theorem State.reportRise_frame (s : State) :
    s.reportRise = { s with cpc := s.reportRise.cpc, sent := s.reportRise.sent } := by
  by_cases hbegins : 393216 ≤ occupancy s.sws.frames ∧ s.cpc.storeHold = false
  · obtain ⟨hhigh, hclear⟩ := hbegins
    obtain ⟨_, _, hframe⟩ := State.holdEach allPorts (s.onCpc fun c => { c with storeHold := true })
    rw [State.reportRise_begins hhigh hclear]
    generalize State.eachOf allPorts State.holdRadiating _ = t at hframe ⊢
    rw [hframe]
    rfl
  · rw [State.reportRise_stays ((not_and_or.1 hbegins).imp Nat.not_le.1 Bool.eq_true_of_not_eq_false)]

/-! ### Shedding -/

@[simp] theorem occupancy_nil : occupancy [] = 0 := rfl

@[simp] theorem occupancy_cons (f : StoredFrame) (l : List StoredFrame) :
    occupancy (f :: l) = f.payload.length + occupancy l := by
  simp [occupancy]

@[simp] theorem occupancy_append (l m : List StoredFrame) : occupancy (l ++ m) = occupancy l + occupancy m := by
  simp [occupancy]

/-- Where the frame fits nothing is shed. -/
theorem State.shedFor_fits {len : Nat} {s : State} (n : Nat) (hfits : occupancy s.sws.frames + len ≤ 524288) :
    s.shedFor len n = s := by
  cases n with
  | zero => rfl
  | succ n => exact if_pos hfits

/-- One frame shed leaves the store's head out and is counted; the frame's loss is its entry's (R112). -/
theorem State.shedHead_sws {s : State} {f : StoredFrame} {rest : List StoredFrame} (hframes : s.sws.frames = f :: rest) :
    s.shedHead.sws.frames = rest ∧
      s.shedHead.sws.counters = { s.sws.counters with shed := s.sws.counters.shed.add f.payload.length } := by
  rw [State.shedHead_eq hframes, State.raiseLoss_sws]
  exact ⟨rfl, rfl⟩

theorem State.shedHead_frame (s : State) : s.shedHead = { s with
    table := s.shedHead.table, slm := s.shedHead.slm, sws := s.shedHead.sws, rtu := s.shedHead.rtu } := by
  cases hframes : s.sws.frames with
  | nil =>
    have hsame : s.shedHead = s := by rw [State.shedHead, hframes]
    rw [hsame]
  | cons f rest =>
    rw [State.shedHead_eq hframes, State.raiseLoss_frame]
    rfl

theorem State.shedAll_frame (n : Nat) (s : State) : s.shedAll n = { s with
    table := (s.shedAll n).table, slm := (s.shedAll n).slm, sws := (s.shedAll n).sws, rtu := (s.shedAll n).rtu } := by
  induction n generalizing s with
  | zero => rfl
  | succ n ih =>
    rw [State.shedAll, ih, State.shedHead_frame s]

/-- Frames are shed from the head while the new one does not fit, and no more of them (R112). -/
theorem State.shedFor_sheds {len n : Nat} {shed kept : List StoredFrame} {s : State} (hframes : s.sws.frames = shed ++ kept)
    (hfuel : shed.length ≤ n) (hfits : occupancy kept + len ≤ 524288)
    (hneeded : ∀ before f, shed = before ++ [f] → 524288 < occupancy (f :: kept) + len) :
    s.shedFor len n = s.shedAll shed.length := by
  induction shed generalizing s n with
  | nil => exact State.shedFor_fits n (by rw [hframes]; exact hfits)
  | cons f shed ih =>
    obtain ⟨n, rfl⟩ : ∃ m, n = m + 1 := ⟨n - 1, by simp only [List.length_cons] at hfuel; omega⟩
    have hfull : ¬ occupancy s.sws.frames + len ≤ 524288 := by
      have hlast := hneeded _ _ (List.dropLast_append_getLast (List.cons_ne_nil f shed)).symm
      have hsplit : occupancy (f :: shed) = occupancy (f :: shed).dropLast +
          ((f :: shed).getLast (List.cons_ne_nil f shed)).payload.length := by
        conv_lhs => rw [← List.dropLast_append_getLast (List.cons_ne_nil f shed)]
        rw [occupancy_append, occupancy_cons, occupancy_nil, Nat.add_zero]
      rw [occupancy_cons] at hlast
      rw [hframes, occupancy_append, hsplit]
      omega
    have hstep : s.shedFor len (n + 1) = s.shedHead.shedFor len n := if_neg hfull
    rw [hstep, ih (State.shedHead_sws hframes).1 (Nat.le_of_succ_le_succ hfuel)
      fun before g hg => hneeded (f :: before) g (by rw [hg]; rfl)]
    rfl

/-- The frames shed leave the store and are counted, each of them (R112). -/
theorem State.shedAll_sws {shed kept : List StoredFrame} {s : State} (hframes : s.sws.frames = shed ++ kept) :
    (s.shedAll shed.length).sws.frames = kept ∧ (s.shedAll shed.length).sws.counters = { s.sws.counters with
      shed := shed.foldl (fun c f => c.add f.payload.length) s.sws.counters.shed } := by
  induction shed generalizing s with
  | nil => exact ⟨hframes, rfl⟩
  | cons f shed ih =>
    obtain ⟨hrest, hcounted⟩ := State.shedHead_sws hframes
    obtain ⟨hkept, hcounters⟩ := ih hrest
    exact ⟨hkept, hcounters.trans (by rw [hcounted]; rfl)⟩

/-! ### Losses of an entry -/

/-- Whether a stored frame is one of the life (`k`, `a`). -/
def StoredFrame.ofLife (k a : Nat) (f : StoredFrame) : Bool := f.handle == k && f.attach == a

/-- A loss is the entry's when the frame is of its life, and leaves every other entry as it was (R149). -/
theorem State.raiseLoss_entry? {k h a : Nat} {x : Entry} {s : State} (hx : s.entry? k = some x) :
    (s.raiseLoss h a).entry? k = some (if h = k ∧ a = x.attach then x.lost else x) := by
  by_cases hown : h = k ∧ a = x.attach
  · obtain ⟨rfl, rfl⟩ := hown
    have hlife : s.life? h x.attach = some x := by simp [State.life?, hx, Option.filter]
    rw [State.raiseLoss_entry hlife, if_pos ⟨rfl, rfl⟩]
  · rw [if_neg hown]
    cases hlife : s.life? h a with
    | none => rw [State.raiseLoss_dead hlife, hx]
    | some e =>
      obtain ⟨he, hattach⟩ := Option.filter_eq_some_iff.1 hlife
      have hother : h ≠ k := by
        rintro rfl
        obtain rfl : e = x := Option.some.inj (he.symm.trans hx)
        exact hown ⟨rfl, (beq_iff_eq.1 hattach).symm⟩
      rw [State.entry?, State.raiseLoss_table hlife]
      exact (State.entry?_onEntry h k _ s).trans (by rw [if_neg hother, hx])

theorem State.shedHead_entry? {k : Nat} {x : Entry} {f : StoredFrame} {rest : List StoredFrame} {s : State}
    (hframes : s.sws.frames = f :: rest) (hx : s.entry? k = some x) :
    s.shedHead.entry? k = some (if f.ofLife k x.attach = true then x.lost else x) := by
  rw [State.shedHead_eq hframes, State.raiseLoss_entry? (s := s.shedding f rest) hx]
  simp [StoredFrame.ofLife]

/-- An entry has lost those of the shed frames that were of its life. -/
theorem State.shedAll_entry? {k : Nat} {x : Entry} {shed kept : List StoredFrame} {s : State}
    (hframes : s.sws.frames = shed ++ kept) (hx : s.entry? k = some x) :
    (s.shedAll shed.length).entry? k = some (Entry.lost^[shed.countP (StoredFrame.ofLife k x.attach)] x) := by
  induction shed generalizing s x with
  | nil => exact hx
  | cons f shed ih =>
    have hrest := (State.shedHead_sws hframes).1
    have hhead := State.shedHead_entry? hframes hx
    cases hown : f.ofLife k x.attach with
    | true =>
      rw [hown, if_pos rfl] at hhead
      rw [List.countP_cons_of_pos hown, Function.iterate_succ_apply]
      exact ih hrest hhead
    | false =>
      rw [hown, if_neg Bool.false_ne_true] at hhead
      rw [List.countP_cons_of_neg (by simp [hown])]
      exact ih hrest hhead

/-- Each loss raises the count by 1, to 65,535 at most (R149). -/
theorem Entry.lost_iterate_storeLoss (n : Nat) {x : Entry} (hx : x.storeLoss ≤ 65535) :
    (Entry.lost^[n] x).storeLoss = min 65535 (x.storeLoss + n) := by
  induction n generalizing x with
  | zero => exact (Nat.min_eq_right hx).symm
  | succ n ih =>
    have hlost : x.lost.storeLoss = min 65535 (x.storeLoss + 1) := rfl
    rw [Function.iterate_succ_apply, ih (by omega), hlost]
    omega

theorem Entry.lost_iterate_period (n : Nat) {x : Entry} {q : Period} (hq : x.period = some q) (hle : q.storeLoss ≤ 65535) :
    (Entry.lost^[n] x).period = some { q with storeLoss := min 65535 (q.storeLoss + n) } := by
  induction n generalizing x q with
  | zero =>
    have hsame : min 65535 (q.storeLoss + 0) = q.storeLoss := Nat.min_eq_right hle
    rw [hsame]
    exact hq
  | succ n ih =>
    have hlost : x.lost.period = some { q with storeLoss := min 65535 (q.storeLoss + 1) } := by
      rw [Entry.lost, hq]
      rfl
    have hsum : min 65535 (min 65535 (q.storeLoss + 1) + n) = min 65535 (q.storeLoss + (n + 1)) := by omega
    rw [Function.iterate_succ_apply, ih hlost (by simp), hsum]

/-! ### A frame enters the store -/

/-- The store with a frame more at its tail, counted (R112). -/
def State.stored (f : StoredFrame) (s : State) : State :=
  s.onSws fun w => { w with
    frames := w.frames ++ [f],
    counters := { w.counters with
      entered := w.counters.entered.add f.payload.length, peak := max w.counters.peak (occupancy (w.frames ++ [f])) } }

theorem State.storeFrame_eq (f : StoredFrame) (s : State) : s.storeFrame f =
    ((s.shedFor f.payload.length s.sws.frames.length).reportFall.stored f).reportRise := rfl

theorem State.stored_occupancy (f : StoredFrame) (s : State) :
    occupancy (s.stored f).sws.frames = occupancy s.sws.frames + f.payload.length := by
  simp [State.stored]

/-- With room for it a frame sheds nothing, and no fall is to be reported. -/
theorem State.storeFrame_fits {f : StoredFrame} {s : State} (hfits : occupancy s.sws.frames + f.payload.length ≤ 524288)
    (hkeeps : 262144 < occupancy s.sws.frames ∨ s.cpc.storeHold = false) :
    s.storeFrame f = (s.stored f).reportRise := by
  rw [State.storeFrame_eq, State.shedFor_fits _ hfits, State.reportFall_stays hkeeps]

/-- Without room for it a frame sheds those frames from the head that it needs. -/
theorem State.storeFrame_sheds {f : StoredFrame} {shed kept : List StoredFrame} {s : State}
    (hframes : s.sws.frames = shed ++ kept) (hfits : occupancy kept + f.payload.length ≤ 524288)
    (hneeded : ∀ before g, shed = before ++ [g] → 524288 < occupancy (g :: kept) + f.payload.length) :
    s.storeFrame f = ((s.shedAll shed.length).reportFall.stored f).reportRise := by
  have hfuel : shed.length ≤ s.sws.frames.length := by simp [hframes]
  rw [State.storeFrame_eq, State.shedFor_sheds hframes hfuel hfits hneeded]

/-- The reports of a fall and of a rise touch the ports and what has been sent, and nothing else. -/
theorem State.reports_frame (f : StoredFrame) (s : State) : (s.reportFall.stored f).reportRise = { s.stored f with
    cpc := (s.reportFall.stored f).reportRise.cpc, sent := (s.reportFall.stored f).reportRise.sent } := by
  have hfall (u : State) : { s.reportFall.stored f with cpc := u.cpc, sent := u.sent } =
      { s.stored f with cpc := u.cpc, sent := u.sent } := by
    rw [State.reportFall_frame]
    rfl
  exact (State.reportRise_frame _).trans (hfall _)

/-! ### The way to shore -/

/-- The ACTIVE link takes a frame at once: no swap is in progress, the store is empty and the modem is ready (R69). -/
theorem State.sendShore_straight {s : State} {l : Fin 4} (h identity : Nat) (e : Entry) (payload : List Byte)
    (hlink : s.activeLink? = some l) (hswap : s.slm.swap.inProgress = false) (hempty : s.sws.frames = [])
    (hready : (s.link l).modemReady = true) (hwaiting : (s.link l).waiting = []) :
    s.sendShore h e identity payload =
      let direct := (s.countRouter fun t => { t with upDirect := t.upDirect.add payload.length }).sends
        [.toShore l (.shoreUp identity e.token payload)]
      if e.cls = .passenger then
        direct.makeAddition { handle := h, attach := e.attach, dir := .uplink, bytes := payload.length }
      else direct := by
  simp only [State.sendShore, hlink, hswap, hempty, Link.free, hready, hwaiting]
  rfl

/-- An entry's frame as the swap store holds it (R112). -/
def Entry.storedFrame (e : Entry) (h identity : Nat) (payload : List Byte) : StoredFrame :=
  { identity := identity, handle := h, attach := e.attach, payload := payload }

/-- Otherwise the frame goes into the swap store (R69). -/
theorem State.sendShore_stored {s : State} (h identity : Nat) (e : Entry) (payload : List Byte)
    (hbusy : s.activeLink? = none ∨ s.slm.swap.inProgress = true ∨ s.sws.frames ≠ [] ∨
      ∃ l, s.activeLink? = some l ∧ ((s.link l).modemReady = false ∨ (s.link l).waiting ≠ [])) :
    s.sendShore h e identity payload =
      (s.countRouter fun t => { t with upStored := t.upStored.add payload.length }).storeFrame
        (e.storedFrame h identity payload) := by
  cases hlink : s.activeLink? with
  | none =>
    simp only [State.sendShore, hlink]
    rfl
  | some l =>
    have hcannot : (!s.slm.swap.inProgress && s.sws.frames.isEmpty && (s.link l).free) = false := by
      obtain hnone | hswap | hframes | ⟨k, hk, hmodem⟩ := hbusy
      · simp [hnone] at hlink
      · simp [hswap]
      · simp [hframes]
      · obtain rfl : k = l := Option.some.inj (hk.symm.trans hlink)
        obtain hunready | hwaiting := hmodem
        · simp [Link.free, hunready]
        · simp [Link.free, hwaiting]
    simp only [State.sendShore, hlink, hcannot]
    rfl

/-- A frame for the store, counted against its bearer and its route. -/
def State.bound (h slot len : Nat) (s : State) : State :=
  (s.onBearer h slot fun b => { b with upShore := b.upShore.add len }).countRouter
    fun t => { t with upStored := t.upStored.add len }

theorem State.bound_entry? {k : Nat} {x : Entry} (h slot len : Nat) {s : State} (hx : s.entry? k = some x) :
    ∃ bearers, (s.bound h slot len).entry? k = some { x with bearers := bearers } := by
  have hread : (s.bound h slot len).entry? k = if h = k then (s.entry? k).map _ else s.entry? k :=
    State.entry?_onEntry h k _ s
  rw [hread, hx]
  split
  · exact ⟨_, rfl⟩
  · exact ⟨x.bearers, rfl⟩

section Shore
variable {s : State} {p : Fin 6} {identity : Nat} {payload : List Byte} {h : Nat} {e : Entry} {b : Bearer}
  (hs : s.powered = true) (hup : (s.port p).state ≠ .down) (hsome : 1 ≤ payload.length) (hmax : payload.length ≤ 1536)
  (hat : s.bearerAt identity = some (h, e, b)) (hport : e.port = p) (hkind : b.kind = .shore) (hent : s.entitled e = true)
include hs hup hsome hmax hat hport hkind hent

theorem exec_upFrame_shore : exec (.upFrame p identity payload) s = .next
    ((s.onBearer h b.slot fun b => { b with upShore := b.upShore.add payload.length }).sendShore h e identity payload) := by
  rw [exec_upFrame_routed hs hup hsome hmax hat hport, hkind, State.route_shore_entitled hent]
  rfl

theorem exec_upFrame_stored (hbusy : s.activeLink? = none ∨ s.slm.swap.inProgress = true ∨ s.sws.frames ≠ [] ∨
      ∃ l, s.activeLink? = some l ∧ ((s.link l).modemReady = false ∨ (s.link l).waiting ≠ [])) :
    exec (.upFrame p identity payload) s =
      .next ((s.bound h b.slot payload.length).storeFrame (e.storedFrame h identity payload)) := by
  have hstored := State.sendShore_stored
    (s := s.onBearer h b.slot fun b => { b with upShore := b.upShore.add payload.length }) h identity e payload hbusy
  rw [exec_upFrame_shore hs hup hsome hmax hat hport hkind hent, hstored]
  rfl

/-- With room for it the frame is stored behind what waits, and a rise is reported (R34, R112). -/
theorem exec_upFrame_fits (hbusy : s.activeLink? = none ∨ s.slm.swap.inProgress = true ∨ s.sws.frames ≠ [] ∨
      ∃ l, s.activeLink? = some l ∧ ((s.link l).modemReady = false ∨ (s.link l).waiting ≠ []))
    (hfits : occupancy s.sws.frames + payload.length ≤ 524288)
    (hkeeps : 262144 < occupancy s.sws.frames ∨ s.cpc.storeHold = false) :
    exec (.upFrame p identity payload) s =
      .next ((s.bound h b.slot payload.length).stored (e.storedFrame h identity payload)).reportRise := by
  have hroom := State.storeFrame_fits (f := e.storedFrame h identity payload) (s := s.bound h b.slot payload.length)
    hfits hkeeps
  rw [exec_upFrame_stored hs hup hsome hmax hat hport hkind hent hbusy, hroom]

/-- Without room for it the frame enters behind what the frames shed from the head leave (R112). -/
theorem exec_upFrame_sheds {shed kept : List StoredFrame} (hframes : s.sws.frames = shed ++ kept)
    (hfull : 524288 < occupancy s.sws.frames + payload.length) (hfits : occupancy kept + payload.length ≤ 524288)
    (hneeded : ∀ before f, shed = before ++ [f] → 524288 < occupancy (f :: kept) + payload.length) :
    exec (.upFrame p identity payload) s = .next ((((s.bound h b.slot payload.length).shedAll shed.length).reportFall.stored
      (e.storedFrame h identity payload)).reportRise) := by
  have hnonempty : s.sws.frames ≠ [] := by
    intro hnil
    rw [hnil, occupancy_nil] at hfull
    omega
  have hsheds := State.storeFrame_sheds (f := e.storedFrame h identity payload) (s := s.bound h b.slot payload.length)
    hframes hfits hneeded
  rw [exec_upFrame_stored hs hup hsome hmax hat hport hkind hent (.inr (.inr (.inl hnonempty))), hsheds]

end Shore

/-- Settles O27: straight to the link, or into the store with room, at the hold level, and behind what is shed. -/
theorem upFrameToShore : Obligations.UpFrameToShore := by
  unfold Obligations.UpFrameToShore
  refine ⟨fun s p identity payload h e b l hs hup hsome hmax hat hport hkind hent hlink hswap hempty hready hwaiting =>
      ?straight,
    fun s p identity payload h e b hs hup hsome hmax hat hport hkind hent hbusy hlevel => ?roomy,
    fun s t p identity payload h e b hs hup hsome hmax hat hport hkind hent hframes hclear hhigh hfits hexec => ?holds,
    fun s p identity payload h e b shed kept hs hup hsome hmax hat hport hkind hent hhold hframes hfull hfits hneeded =>
      ?sheds⟩
  case straight =>
    have hstraight := State.sendShore_straight
      (s := s.onBearer h b.slot fun b => { b with upShore := b.upShore.add payload.length }) h identity e payload hlink
      hswap hempty hready hwaiting
    rw [exec_upFrame_shore hs hup hsome hmax hat hport hkind hent, hstraight]
    by_cases hcls : e.cls = .passenger
    · simp only [if_pos hcls]
      rfl
    · simp only [if_neg hcls]
      rfl
  case roomy =>
    intro n frame
    have hfits : occupancy s.sws.frames + n ≤ 524288 := by omega
    have hkeeps : 262144 < occupancy s.sws.frames ∨ s.cpc.storeHold = false := by
      obtain ⟨hclear, _⟩ | ⟨_, habove, _⟩ := hlevel
      · exact .inr hclear
      · exact .inl habove
    have hlow : occupancy ((s.bound h b.slot n).stored (e.storedFrame h identity payload)).sws.frames < 393216 ∨
        ((s.bound h b.slot n).stored (e.storedFrame h identity payload)).cpc.storeHold = true := by
      rw [State.stored_occupancy]
      obtain ⟨_, hbelow⟩ | ⟨hhold, _⟩ := hlevel
      · exact .inl hbelow
      · exact .inr hhold
    rw [exec_upFrame_fits hs hup hsome hmax hat hport hkind hent hbusy hfits hkeeps, State.reportRise_stays hlow,
      State.stored, State.onSws, occupancy_append, occupancy_cons, occupancy_nil]
    rfl
  case holds =>
    have hlevel :
        393216 ≤ occupancy ((s.bound h b.slot payload.length).stored (e.storedFrame h identity payload)).sws.frames := by
      rw [State.stored_occupancy]
      exact hhigh
    rw [exec_upFrame_fits hs hup hsome hmax hat hport hkind hent (.inr (.inr (.inl hframes))) hfits (.inr hclear),
      State.reportRise_begins hlevel hclear] at hexec
    obtain ⟨hsent, hports, hframe⟩ := State.holdEach allPorts
      (((s.bound h b.slot payload.length).stored (e.storedFrame h identity payload)).onCpc
        fun c => { c with storeHold := true })
    rw [Host.Outcome.next.inj hexec] at hsent hports hframe
    refine ⟨by rw [hframe]; rfl, ?_, fun q => ?_, hsent⟩
    · rw [hframe]
      exact State.stored_occupancy _ (s.bound h b.slot payload.length)
    · rw [hports, if_pos (mem_allPorts q)]
      rfl
  case sheds =>
    have hexec := exec_upFrame_sheds hs hup hsome hmax hat hport hkind hent hframes hfull hfits hneeded
    obtain ⟨hkept, hcounters⟩ := State.shedAll_sws (s := s.bound h b.slot payload.length) hframes
    have hshed := State.shedAll_frame shed.length (s.bound h b.slot payload.length)
    refine ⟨_, hexec, ?frames, ?shed, ?entered, ?additions, fun k x hx hle => ?losses, fun habove => ?quiet⟩
    case frames =>
      rw [State.reports_frame, State.stored, State.onSws_sws, hkept]
      rfl
    case shed =>
      rw [State.reports_frame, State.stored, State.onSws_sws, hcounters]
      rfl
    case entered =>
      rw [State.reports_frame, State.stored, State.onSws_sws, hcounters]
      rfl
    case additions =>
      rw [State.reports_frame, State.stored, State.onSws_router, hshed]
      rfl
    case losses =>
      obtain ⟨bearers, hbound⟩ := State.bound_entry? h b.slot payload.length hx
      refine ⟨_, ?_, Entry.lost_iterate_storeLoss _ (x := { x with bearers := bearers }) hle,
        fun q hq hqle => Entry.lost_iterate_period _ (x := { x with bearers := bearers }) hq hqle⟩
      rw [State.reports_frame]
      exact State.shedAll_entry? (s := s.bound h b.slot payload.length) hframes hbound
    case quiet =>
      rw [State.reportFall_stays (.inl (by rw [hkept]; exact habove)), State.reportRise_stays (.inr ?_), State.stored]
      · rw [State.onSws_cpc, State.onSws_sent, hshed]
        exact ⟨rfl, rfl⟩
      · rw [State.stored, State.onSws_cpc, hshed]
        exact hhold

end Sys2Proof.Machine
end

