-- ==== Sys2Proof/Proofs/Modems.lean ====
section
/-! SUPPORT. What a modem takes from its port: echoes, the store's head frame, a MOVE and any other record (R73, R81 to R83,
R89, R99, R113). -/

namespace Sys2Proof.Machine

/-! ### One link after another change of it -/

theorem State.onLink_onLink (l : Fin 4) (f g : Link → Link) (s : State) :
    (s.onLink l f).onLink l g = s.onLink l fun k => g (f k) := by
  simp [State.onLink, State.onSlm]

/-- A change of a link puts what it makes of the link as it stands in the link's place. -/
theorem State.onLink_eq {l : Fin 4} {f : Link → Link} {s : State} {k : Link} (h : f (s.link l) = k) :
    s.onLink l f = { s with slm := { s.slm with links := s.slm.links.set l k } } := by
  rw [← h]
  rfl

/-! ### Echoes -/

/-- A link whose modem has taken an echo at `now`: the next sequence, the echo's window, the count of what is sent, and the
next probe echo 100 ms later while any is left of the probe (R82, R83, R89). -/
def Link.echoTaken (purpose : Purpose) (due now : Nat) (k : Link) : Link :=
  let isOpen := purpose == .probe || due == k.keepDue
  { k with
    echoSeq := bump16 k.echoSeq,
    openEchoes := if isOpen then k.openEchoes ++ [⟨k.echoSeq, purpose, now⟩] else k.openEchoes,
    closedEchoes := k.closedEchoes.filter (fun c => c.1 != k.echoSeq) ++ (if isOpen then [] else [(k.echoSeq, purpose)]),
    probe := if purpose = .probe then k.probe.map fun p => { p with sent := p.sent + 1 } else k.probe,
    nextEcho := match purpose, k.probe with
      | .probe, some p => if p.sent + 1 < p.echoes then some (now + 100) else none
      | _, _ => k.nextEcho,
    counters := match purpose with
      | .probe => { k.counters with probeSent := bump32 k.counters.probeSent }
      | .keepalive => { k.counters with keepSent := bump32 k.counters.keepSent } }

theorem State.takeEcho_eq (l : Fin 4) (purpose : Purpose) (due : Nat) (s : State) : s.takeEcho l purpose due =
    (s.onLink l (Link.echoTaken purpose due s.mli.clock)).emit (.toShore l (.echo l.val (s.link l).echoSeq purpose)) := by
  cases purpose <;> rfl

/-- An echo of a standing probe: its window opens, and the next is timed from it (R82, R83). -/
theorem Link.echoTaken_probe {k : Link} {p : Probe} (due now : Nat) (hprobe : k.probe = some p) :
    k.echoTaken .probe due now = { k with
      echoSeq := bump16 k.echoSeq, openEchoes := k.openEchoes ++ [⟨k.echoSeq, .probe, now⟩],
      closedEchoes := k.closedEchoes.filter (fun c => c.1 != k.echoSeq), probe := some { p with sent := p.sent + 1 },
      nextEcho := if p.sent + 1 < p.echoes then some (now + 100) else none,
      counters := { k.counters with probeSent := bump32 k.counters.probeSent } } := by
  simp [Link.echoTaken, hprobe]

/-- A keepalive that is the last due: its window opens (R82, R89). -/
theorem Link.echoTaken_keepalive (now : Nat) (k : Link) :
    k.echoTaken .keepalive k.keepDue now = { k with
      echoSeq := bump16 k.echoSeq, openEchoes := k.openEchoes ++ [⟨k.echoSeq, .keepalive, now⟩],
      closedEchoes := k.closedEchoes.filter (fun c => c.1 != k.echoSeq),
      counters := { k.counters with keepSent := bump32 k.counters.keepSent } } := by
  cases hprobe : k.probe <;> simp [Link.echoTaken, hprobe]

/-! ### Other records -/

theorem State.modemTakes_plain {r : ShoreRecord} (l : Fin 4) (s : State) (hr : ∀ n, r ≠ .move n) :
    s.modemTakes l (.plain r) = s.emit (.toShore l r) := by
  cases r with
  | move n => exact absurd rfl (hr n)
  | _ => rfl

/-- The MOVE of the swap that goes to the link sets its MOVE-sent flag (R99). -/
theorem State.modemTakes_move {l : Fin 4} {s : State} (hto : s.slm.swap.toLink = some l) :
    s.modemTakes l (.plain (.move s.slm.swap.number)) =
      (s.onSlm fun m => { m with swap := { m.swap with moveSent := true } }).emit
        (.toShore l (.move s.slm.swap.number)) := by
  simp [State.modemTakes, State.emit, State.onSlm, hto]

/-- A stored frame handed off while no store hold stands: counted, and metered for a living PASSENGER (R70, R73, R113). -/
theorem State.handOffStored_clear {s : State} {f : StoredFrame} {frames : List StoredFrame} (l : Fin 4) (token : Token)
    (hframes : s.sws.frames = f :: frames) (hclear : s.cpc.storeHold = false) :
    let n := f.payload.length
    let handed := { s.router.totals with handOffs := s.router.totals.handOffs.add n }
    s.handOffStored l token = { s with
      sws := { s.sws with
        frames := frames, offered := false,
        counters := { s.sws.counters with handedOff := s.sws.counters.handedOff.add n } },
      router := if (s.life? f.handle f.attach).map (·.cls) = some .passenger then
          { s.router with
            totals := { handed with meteredUp := s.router.totals.meteredUp.add n },
            additions := s.router.additions ++ [⟨f.handle, f.attach, .uplink, n⟩] }
        else { s.router with totals := handed },
      sent := s.sent ++ [.toShore l (.shoreUp f.identity token f.payload)] } := by
  have hlife (x : Sent) (w : SwapStore → SwapStore) (r : Router → Router) :
      (((s.popFrame.emit x).onSws w).onRouter r).life? f.handle f.attach = s.life? f.handle f.attach := rfl
  intro n handed
  unfold State.handOffStored
  rw [hframes]
  dsimp only
  rw [hlife, State.reportFall_stays (.inr ?clear)]
  case clear =>
    repeat' split
    all_goals exact hclear
  cases he : s.life? f.handle f.attach with
  | none => simp [State.popFrame, State.emit, State.onSws, State.onRouter, hframes, n, handed]
  | some e =>
    by_cases hclass : e.cls = .passenger
    · simp [State.popFrame, State.emit, State.onSws, State.onRouter, State.makeAddition, hframes, hclass, n, handed]
    · simp [State.popFrame, State.emit, State.onSws, State.onRouter, hframes, hclass, n, handed]

/-! ### The modem's reports -/

/-- The link whose modem has become ready and takes the record waiting first, `rest` staying. -/
abbrev Link.served (rest : List Waiting) (k : Link) : Link := { k with modemReady := true, waiting := rest }

theorem exec_modemReady {s : State} {l : Fin 4} {w : Waiting} {rest : List Waiting} (hs : s.powered = true)
    (hwaiting : (s.link l).waiting = w :: rest) :
    exec (.modemReady l) s = .next ((s.onLink l (Link.served rest)).modemTakes l w) := by
  have hfirst : ((s.onLink l fun k => { k with modemReady := true }).link l).waiting = w :: rest := by
    rw [State.link_onLink, if_pos rfl]
    exact hwaiting
  have hexec : exec (.modemReady l) s = execModemReady l s := rfl
  rw [hexec, execModemReady]
  rw [whenPowered_on (s := s.onLink l fun k => { k with modemReady := true }) _ hs, hfirst]
  dsimp only
  rw [State.onLink_onLink]

theorem exec_modemReady_idle {s : State} {l : Fin 4} (hs : s.powered = true) (hwaiting : (s.link l).waiting = []) :
    exec (.modemReady l) s = .next (s.onLink l fun k => { k with modemReady := true }) := by
  have hnone : ((s.onLink l fun k => { k with modemReady := true }).link l).waiting = [] := by
    rw [State.link_onLink, if_pos rfl]
    exact hwaiting
  have hexec : exec (.modemReady l) s = execModemReady l s := rfl
  rw [hexec, execModemReady]
  rw [whenPowered_on (s := s.onLink l fun k => { k with modemReady := true }) _ hs, hnone]

/-- Settles O31: the record waiting first, by its kind. -/
theorem modemTakesTheFirstRecord : Obligations.ModemTakesTheFirstRecord := by
  unfold Obligations.ModemTakesTheFirstRecord
  intro s l hs
  refine ⟨fun hwaiting => exec_modemReady_idle hs hwaiting, fun r rest hwaiting hr => ?plain,
    fun purpose due rest hwaiting => ?echo, fun token rest f frames hwaiting hframes hclear => ?frame,
    fun n rest hwaiting hto hnumber => ?move, rfl⟩
  case plain =>
    rw [exec_modemReady hs hwaiting, State.modemTakes_plain _ _ hr]
    rfl
  case echo =>
    have htakes (u : State) : u.modemTakes l (.echo purpose due) = u.takeEcho l purpose due := rfl
    rw [exec_modemReady hs hwaiting, htakes, State.takeEcho_eq, State.onLink_onLink, State.link_onLink, if_pos rfl]
    cases purpose <;> rfl
  case frame =>
    have htakes (u : State) : u.modemTakes l (.storeFrame token) = u.handOffStored l token := rfl
    have hhands := State.handOffStored_clear (s := s.onLink l (Link.served rest)) l token hframes hclear
    rw [exec_modemReady hs hwaiting, htakes, hhands]
    rfl
  case move =>
    subst hnumber
    have htakes := State.modemTakes_move (s := s.onLink l (Link.served rest)) hto
    exact (exec_modemReady hs hwaiting).trans (congrArg _ htakes)

end Sys2Proof.Machine
end

