-- ==== Sys2Proof/Proofs/Echoes.lean ====
section
/-! SUPPORT. Probe echoes that fall due, and ECHO-BACKs (R80 to R84, R89). -/

namespace Sys2Proof.Machine

/-! ### Timers and ports -/

/-- A timer whose moment has come acts. -/
theorem State.atExpiry_due {t : Nat} {s : State} (act : State → State) (hdue : t ≤ s.mli.clock) :
    s.atExpiry t act = act s := if_neg (Nat.not_lt.2 hdue)

theorem Link.free_of_idle {k : Link} (hready : k.modemReady = true) (hwaiting : k.waiting = []) : k.free = true := by
  simp [Link.free, hready, hwaiting]

theorem Link.not_free_of_unready {k : Link} (hready : k.modemReady = false) : k.free = false := by
  simp [Link.free, hready]

/-- A free modem takes what falls due at once (R81). -/
theorem State.offer_taken {l : Fin 4} {s : State} (w : Waiting) (hfree : (s.link l).free = true) :
    s.offer l w = s.modemTakes l w := if_pos hfree

/-! ### A probe echo falls due -/

section Due
variable {s : State} {l : Fin 4} {due : Nat} (hs : s.powered = true) (hstate : (s.link l).state = .probing)
  (hnext : (s.link l).nextEcho = some due) (hdue : due ≤ s.mli.clock)
include hs hstate hnext hdue

theorem exec_probeEchoDue : exec (.probeEchoDue l) s = .next
    ((s.onLink l fun k => { k with nextEcho := none }).offer l (.echo .probe 0)) := by
  have hexec : exec (.probeEchoDue l) s = execProbeEchoDue l s := rfl
  rw [hexec, execProbeEchoDue, whenPowered_on _ hs]
  simp only [hstate, hnext]
  rw [State.atExpiry_due _ hdue]

theorem exec_probeEchoDue_taken (hready : (s.link l).modemReady = true) (hwaiting : (s.link l).waiting = []) :
    exec (.probeEchoDue l) s = .next
      ((s.onLink l fun k => Link.echoTaken .probe 0 s.mli.clock { k with nextEcho := none }).emit
        (.toShore l (.echo l.val (s.link l).echoSeq .probe))) := by
  have hlink : (s.onLink l fun k => { k with nextEcho := none }).link l = { s.link l with nextEcho := none } := by
    rw [State.link_onLink, if_pos rfl]
  have hfree : ((s.onLink l fun k => { k with nextEcho := none }).link l).free = true := by
    rw [hlink]
    exact Link.free_of_idle hready hwaiting
  have htakes (u : State) : u.modemTakes l (.echo .probe 0) = u.takeEcho l .probe 0 := rfl
  rw [exec_probeEchoDue hs hstate hnext hdue, State.offer_taken _ hfree, htakes, State.takeEcho_eq, State.onLink_onLink,
    hlink]
  rfl

theorem exec_probeEchoDue_waits (hready : (s.link l).modemReady = false) :
    exec (.probeEchoDue l) s = .next
      (s.onLink l fun k => { k with nextEcho := none, waiting := k.waiting ++ [.echo .probe 0] }) := by
  have hbusy : ((s.onLink l fun k => { k with nextEcho := none }).link l).free = false := by
    rw [State.link_onLink, if_pos rfl]
    exact Link.not_free_of_unready hready
  rw [exec_probeEchoDue hs hstate hnext hdue, State.offer_waits _ hbusy, State.onLink_onLink]

end Due

/-! ### ECHO-BACKs -/

/-- A link in a state that takes an ECHO-BACK (R80). -/
abbrev Link.echoes (k : Link) : Prop := k.state = .probing ∨ k.state = .ready ∨ k.state = .active

/-- The probe with one answer more, after `rtt`. -/
def Probe.answer (rtt : Nat) (p : Probe) : Probe := { p with answered := p.answered + 1, rttSum := p.rttSum + rtt }

/-- A link one of whose probe echoes has been answered after `rtt` (R82, R84). -/
def Link.probeAnswered (seq rtt : Nat) (k : Link) : Link :=
  { k with
    openEchoes := k.openEchoes.filter fun o => o.seq != seq,
    probe := k.probe.map (Probe.answer rtt),
    counters := { k.counters with probeAnswered := bump32 k.counters.probeAnswered } }

theorem State.answered_probe {s : State} {l : Fin 4} {p : Probe} (seq rtt : Nat) (hprobe : (s.link l).probe = some p) :
    ((s.onLink l (Link.probeAnswered seq rtt)).link l).probe = some (p.answer rtt) := by
  rw [State.link_onLink, if_pos rfl, Link.probeAnswered, hprobe]
  rfl

theorem exec_echoBack_outOfState {s : State} {l : Fin 4} (number seq : Nat) (purpose : Purpose) (hs : s.powered = true)
    (hstate : (s.link l).state = .absent ∨ (s.link l).state = .draining) :
    exec (.echoBack l number seq purpose) s = .next
      (s.countLink l fun c => { c with outOfState := bump32 c.outOfState }) := by
  have hexec : exec (.echoBack l number seq purpose) s = execEchoBack l number seq purpose s := rfl
  rw [hexec, execEchoBack, whenPowered_on _ hs]
  obtain habsent | hdraining := hstate
  · simp only [habsent]
    rfl
  · simp only [hdraining]
    rfl

/-- What an ECHO-BACK of the link's own number does on a link that takes it: it answers its open echo, or is counted as late
or stale (R82, R84, R89). -/
def State.echoLookedUp (l : Fin 4) (seq : Nat) (purpose : Purpose) (s : State) : State :=
  match s.matchEcho l seq purpose, purpose with
  | some o, .probe => (s.onLink l (Link.probeAnswered seq (s.mli.clock - o.sentAt))).judgeProbe l
  | some _, .keepalive => s.onLink l fun k => { k with
      openEchoes := k.openEchoes.filter fun o => o.seq != seq, keepAnswered := some true, misses := 0 }
  | none, _ =>
    if s.echoClosed l seq purpose then s.countLink l fun c => { c with late := bump32 c.late }
    else s.countLink l fun c => { c with stale := bump32 c.stale }

theorem exec_echoBack {s : State} {l : Fin 4} (seq : Nat) (purpose : Purpose) (hs : s.powered = true)
    (htakes : (s.link l).echoes) :
    exec (.echoBack l l.val seq purpose) s = .next (s.echoLookedUp l seq purpose) := by
  have hexec : exec (.echoBack l l.val seq purpose) s = execEchoBack l l.val seq purpose s := rfl
  have hlooked : execEchoBack l l.val seq purpose s = whenPowered s fun s => s.echoLookedUp l seq purpose := by
    unfold execEchoBack whenPowered State.echoLookedUp
    obtain h | h | h := htakes
    all_goals
      simp only [h, Bool.not_true, Bool.false_eq_true, if_false, bne_self_eq_false]
      cases s.matchEcho l seq purpose <;> cases purpose <;> rfl
  rw [hexec, hlooked, whenPowered_on _ hs]

theorem State.matchEcho_none {s : State} {l : Fin 4} {seq : Nat} {purpose : Purpose}
    (hopen : ∀ o ∈ (s.link l).openEchoes, ¬ (o.seq = seq ∧ o.purpose = purpose)) : s.matchEcho l seq purpose = none := by
  refine List.find?_eq_none.2 fun o ho hmatch => hopen o ho ?_
  simp only [Bool.and_eq_true, beq_iff_eq] at hmatch
  exact hmatch.1

/-- With no such echo open, the echo's window has closed when it stands among the closed ones (R82). -/
theorem State.echoClosed_iff {s : State} {l : Fin 4} {seq : Nat} {purpose : Purpose}
    (hopen : ∀ o ∈ (s.link l).openEchoes, ¬ (o.seq = seq ∧ o.purpose = purpose)) :
    s.echoClosed l seq purpose = true ↔ (seq, purpose) ∈ (s.link l).closedEchoes := by
  have hnone : ((s.link l).openEchoes.any fun o => o.seq == seq && o.purpose == purpose) = false := by
    simpa using hopen
  simp [State.echoClosed, hnone]

theorem State.echoLookedUp_unmatched {s : State} {l : Fin 4} {seq : Nat} {purpose : Purpose}
    (hopen : ∀ o ∈ (s.link l).openEchoes, ¬ (o.seq = seq ∧ o.purpose = purpose)) :
    s.echoLookedUp l seq purpose = if (seq, purpose) ∈ (s.link l).closedEchoes then
      s.countLink l fun c => { c with late := bump32 c.late } else s.countLink l fun c => { c with stale := bump32 c.stale } := by
  simp only [State.echoLookedUp, State.matchEcho_none hopen, State.echoClosed_iff hopen]

theorem State.echoLookedUp_probe {s : State} {l : Fin 4} {seq : Nat} {o : OpenEcho}
    (hmatch : s.matchEcho l seq .probe = some o) :
    s.echoLookedUp l seq .probe = (s.onLink l (Link.probeAnswered seq (s.mli.clock - o.sentAt))).judgeProbe l := by
  simp only [State.echoLookedUp, hmatch]

theorem State.echoLookedUp_keepalive {s : State} {l : Fin 4} {seq : Nat} {o : OpenEcho}
    (hmatch : s.matchEcho l seq .keepalive = some o) :
    s.echoLookedUp l seq .keepalive = s.onLink l fun k => { k with
      openEchoes := k.openEchoes.filter fun o => o.seq != seq, keepAnswered := some true, misses := 0 } := by
  simp only [State.echoLookedUp, hmatch]

/-! ### The judgement of a probe -/

/-- A probe with no more echoes timed out than it tolerates, and echoes left to send, goes on (R84). -/
theorem State.judgeProbe_goesOn {s : State} {l : Fin 4} {p : Probe} (hprobe : (s.link l).probe = some p)
    (htolerated : p.timedOut ≤ p.tolerated) (hleft : p.sent < p.echoes) : s.judgeProbe l = s := by
  have hunsent : ¬ p.sent = p.echoes := Nat.ne_of_lt hleft
  simp [State.judgeProbe, hprobe, Nat.not_lt.2 htolerated, hunsent]

/-- Settles O32: a probe echo at a free and at an unready modem, then the ECHO-BACKs by what they find. -/
theorem echoesAreMatched : Obligations.EchoesAreMatched := by
  unfold Obligations.EchoesAreMatched
  refine ⟨fun s l due p hs hstate hnext hdue hprobe => ?due, fun s l seq hs => ?back⟩
  case due =>
    refine ⟨fun hready hwaiting => ?_, fun hready => exec_probeEchoDue_waits hs hstate hnext hdue hready⟩
    have htaken := Link.echoTaken_probe 0 s.mli.clock (k := { s.link l with nextEcho := none }) hprobe
    rw [exec_probeEchoDue_taken hs hstate hnext hdue hready hwaiting, State.onLink_eq htaken]
    rfl
  case back =>
    refine ⟨fun purpose n hstate => ?outOfState, fun purpose htakes hopen => ⟨fun hclosed => ?late, fun hclosed => ?stale⟩,
      fun o p hstate hmatch hprobe htolerated hleft => ?probe, fun o hstate hmatch => ?keepalive⟩
    case outOfState => exact exec_echoBack_outOfState n seq purpose hs hstate
    case late =>
      rw [exec_echoBack seq purpose hs htakes, State.echoLookedUp_unmatched hopen, if_pos hclosed]
      rfl
    case stale =>
      rw [exec_echoBack seq purpose hs htakes, State.echoLookedUp_unmatched hopen, if_neg hclosed]
      rfl
    case probe =>
      have hanswered := State.answered_probe seq (s.mli.clock - o.sentAt) hprobe
      rw [exec_echoBack seq .probe hs (.inl hstate), State.echoLookedUp_probe hmatch,
        State.judgeProbe_goesOn hanswered htolerated hleft, State.onLink_eq rfl, Link.probeAnswered, hprobe]
      rfl
    case keepalive =>
      rw [exec_echoBack seq .keepalive hs (.inr (.inr hstate)), State.echoLookedUp_keepalive hmatch]
      rfl

end Sys2Proof.Machine
end

