-- ==== Sys2Proof/Proofs/SwapBegins.lean ====
section
/-! SUPPORT. What selection can do to the swap manager, and a swap that begins (R92, R94, R99). -/

namespace Sys2Proof.Machine

/-! ### A record of the part's own at a port -/

/-- A modem that takes such a record changes no link. -/
theorem State.modemTakes_plain_slm (l : Fin 4) (r : ShoreRecord) (s : State) :
    (s.modemTakes l (.plain r)).slm = { s.slm with swap := (s.modemTakes l (.plain r)).slm.swap } := by
  cases r with
  | move n =>
    simp only [State.modemTakes, State.onSlm_slm]
    split <;> rfl
  | _ => rfl

theorem State.offer_plain_slm (l : Fin 4) (r : ShoreRecord) (s : State) : (s.offer l (.plain r)).slm =
    { s.slm with links := (s.offer l (.plain r)).slm.links, swap := (s.offer l (.plain r)).slm.swap } := by
  unfold State.offer
  split
  · rw [State.modemTakes_plain_slm]
  · rfl

/-- It may wait at its own link's port; nothing else of a link changes. -/
theorem State.offer_plain_link (l k : Fin 4) (r : ShoreRecord) (s : State) : (s.offer l (.plain r)).link k =
    if l = k then { s.link k with waiting := ((s.offer l (.plain r)).link k).waiting } else s.link k := by
  cases hfree : (s.link l).free with
  | true =>
    have hlink : (s.offer l (.plain r)).link k = s.link k := by
      rw [State.offer_taken _ hfree, State.link, State.modemTakes_plain_slm]
      rfl
    rw [hlink, ite_self]
  | false =>
    rw [State.offer_waits _ hfree, State.link_onLink]
    split
    · next h => rw [h]
    · rfl

/-- The MOVE of the swap that goes to the link is sent or waits, and its MOVE-sent flag follows (R99). -/
theorem State.offer_move {l : Fin 4} {s : State} {n : Nat} (hto : s.slm.swap.toLink = some l) (hn : s.slm.swap.number = n) :
    (s.offer l (.plain (.move n))).slm.swap =
        { s.slm.swap with moveSent := if (s.link l).free then true else s.slm.swap.moveSent } ∧
      (s.offer l (.plain (.move n))).sent = s.sent ++ if (s.link l).free then [.toShore l (.move n)] else [] := by
  subst hn
  cases hfree : (s.link l).free with
  | true =>
    rw [State.offer_taken _ hfree, State.modemTakes_move hto]
    exact ⟨rfl, rfl⟩
  | false =>
    rw [State.offer_waits _ hfree]
    exact ⟨rfl, (List.append_nil _).symm⟩

/-! ### A swap begins -/

/-- A link that has taken state `new` at `now` (R77, R86, R88, R89, R106). -/
def Link.entered (new : LinkState) (now guardTime : Nat) (k : Link) : Link :=
  { k with
    state := new, probe := none, openEchoes := [], keepAnswered := none,
    misses := if new = .active then 0 else k.misses,
    nextEcho := if new = .active then some (now + 1000) else none,
    holddownAt := if new = .holddown then some (now + k.holddownTime * 1000) else none,
    reprobeAt := if new = .ready then some (now + k.reprobeTime * 1000) else none,
    guardAt := if new = .draining then some (now + guardTime) else none }

theorem State.enterState_eq (l : Fin 4) (new : LinkState) (s : State) :
    s.enterState l new = s.onLink l (Link.entered new s.mli.clock s.slm.guardTime) := rfl

/-- The record of a swap to link `l` that begins now (R98, R99). -/
def State.swapTo (l : Fin 4) (planned : Bool) (s : State) : Swap :=
  { inProgress := true, number := bump16 s.slm.swap.number, planned := some planned,
    fromLink := if planned then s.activeLink? else none, toLink := some l, moveSent := (s.link l).free,
    startedAt := s.mli.clock, ackExpiry := some (s.mli.clock + s.slm.moveAckTimer),
    lastOutcome := s.slm.swap.lastOutcome }

/-- The swap begun, before its MOVE is given to the link. -/
def State.swapOpened (l : Fin 4) (planned : Bool) (s : State) : State :=
  let t := (s.returnBatch .swapBegan).onSlm fun m => { m with
    settle := none, swap := { s.swapTo l planned with moveSent := false },
    counters := if planned then { m.counters with begunPlanned := bump32 m.counters.begunPlanned }
      else { m.counters with begunUnplanned := bump32 m.counters.begunUnplanned } }
  (t.enterState l .joining).linkChanged l (s.link l).reported .joining .swap

theorem State.beginSwap_eq (l : Fin 4) (planned : Bool) (s : State) :
    s.beginSwap l planned = (s.swapOpened l planned).offer l (.plain (.move (bump16 s.slm.swap.number))) := rfl

theorem State.swapOpened_slm (l : Fin 4) (planned : Bool) (s : State) : (s.swapOpened l planned).slm = { s.slm with
    links := s.slm.links.set l ((s.link l).entered .joining s.mli.clock s.slm.guardTime),
    settle := none, swap := { s.swapTo l planned with moveSent := false },
    counters := if planned then { s.slm.counters with begunPlanned := bump32 s.slm.counters.begunPlanned }
      else { s.slm.counters with begunUnplanned := bump32 s.slm.counters.begunUnplanned } } := by
  unfold State.swapOpened State.linkChanged
  rw [State.raise_frame]
  rfl

theorem State.swapOpened_link (l k : Fin 4) (planned : Bool) (s : State) : (s.swapOpened l planned).link k =
    if l = k then (s.link k).entered .joining s.mli.clock s.slm.guardTime else s.link k := by
  have hlink : (s.swapOpened l planned).link k =
      (s.onLink l (Link.entered .joining s.mli.clock s.slm.guardTime)).link k := by
    rw [State.link, State.swapOpened_slm]
    rfl
  rw [hlink, State.link_onLink]
  split
  · next h => rw [h]
  · rfl

theorem State.swapOpened_sent (l : Fin 4) (planned : Bool) (s : State) : (s.swapOpened l planned).sent = s.sent := by
  unfold State.swapOpened State.linkChanged
  rw [State.raise_frame]
  rfl

theorem State.swapOpened_free (l : Fin 4) (planned : Bool) (s : State) :
    ((s.swapOpened l planned).link l).free = (s.link l).free := by
  rw [State.swapOpened_link, if_pos rfl]
  rfl

/-- A swap that begins: its record, and its MOVE sent or waiting (R99). -/
theorem State.beginSwap_swap (l : Fin 4) (planned : Bool) (s : State) :
    (s.beginSwap l planned).slm.swap = s.swapTo l planned ∧
      (s.beginSwap l planned).sent =
        s.sent ++ if (s.link l).free then [.toShore l (.move (bump16 s.slm.swap.number))] else [] := by
  have hswap : (s.swapOpened l planned).slm.swap = { s.swapTo l planned with moveSent := false } := by
    rw [State.swapOpened_slm]
  obtain ⟨hrecord, hsent⟩ := State.offer_move (l := l) (s := s.swapOpened l planned) (n := bump16 s.slm.swap.number)
    (by rw [hswap]; rfl) (by rw [hswap]; rfl)
  rw [State.beginSwap_eq, hrecord, hsent, State.swapOpened_free, State.swapOpened_sent, hswap]
  cases hfree : (s.link l).free <;> simp [State.swapTo, hfree]

/-- What a swap that begins leaves of the swap manager. -/
theorem State.beginSwap_slm (l : Fin 4) (planned : Bool) (s : State) : (s.beginSwap l planned).slm = { s.slm with
    links := (s.beginSwap l planned).slm.links, settle := none, swap := (s.beginSwap l planned).slm.swap,
    counters := { s.slm.counters with
      begunPlanned := (s.beginSwap l planned).slm.counters.begunPlanned,
      begunUnplanned := (s.beginSwap l planned).slm.counters.begunUnplanned } } := by
  rw [State.beginSwap_eq, State.offer_plain_slm, State.swapOpened_slm]
  cases planned <;> rfl

/-- The target of a swap that begins is JOINING with a record perhaps waiting, and no other link changes. -/
theorem State.beginSwap_link (l k : Fin 4) (planned : Bool) (s : State) : (s.beginSwap l planned).link k =
    if l = k then { (s.link k).entered .joining s.mli.clock s.slm.guardTime with
      waiting := ((s.beginSwap l planned).link k).waiting } else s.link k := by
  rw [State.beginSwap_eq, State.offer_plain_link, State.swapOpened_link]
  split <;> rfl

/-! ### Selection worked out again -/

/-- Selection sets or clears the settle record, or begins a swap to the desired link: an unplanned one while no link is
ACTIVE, a planned one under a settle time of 0 (R94). -/
theorem State.workOut_cases (s : State) :
    (∃ r, s.workOut = s.onSlm fun m => { m with settle := r }) ∨
    ∃ d, s.desired = some d ∧ s.running = true ∧ s.slm.swap.inProgress = false ∧
      (s.activeLink? = none ∨ s.slm.settleTime = 0) ∧ s.workOut = s.beginSwap d s.activeLink?.isSome := by
  unfold State.workOut
  split
  case isTrue => exact .inl ⟨s.slm.settle, rfl⟩
  case isFalse hrunning =>
  split
  case isTrue => exact .inl ⟨none, rfl⟩
  case isFalse hswap =>
  have hrun : s.running = true := by simpa using hrunning
  have hfree : s.slm.swap.inProgress = false := by simpa using hswap
  split
  case h_1 d hactive hd => exact .inr ⟨d, hd, hrun, hfree, .inl hactive, by rw [hactive]; rfl⟩
  case h_2 => exact .inl ⟨none, rfl⟩
  case h_3 => exact .inl ⟨none, rfl⟩
  case h_4 a d hactive hd =>
    split
    case isTrue => exact .inl ⟨none, rfl⟩
    split
    case isTrue => exact .inl ⟨s.slm.settle, rfl⟩
    split
    case isTrue hzero => exact .inr ⟨d, hd, hrun, hfree, .inr hzero, by rw [hactive]; rfl⟩
    case isFalse => exact .inl ⟨some ⟨d, s.now, s.now + s.slm.settleTime * 1000⟩, by simp only [State.onSlm]⟩

/-- Without an ACTIVE link the desired one becomes the target of an unplanned swap (R94). -/
theorem State.workOut_begins {s : State} {d : Fin 4} (hrun : s.running = true) (hswap : s.slm.swap.inProgress = false)
    (hactive : s.activeLink? = none) (hd : s.desired = some d) : s.workOut = s.beginSwap d false := by
  simp [State.workOut, hrun, hswap, hactive, hd]

/-- Where selection begins no swap it touches the settle record alone: a swap is in progress, no link is desired, or a link is
ACTIVE and the settle time is not 0 (R94). -/
theorem State.workOut_settles {s : State} (h : s.slm.swap.inProgress = true ∨ s.desired = none ∨
    s.activeLink? ≠ none ∧ s.slm.settleTime ≠ 0) : ∃ r, s.workOut = s.onSlm fun m => { m with settle := r } := by
  obtain hsettles | ⟨d, hd, _, hfree, hwhen, _⟩ := s.workOut_cases
  · exact hsettles
  · obtain hswap | hnone | ⟨hactive, hzero⟩ := h
    · rw [hfree] at hswap
      cases hswap
    · rw [hnone] at hd
      cases hd
    · exact absurd hwhen (not_or.2 ⟨hactive, hzero⟩)

/-- What selection leaves of the swap manager. -/
theorem State.workOut_slm (s : State) : s.workOut.slm = { s.slm with
    links := s.workOut.slm.links, settle := s.workOut.slm.settle, swap := s.workOut.slm.swap,
    counters := { s.slm.counters with
      begunPlanned := s.workOut.slm.counters.begunPlanned, begunUnplanned := s.workOut.slm.counters.begunUnplanned } } := by
  obtain ⟨r, h⟩ | ⟨d, _, _, _, _, h⟩ := s.workOut_cases
  · rw [h]
    rfl
  · rw [h, State.beginSwap_slm]

/-- A link that is no candidate does not change when selection is worked out. -/
theorem State.workOut_link {s : State} {l : Fin 4} (hl : (s.link l).candidate = false) : s.workOut.link l = s.link l := by
  obtain ⟨r, h⟩ | ⟨d, hd, _, _, _, h⟩ := s.workOut_cases
  · rw [h]
    rfl
  · have hne : d ≠ l := by
      rintro rfl
      rw [State.desired_candidate hd] at hl
      cases hl
    rw [h, State.beginSwap_link, if_neg hne]

/-- A READY link stays READY or becomes the target of a swap, its probe result and what it owes kept (R94). -/
theorem State.workOut_link_cases (l : Fin 4) (s : State) :
    (s.workOut.link l).lastProbe = (s.link l).lastProbe ∧ (s.workOut.link l).longOwed = (s.link l).longOwed ∧
      ((s.workOut.link l).state = (s.link l).state ∨
        (s.workOut.link l).state = .joining ∧ s.mli.device = .running) := by
  obtain ⟨r, h⟩ | ⟨d, _, hrun, _, _, h⟩ := s.workOut_cases
  · rw [h]
    exact ⟨rfl, rfl, .inl rfl⟩
  · rw [h, State.beginSwap_link]
    split
    · exact ⟨rfl, rfl, .inr ⟨rfl, by simpa [State.running] using hrun⟩⟩
    · exact ⟨rfl, rfl, .inl rfl⟩

/-! ### The settle timer -/

theorem State.link_of_active {s : State} {a : Fin 4} (ha : s.activeLink? = some a) : (s.link a).state = .active := by
  simpa using List.find?_some ha

theorem exec_settleTimerExpiry_early {s : State} {r : Settle} (hs : s.powered = true) (hsettle : s.slm.settle = some r)
    (hearly : s.mli.clock < r.expiry) : exec .settleTimerExpiry s = .next s := by
  have hexec : exec .settleTimerExpiry s = execSettleTimerExpiry s := rfl
  have hwaits (act : State → State) : s.atExpiry r.expiry act = s := if_pos hearly
  rw [hexec, execSettleTimerExpiry, whenPowered_on _ hs, hsettle]
  simp only [hwaits]

/-- The settle record's link, still desired, is handed on (R94). -/
theorem exec_settleTimerExpiry {s : State} {r : Settle} {a : Fin 4} (hs : s.powered = true) (hrun : s.mli.device = .running)
    (hsettle : s.slm.settle = some r) (hdue : r.expiry ≤ s.mli.clock) (hswap : s.slm.swap.inProgress = false)
    (hactive : s.activeLink? = some a) (hdesired : s.desired = some r.link) (hne : a ≠ r.link) :
    exec .settleTimerExpiry s = .next ((s.onSlm fun m => { m with settle := none }).beginSwap r.link true) := by
  have hexec : exec .settleTimerExpiry s = execSettleTimerExpiry s := rfl
  have hstands : (s.running && !s.slm.swap.inProgress && s.activeLink?.isSome && s.desired == some r.link
      && s.activeLink? != some r.link) = true := by
    simp [State.running, hrun, hswap, hactive, hdesired, hne]
  rw [hexec, execSettleTimerExpiry, whenPowered_on _ hs, hsettle]
  simp only [State.atExpiry_due _ hdue]
  exact congrArg _ (if_pos hstands)

/-- Settles O35: the planned swap begins from the ACTIVE link, or the record's own expiry has not come. -/
theorem settleTimerBeginsAPlannedSwap : Obligations.SettleTimerBeginsAPlannedSwap := by
  unfold Obligations.SettleTimerBeginsAPlannedSwap
  refine ⟨fun s r a hs hrun hsettle hdue hswap hactive hdesired hne => ?begins,
    fun s r hs hsettle hearly => exec_settleTimerExpiry_early hs hsettle hearly⟩
  case begins =>
    have hfrom : (s.onSlm fun m => { m with settle := none }).activeLink? = some a := hactive
    obtain ⟨hrecord, hsent⟩ := State.beginSwap_swap r.link true (s.onSlm fun m => { m with settle := none })
    refine ⟨_, exec_settleTimerExpiry hs hrun hsettle hdue hswap hactive hdesired hne, ?settle, ?swap, ?to_, ?from_, hsent⟩
    case settle => rw [State.beginSwap_slm]
    case swap =>
      rw [hrecord, State.swapTo, hfrom]
      rfl
    case to_ =>
      rw [State.beginSwap_link, if_pos rfl]
      rfl
    case from_ =>
      rw [State.beginSwap_link, if_neg hne.symm]
      exact State.link_of_active hactive

end Sys2Proof.Machine
end

