-- ==== Sys2Proof/Proofs/ProbeConclusions.lean ====
section
/-! SUPPORT. A link that leaves for a state that carries nothing, and the conclusion of a probe (R81, R82, R84, R86, R94,
R124). -/

namespace Sys2Proof.Machine

/-! ### A link leaves -/

/-- With no frame offered at a port, shedding the head frame touches no link (R112). -/
theorem State.shedHead_slm {s : State} (hoffered : s.sws.offered = false) : s.shedHead.slm = s.slm := by
  have hstays : s.withdrawOffer = s := by simp [State.withdrawOffer, hoffered]
  unfold State.shedHead
  split
  · rfl
  · dsimp only
    rw [State.raiseLoss_slm, hstays]
    rfl

/-- What waits at a port is dropped: of the swap manager and the in-flight table nothing else changes (R81, R113). -/
theorem State.dropWaiting_slm (l : Fin 4) (failed : Bool) (s : State) :
    (s.dropWaiting l failed).slm = (s.onLink l fun k => { k with waiting := [] }).slm ∧
      (s.dropWaiting l failed).rge = s.rge := by
  unfold State.dropWaiting
  dsimp only
  split
  · split
    · rw [State.reportFall_frame]
      dsimp only
      rw [State.shedHead_slm rfl, State.shedHead_frame]
      exact ⟨rfl, rfl⟩
    · exact ⟨rfl, rfl⟩
  · exact ⟨rfl, rfl⟩

/-- What waits at the port of link `l` dropped, and the batch that it carried as the ACTIVE link returned (R81, R168). -/
def State.cleared (l : Fin 4) (s : State) : State :=
  if (s.link l).state = .active then (s.dropWaiting l ((s.link l).state == .active)).batchLinkLeft l
  else s.dropWaiting l ((s.link l).state == .active)

theorem State.batchLinkLeft_slm (l : Fin 4) (s : State) :
    (s.batchLinkLeft l).slm = s.slm ∧ (s.batchLinkLeft l).rge = s.rge := by
  unfold State.batchLinkLeft
  repeat' split
  all_goals exact ⟨rfl, rfl⟩

theorem State.cleared_slm (l : Fin 4) (s : State) :
    (s.cleared l).slm = (s.onLink l fun k => { k with waiting := [] }).slm ∧ (s.cleared l).rge = s.rge := by
  unfold State.cleared
  split
  · obtain ⟨hslm, hrge⟩ := (s.dropWaiting l ((s.link l).state == .active)).batchLinkLeft_slm l
    rw [hslm, hrge]
    exact s.dropWaiting_slm l _
  · exact s.dropWaiting_slm l _

theorem State.cleared_clock (l : Fin 4) (s : State) : (s.cleared l).mli.clock = s.mli.clock := by
  refine State.clock_of_standing ?_
  unfold State.cleared
  split <;> simp

theorem State.leaveFor_eq (l : Fin 4) (new : LinkState) (cause : LinkCause) (quietly : Bool) (s : State) :
    s.leaveFor l new cause quietly =
      if quietly then ((s.cleared l).enterState l new).requeue l
      else (((s.cleared l).enterState l new).requeue l).linkChanged l (s.link l).reported new cause := rfl

theorem State.onLink_slm_congr {s t : State} (l : Fin 4) (f : Link → Link) (h : t.slm = s.slm) :
    (t.onLink l f).slm = (s.onLink l f).slm := by
  simp only [State.onLink, State.onSlm, h]

/-- What remains of a link that leaves for state `new`: nothing waits at its port (R81). -/
def Link.left (new : LinkState) (now guardTime : Nat) (k : Link) : Link :=
  Link.entered new now guardTime { k with waiting := [] }

/-- The link that leaves changes, and its exchanges leave the in-flight table (R81, R124). -/
theorem State.leaveFor_slm (l : Fin 4) (new : LinkState) (cause : LinkCause) (quietly : Bool) (s : State) :
    (s.leaveFor l new cause quietly).slm = (s.onLink l (Link.left new s.mli.clock s.slm.guardTime)).slm ∧
      (s.leaveFor l new cause quietly).rge.inFlight = s.rge.inFlight.filter fun x => x.link != l := by
  obtain ⟨hslm, hrge⟩ := s.cleared_slm l
  have hentered : (((s.cleared l).enterState l new).requeue l).slm =
        (s.onLink l (Link.left new s.mli.clock s.slm.guardTime)).slm ∧
      (((s.cleared l).enterState l new).requeue l).rge.inFlight = s.rge.inFlight.filter fun x => x.link != l := by
    refine ⟨?_, by rw [← hrge]; rfl⟩
    have hguard : (s.cleared l).slm.guardTime = s.slm.guardTime := by rw [hslm]; rfl
    change ((s.cleared l).enterState l new).slm = _
    rw [State.enterState_eq, State.cleared_clock, hguard, State.onLink_slm_congr l _ hslm, State.onLink_onLink]
    rfl
  rw [State.leaveFor_eq]
  split
  · exact hentered
  · rw [State.linkChanged, State.raise_frame]
    exact hentered

theorem State.leaveFor_link (l k : Fin 4) (new : LinkState) (cause : LinkCause) (quietly : Bool) (s : State) :
    (s.leaveFor l new cause quietly).link k =
      if l = k then (s.link k).left new s.mli.clock s.slm.guardTime else s.link k := by
  have hlink : (s.leaveFor l new cause quietly).link k =
      (s.onLink l (Link.left new s.mli.clock s.slm.guardTime)).link k := by
    rw [State.link, (s.leaveFor_slm l new cause quietly).1]
    rfl
  rw [hlink, State.link_onLink]
  split
  · next h => rw [h]
  · rfl

/-! ### A probe concludes -/

/-- The mean round trip of a probe's answers (R84). -/
def Probe.mean (p : Probe) : Nat := if p.answered = 0 then 0 else p.rttSum / p.answered

/-- A probe passes that was not failed early, with answers enough and a mean within the limit (R84). -/
def Probe.passes (p : Probe) (early : Bool) (limit : Option Nat) : Bool :=
  !early && decide (p.passMark ≤ p.answered) &&
    (match limit with
      | some limit => decide (p.mean ≤ limit)
      | none => false)

/-- A link with the result of its probe: a long one that passes is owed no more (R84, R86). -/
def Link.judged (p : Probe) (passed : Bool) (k : Link) : Link :=
  { k with
    lastProbe := some { long := p.long, passed := passed, answered := p.answered, meanRtt := p.mean },
    longOwed := if passed && p.long then false else k.longOwed,
    counters := match p.long, passed with
      | true, true => { k.counters with longPassed := bump32 k.counters.longPassed }
      | true, false => { k.counters with longFailed := bump32 k.counters.longFailed }
      | false, true => { k.counters with shortPassed := bump32 k.counters.shortPassed }
      | false, false => { k.counters with shortFailed := bump32 k.counters.shortFailed } }

theorem State.concludeProbe_eq (l : Fin 4) (p : Probe) (early : Bool) (s : State) : s.concludeProbe l p early =
    let passed := p.passes early (s.link l).rttLimit
    let t := s.onLink l (Link.judged p passed)
    (if passed then t.leaveFor l .ready .probePass p.fromReady
      else t.leaveFor l .holddown (if p.fromReady then .reprobeFail else .probeFail) false).workOut := rfl

/-- A probe that fails takes its link to HOLDDOWN (R84, R86). -/
theorem State.concludeProbe_fails {s : State} {l : Fin 4} {p : Probe} {early : Bool}
    (hfails : p.passes early (s.link l).rttLimit = false) : (s.concludeProbe l p early).link l =
      ((s.link l).judged p false).left .holddown s.mli.clock s.slm.guardTime := by
  have hleft : ((s.onLink l (Link.judged p false)).leaveFor l .holddown
      (if p.fromReady then .reprobeFail else .probeFail) false).link l =
        ((s.link l).judged p false).left .holddown s.mli.clock s.slm.guardTime := by
    rw [State.leaveFor_link, if_pos rfl, State.link_onLink, if_pos rfl]
    rfl
  rw [State.concludeProbe_eq, hfails]
  dsimp only
  rw [if_neg Bool.false_ne_true, State.workOut_link (by rw [hleft]; rfl), hleft]

/-- A probe that passes makes its link READY, which may at once become the target of a swap (R84, R94). -/
theorem State.concludeProbe_passes {s : State} {l : Fin 4} {p : Probe} {early : Bool}
    (hpasses : p.passes early (s.link l).rttLimit = true) :
    let k := (s.concludeProbe l p early).link l
    k.lastProbe = some ⟨p.long, true, p.answered, p.mean⟩ ∧ k.longOwed = (if p.long then false else (s.link l).longOwed) ∧
      (k.state = .ready ∨ k.state = .joining ∧ s.mli.device = .running) := by
  have hleft : ((s.onLink l (Link.judged p true)).leaveFor l .ready .probePass p.fromReady).link l =
      ((s.link l).judged p true).left .ready s.mli.clock s.slm.guardTime := by
    rw [State.leaveFor_link, if_pos rfl, State.link_onLink, if_pos rfl]
    rfl
  have hdevice : ((s.onLink l (Link.judged p true)).leaveFor l .ready .probePass p.fromReady).mli.device = s.mli.device :=
    congrArg Kept.device (State.leaveFor_kept ..)
  have hcases := State.workOut_link_cases l ((s.onLink l (Link.judged p true)).leaveFor l .ready .probePass p.fromReady)
  rw [hleft, hdevice] at hcases
  rw [State.concludeProbe_eq, hpasses]
  exact hcases

/-! ### When it concludes -/

/-- One echo more timed out than a probe tolerates fails it at once (R84). -/
theorem State.judgeProbe_early {s : State} {l : Fin 4} {p : Probe} (hprobe : (s.link l).probe = some p)
    (hfails : p.tolerated < p.timedOut) : s.judgeProbe l = s.concludeProbe l p true := by
  simp only [State.judgeProbe, hprobe, hfails, if_true]

/-- A probe all of whose echoes are sent and accounted for concludes (R84). -/
theorem State.judgeProbe_complete {s : State} {l : Fin 4} {p : Probe} (hprobe : (s.link l).probe = some p)
    (htolerated : p.timedOut ≤ p.tolerated) (hsent : p.sent = p.echoes) (hall : p.answered + p.timedOut = p.echoes) :
    s.judgeProbe l = s.concludeProbe l p false := by
  simp [State.judgeProbe, hprobe, Nat.not_lt.2 htolerated, hsent, hall]

/-- A complete probe without too many echoes timed out has answers enough, and passes by its mean (R84). -/
theorem Probe.passes_complete {p : Probe} (limit : Nat) (htolerated : p.timedOut ≤ p.tolerated)
    (hall : p.answered + p.timedOut = p.echoes) : p.passes false (some limit) = decide (p.mean ≤ limit) := by
  have henough : p.passMark ≤ p.answered := by
    unfold Probe.passMark
    unfold Probe.tolerated at htolerated
    unfold Probe.echoes at hall
    cases hlong : p.long
    all_goals
      simp only [hlong, Bool.false_eq_true, if_false, if_true] at htolerated hall ⊢
      omega
  simp [Probe.passes, henough]

/-! ### An echo times out -/

/-- A link one of whose probe echoes has timed out (R82, R84). -/
def Link.probeTimedOut (seq : Nat) (k : Link) : Link :=
  { k with
    openEchoes := k.openEchoes.filter fun o => o.seq != seq, closedEchoes := k.closedEchoes ++ [(seq, .probe)],
    probe := k.probe.map fun p => { p with timedOut := p.timedOut + 1 },
    counters := { k.counters with probeTimedOut := bump32 k.counters.probeTimedOut } }

theorem State.timedOut_probe {s : State} {l : Fin 4} {p : Probe} (seq : Nat) (hprobe : (s.link l).probe = some p) :
    ((s.onLink l (Link.probeTimedOut seq)).link l).probe = some { p with timedOut := p.timedOut + 1 } := by
  rw [State.link_onLink, if_pos rfl, Link.probeTimedOut, hprobe]
  rfl

theorem exec_echoWindowEnd {s : State} {l : Fin 4} {seq : Nat} {o : OpenEcho} (hs : s.powered = true)
    (hopen : (s.link l).openEchoes.find? (fun o => o.seq == seq && o.purpose == .probe) = some o)
    (hdue : o.sentAt + 2000 ≤ s.mli.clock) :
    exec (.echoWindowEnd l seq) s = .next ((s.onLink l (Link.probeTimedOut seq)).judgeProbe l) := by
  have hexec : exec (.echoWindowEnd l seq) s = execEchoWindowEnd l seq s := rfl
  rw [hexec, execEchoWindowEnd, whenPowered_on _ hs, hopen]
  exact congrArg _ (State.atExpiry_due _ hdue)

/-- Settles O33: the answer that completes a probe by its mean, and an echo that times out within and beyond tolerance. -/
theorem probeConcludes : Obligations.ProbeConcludes := by
  unfold Obligations.ProbeConcludes
  refine ⟨fun s l seq o p limit hs hstate hmatch hprobe hlimit htolerated hsent hall => ?answered,
    fun s l seq o p hs hstate hopen hdue hprobe => ?timedOut⟩
  case answered =>
    intro mean
    have hanswered := State.answered_probe seq (s.mli.clock - o.sentAt) hprobe
    have hjudged : (s.onLink l (Link.probeAnswered seq (s.mli.clock - o.sentAt))).judgeProbe l =
        (s.onLink l (Link.probeAnswered seq (s.mli.clock - o.sentAt))).concludeProbe l
          (p.answer (s.mli.clock - o.sentAt)) false :=
      State.judgeProbe_complete hanswered htolerated hsent (hall.trans hsent)
    have hlink : (s.onLink l (Link.probeAnswered seq (s.mli.clock - o.sentAt))).link l =
        (s.link l).probeAnswered seq (s.mli.clock - o.sentAt) := by
      rw [State.link_onLink, if_pos rfl]
    have hpasses : (p.answer (s.mli.clock - o.sentAt)).passes false
        ((s.onLink l (Link.probeAnswered seq (s.mli.clock - o.sentAt))).link l).rttLimit = decide (mean ≤ limit) := by
      have hsame : ((s.link l).probeAnswered seq (s.mli.clock - o.sentAt)).rttLimit = some limit := hlimit
      rw [hlink, hsame]
      exact Probe.passes_complete limit htolerated (hall.trans hsent)
    refine ⟨_, (exec_echoBack seq .probe hs (.inl hstate)).trans
      (congrArg _ ((State.echoLookedUp_probe hmatch).trans hjudged)), ?_⟩
    by_cases hmean : mean ≤ limit
    · obtain ⟨hlast, howed, hready⟩ := State.concludeProbe_passes (hpasses.trans (decide_eq_true hmean))
      refine ⟨by rw [hlast, decide_eq_true hmean]; rfl, fun _ => ⟨hready, fun hlong => ?_⟩,
        fun hover => absurd hmean (Nat.not_le.2 hover)⟩
      rw [howed, show (p.answer (s.mli.clock - o.sentAt)).long = true from hlong]
      rfl
    · rw [State.concludeProbe_fails (hpasses.trans (decide_eq_false hmean)), hlink]
      exact ⟨by rw [decide_eq_false hmean]; rfl, fun hwithin => absurd hwithin hmean, fun _ => ⟨rfl, rfl, rfl⟩⟩
  case timedOut =>
    have htimed := State.timedOut_probe seq hprobe
    refine ⟨fun htolerated hleft => ?goesOn, fun hfails => ?fails⟩
    case goesOn =>
      rw [exec_echoWindowEnd hs hopen hdue, State.judgeProbe_goesOn htimed htolerated hleft, State.onLink_eq rfl,
        Link.probeTimedOut, hprobe]
      rfl
    case fails =>
      refine ⟨_, (exec_echoWindowEnd hs hopen hdue).trans (congrArg _ (State.judgeProbe_early htimed hfails)), ?_⟩
      rw [State.concludeProbe_fails rfl, State.link_onLink, if_pos rfl]
      exact ⟨rfl, _, rfl, rfl, rfl, rfl⟩

end Sys2Proof.Machine
end

