-- ==== Sys2Proof/Proofs/ActiveLinkFails.lean ====
section
/-! SUPPORT. The failure of the ACTIVE link, with the isolation and the cut-off it may begin, and its keepalives (R89, R90,
R104, R109, R110, R124). -/

namespace Sys2Proof.Machine

/-! ### The store emptied -/

/-- Withdrawing the store's offer changes the links alone, and no link at whose port nothing waits. -/
theorem State.withdrawOffer_slm (s : State) : s.withdrawOffer.slm = { s.slm with links := s.withdrawOffer.slm.links } := by
  unfold State.withdrawOffer
  split
  · exact State.eachOf_keeps (P := fun t => t.slm = { s.slm with links := t.slm.links }) allLinks
      (f := fun l u => u.onLink l fun k => { k with waiting := withoutOffer k.waiting })
      (fun l _ t ht => by rw [State.onLink, State.onSlm_slm, ht]) rfl
  · rfl

theorem State.withdrawOffer_idle {s : State} {l : Fin 4} (hidle : (s.link l).waiting = []) :
    s.withdrawOffer.link l = s.link l := by
  unfold State.withdrawOffer
  split
  · refine State.eachOf_keeps (P := fun t => t.link l = s.link l) allLinks
      (f := fun l u => u.onLink l fun k => { k with waiting := withoutOffer k.waiting }) (fun a _ t ht => ?_) rfl
    rw [State.link_onLink]
    split
    · next ha =>
      have hnone : withoutOffer (t.link l).waiting = (t.link l).waiting := by
        rw [ht, hidle]
        rfl
      rw [ha, hnone]
      exact ht
    · exact ht
  · rfl

theorem State.shedHead_links (s : State) : s.shedHead.slm = { s.slm with links := s.shedHead.slm.links } := by
  unfold State.shedHead
  split
  · rfl
  · dsimp only
    rw [State.raiseLoss_slm]
    exact s.withdrawOffer_slm

theorem State.shedHead_idle {s : State} {l : Fin 4} (hidle : (s.link l).waiting = []) : s.shedHead.link l = s.link l := by
  unfold State.shedHead
  split
  · rfl
  · dsimp only
    rw [State.link, State.raiseLoss_slm]
    exact State.withdrawOffer_idle hidle

theorem State.shedAll_slm (n : Nat) (s : State) : (s.shedAll n).slm = { s.slm with links := (s.shedAll n).slm.links } := by
  induction n generalizing s with
  | zero => rfl
  | succ n ih => rw [State.shedAll, ih, State.shedHead_links]

theorem State.shedAll_idle {s : State} {l : Fin 4} (n : Nat) (hidle : (s.link l).waiting = []) :
    (s.shedAll n).link l = s.link l := by
  induction n generalizing s with
  | zero => rfl
  | succ n ih =>
    have hhead := State.shedHead_idle hidle
    rw [State.shedAll, ih (by rw [hhead]; exact hidle), hhead]

/-! ### Isolation begins -/

/-- What the cut-off leaves of the swap manager and the roaming engine. -/
theorem State.beginCutOff_slm (s : State) : s.beginCutOff.slm = { s.slm with
      links := (s.shedAll s.sws.frames.length).slm.links, graceAt := none, cutOff := true,
      cutOffShed := s.beginCutOff.slm.cutOffShed,
      counters := { s.slm.counters with cutOffs := bump32 s.slm.counters.cutOffs } } ∧
    s.beginCutOff.rge = s.rge := by
  rw [State.beginCutOff_eq, State.eachOf_sendLevel_frame, State.cutOff, State.reportFall_frame]
  dsimp only [State.onSlm]
  rw [State.shedAll_slm]
  refine ⟨rfl, ?_⟩
  rw [State.shedAll_frame]

theorem State.beginCutOff_idle {s : State} {l : Fin 4} (hidle : (s.link l).waiting = []) :
    s.beginCutOff.link l = s.link l := by
  rw [State.link, s.beginCutOff_slm.1]
  exact State.shedAll_idle _ hidle

/-- Isolation recorded and told of, before its grace is looked at. -/
def State.isolate (lost : Option (Fin 4)) (cause : LossCause) (s : State) : State :=
  let swap := match s.slm.swap.inProgress, s.slm.swap.toLink with
    | true, some t => some (s.slm.swap.number, t)
    | _, _ => none
  (s.onSlm fun m => { m with
    isolated := some s.now, graceAt := some (s.now + m.grace),
    counters := { m.counters with isolations := bump32 m.counters.isolations } }).raise
      (.isolated lost cause swap (occupancy s.sws.frames) s.mli.shipTime 1)

theorem State.beginIsolation_eq (lost : Option (Fin 4)) (cause : LossCause) (s : State) : s.beginIsolation lost cause =
    if (s.isolate lost cause).slm.grace = 0 then (s.isolate lost cause).beginCutOff else s.isolate lost cause := rfl

theorem State.isolate_slm (lost : Option (Fin 4)) (cause : LossCause) (s : State) : (s.isolate lost cause).slm = { s.slm with
      isolated := some s.mli.clock, graceAt := some (s.mli.clock + s.slm.grace),
      counters := { s.slm.counters with isolations := bump32 s.slm.counters.isolations } } ∧
    (s.isolate lost cause).rge = s.rge := by
  unfold State.isolate
  rw [State.raise_frame]
  exact ⟨rfl, rfl⟩

/-- Isolation that begins leaves the swap and its counters, the exchanges, and a link at whose port nothing waits. -/
theorem State.beginIsolation_leaves (lost : Option (Fin 4)) (cause : LossCause) (s : State) :
    (s.beginIsolation lost cause).slm.swap = s.slm.swap ∧
      (s.beginIsolation lost cause).slm.counters.turnedUnplanned = s.slm.counters.turnedUnplanned ∧
      (s.beginIsolation lost cause).rge = s.rge ∧
      ∀ l, (s.link l).waiting = [] → (s.beginIsolation lost cause).link l = s.link l := by
  obtain ⟨hslm, hrge⟩ := s.isolate_slm lost cause
  have hlink (l : Fin 4) : (s.isolate lost cause).link l = s.link l := by
    rw [State.link, hslm]
    rfl
  rw [State.beginIsolation_eq]
  split
  · obtain ⟨hcut, hexchanges⟩ := (s.isolate lost cause).beginCutOff_slm
    refine ⟨?_, ?_, hexchanges.trans hrge, fun l hidle => ?_⟩
    · rw [hcut, hslm]
    · rw [hcut, hslm]
    · rw [State.beginCutOff_idle (by rw [hlink]; exact hidle), hlink]
  · rw [hslm]
    exact ⟨rfl, rfl, hrge, fun l _ => hlink l⟩

/-! ### The ACTIVE link fails -/

/-- A planned swap from link `l` goes on without a from-link, as an unplanned one (R104). -/
def State.turned (l : Fin 4) (s : State) : State :=
  if s.slm.swap.inProgress && s.slm.swap.fromLink == some l then
    s.onSlm fun m => { m with
      swap := { m.swap with fromLink := none, planned := some false },
      counters := { m.counters with turnedUnplanned := bump32 m.counters.turnedUnplanned } }
  else s

theorem State.turned_slm (l : Fin 4) (s : State) : (s.turned l).slm =
    { s.slm with swap := (s.turned l).slm.swap, counters := (s.turned l).slm.counters } := by
  unfold State.turned
  split <;> rfl

theorem State.turned_link (l k : Fin 4) (s : State) : (s.turned l).link k = s.link k := by
  rw [State.link, State.turned_slm]
  rfl

theorem State.turned_from {l : Fin 4} {s : State} (hswap : s.slm.swap.inProgress = true)
    (hfrom : s.slm.swap.fromLink = some l) :
    (s.turned l).slm.swap = { s.slm.swap with fromLink := none, planned := some false } ∧
      (s.turned l).slm.counters.turnedUnplanned = bump32 s.slm.counters.turnedUnplanned := by
  have hwas : (s.slm.swap.inProgress && s.slm.swap.fromLink == some l) = true := by simp [hswap, hfrom]
  rw [State.turned, if_pos hwas]
  exact ⟨rfl, rfl⟩

theorem State.turned_frame (l : Fin 4) (s : State) : s.turned l = { s with slm := (s.turned l).slm } := by
  unfold State.turned
  split <;> rfl

/-- The ACTIVE link gone for state `new`, and the swap turned, before isolation is looked at. -/
def State.activeLeft (l : Fin 4) (new : LinkState) (cause : LossCause) (s : State) : State :=
  (s.leaveFor l new cause.linkCause false).turned l

theorem State.activeFails_eq (l : Fin 4) (new : LinkState) (cause : LossCause) (s : State) :
    s.activeFails l new cause =
      let t := s.activeLeft l new cause
      if t.running && t.activeLink?.isNone && t.slm.isolated.isNone then t.beginIsolation (some l) cause else t := rfl

section Fails
variable (l : Fin 4) (new : LinkState) (cause : LossCause) (s : State)

theorem State.activeLeft_link (k : Fin 4) : (s.activeLeft l new cause).link k =
    if l = k then (s.link k).left new s.mli.clock s.slm.guardTime else s.link k := by
  rw [State.activeLeft, State.turned_link, State.leaveFor_link]

theorem State.activeLeft_mli : (s.activeLeft l new cause).mli.device = s.mli.device ∧
    (s.activeLeft l new cause).mli.clock = s.mli.clock := by
  rw [State.activeLeft, State.turned_frame]
  dsimp only
  exact ⟨congrArg Kept.device (State.leaveFor_kept ..), State.clock_of_standing (State.leaveFor_standing ..)⟩

theorem State.activeLeft_isolated : (s.activeLeft l new cause).slm.isolated = s.slm.isolated := by
  rw [State.activeLeft, State.turned_slm]
  dsimp only
  rw [(s.leaveFor_slm l new cause.linkCause false).1]
  rfl

/-- What the failure leaves of the swap, the exchanges and the links: what is left before isolation is looked at. -/
theorem State.activeFails_leaves :
    (s.activeFails l new cause).slm.swap = (s.activeLeft l new cause).slm.swap ∧
      (s.activeFails l new cause).slm.counters.turnedUnplanned =
        (s.activeLeft l new cause).slm.counters.turnedUnplanned ∧
      (s.activeFails l new cause).rge = (s.activeLeft l new cause).rge ∧
      (s.activeFails l new cause).link l = (s.activeLeft l new cause).link l ∧
      (s.activeFails l new cause).posture = (s.activeLeft l new cause).posture := by
  rw [State.activeFails_eq]
  dsimp only
  split
  · obtain ⟨hswap, hturned, hrge, hlinks⟩ := (s.activeLeft l new cause).beginIsolation_leaves (some l) cause
    refine ⟨hswap, hturned, hrge, hlinks l ?_, State.beginIsolation_posture ..⟩
    rw [State.activeLeft_link, if_pos rfl]
    rfl
  · exact ⟨rfl, rfl, rfl, rfl, rfl⟩

/-- The link that fails is left for its new state (R90). -/
theorem State.activeFails_link : (s.activeFails l new cause).link l =
    (s.link l).left new s.mli.clock s.slm.guardTime := by
  obtain ⟨_, _, _, hlink, _⟩ := State.activeFails_leaves l new cause s
  rw [hlink, State.activeLeft_link, if_pos rfl]

/-- Every other link keeps its state. -/
theorem State.activeFails_state {k : Fin 4} (hk : l ≠ k) :
    ((s.activeFails l new cause).link k).state = (s.link k).state := by
  obtain ⟨_, _, _, _, hposture⟩ := State.activeFails_leaves l new cause s
  have hstate : ((s.activeFails l new cause).link k).state = ((s.activeLeft l new cause).link k).state :=
    congrArg Prod.fst (congrFun hposture k)
  rw [hstate, State.activeLeft_link, if_neg hk]

theorem State.activeFails_inFlight : (s.activeFails l new cause).rge.inFlight =
    s.rge.inFlight.filter fun x => x.link != l := by
  obtain ⟨_, _, hrge, _, _⟩ := State.activeFails_leaves l new cause s
  rw [hrge, State.activeLeft, State.turned_frame]
  exact (s.leaveFor_slm l new cause.linkCause false).2

end Fails

/-- A planned swap from the link that fails goes on as an unplanned one (R104). -/
theorem State.activeFails_from {s : State} {l : Fin 4} (new : LinkState) (cause : LossCause)
    (hswap : s.slm.swap.inProgress = true) (hfrom : s.slm.swap.fromLink = some l) :
    (s.activeFails l new cause).slm.swap = { s.slm.swap with fromLink := none, planned := some false } ∧
      (s.activeFails l new cause).slm.counters.turnedUnplanned = bump32 s.slm.counters.turnedUnplanned := by
  obtain ⟨hrecord, hcounted, _, _, _⟩ := State.activeFails_leaves l new cause s
  obtain ⟨hslm, _⟩ := s.leaveFor_slm l new cause.linkCause false
  have hturned := State.turned_from (s := s.leaveFor l new cause.linkCause false) (l := l)
    (by rw [hslm]; exact hswap) (by rw [hslm]; exact hfrom)
  rw [hslm] at hturned
  rw [hrecord, hcounted]
  exact hturned

/-- When it was the only ACTIVE link of a RUNNING device, isolation stands: it begins now unless it stood already (R109). -/
theorem State.activeFails_isolated {s : State} {l : Fin 4} {new : LinkState} (cause : LossCause) (hnew : new ≠ .active)
    (hrun : s.mli.device = .running) (honly : ∀ k, k ≠ l → (s.link k).state ≠ .active) :
    (s.activeFails l new cause).slm.isolated = some (s.slm.isolated.getD s.mli.clock) := by
  obtain ⟨hdevice, hclock⟩ := State.activeLeft_mli l new cause s
  have hrunning : (s.activeLeft l new cause).running = true := by simp [State.running, hdevice, hrun]
  have hnone : (s.activeLeft l new cause).activeLink? = none := by
    refine State.activeLink?_eq_none.2 fun k => ?_
    rw [State.activeLeft_link]
    split
    · exact hnew
    · next hk => exact honly k (Ne.symm hk)
  have hisolated := State.activeLeft_isolated l new cause s
  rw [State.activeFails_eq]
  simp only [hrunning, hnone, hisolated, Option.isNone_none, Bool.true_and]
  cases hstood : s.slm.isolated with
  | none =>
    rw [if_pos Option.isNone_none, State.beginIsolation_isolated, hclock]
    rfl
  | some since =>
    rw [if_neg (by simp), hisolated, hstood]
    rfl

/-! ### Keepalives -/

/-- A link at the end of the window of the keepalive last due: its misses, and its open echoes closed (R89). -/
def Link.windowEnded (k : Link) : Link :=
  { k with
    misses := k.missesAtDue, openEchoes := [],
    closedEchoes := k.closedEchoes ++ k.openEchoes.map fun o => (o.seq, o.purpose),
    counters := if k.keepAnswered == some false then
      { k.counters with keepUnanswered := bump32 k.counters.keepUnanswered } else k.counters }

/-- A link whose next keepalive falls due, a second after the one due at `due` (R89). -/
def Link.keepaliveFell (due : Nat) (k : Link) : Link :=
  { k.windowEnded with keepAnswered := some false, keepDue := k.keepDue + 1, nextEcho := some (due + 1000) }

/-- A link whose modem takes, at `now`, the keepalive that falls due (R82, R89). -/
def Link.keepaliveTaken (due now : Nat) (k : Link) : Link :=
  (k.keepaliveFell due).echoTaken .keepalive (k.keepDue + 1) now

/-- A link whose third keepalive in a row is missed (R90). -/
def Link.keepaliveMissed (k : Link) : Link :=
  { k.windowEnded with
    counters := { k.windowEnded.counters with keepaliveFailures := bump32 k.windowEnded.counters.keepaliveFailures } }

theorem Link.keepaliveMissed_failures (k : Link) :
    k.keepaliveMissed.counters.keepaliveFailures = bump32 k.counters.keepaliveFailures := by
  unfold Link.keepaliveMissed Link.windowEnded
  dsimp only
  split <;> rfl

section Keepalive
variable {s : State} {l : Fin 4} {due : Nat} (hs : s.powered = true) (hstate : (s.link l).state = .active)
  (hnext : (s.link l).nextEcho = some due) (hdue : due ≤ s.mli.clock)
include hs hstate hnext hdue

/-- With a third miss in a row the link fails; otherwise the next keepalive is given to its port (R89, R90). -/
theorem exec_keepaliveDue : exec (.keepaliveDue l) s = .next
    (if 3 ≤ (s.link l).missesAtDue then
        ((s.onLink l Link.keepaliveMissed).activeFails l .holddown .keepaliveLost).workOut
      else (s.onLink l (Link.keepaliveFell due)).offer l (.echo .keepalive ((s.link l).keepDue + 1))) := by
  have hexec : exec (.keepaliveDue l) s = execKeepaliveDue l s := rfl
  rw [hexec, execKeepaliveDue, whenPowered_on _ hs]
  simp only [hstate, hnext]
  rw [State.atExpiry_due _ hdue]
  refine congrArg _ ?_
  by_cases hmissed : 3 ≤ (s.link l).missesAtDue
  · have hcounted := State.onLink_onLink l Link.windowEnded (fun k => { k with
      counters := { k.counters with keepaliveFailures := bump32 k.counters.keepaliveFailures } }) s
    rw [if_pos hmissed, if_pos hmissed]
    exact congrArg (fun u : State => (u.activeFails l .holddown .keepaliveLost).workOut) hcounted
  · have hnumber : ((s.onLink l Link.windowEnded).link l).keepDue = (s.link l).keepDue := by
      rw [State.link_onLink, if_pos rfl]
      rfl
    rw [if_neg hmissed, if_neg hmissed]
    change ((s.onLink l Link.windowEnded).onLink l fun k => { k with
      keepAnswered := some false, keepDue := ((s.onLink l Link.windowEnded).link l).keepDue + 1,
      nextEcho := some (due + 1000) }).offer l (.echo .keepalive (((s.onLink l Link.windowEnded).link l).keepDue + 1)) = _
    rw [hnumber, State.onLink_onLink]
    rfl

theorem exec_keepaliveDue_taken (hfew : (s.link l).missesAtDue < 3) (hready : (s.link l).modemReady = true)
    (hwaiting : (s.link l).waiting = []) : exec (.keepaliveDue l) s = .next
      ((s.onLink l (Link.keepaliveTaken due s.mli.clock)).emit
        (.toShore l (.echo l.val (s.link l).echoSeq .keepalive))) := by
  have hlink : (s.onLink l (Link.keepaliveFell due)).link l = (s.link l).keepaliveFell due := by
    rw [State.link_onLink, if_pos rfl]
  have hfree : ((s.onLink l (Link.keepaliveFell due)).link l).free = true := by
    rw [hlink]
    exact Link.free_of_idle hready hwaiting
  have htakes (u : State) (n : Nat) : u.modemTakes l (.echo .keepalive n) = u.takeEcho l .keepalive n := rfl
  rw [exec_keepaliveDue hs hstate hnext hdue, if_neg (Nat.not_le.2 hfew), State.offer_taken _ hfree, htakes,
    State.takeEcho_eq, State.onLink_onLink, hlink]
  rfl

end Keepalive

/-- Settles O34: the keepalive taken, or the failure of its link. -/
theorem keepaliveFallsDue : Obligations.KeepaliveFallsDue := by
  unfold Obligations.KeepaliveFallsDue
  intro s l due hs hstate hnext hdue k misses
  refine ⟨fun hfew hready hwaiting => ?taken, fun hmany => ?fails⟩
  case taken =>
    refine ⟨_, exec_keepaliveDue_taken hs hstate hnext hdue hfew hready hwaiting, rfl, ?_⟩
    have hlink (m : Fin 4) (r : Sent) : ((s.onLink l (Link.keepaliveTaken due s.mli.clock)).emit r).link m =
        if l = m then (s.link l).keepaliveTaken due s.mli.clock else s.link m := State.link_onLink l m _ s
    have htaken : (s.link l).keepaliveTaken due s.mli.clock = _ :=
      Link.echoTaken_keepalive s.mli.clock (k.keepaliveFell due)
    rw [hlink, if_pos rfl, htaken]
    exact ⟨hstate, rfl, rfl, rfl, rfl, rfl, fun m hm => by rw [hlink, if_neg hm.symm], rfl⟩
  case fails =>
    have hfailed : (s.onLink l Link.keepaliveMissed).link l = (s.link l).keepaliveMissed := by
      rw [State.link_onLink, if_pos rfl]
    have hleft := State.activeFails_link l .holddown .keepaliveLost (s.onLink l Link.keepaliveMissed)
    rw [hfailed] at hleft
    refine ⟨_, (exec_keepaliveDue hs hstate hnext hdue).trans (congrArg _ (if_pos hmany)), ?_⟩
    rw [State.workOut_link (by rw [hleft]; rfl), hleft]
    refine ⟨rfl, rfl, rfl, Link.keepaliveMissed_failures _, fun hswap hfrom => ?_⟩
    obtain ⟨hturned, _⟩ := State.activeFails_from (s := s.onLink l Link.keepaliveMissed) .holddown .keepaliveLost hswap hfrom
    obtain ⟨r, hsettled⟩ := State.workOut_settles (.inl (by rw [hturned]; exact hswap))
    rw [hsettled]
    exact hturned

end Sys2Proof.Machine
end

