-- ==== Sys2Proof/Proofs/CarriersLost.lean ====
section
/-! SUPPORT. A link that loses its carrier, on its own, as the ACTIVE link, and as the to-link of a swap (R81, R85, R90, R92,
R94, R104, R105, R109, R124). -/

namespace Sys2Proof.Machine

/-! ### Which link is desired -/

theorem mem_insertByCost_of (cost : Fin 4 → Nat) {a l : Fin 4} {ls : List (Fin 4)} (h : a = l ∨ a ∈ ls) :
    a ∈ insertByCost cost l ls := by
  induction ls with
  | nil =>
    obtain rfl | hmem := h
    · exact List.mem_singleton.2 rfl
    · cases hmem
  | cons b rest ih =>
    unfold insertByCost
    split
    · exact List.mem_cons.2 h
    · obtain rfl | hmem := h
      · exact List.mem_cons_of_mem _ (ih (.inl rfl))
      · obtain rfl | hrest := List.mem_cons.1 hmem
        · exact List.mem_cons_self
        · exact List.mem_cons_of_mem _ (ih (.inr hrest))

theorem State.mem_byCost_of (s : State) {a : Fin 4} {ls : List (Fin 4)} (h : a ∈ ls) : a ∈ s.byCost ls := by
  unfold State.byCost
  induction ls with
  | nil => cases h
  | cons b rest ih => exact mem_insertByCost_of _ ((List.mem_cons.1 h).imp_right ih)

/-- Without an ACTIVE link every candidate is ranked, by its type's place in the order or behind the order (R92). -/
theorem State.mem_ranking {s : State} {l : Fin 4} (hactive : s.activeLink? = none) (hl : (s.link l).candidate = true) :
    l ∈ s.ranking := by
  have hcand : l ∈ allLinks.filter fun k => (s.link k).candidate := List.mem_filter.2 ⟨mem_allLinks l, hl⟩
  obtain ⟨ty, hty⟩ : ∃ ty, (s.link l).type = some ty := by
    unfold Link.candidate at hl
    exact Option.isSome_iff_exists.1 (Bool.and_eq_true_iff.1 hl).2
  unfold State.ranking
  by_cases hordered : ty ∈ s.linkOrder
  · refine List.mem_append_left _ (List.mem_append_right _ (List.mem_flatMap.2 ⟨ty, hordered, ?_⟩))
    exact s.mem_byCost_of (List.mem_filter.2 ⟨hcand, by simp [hty]⟩)
  · refine List.mem_append_right _ ?_
    rw [hactive]
    exact s.mem_byCost_of (List.mem_filter.2 ⟨hcand, by simp [hty, hordered]⟩)

theorem State.desired_of_candidate {s : State} {l : Fin 4} (hactive : s.activeLink? = none)
    (hl : (s.link l).candidate = true) : ∃ d, s.desired = some d := by
  have hmem := State.mem_ranking hactive hl
  cases hranking : s.ranking with
  | nil =>
    rw [hranking] at hmem
    cases hmem
  | cons d rest => exact ⟨d, by rw [State.desired, hranking]; rfl⟩

theorem State.desired_none {s : State} (h : ∀ k, (s.link k).candidate = false) : s.desired = none := by
  cases hd : s.desired with
  | none => rfl
  | some d =>
    have hcand := State.desired_candidate hd
    rw [h d] at hcand
    cases hcand

/-- While no link is ACTIVE the candidates are the READY links with a type (R92). -/
theorem Link.candidate_of_idle {k : Link} (hidle : k.state ≠ .active) :
    k.candidate = true ↔ k.state = .ready ∧ k.type ≠ none := by
  simp [Link.candidate, hidle, Option.isSome_iff_ne_none]

theorem State.activeLink?_congr {s t : State} (h : ∀ k, (t.link k).state = .active ↔ (s.link k).state = .active) :
    t.activeLink? = s.activeLink? := by
  have hsame : (fun k => (t.link k).state == LinkState.active) = fun k => (s.link k).state == LinkState.active :=
    funext fun k => by rw [Bool.eq_iff_iff, beq_iff_eq, beq_iff_eq]; exact h k
  rw [State.activeLink?, hsame]
  rfl

/-! ### A link goes ABSENT -/

/-- A link given up: a long probe is owed, and a probe that ran is abandoned (R81, R85). -/
def Link.givenUp (k : Link) : Link :=
  { k with
    longOwed := true,
    counters := if k.state = .probing then { k.counters with abandoned := bump32 k.counters.abandoned } else k.counters }

/-- The link gone ABSENT, before the swap it was the target of fails (R81, R90). -/
def State.gone (l : Fin 4) (cause : LossCause) (s : State) : State :=
  if (s.link l).state = .active then (s.onLink l Link.givenUp).activeFails l .absent cause
  else (s.onLink l Link.givenUp).leaveFor l .absent cause.linkCause false

theorem State.goAbsent_eq (l : Fin 4) (cause : LossCause) (s : State) : s.goAbsent l cause =
    (if (s.link l).state = .joining && (s.gone l cause).slm.swap.inProgress && (s.gone l cause).slm.swap.toLink == some l
      then (s.gone l cause).failSwap true else s.gone l cause).workOut := by
  have hgiven : (if (s.link l).state = .probing then
      (s.onLink l fun k => { k with longOwed := true }).countLink l fun c => { c with abandoned := bump32 c.abandoned }
      else s.onLink l fun k => { k with longOwed := true }) = s.onLink l Link.givenUp := by
    split
    · next hprobing =>
      rw [State.countLink_eq, State.onLink_onLink, State.onLink_eq rfl, State.onLink_eq rfl, Link.givenUp, if_pos hprobing]
    · next hprobing => rw [State.onLink_eq rfl, State.onLink_eq rfl, Link.givenUp, if_neg hprobing]
  unfold State.goAbsent
  dsimp only
  rw [hgiven]
  rfl

/-- The record of a swap whose to-link is lost (R105). -/
def Swap.targetLost (w : Swap) : Swap := { w with inProgress := false, ackExpiry := none, lastOutcome := some .targetLost }

theorem State.failSwap_slm (s : State) : (s.failSwap true).slm = { s.slm with
      swap := s.slm.swap.targetLost,
      counters := { s.slm.counters with failedTarget := bump32 s.slm.counters.failedTarget } } ∧
    (s.failSwap true).rge = s.rge := by
  unfold State.failSwap
  dsimp only
  rw [State.raise_frame]
  exact ⟨rfl, rfl⟩

section Gone
variable (l : Fin 4) (cause : LossCause) (s : State)

theorem State.givenUp_link : (s.onLink l Link.givenUp).link l = (s.link l).givenUp := by rw [State.link_onLink, if_pos rfl]

theorem State.gone_link : (s.gone l cause).link l = (s.link l).givenUp.left .absent s.mli.clock s.slm.guardTime := by
  unfold State.gone
  split
  · rw [State.activeFails_link, State.givenUp_link]
    rfl
  · rw [State.leaveFor_link, if_pos rfl, State.givenUp_link]
    rfl

theorem State.gone_inFlight : (s.gone l cause).rge.inFlight = s.rge.inFlight.filter fun x => x.link != l := by
  unfold State.gone
  split
  · exact State.activeFails_inFlight l .absent cause (s.onLink l Link.givenUp)
  · exact ((s.onLink l Link.givenUp).leaveFor_slm l .absent cause.linkCause false).2

/-- A link gone ABSENT: given up, with nothing waiting at its port, and no exchange left on it (R81, R124). -/
theorem State.goAbsent_leaves :
    (s.goAbsent l cause).link l = (s.link l).givenUp.left .absent s.mli.clock s.slm.guardTime ∧
      (s.goAbsent l cause).rge.inFlight = s.rge.inFlight.filter fun x => x.link != l := by
  have hfailed (c : Bool) : (if c then (s.gone l cause).failSwap true else s.gone l cause).link l =
        (s.link l).givenUp.left .absent s.mli.clock s.slm.guardTime ∧
      (if c then (s.gone l cause).failSwap true else s.gone l cause).rge.inFlight =
        s.rge.inFlight.filter fun x => x.link != l := by
    obtain ⟨hslm, hrge⟩ := (s.gone l cause).failSwap_slm
    split
    · rw [State.link, hslm, hrge]
      exact ⟨State.gone_link l cause s, State.gone_inFlight l cause s⟩
    · exact ⟨State.gone_link l cause s, State.gone_inFlight l cause s⟩
  obtain ⟨hlink, hexchanges⟩ := hfailed ((s.link l).state = .joining && (s.gone l cause).slm.swap.inProgress &&
    (s.gone l cause).slm.swap.toLink == some l)
  rw [State.goAbsent_eq, State.workOut_link (by rw [hlink]; rfl), State.workOut_frame]
  exact ⟨hlink, hexchanges⟩

end Gone

/-- The ACTIVE link that goes ABSENT fails (R90). -/
theorem State.goAbsent_active {s : State} {l : Fin 4} (cause : LossCause) (hstate : (s.link l).state = .active) :
    s.goAbsent l cause = ((s.onLink l Link.givenUp).activeFails l .absent cause).workOut := by
  have hgone : s.gone l cause = (s.onLink l Link.givenUp).activeFails l .absent cause := if_pos hstate
  rw [State.goAbsent_eq, hgone, if_neg (by simp [hstate])]

/-! ### A carrier is lost -/

/-- A link whose carrier is lost (R81). -/
def Link.carrierLost (k : Link) : Link :=
  { k with carrier := false, counters := { k.counters with carrierLosses := bump32 k.counters.carrierLosses } }

theorem State.carrierLost_link (l k : Fin 4) (s : State) :
    (s.onLink l Link.carrierLost).link k = if l = k then (s.link l).carrierLost else s.link k := State.link_onLink ..

theorem Link.givenUp_carrierLosses (k : Link) : k.givenUp.counters.carrierLosses = k.counters.carrierLosses := by
  unfold Link.givenUp
  dsimp only
  split <;> rfl

theorem exec_shoreCarrierLost {s : State} {l : Fin 4} (hs : s.powered = true) (hstate : (s.link l).state ≠ .absent) :
    exec (.shoreCarrierLost l) s = .next ((s.onLink l Link.carrierLost).goAbsent l .carrierLost) := by
  have hexec : exec (.shoreCarrierLost l) s = execShoreCarrierLost l s := rfl
  have hstill : ((s.onLink l fun k => { k with carrier := false }).link l).state ≠ .absent := by
    rw [State.link_onLink, if_pos rfl]
    exact hstate
  rw [hexec, execShoreCarrierLost, whenPowered_on (s := s.onLink l fun k => { k with carrier := false }) _ hs,
    if_neg hstill, State.countLink_eq, State.onLink_onLink]
  rfl

theorem exec_shoreCarrierLost_active {s : State} {l : Fin 4} (hs : s.powered = true) (hstate : (s.link l).state = .active) :
    exec (.shoreCarrierLost l) s = .next
      (((s.onLink l Link.carrierLost).onLink l Link.givenUp).activeFails l .absent .carrierLost).workOut := by
  have hactive : ((s.onLink l Link.carrierLost).link l).state = .active := by
    rw [State.carrierLost_link, if_pos rfl]
    exact hstate
  rw [exec_shoreCarrierLost hs (by rw [hstate]; decide), State.goAbsent_active .carrierLost hactive]

/-- Losing its carrier changes no link but the one that loses it. -/
theorem State.carrierLost_others {l k : Fin 4} (s : State) (hk : l ≠ k) :
    ((s.onLink l Link.carrierLost).onLink l Link.givenUp).link k = s.link k := by
  rw [State.link_onLink, if_neg hk, State.carrierLost_link, if_neg hk]

/-- Isolation stands once the only ACTIVE link of a RUNNING device has lost its carrier (R109). -/
theorem State.carrierLost_isolated {s : State} {l : Fin 4} (hrun : s.mli.device = .running)
    (honly : ∀ k, k ≠ l → (s.link k).state ≠ .active) :
    (((s.onLink l Link.carrierLost).onLink l Link.givenUp).activeFails l .absent .carrierLost).workOut.slm.isolated =
      some (s.slm.isolated.getD s.mli.clock) := by
  have hisolated := State.activeFails_isolated (s := (s.onLink l Link.carrierLost).onLink l Link.givenUp) (l := l)
    (new := .absent) .carrierLost (by decide) hrun
    (fun k hk => by rw [State.carrierLost_others s (Ne.symm hk)]; exact honly k hk)
  rw [State.workOut_slm]
  exact hisolated

/-! ### The to-link is lost -/

/-- The JOINING to-link gone, its swap failed, before selection is worked out (R105). -/
def State.toLinkLost (l : Fin 4) (s : State) : State :=
  (((s.onLink l Link.carrierLost).onLink l Link.givenUp).leaveFor l .absent .carrierLost false).failSwap true

theorem State.toLinkLost_slm (l : Fin 4) (s : State) : (s.toLinkLost l).slm = { s.slm with
    links := (s.toLinkLost l).slm.links, swap := s.slm.swap.targetLost,
    counters := { s.slm.counters with failedTarget := bump32 s.slm.counters.failedTarget } } := by
  obtain ⟨hleft, _⟩ := State.leaveFor_slm l .absent .carrierLost false ((s.onLink l Link.carrierLost).onLink l Link.givenUp)
  rw [State.toLinkLost, (State.failSwap_slm _).1, hleft]
  rfl

theorem State.toLinkLost_link (l k : Fin 4) (s : State) : (s.toLinkLost l).link k =
    if l = k then (s.link k).carrierLost.givenUp.left .absent s.mli.clock s.slm.guardTime else s.link k := by
  have hlink : (s.toLinkLost l).link k =
      (((s.onLink l Link.carrierLost).onLink l Link.givenUp).leaveFor l .absent .carrierLost false).link k := by
    rw [State.toLinkLost, State.link, (State.failSwap_slm _).1]
    rfl
  rw [hlink, State.leaveFor_link]
  split
  · next hk =>
    subst hk
    rw [State.link_onLink, if_pos rfl, State.carrierLost_link, if_pos rfl]
    rfl
  · next hk => rw [State.carrierLost_others s hk]

theorem State.toLinkLost_kept (l : Fin 4) (s : State) : (s.toLinkLost l).kept = s.kept := by
  unfold State.toLinkLost
  simp

theorem State.toLinkLost_clock (l : Fin 4) (s : State) : (s.toLinkLost l).mli.clock = s.mli.clock := by
  have hgiven : ((s.onLink l Link.carrierLost).onLink l Link.givenUp).standing = s.standing :=
    (State.onLink_standing l Link.givenUp _ fun _ => rfl).trans (State.onLink_standing l Link.carrierLost s fun _ => rfl)
  exact State.clock_of_standing ((State.failSwap_standing ..).trans ((State.leaveFor_standing ..).trans hgiven))

theorem State.toLinkLost_activeLink? {l : Fin 4} {s : State} (hstate : (s.link l).state = .joining) :
    (s.toLinkLost l).activeLink? = s.activeLink? := by
  refine State.activeLink?_congr fun k => ?_
  rw [State.toLinkLost_link]
  split
  · next hk =>
    subst hk
    rw [hstate]
    exact iff_of_false LinkState.noConfusion LinkState.noConfusion
  · rfl

/-- The candidates once the to-link is lost, while no link is ACTIVE: the READY links with a type (R92). -/
theorem State.toLinkLost_candidate {l : Fin 4} {s : State} (hstate : (s.link l).state = .joining)
    (hnone : s.activeLink? = none) (k : Fin 4) :
    ((s.toLinkLost l).link k).candidate = true ↔ (s.link k).state = .ready ∧ (s.link k).type ≠ none := by
  rw [State.toLinkLost_link]
  split
  · next hk =>
    subst hk
    rw [hstate]
    exact iff_of_false Bool.noConfusion fun hready => LinkState.noConfusion hready.1
  · exact Link.candidate_of_idle (State.activeLink?_eq_none.1 hnone k)

theorem exec_shoreCarrierLost_toLink {s : State} {l : Fin 4} (hs : s.powered = true) (hstate : (s.link l).state = .joining)
    (hswap : s.slm.swap.inProgress = true) (hto : s.slm.swap.toLink = some l) :
    exec (.shoreCarrierLost l) s = .next (s.toLinkLost l).workOut := by
  have hjoining : ((s.onLink l Link.carrierLost).link l).state = .joining := by
    rw [State.carrierLost_link, if_pos rfl]
    exact hstate
  have hgone : (s.onLink l Link.carrierLost).gone l .carrierLost =
      ((s.onLink l Link.carrierLost).onLink l Link.givenUp).leaveFor l .absent .carrierLost false :=
    if_neg (by rw [hjoining]; decide)
  have hfails : ((((s.onLink l Link.carrierLost).link l).state = .joining : Bool) &&
      ((s.onLink l Link.carrierLost).gone l .carrierLost).slm.swap.inProgress &&
      ((s.onLink l Link.carrierLost).gone l .carrierLost).slm.swap.toLink == some l) = true := by
    rw [hgone, hjoining, (State.leaveFor_slm ..).1]
    change (true && s.slm.swap.inProgress && s.slm.swap.toLink == some l) = true
    simp [hswap, hto]
  rw [exec_shoreCarrierLost hs (by rw [hstate]; decide), State.goAbsent_eq, if_pos hfails, hgone]
  rfl

/-- With an ACTIVE link and a settle time, a lost target leaves that link ACTIVE and the failed swap's record (R94, R105). -/
theorem State.toLinkLost_active {s : State} {l a : Fin 4} (hstate : (s.link l).state = .joining)
    (hactive : s.activeLink? = some a) (hsettle : s.slm.settleTime ≠ 0) :
    ((s.toLinkLost l).workOut.link a).state = .active ∧ (s.toLinkLost l).workOut.slm.swap = s.slm.swap.targetLost := by
  have hstill : (s.toLinkLost l).activeLink? = some a := (State.toLinkLost_activeLink? hstate).trans hactive
  obtain ⟨r, hsettled⟩ := State.workOut_settles (s := s.toLinkLost l)
    (.inr (.inr ⟨by rw [hstill]; exact Option.some_ne_none a, by rw [State.toLinkLost_slm]; exact hsettle⟩))
  rw [hsettled]
  exact ⟨State.link_of_active hstill, by rw [State.onSlm_slm, State.toLinkLost_slm]⟩

/-- Without a READY link of a type, and without an ACTIVE one, no swap begins (R94, R105). -/
theorem State.toLinkLost_none {s : State} {l : Fin 4} (hstate : (s.link l).state = .joining)
    (hnone : s.activeLink? = none) (hready : ∀ k, (s.link k).state = .ready → (s.link k).type = none) :
    (s.toLinkLost l).workOut.slm.swap.inProgress = false := by
  have hdesired : (s.toLinkLost l).desired = none := State.desired_none fun k =>
    Bool.eq_false_iff.2 fun hcand =>
      have ⟨hk, htype⟩ := (State.toLinkLost_candidate hstate hnone k).1 hcand
      htype (hready k hk)
  obtain ⟨r, hsettled⟩ := State.workOut_settles (s := s.toLinkLost l) (.inr (.inl hdesired))
  rw [hsettled, State.onSlm_slm, State.toLinkLost_slm]
  rfl

/-- A READY link with a type becomes the target of a new unplanned swap when no link is ACTIVE (R94, R105). -/
theorem State.toLinkLost_begins {s : State} {l k : Fin 4} (hstate : (s.link l).state = .joining)
    (hnone : s.activeLink? = none) (hrun : s.mli.device = .running) (hk : (s.link k).state = .ready)
    (htype : (s.link k).type ≠ none) : ∃ d, (s.link d).state = .ready ∧
      ((s.toLinkLost l).workOut.link d).state = .joining ∧ (s.toLinkLost l).workOut.slm.swap = {
        inProgress := true, number := bump16 s.slm.swap.number, planned := some false, fromLink := none, toLink := some d,
        moveSent := (s.link d).free, startedAt := s.mli.clock, ackExpiry := some (s.mli.clock + s.slm.moveAckTimer),
        lastOutcome := some .targetLost } := by
  have hstill : (s.toLinkLost l).activeLink? = none := (State.toLinkLost_activeLink? hstate).trans hnone
  obtain ⟨d, hd⟩ := State.desired_of_candidate hstill ((State.toLinkLost_candidate hstate hnone k).2 ⟨hk, htype⟩)
  obtain ⟨hready, _⟩ := (State.toLinkLost_candidate hstate hnone d).1 (State.desired_candidate hd)
  have hdevice : (s.toLinkLost l).mli.device = s.mli.device := congrArg Kept.device (State.toLinkLost_kept l s)
  have hrunning : (s.toLinkLost l).running = true := by simp [State.running, hdevice, hrun]
  have hended : (s.toLinkLost l).slm.swap.inProgress = false := by rw [State.toLinkLost_slm]; rfl
  have hne : l ≠ d := by
    rintro rfl
    rw [hstate] at hready
    cases hready
  have hlink : (s.toLinkLost l).link d = s.link d := by rw [State.toLinkLost_link, if_neg hne]
  refine ⟨d, hready, ?_⟩
  rw [State.workOut_begins hrunning hended hstill hd, State.beginSwap_link, if_pos rfl, (State.beginSwap_swap ..).1,
    State.swapTo, hlink, State.toLinkLost_clock, State.toLinkLost_slm]
  exact ⟨rfl, rfl⟩

end Sys2Proof.Machine
end

