-- ==== Sys2Proof/Proofs/LinkTimers.lean ====
section
/-! SUPPORT. A probe that starts: at a carrier's return, a holddown's end and the re-probe timer (R83, R86 to R88). -/

namespace Sys2Proof.Machine

/-! ### A probe starts -/

/-- The first echo of a probe, sent or waiting, leaves what the probe has counted of answers. -/
theorem State.offer_probeEcho {s : State} {l : Fin 4} {p : Probe} (hprobe : (s.link l).probe = some p) :
    ((s.offer l (.echo .probe 0)).link l).carrier = (s.link l).carrier ∧
      ∃ n, ((s.offer l (.echo .probe 0)).link l).probe = some { p with sent := n } := by
  cases hfree : (s.link l).free with
  | true =>
    have hlink : (s.offer l (.echo .probe 0)).link l = (s.link l).echoTaken .probe 0 s.mli.clock := by
      have htakes : s.modemTakes l (.echo .probe 0) = s.takeEcho l .probe 0 := rfl
      rw [State.offer_taken _ hfree, htakes, State.takeEcho_eq]
      exact (State.link_onLink l l _ s).trans (if_pos rfl)
    rw [hlink, Link.echoTaken_probe 0 _ hprobe]
    exact ⟨rfl, _, rfl⟩
  | false =>
    rw [State.offer_waits _ hfree, State.link_onLink, if_pos rfl]
    exact ⟨rfl, p.sent, hprobe⟩

/-- The probe of a link that enters PROBING (R83, R95). -/
def Link.newProbe (k : Link) : Probe :=
  { long := k.longOwed, sent := 0, answered := 0, timedOut := 0, rttSum := 0, fromReady := k.state == .ready }

/-- The link in PROBING, before its first echo is given to its port (R83, R95). -/
def State.probeOpened (l : Fin 4) (cause : LinkCause) (s : State) : State :=
  let t := (s.enterState l .probing).onLink l fun k => { k with probe := some (s.link l).newProbe }
  if (s.link l).state == .ready then t else t.linkChanged l (s.link l).reported .probing cause

theorem State.startProbe_eq (l : Fin 4) (cause : LinkCause) (s : State) :
    s.startProbe l cause = (s.probeOpened l cause).offer l (.echo .probe 0) := rfl

theorem State.probeOpened_link (l : Fin 4) (cause : LinkCause) (s : State) : (s.probeOpened l cause).link l =
    { (s.link l).entered .probing s.mli.clock s.slm.guardTime with probe := some (s.link l).newProbe } := by
  have hopened : ((s.enterState l .probing).onLink l fun k => { k with probe := some (s.link l).newProbe }).link l =
      { (s.link l).entered .probing s.mli.clock s.slm.guardTime with probe := some (s.link l).newProbe } := by
    rw [State.enterState_eq, State.onLink_onLink, State.link_onLink, if_pos rfl]
  unfold State.probeOpened
  dsimp only
  split
  · exact hopened
  · rw [State.linkChanged, State.raise_frame]
    exact hopened

/-- A link whose probe has started: a long one when one was owed, nothing answered and nothing timed out (R83). -/
structure Link.startsProbe (k : Link) (carrier long fromReady : Bool) : Prop where
  state : k.state = .probing
  carrier : k.carrier = carrier
  probe : ∃ p, k.probe = some p ∧ p.long = long ∧ p.answered = 0 ∧ p.timedOut = 0 ∧ p.fromReady = fromReady

/-- A probe that starts goes on whatever selection does (R83, R92). -/
theorem State.startProbe_starts (l : Fin 4) (cause : LinkCause) (s : State) :
    ((s.startProbe l cause).workOut.link l).startsProbe (s.link l).carrier (s.link l).longOwed
      ((s.link l).state == .ready) := by
  have hstate : ((s.startProbe l cause).link l).state = .probing :=
    congrArg Prod.fst ((State.startProbe_posture l l cause s).trans (if_pos rfl))
  obtain ⟨hcarrier, n, hprobe⟩ := State.offer_probeEcho (s := s.probeOpened l cause) (l := l)
    (p := (s.link l).newProbe) (by rw [State.probeOpened_link])
  rw [State.workOut_link (by simp [Link.candidate, hstate])]
  refine ⟨hstate, ?_, _, hprobe, rfl, rfl, rfl, rfl⟩
  rw [State.startProbe_eq, hcarrier, State.probeOpened_link]
  rfl

theorem exec_shoreCarrierReturn {s : State} {l : Fin 4} (hs : s.powered = true) (hstate : (s.link l).state = .absent) :
    exec (.shoreCarrierReturn l) s = .next
      (if (s.link l).enabled = true then
          ((s.onLink l fun k => { k with carrier := true }).startProbe l .carrierUp).workOut
        else s.onLink l fun k => { k with carrier := true }) := by
  have hexec : exec (.shoreCarrierReturn l) s = execShoreCarrierReturn l s := rfl
  have hlink : (s.onLink l fun k => { k with carrier := true }).link l = { s.link l with carrier := true } := by
    rw [State.link_onLink, if_pos rfl]
  rw [hexec, execShoreCarrierReturn, whenPowered_on (s := s.onLink l fun k => { k with carrier := true }) _ hs, hlink]
  simp [hstate]

section Timers
variable {s : State} {l : Fin 4} {due : Nat} (hs : s.powered = true) (hdue : due ≤ s.mli.clock)
include hs hdue

theorem exec_holddownExpiry (hstate : (s.link l).state = .holddown) (hat : (s.link l).holddownAt = some due) :
    exec (.holddownExpiry l) s = .next (s.startProbe l .holddownEnd).workOut := by
  have hexec : exec (.holddownExpiry l) s = execHolddownExpiry l s := rfl
  rw [hexec, execHolddownExpiry, whenPowered_on _ hs]
  simp only [hstate, hat]
  rw [State.atExpiry_due _ hdue]

theorem exec_reprobeExpiry (hstate : (s.link l).state = .ready) (hat : (s.link l).reprobeAt = some due) :
    exec (.reprobeExpiry l) s = .next (s.startProbe l .probePass).workOut := by
  have hexec : exec (.reprobeExpiry l) s = execReprobeExpiry l s := rfl
  rw [hexec, execReprobeExpiry, whenPowered_on _ hs]
  simp only [hstate, hat]
  rw [State.atExpiry_due _ hdue]

end Timers

/-- Settles O30: the carrier lost on any link, on the from-link and on the to-link; its return; and the two timers. -/
theorem linkTimersAndCarriers : Obligations.LinkTimersAndCarriers := by
  unfold Obligations.LinkTimersAndCarriers
  refine ⟨fun s l hs hstate => ?lost, fun s l to_ hs hstate hswap hfrom hto hjoining honly => ?from_,
    fun s l hs hstate hswap hto => ?to_, fun s l hs hstate => ?returns, fun s l at_ hs hdue => ?timers⟩
  case lost =>
    obtain ⟨hlink, hexchanges⟩ := State.goAbsent_leaves l .carrierLost (s.onLink l Link.carrierLost)
    have hkept := congrArg Kept.tracker (State.goAbsent_kept l .carrierLost (s.onLink l Link.carrierLost))
    rw [State.carrierLost_link, if_pos rfl] at hlink
    refine ⟨_, exec_shoreCarrierLost hs hstate, ?_⟩
    rw [hlink, hexchanges]
    refine ⟨rfl, rfl, rfl, rfl, rfl, Link.givenUp_carrierLosses (s.link l).carrierLost, fun x hx => ?_, hkept,
      fun hactive hrun honly => ?_⟩
    · simpa using (List.mem_filter.1 hx).2
    · have hactive' : ((s.onLink l Link.carrierLost).link l).state = .active := by
        rw [State.carrierLost_link, if_pos rfl]
        exact hactive
      rw [State.goAbsent_active .carrierLost hactive', State.carrierLost_isolated hrun honly]
      exact Option.some_ne_none _
  case from_ =>
    have hne : l ≠ to_ := by
      rintro rfl
      rw [hstate] at hjoining
      cases hjoining
    obtain ⟨hturned, hcounted⟩ := State.activeFails_from (s := (s.onLink l Link.carrierLost).onLink l Link.givenUp) (l := l)
      .absent .carrierLost hswap hfrom
    have hstays := State.activeFails_state l .absent .carrierLost ((s.onLink l Link.carrierLost).onLink l Link.givenUp) hne
    rw [State.carrierLost_others s hne] at hstays
    obtain ⟨r, hsettled⟩ := State.workOut_settles (.inl (by rw [hturned]; exact hswap))
    refine ⟨_, exec_shoreCarrierLost_active hs hstate, ?_, ?_, ?_, fun hrun hnone => ?_⟩
    · rw [hsettled]
      exact hturned
    · rw [hsettled]
      exact hstays.trans hjoining
    · rw [hsettled]
      exact hcounted
    · rw [State.carrierLost_isolated hrun honly, hnone]
      rfl
  case to_ =>
    have hleft : ((s.toLinkLost l).workOut.link l) =
        (s.link l).carrierLost.givenUp.left .absent s.mli.clock s.slm.guardTime := by
      have hgone := (State.toLinkLost_link l l s).trans (if_pos rfl)
      rw [State.workOut_link (by rw [hgone]; rfl), hgone]
    refine ⟨_, exec_shoreCarrierLost_toLink hs hstate hswap hto, by rw [hleft]; rfl, by rw [hleft]; rfl, ?counted, ?outcome,
      fun a hactive hsettle => State.toLinkLost_active hstate hactive hsettle, fun hnone hrun =>
        ⟨State.toLinkLost_none hstate hnone, fun ⟨k, hk, htype⟩ => State.toLinkLost_begins hstate hnone hrun hk htype⟩⟩
    case counted => rw [State.workOut_slm, State.toLinkLost_slm]
    case outcome =>
      have hlost : (s.toLinkLost l).slm.swap.lastOutcome = some .targetLost := by rw [State.toLinkLost_slm]; rfl
      obtain ⟨r, hsettled⟩ | ⟨d, _, _, _, _, hbegins⟩ := (s.toLinkLost l).workOut_cases
      · rw [hsettled]
        exact hlost
      · rw [hbegins, (State.beginSwap_swap ..).1]
        exact hlost
  case returns =>
    have hreturns := exec_shoreCarrierReturn hs hstate
    refine ⟨fun hon => ?_, fun hoff => hreturns.trans (congrArg _ (if_neg (by rw [hoff]; decide)))⟩
    obtain ⟨hprobing, hcarrier, p, hp, hlong, hanswered, htimed, _⟩ :=
      State.startProbe_starts l .carrierUp (s.onLink l fun k => { k with carrier := true })
    rw [State.link_onLink, if_pos rfl] at hcarrier hlong
    exact ⟨_, p, hreturns.trans (congrArg _ (if_pos hon)), hprobing, hcarrier, hp, hlong, hanswered, htimed⟩
  case timers =>
    intro probes
    refine ⟨fun hstate hat => ?_, fun hstate hat => ?_⟩
    · obtain ⟨hprobing, _, hprobe⟩ := State.startProbe_starts l .holddownEnd s
      rw [hstate] at hprobe
      exact ⟨_, exec_holddownExpiry hs hdue hstate hat, hprobing, hprobe⟩
    · obtain ⟨hprobing, _, hprobe⟩ := State.startProbe_starts l .probePass s
      rw [hstate] at hprobe
      exact ⟨_, exec_reprobeExpiry hs hdue hstate hat, hprobing, hprobe⟩

end Sys2Proof.Machine
end

