-- ==== Sys2Proof/Proofs/LinkBook.lean ====
section
/-! SUPPORT. The account of the links (R98): each link's state, and whether a swap is in progress and between which links. Most
operations leave it as it is. -/

namespace Sys2Proof.Machine

/-! ### The book of the links -/

/-- What R98 speaks of. -/
structure LinkBook where
  states : Fin 4 → LinkState
  inProgress : Bool
  fromLink : Option (Fin 4)
  toLink : Option (Fin 4)

def Slm.linkBook (m : Slm) : LinkBook :=
  ⟨fun l => m.links[l].state, m.swap.inProgress, m.swap.fromLink, m.swap.toLink⟩

def State.linkBook (s : State) : LinkBook := s.slm.linkBook

/-- At most one link is ACTIVE, during a swap its from-link; a link is JOINING only as the to-link of the swap in progress. -/
structure LinkBook.ok (b : LinkBook) : Prop where
  one : ∀ l l' : Fin 4, b.states l = .active → b.states l' = .active → l = l'
  active : ∀ l : Fin 4, b.states l = .active → b.inProgress = true → b.fromLink = some l
  joining : ∀ l : Fin 4, b.states l = .joining → b.inProgress = true ∧ b.toLink = some l

theorem State.linksOk_iff (s : State) : s.linksOk ↔ s.linkBook.ok :=
  ⟨fun ⟨one, active, joining⟩ => ⟨one, active, joining⟩, fun ⟨one, active, joining⟩ => ⟨one, active, joining⟩⟩

theorem State.linkBook_states (s : State) (l : Fin 4) : s.linkBook.states l = (s.link l).state := rfl

theorem State.linkBook_of_slm {s t : State} (h : t.slm = s.slm) : t.linkBook = s.linkBook := congrArg Slm.linkBook h

/-! ### Updates of one block -/

@[simp] theorem State.onTracker_linkBook (f : Tracker → Tracker) (s : State) : (s.onTracker f).linkBook = s.linkBook := rfl
@[simp] theorem State.onCpc_linkBook (f : Cpc → Cpc) (s : State) : (s.onCpc f).linkBook = s.linkBook := rfl
@[simp] theorem State.onTable_linkBook (f : Table → Table) (s : State) : (s.onTable f).linkBook = s.linkBook := rfl
@[simp] theorem State.onRouter_linkBook (f : Router → Router) (s : State) : (s.onRouter f).linkBook = s.linkBook := rfl
@[simp] theorem State.onSws_linkBook (f : SwapStore → SwapStore) (s : State) : (s.onSws f).linkBook = s.linkBook := rfl
@[simp] theorem State.onRge_linkBook (f : Rge → Rge) (s : State) : (s.onRge f).linkBook = s.linkBook := rfl
@[simp] theorem State.onRtu_linkBook (f : Rtu → Rtu) (s : State) : (s.onRtu f).linkBook = s.linkBook := rfl
@[simp] theorem State.onRsc_linkBook (f : Rsc → Rsc) (s : State) : (s.onRsc f).linkBook = s.linkBook := rfl
@[simp] theorem State.onMli_linkBook (f : Mli → Mli) (s : State) : (s.onMli f).linkBook = s.linkBook := rfl
@[simp] theorem State.onPort_linkBook (p : Fin 6) (f : CellPort → CellPort) (s : State) :
    (s.onPort p f).linkBook = s.linkBook := rfl
@[simp] theorem State.onEntry_linkBook (h : Nat) (f : Entry → Entry) (s : State) :
    (s.onEntry h f).linkBook = s.linkBook := rfl
@[simp] theorem State.onBearer_linkBook (h k : Nat) (f : Bearer → Bearer) (s : State) :
    (s.onBearer h k f).linkBook = s.linkBook := rfl
@[simp] theorem State.emit_linkBook (r : Sent) (s : State) : (s.emit r).linkBook = s.linkBook := rfl

@[simp] theorem State.onSlm_linkBook (f : Slm → Slm) (s : State) (hf : ∀ m, (f m).linkBook = m.linkBook) :
    (s.onSlm f).linkBook = s.linkBook := hf s.slm

/-- An update of one link that leaves its state. -/
@[simp] theorem State.onLink_linkBook (l : Fin 4) (f : Link → Link) (s : State) (hf : ∀ k, (f k).state = k.state) :
    (s.onLink l f).linkBook = s.linkBook := by
  have hstates : (s.onLink l f).linkBook.states = s.linkBook.states := by
    funext k
    rw [State.linkBook_states, State.linkBook_states, State.link_onLink]
    split
    · next hk => rw [hf, hk]
    · rfl
  exact congrArg (fun states : Fin 4 → LinkState => { s.linkBook with states := states }) hstates

theorem State.eachOf_linkBook {α : Type} (l : List α) (f : α → State → State) (hf : ∀ a s, (f a s).linkBook = s.linkBook)
    (s : State) : (s.eachOf l f).linkBook = s.linkBook :=
  State.eachOf_keeps (P := fun t => t.linkBook = s.linkBook) l (fun a _ t ht => (hf a t).trans ht) rfl

theorem State.eachEntry_linkBook (f : Nat → State → State) (hf : ∀ a s, (f a s).linkBook = s.linkBook) (s : State) :
    (s.eachEntry f).linkBook = s.linkBook := State.eachOf_linkBook s.handles f hf s

/-! ### Counters, notices and records sent -/

@[simp] theorem State.countPort_linkBook (p : Fin 6) (f : PortCounters → PortCounters) (s : State) :
    (s.countPort p f).linkBook = s.linkBook := rfl
@[simp] theorem State.countRge_linkBook (f : RoamingCounters → RoamingCounters) (s : State) :
    (s.countRge f).linkBook = s.linkBook := rfl
@[simp] theorem State.countRtu_linkBook (f : RatingCounters → RatingCounters) (s : State) :
    (s.countRtu f).linkBook = s.linkBook := rfl
@[simp] theorem State.countRouter_linkBook (f : RouterTotals → RouterTotals) (s : State) :
    (s.countRouter f).linkBook = s.linkBook := rfl
@[simp] theorem State.countLink_linkBook (l : Fin 4) (f : LinkCounters → LinkCounters) (s : State) :
    (s.countLink l f).linkBook = s.linkBook := State.onLink_linkBook l _ s fun _ => rfl
@[simp] theorem State.countRsc_linkBook (f : RecordCounters → RecordCounters) (s : State) :
    (s.countRsc f).linkBook = s.linkBook := rfl
@[simp] theorem State.countMli_linkBook (f : MliCounters → MliCounters) (s : State) :
    (s.countMli f).linkBook = s.linkBook := rfl
@[simp] theorem State.raise_linkBook (n : Notice) (s : State) : (s.raise n).linkBook = s.linkBook := rfl
@[simp] theorem State.storeFault_linkBook (r : StoreFault) (slot : Option Nat) (s : State) :
    (s.storeFault r slot).linkBook = s.linkBook := rfl
@[simp] theorem State.linkChanged_linkBook (l : Fin 4) (a b : LinkState) (c : LinkCause) (s : State) :
    (s.linkChanged l a b c).linkBook = s.linkBook := rfl

@[simp] theorem State.toHead_linkBook (p : Fin 6) (r : HeadRecord) (s : State) : (s.toHead p r).linkBook = s.linkBook :=
  State.linkBook_of_slm (State.toHead_slm p r s)

@[simp] theorem State.sendLevel_linkBook (h : Nat) (level : ServeLevel) (s : State) :
    (s.sendLevel h level).linkBook = s.linkBook := State.linkBook_of_slm (by rw [State.sendLevel_frame])

@[simp] theorem State.sendLevelByEntitlement_linkBook (h : Nat) (s : State) :
    (s.sendLevelByEntitlement h).linkBook = s.linkBook := by
  unfold State.sendLevelByEntitlement
  split <;> simp

@[simp] theorem State.sendHold_linkBook (p : Fin 6) (s : State) : (s.sendHold p).linkBook = s.linkBook := by
  unfold State.sendHold
  simp

@[simp] theorem State.sendOrder_linkBook (p : Fin 6) (s : State) : (s.sendOrder p).linkBook = s.linkBook :=
  State.linkBook_of_slm (by rw [State.sendOrder_frame])

@[simp] theorem State.sendOrders_linkBook (s : State) : s.sendOrders.linkBook = s.linkBook :=
  State.linkBook_of_slm (by rw [State.sendOrders_frame])

/-! ### The record store and periods -/

@[simp] theorem State.checkLow_linkBook (s : State) : s.checkLow.linkBook = s.linkBook :=
  State.linkBook_of_slm (by rw [State.checkLow_frame])
@[simp] theorem State.arbitrate_linkBook (s : State) : s.arbitrate.linkBook = s.linkBook :=
  State.linkBook_of_slm (by rw [State.arbitrate_frame])
@[simp] theorem State.returnBatch_linkBook (c : ReturnCause) (s : State) : (s.returnBatch c).linkBook = s.linkBook := rfl
@[simp] theorem State.openPeriod_linkBook (h : Nat) (s : State) : (s.openPeriod h).linkBook = s.linkBook :=
  State.linkBook_of_slm (by rw [State.openPeriod_frame])
@[simp] theorem State.closuresLost_linkBook (n : Nat) (s : State) : (s.closuresLost n).linkBook = s.linkBook := rfl
@[simp] theorem State.closePeriod_linkBook (r : CloseReason) (h : Nat) (s : State) :
    (s.closePeriod r h).linkBook = s.linkBook := State.linkBook_of_slm (by rw [State.closePeriod_frame])
@[simp] theorem State.feedQueue_linkBook (s : State) : s.feedQueue.linkBook = s.linkBook :=
  State.linkBook_of_slm (by rw [s.feedQueue_frame.1])
@[simp] theorem State.raiseLoss_linkBook (h a : Nat) (s : State) : (s.raiseLoss h a).linkBook = s.linkBook :=
  State.linkBook_of_slm (State.raiseLoss_slm h a s)

@[simp] theorem State.endFlush_linkBook (s : State) : s.endFlush.linkBook = s.linkBook := by
  unfold State.endFlush
  repeat' split
  all_goals simp

@[simp] theorem State.nextOperation_linkBook (s : State) : s.nextOperation.linkBook = s.linkBook := by
  rw [State.nextOperation, State.arbitrate_linkBook, State.endFlush_linkBook, State.checkLow_linkBook]

/-! ### The swap store and the shore ports -/

@[simp] theorem State.reportRise_linkBook (s : State) : s.reportRise.linkBook = s.linkBook :=
  State.linkBook_of_slm (by rw [State.reportRise_frame])
@[simp] theorem State.reportFall_linkBook (s : State) : s.reportFall.linkBook = s.linkBook :=
  State.linkBook_of_slm (State.reportFall_slm s)
@[simp] theorem State.makeAddition_linkBook (a : Addition) (s : State) : (s.makeAddition a).linkBook = s.linkBook := rfl
@[simp] theorem State.popFrame_linkBook (s : State) : s.popFrame.linkBook = s.linkBook := rfl

@[simp] theorem State.withdrawOffer_linkBook (s : State) : s.withdrawOffer.linkBook = s.linkBook := by
  unfold State.withdrawOffer
  split
  · exact State.eachOf_linkBook _ _ (fun l t => by simp) _
  · rfl

@[simp] theorem State.shedHead_linkBook (s : State) : s.shedHead.linkBook = s.linkBook := by
  unfold State.shedHead
  split <;> simp

@[simp] theorem State.shedFor_linkBook (len n : Nat) (s : State) : (s.shedFor len n).linkBook = s.linkBook := by
  induction n generalizing s with
  | zero => rfl
  | succ n ih =>
    unfold State.shedFor
    split
    · rfl
    · exact (ih _).trans s.shedHead_linkBook

@[simp] theorem State.shedAll_linkBook (n : Nat) (s : State) : (s.shedAll n).linkBook = s.linkBook := by
  induction n generalizing s with
  | zero => rfl
  | succ n ih => exact (ih _).trans s.shedHead_linkBook

@[simp] theorem State.storeFrame_linkBook (f : StoredFrame) (s : State) : (s.storeFrame f).linkBook = s.linkBook := by
  unfold State.storeFrame
  simp

@[simp] theorem State.handOffStored_linkBook (l : Fin 4) (t : Token) (s : State) :
    (s.handOffStored l t).linkBook = s.linkBook := by
  unfold State.handOffStored
  dsimp only
  repeat' split
  all_goals simp

/-- The taking of a MOVE sets the MOVE-sent flag of its swap, of which the book says nothing. -/
@[simp] theorem State.modemTakes_linkBook (l : Fin 4) (w : Waiting) (s : State) :
    (s.modemTakes l w).linkBook = s.linkBook := by
  unfold State.modemTakes
  split
  · exact State.onLink_linkBook l _ (s.emit _) fun _ => rfl
  · exact State.handOffStored_linkBook ..
  · refine State.onSlm_linkBook _ (s.emit _) fun m => ?_
    split <;> rfl
  · rfl

@[simp] theorem State.offer_linkBook (l : Fin 4) (w : Waiting) (s : State) : (s.offer l w).linkBook = s.linkBook := by
  unfold State.offer
  split
  · exact State.modemTakes_linkBook ..
  · exact State.onLink_linkBook l _ s fun _ => rfl

@[simp] theorem State.sendDereg_linkBook (h : Nat) (t : Token) (i : Nat) (s : State) :
    (s.sendDereg h t i).linkBook = s.linkBook := by
  unfold State.sendDereg
  split <;> simp

@[simp] theorem State.sendExchange_linkBook (l : Fin 4) (h : Nat) (e : Entry) (k : ExchangeKind) (p : Nat) (r : ShoreRecord)
    (s : State) : (s.sendExchange l h e k p r).linkBook = s.linkBook := by
  unfold State.sendExchange
  simp

@[simp] theorem State.sendAsk_linkBook (l : Fin 4) (h : Nat) (s : State) : (s.sendAsk l h).linkBook = s.linkBook := by
  unfold State.sendAsk
  repeat' split
  all_goals simp

/-! ### Roaming and entries -/

@[simp] theorem State.dropExchange_linkBook (h : Nat) (s : State) : (s.dropExchange h).linkBook = s.linkBook := rfl
@[simp] theorem State.dropRegAsk_linkBook (h : Nat) (k : Option Nat) (s : State) :
    (s.dropRegAsk h k).linkBook = s.linkBook := rfl
@[simp] theorem State.beginMove_linkBook (h : Nat) (c : Nat × Nat) (s : State) : (s.beginMove h c).linkBook = s.linkBook := rfl

@[simp] theorem State.giveCandidate_linkBook (h : Nat) (s : State) : (s.giveCandidate h).linkBook = s.linkBook := by
  unfold State.giveCandidate
  repeat' split
  all_goals rfl

@[simp] theorem State.lapse_linkBook (h : Nat) (r : Bool) (s : State) : (s.lapse h r).linkBook = s.linkBook := by
  unfold State.lapse
  split <;> simp

@[simp] theorem State.voidRegistration_linkBook (h : Nat) (s : State) : (s.voidRegistration h).linkBook = s.linkBook := by
  unfold State.voidRegistration
  dsimp only
  repeat' split
  all_goals simp

@[simp] theorem State.moveCheck_linkBook (h : Nat) (s : State) : (s.moveCheck h).linkBook = s.linkBook := by
  unfold State.moveCheck
  dsimp only
  repeat' split
  all_goals simp

@[simp] theorem State.askFailed_linkBook (h : Nat) (s : State) : (s.askFailed h).linkBook = s.linkBook := by
  unfold State.askFailed
  dsimp only
  repeat' split
  all_goals simp

@[simp] theorem State.dropUnfit_linkBook (h : Nat) (s : State) : (s.dropUnfit h).linkBook = s.linkBook := by
  unfold State.dropUnfit
  split <;> rfl

@[simp] theorem State.freeBearers_linkBook (h : Nat) (s : State) : (s.freeBearers h).linkBook = s.linkBook :=
  State.linkBook_of_slm (by rw [State.freeBearers_frame])

@[simp] theorem State.rest_linkBook (h : Nat) (s : State) : (s.rest h).linkBook = s.linkBook :=
  State.linkBook_of_slm (by rw [State.rest_frame])

@[simp] theorem State.rotatePeriod_linkBook (h : Nat) (s : State) : (s.rotatePeriod h).linkBook = s.linkBook := by
  unfold State.rotatePeriod
  repeat' split
  all_goals simp

@[simp] theorem State.entriesFollow_linkBook (a b : Policy) (s : State) : (s.entriesFollow a b).linkBook = s.linkBook := by
  unfold State.entriesFollow
  repeat' split
  · rfl
  · exact State.eachEntry_linkBook _ State.rest_linkBook s
  · rw [State.eachEntry_linkBook _ State.moveCheck_linkBook, State.eachEntry_linkBook _ State.rotatePeriod_linkBook]

@[simp] theorem State.markLost_linkBook (h : Nat) (s : State) : (s.markLost h).linkBook = s.linkBook := by
  unfold State.markLost
  repeat' split
  all_goals simp

@[simp] theorem State.portFails_linkBook (p : Fin 6) (s : State) : (s.portFails p).linkBook = s.linkBook := by
  unfold State.portFails
  dsimp only
  rw [State.eachOf_linkBook _ _ State.markLost_linkBook]
  simp

@[simp] theorem State.revive_linkBook (h : Nat) (s : State) : (s.revive h).linkBook = s.linkBook := by
  unfold State.revive
  dsimp only
  repeat' split
  all_goals simp

@[simp] theorem State.reAttach_linkBook (p : Fin 6) (h : Nat) (e : Entry) (s : State) :
    (s.reAttach p h e).linkBook = s.linkBook := by
  unfold State.reAttach
  dsimp only
  repeat' split
  all_goals simp

@[simp] theorem State.removeEntry_linkBook (h : Nat) (c : RemovalCause) (r : Option CloseReason) (s : State) :
    (s.removeEntry h c r).linkBook = s.linkBook := by
  unfold State.removeEntry
  repeat' split
  all_goals simp

@[simp] theorem State.admitNew_linkBook (p : Fin 6) (a : Ask) (s : State) : (s.admitNew p a).linkBook = s.linkBook := by
  unfold State.admitNew
  dsimp only
  repeat' split
  all_goals simp

@[simp] theorem State.decideAsk_linkBook (p : Fin 6) (a : Ask) (s : State) : (s.decideAsk p a).linkBook = s.linkBook := by
  unfold State.decideAsk State.decline
  repeat' split
  all_goals simp

/-! ### Frames, and the cut-off -/

@[simp] theorem State.sendOnboard_linkBook (r : OnboardRecord) (len : Nat) (s : State) :
    (s.sendOnboard r len).linkBook = s.linkBook := by
  unfold State.sendOnboard
  split <;> rfl

@[simp] theorem State.sendShore_linkBook (h : Nat) (e : Entry) (i : Nat) (payload : List Byte) (s : State) :
    (s.sendShore h e i payload).linkBook = s.linkBook := by
  unfold State.sendShore
  dsimp only
  repeat' split
  all_goals simp

@[simp] theorem State.withdrawHead_linkBook (f : StoredFrame) (e : Option Entry) (s : State) :
    (s.withdrawHead f e).linkBook = s.linkBook := by
  unfold State.withdrawHead
  simp

@[simp] theorem State.beginCutOff_linkBook (s : State) : s.beginCutOff.linkBook = s.linkBook := by
  have hcut : s.cutOff.linkBook = (s.shedAll s.sws.frames.length).reportFall.linkBook := rfl
  rw [State.beginCutOff_eq, State.eachOf_linkBook _ _ (fun h t => State.sendLevel_linkBook h _ t), hcut,
    State.reportFall_linkBook, State.shedAll_linkBook]

/-! ### Rating -/

@[simp] theorem State.closeAll_linkBook (r : CloseReason) (s : State) : (s.closeAll r).linkBook = s.linkBook :=
  State.eachEntry_linkBook _ (State.closePeriod_linkBook r) s

@[simp] theorem State.openAll_linkBook (s : State) : s.openAll.linkBook = s.linkBook :=
  State.eachEntry_linkBook _ State.openPeriod_linkBook s

@[simp] theorem State.swapBanks_linkBook (s : State) : s.swapBanks.linkBook = s.linkBook := by
  unfold State.swapBanks
  simp

@[simp] theorem State.rollDay_linkBook (s : State) : s.rollDay.linkBook = s.linkBook := by
  unfold State.rollDay
  dsimp only
  split <;> simp

@[simp] theorem State.billAlert_linkBook (h : Nat) (s : State) : (s.billAlert h).linkBook = s.linkBook := by
  unfold State.billAlert
  split <;> simp

@[simp] theorem State.capReached_linkBook (h : Nat) (c : Bool) (s : State) : (s.capReached h c).linkBook = s.linkBook := by
  unfold State.capReached
  split <;> simp

@[simp] theorem State.unbarred_linkBook (h : Nat) (s : State) : (s.unbarred h).linkBook = s.linkBook := by
  unfold State.unbarred
  repeat' split
  all_goals simp

@[simp] theorem State.takeCap_linkBook (h v : Nat) (e : Entry) (s : State) : (s.takeCap h v e).linkBook = s.linkBook := by
  unfold State.takeCap
  dsimp only
  repeat' split
  all_goals simp

@[simp] theorem State.afterCharging_linkBook (h : Nat) (s : State) : (s.afterCharging h).linkBook = s.linkBook := by
  unfold State.afterCharging
  dsimp only
  repeat' split
  all_goals simp

@[simp] theorem State.rate_linkBook (h : Nat) (d : Direction) (b : Nat) (e : Entry) (p : Period) (s : State) :
    (s.rate h d b e p).linkBook = s.linkBook := by
  unfold State.rate
  simp

/-! ### Record memory -/

@[simp] theorem State.commitRecord_linkBook (j : WriteJob) (s : State) : (s.commitRecord j).linkBook = s.linkBook := by
  unfold State.commitRecord
  split <;> simp

@[simp] theorem State.disableBuffer_linkBook (s : State) : s.disableBuffer.linkBook = s.linkBook := by
  unfold State.disableBuffer
  simp

@[simp] theorem State.writeFailed_linkBook (slot : Nat) (s : State) : (s.writeFailed slot).linkBook = s.linkBook := by
  unfold State.writeFailed
  dsimp only
  repeat' split
  all_goals simp

@[simp] theorem State.scrambleSlot_linkBook (slot : Nat) (s : State) : (s.scrambleSlot slot).linkBook = s.linkBook :=
  State.linkBook_of_slm (by simp only [State.scrambleSlot])
@[simp] theorem State.scrambleState_linkBook (slot : Nat) (s : State) : (s.scrambleState slot).linkBook = s.linkBook :=
  State.linkBook_of_slm (by simp only [State.scrambleState])

@[simp] theorem State.rewrite_linkBook (c : MapChange) (s : State) : (s.rewrite c).linkBook = s.linkBook := by
  unfold State.rewrite
  repeat' split
  all_goals simp

@[simp] theorem State.sendSettle_linkBook (got : List (Nat × List Byte)) (s : State) :
    (s.sendSettle got).linkBook = s.linkBook := by
  unfold State.sendSettle
  dsimp only
  split <;> simp

@[simp] theorem State.sendExport_linkBook (again : Bool) (got : List (Nat × List Byte)) (s : State) :
    (s.sendExport again got).linkBook = s.linkBook := by
  unfold State.sendExport
  dsimp only
  repeat' split
  all_goals rfl

@[simp] theorem State.finishBuild_linkBook (s : State) : s.finishBuild.linkBook = s.linkBook := by
  unfold State.finishBuild
  repeat' split
  all_goals simp

@[simp] theorem State.dropUnreadable_linkBook (serial slot : Nat) (p : ReadFor) (s : State) :
    (s.dropUnreadable serial slot p).linkBook = s.linkBook := by
  unfold State.dropUnreadable
  simp

@[simp] theorem State.addRead_linkBook (serial slot : Nat) (s : State) : (s.addRead serial slot).linkBook = s.linkBook := by
  unfold State.addRead
  split <;> rfl

@[simp] theorem State.confirmBatch_linkBook (host : Bool) (s : State) : (s.confirmBatch host).linkBook = s.linkBook := by
  unfold State.confirmBatch
  simp

/-! ### Requests and replies -/

@[simp] theorem State.joinInput_linkBook (c : Instr) (s : State) : (s.joinInput c).linkBook = s.linkBook := rfl
@[simp] theorem State.complete_linkBook (kind tag : Byte) (reason : Option Reason) (clamped : Bool) (fields : List Byte)
    (s : State) : (s.complete kind tag reason clamped fields).linkBook = s.linkBook := rfl
@[simp] theorem State.ok_linkBook (kind tag : Byte) (clamped : Bool) (fields : List Byte) (s : State) :
    (s.ok kind tag clamped fields).linkBook = s.linkBook := rfl
@[simp] theorem State.refuse_linkBook (kind tag : Byte) (reason : Reason) (s : State) :
    (s.refuse kind tag reason).linkBook = s.linkBook := rfl
@[simp] theorem State.refuseClamped_linkBook (kind tag : Byte) (clamped : Bool) (reason : Reason) (s : State) :
    (s.refuseClamped kind tag clamped reason).linkBook = s.linkBook := rfl

@[simp] theorem State.receive_linkBook (fuel : Nat) (s : State) : (s.receive fuel).linkBook = s.linkBook := by
  induction fuel generalizing s with
  | zero => rfl
  | succ n ih =>
    unfold State.receive
    split <;> simp [ih]

end Sys2Proof.Machine
end

