-- ==== Sys2Proof/Proofs/LinkMoves.lean ====
section
/-! SUPPORT. What moves a link or turns a swap, and that the account of the links stays right (R78, R81, R84, R90, R94, R98, R99,
R101, R103 to R106). -/

namespace Sys2Proof.Machine

/-! ### Moves of the book -/

/-- Link `l` takes state `new`. -/
def LinkBook.enter (l : Fin 4) (new : LinkState) (b : LinkBook) : LinkBook :=
  { b with states := Function.update b.states l new }

/-- A swap to link `l` begins (R99). -/
def LinkBook.begin (l : Fin 4) (from_ : Option (Fin 4)) (b : LinkBook) : LinkBook :=
  { b.enter l .joining with inProgress := true, fromLink := from_, toLink := some l }

/-- The swap is over, done or failed (R101, R103, R105). -/
def LinkBook.over (b : LinkBook) : LinkBook := { b with inProgress := false }

/-- A swap in progress from link `l` goes on without a from-link (R104). -/
def LinkBook.turned (l : Fin 4) (b : LinkBook) : LinkBook :=
  if b.inProgress && b.fromLink == some l then { b with fromLink := none } else b

/-- The swap to link `l` is done: `l` is ACTIVE and the from-link DRAINING (R101). -/
def LinkBook.done (l : Fin 4) (b : LinkBook) : LinkBook :=
  let arrived := b.over.enter l .active
  match b.fromLink with
  | some f => arrived.enter f .draining
  | none => arrived

@[simp] theorem LinkBook.enter_states (l k : Fin 4) (new : LinkState) (b : LinkBook) :
    (b.enter l new).states k = if k = l then new else b.states k := by
  simp [LinkBook.enter, Function.update_apply]

/-! ### Moves that keep the account -/

/-- A link that takes a state other than ACTIVE and JOINING breaks nothing. -/
theorem LinkBook.ok.enter {b : LinkBook} (hb : b.ok) (l : Fin 4) {new : LinkState} (hactive : new ≠ .active)
    (hjoining : new ≠ .joining) : (b.enter l new).ok := by
  have hstays {k : Fin 4} {st : LinkState} (hne : new ≠ st) (hk : (b.enter l new).states k = st) : b.states k = st := by
    rw [LinkBook.enter_states] at hk
    split at hk
    · exact absurd hk hne
    · exact hk
  exact ⟨fun k k' hk hk' => hb.one k k' (hstays hactive hk) (hstays hactive hk'),
    fun k hk hswap => hb.active k (hstays hactive hk) hswap, fun k hk => hb.joining k (hstays hjoining hk)⟩

/-- A swap begins while none is in progress, with the ACTIVE link, where there is one, as its from-link. -/
theorem LinkBook.ok.begin {b : LinkBook} (hb : b.ok) (hswap : b.inProgress = false) (l : Fin 4) {from_ : Option (Fin 4)}
    (hfrom : ∀ a, b.states a = .active → from_ = some a) : (b.begin l from_).ok := by
  have hstays {k : Fin 4} (hk : (b.begin l from_).states k = .active) : b.states k = .active := by
    rw [LinkBook.begin, LinkBook.enter_states] at hk
    split at hk
    · cases hk
    · exact hk
  refine ⟨fun k k' hk hk' => hb.one k k' (hstays hk) (hstays hk'), fun k hk _ => hfrom k (hstays hk), fun k hk => ?_⟩
  rw [LinkBook.begin, LinkBook.enter_states] at hk
  split at hk
  · next h => exact ⟨rfl, congrArg some h.symm⟩
  · have hwas := (hb.joining k hk).1
    rw [hswap] at hwas
    cases hwas

/-- A swap is over once its to-link has left JOINING. -/
theorem LinkBook.ok.over {b : LinkBook} (hb : b.ok) (hto : ∀ l, b.toLink = some l → b.states l ≠ .joining) : b.over.ok :=
  ⟨hb.one, fun _ _ hswap => Bool.noConfusion hswap, fun l hl => absurd hl (hto l (hb.joining l hl).2)⟩

/-- A swap loses a from-link that is no longer ACTIVE. -/
theorem LinkBook.ok.turned {b : LinkBook} (hb : b.ok) {l : Fin 4} (hl : b.states l ≠ .active) : (b.turned l).ok := by
  unfold LinkBook.turned
  split
  · next hfrom =>
    rw [Bool.and_eq_true, beq_iff_eq] at hfrom
    refine ⟨hb.one, fun k hk hswap => ?_, hb.joining⟩
    obtain rfl : l = k := Option.some.inj (hfrom.2.symm.trans (hb.active k hk hswap))
    exact absurd hk hl
  · exact hb

/-- A swap in progress is done: the ACTIVE link before it was its from-link, which now drains. -/
theorem LinkBook.ok.done {b : LinkBook} (hb : b.ok) (hswap : b.inProgress = true) {l : Fin 4} (hto : b.toLink = some l) :
    (b.done l).ok := by
  have hstays {k : Fin 4} (hk : (b.done l).states k = .active) : k = l := by
    by_contra hne
    unfold LinkBook.done at hk
    split at hk
    · next f hfrom =>
      rw [LinkBook.enter_states, LinkBook.enter_states, if_neg hne] at hk
      split at hk
      · cases hk
      · next hkf => exact hkf (Option.some.inj ((hb.active k hk hswap).symm.trans hfrom))
    · next hfrom =>
      rw [LinkBook.enter_states, if_neg hne] at hk
      have hwas := hb.active k hk hswap
      rw [hfrom] at hwas
      cases hwas
  have hover : (b.done l).inProgress = false := by
    unfold LinkBook.done
    split <;> rfl
  have hjoining (k : Fin 4) : (b.done l).states k ≠ .joining := by
    intro hk
    have hback : b.states k = .joining ∧ k ≠ l := by
      unfold LinkBook.done at hk
      split at hk
      · rw [LinkBook.enter_states, LinkBook.enter_states] at hk
        split at hk
        · cases hk
        · split at hk
          · cases hk
          · next hne => exact ⟨hk, hne⟩
      · rw [LinkBook.enter_states] at hk
        split at hk
        · cases hk
        · next hne => exact ⟨hk, hne⟩
    exact hback.2 (Option.some.inj ((hb.joining k hback.1).2.symm.trans hto))
  refine ⟨fun k k' hk hk' => (hstays hk).trans (hstays hk').symm, fun k _ hin => ?_, fun k hk => absurd hk (hjoining k)⟩
  rw [hover] at hin
  cases hin

/-! ### What the operations do to the book -/

/-- An update of one link that gives it state `new`. -/
theorem State.onLink_enters {l : Fin 4} {new : LinkState} (f : Link → Link) (s : State) (hf : ∀ k, (f k).state = new) :
    (s.onLink l f).linkBook = s.linkBook.enter l new := by
  have hstates : (s.onLink l f).linkBook.states = (s.linkBook.enter l new).states := by
    funext k
    rw [State.linkBook_states, State.link_onLink, LinkBook.enter_states, State.linkBook_states]
    simp only [eq_comm (a := k)]
    split
    · exact hf _
    · rfl
  exact congrArg (fun states : Fin 4 → LinkState => { s.linkBook with states := states }) hstates

@[simp] theorem State.enterState_linkBook (l : Fin 4) (new : LinkState) (s : State) :
    (s.enterState l new).linkBook = s.linkBook.enter l new := State.onLink_enters _ s fun _ => rfl

@[simp] theorem State.leaveFor_linkBook (l : Fin 4) (new : LinkState) (cause : LinkCause) (quietly : Bool) (s : State) :
    (s.leaveFor l new cause quietly).linkBook = s.linkBook.enter l new :=
  (State.linkBook_of_slm (s.leaveFor_slm l new cause quietly).1).trans (State.onLink_enters _ s fun _ => rfl)

@[simp] theorem State.startProbe_linkBook (l : Fin 4) (cause : LinkCause) (s : State) :
    (s.startProbe l cause).linkBook = s.linkBook.enter l .probing := by
  have hopened : (s.probeOpened l cause).linkBook = s.linkBook.enter l .probing := by
    unfold State.probeOpened
    dsimp only
    split
    all_goals
      rw [State.enterState_eq, State.onLink_onLink]
      exact State.onLink_enters _ s fun _ => rfl
  rw [State.startProbe_eq, State.offer_linkBook, hopened]

theorem State.beginSwap_linkBook (l : Fin 4) (planned : Bool) (s : State) :
    (s.beginSwap l planned).linkBook = s.linkBook.begin l (if planned then s.activeLink? else none) := by
  have hstates : (s.beginSwap l planned).linkBook.states = (s.linkBook.enter l .joining).states := by
    funext k
    rw [State.linkBook_states, State.beginSwap_link, LinkBook.enter_states, State.linkBook_states]
    simp only [eq_comm (a := k)]
    split <;> rfl
  have hswap := (s.beginSwap_swap l planned).1
  have hbook : (s.beginSwap l planned).linkBook = ⟨(s.beginSwap l planned).linkBook.states,
      (s.swapTo l planned).inProgress, (s.swapTo l planned).fromLink, (s.swapTo l planned).toLink⟩ := by
    rw [← hswap]
    rfl
  rw [hbook, hstates]
  rfl

@[simp] theorem State.failSwap_linkBook (lost : Bool) (s : State) : (s.failSwap lost).linkBook = s.linkBook.over := rfl

@[simp] theorem State.turned_linkBook (l : Fin 4) (s : State) : (s.turned l).linkBook = s.linkBook.turned l := by
  have hsame : (s.linkBook.inProgress && s.linkBook.fromLink == some l) =
    (s.slm.swap.inProgress && s.slm.swap.fromLink == some l) := rfl
  unfold State.turned LinkBook.turned
  rw [hsame]
  split <;> rfl

@[simp] theorem State.beginIsolation_linkBook (lost : Option (Fin 4)) (cause : LossCause) (s : State) :
    (s.beginIsolation lost cause).linkBook = s.linkBook := by
  have hisolate : (s.isolate lost cause).linkBook = s.linkBook := rfl
  rw [State.beginIsolation_eq]
  split
  · rw [State.beginCutOff_linkBook, hisolate]
  · exact hisolate

@[simp] theorem State.endIsolation_linkBook (l : Fin 4) (s : State) : (s.endIsolation l).linkBook = s.linkBook := by
  unfold State.endIsolation
  split
  · rfl
  · dsimp only
    split
    · rw [State.eachOf_linkBook _ _ fun h t => State.sendLevel_linkBook h _ t]
      rfl
    · rfl

@[simp] theorem State.activeFails_linkBook (l : Fin 4) (new : LinkState) (cause : LossCause) (s : State) :
    (s.activeFails l new cause).linkBook = (s.linkBook.enter l new).turned l := by
  have hleft : (s.activeLeft l new cause).linkBook = (s.linkBook.enter l new).turned l := by
    rw [State.activeLeft, State.turned_linkBook, State.leaveFor_linkBook]
  rw [State.activeFails_eq]
  dsimp only
  split
  · rw [State.beginIsolation_linkBook, hleft]
  · exact hleft

/-! ### Selection -/

theorem State.linkBook_active {s : State} (hs : s.linkBook.ok) {a : Fin 4} (ha : s.linkBook.states a = .active) :
    s.activeLink? = some a := by
  cases hactive : s.activeLink? with
  | none => exact absurd ha (State.activeLink?_eq_none.1 hactive a)
  | some b => rw [hs.one a b ha (State.link_of_active hactive)]

/-- A swap that selection begins has the ACTIVE link, where there is one, as its from-link. -/
theorem State.beginSwap_linksOk {s : State} (hs : s.linkBook.ok) (hswap : s.slm.swap.inProgress = false) (l : Fin 4) :
    (s.beginSwap l s.activeLink?.isSome).linkBook.ok := by
  rw [State.beginSwap_linkBook]
  refine hs.begin hswap l fun a ha => ?_
  rw [State.linkBook_active hs ha]
  rfl

theorem State.workOut_linksOk {s : State} (hs : s.linkBook.ok) : s.workOut.linkBook.ok := by
  obtain ⟨r, hsettles⟩ | ⟨d, _, _, hswap, _, hbegins⟩ := s.workOut_cases
  · rw [hsettles]
    exact hs
  · rw [hbegins]
    exact State.beginSwap_linksOk hs hswap d

/-! ### Links that leave -/

/-- A link goes to PROBING, and selection is worked out again (R83, R94). -/
theorem State.startProbe_linksOk {s : State} (hs : s.linkBook.ok) (l : Fin 4) (cause : LinkCause) :
    (s.startProbe l cause).workOut.linkBook.ok :=
  State.workOut_linksOk (by
    rw [State.startProbe_linkBook]
    exact hs.enter l (by decide) (by decide))

theorem State.activeFails_linksOk {s : State} (hs : s.linkBook.ok) (l : Fin 4) {new : LinkState} (cause : LossCause)
    (hactive : new ≠ .active) (hjoining : new ≠ .joining) : (s.activeFails l new cause).linkBook.ok := by
  rw [State.activeFails_linkBook]
  refine (hs.enter l hactive hjoining).turned ?_
  rw [LinkBook.enter_states, if_pos rfl]
  exact hactive

/-- The to-link gone for a state that carries nothing, the swap fails (R103, R105). -/
theorem State.failSwap_linksOk {s : State} (hs : s.linkBook.ok) {l : Fin 4} (hto : s.slm.swap.toLink = some l)
    (hl : (s.link l).state ≠ .joining) (lost : Bool) : (s.failSwap lost).linkBook.ok := by
  rw [State.failSwap_linkBook]
  refine hs.over fun k hk => ?_
  obtain rfl : l = k := Option.some.inj (hto.symm.trans hk)
  exact hl

theorem State.concludeProbe_linksOk {s : State} (hs : s.linkBook.ok) (l : Fin 4) (p : Probe) (early : Bool) :
    (s.concludeProbe l p early).linkBook.ok := by
  have hjudged (passed : Bool) : (s.onLink l (Link.judged p passed)).linkBook = s.linkBook :=
    State.onLink_linkBook l _ s fun _ => rfl
  rw [State.concludeProbe_eq]
  refine State.workOut_linksOk ?_
  split
  · rw [State.leaveFor_linkBook, hjudged]
    exact hs.enter l (by decide) (by decide)
  · rw [State.leaveFor_linkBook, hjudged]
    exact hs.enter l (by decide) (by decide)

theorem State.judgeProbe_linksOk {s : State} (hs : s.linkBook.ok) (l : Fin 4) : (s.judgeProbe l).linkBook.ok := by
  unfold State.judgeProbe
  repeat' split
  · exact hs
  · exact State.concludeProbe_linksOk hs ..
  · exact State.concludeProbe_linksOk hs ..
  · exact hs

theorem State.goAbsent_linksOk {s : State} (hs : s.linkBook.ok) (l : Fin 4) (cause : LossCause) :
    (s.goAbsent l cause).linkBook.ok := by
  have hgiven : (s.onLink l Link.givenUp).linkBook = s.linkBook := State.onLink_linkBook l _ s fun _ => rfl
  have hgone : (s.gone l cause).linkBook.ok := by
    unfold State.gone
    split
    · refine State.activeFails_linksOk ?_ l cause (by decide) (by decide)
      rw [hgiven]
      exact hs
    · rw [State.leaveFor_linkBook, hgiven]
      exact hs.enter l (by decide) (by decide)
  rw [State.goAbsent_eq]
  refine State.workOut_linksOk ?_
  split
  · next htarget =>
    rw [Bool.and_eq_true, beq_iff_eq] at htarget
    refine State.failSwap_linksOk hgone htarget.2 ?_ true
    rw [State.gone_link]
    exact LinkState.noConfusion
  · exact hgone

/-! ### A swap is done -/

/-- The swap's record closed as done (R101). -/
def Slm.swapClosed (m : Slm) : Slm :=
  { m with
    swap := { m.swap with inProgress := false, ackExpiry := none, lastOutcome := some .done },
    counters := { m.counters with done := bump32 m.counters.done } }

/-- The to-link ACTIVE, and told of (R95, R101). -/
def State.swapArrived (to_ : Fin 4) (s : State) : State :=
  ((s.onSlm Slm.swapClosed).enterState to_ .active).linkChanged to_ (s.link to_).reported .active .swap

/-- The from-link, where there is one, DRAINING, and told of (R95, R106). -/
def State.drained : Option (Fin 4) → State → State
  | some f, s => ((s.dropWaiting f false).enterState f .draining).linkChanged f .active .draining .swap
  | none, s => s

/-- The swap done and told of, before isolation and selection are looked at (R101, R108). -/
def State.swapEnded (to_ : Fin 4) (s : State) : State :=
  let t := (s.swapArrived to_).drained s.slm.swap.fromLink
  t.raise (.swapDone s.slm.swap.number (s.slm.swap.planned.getD false) s.slm.swap.fromLink to_ (t.now - s.slm.swap.startedAt)
    (occupancy t.sws.frames) t.sws.frames.length t.mli.shipTime 1)

theorem State.completeSwap_eq (to_ : Fin 4) (s : State) :
    s.completeSwap to_ = ((s.swapEnded to_).endIsolation to_).workOut := by
  unfold State.completeSwap State.swapEnded State.drained
  dsimp only
  cases s.slm.swap.fromLink <;> rfl

theorem State.swapArrived_linkBook (to_ : Fin 4) (s : State) :
    (s.swapArrived to_).linkBook = s.linkBook.over.enter to_ .active := by
  have hclosed : (s.onSlm Slm.swapClosed).linkBook = s.linkBook.over := rfl
  rw [State.swapArrived, State.linkChanged_linkBook, State.enterState_linkBook, hclosed]

theorem State.drained_linkBook (f : Fin 4) (s : State) : (s.drained (some f)).linkBook = s.linkBook.enter f .draining := by
  have hdropped : (s.dropWaiting f false).linkBook = s.linkBook :=
    (State.linkBook_of_slm (s.dropWaiting_slm f false).1).trans (State.onLink_linkBook f _ s fun _ => rfl)
  rw [State.drained, State.linkChanged_linkBook, State.enterState_linkBook, hdropped]

theorem State.swapEnded_linkBook (to_ : Fin 4) (s : State) : (s.swapEnded to_).linkBook = s.linkBook.done to_ := by
  have hfrom : s.linkBook.fromLink = s.slm.swap.fromLink := rfl
  rw [State.swapEnded, State.raise_linkBook, LinkBook.done, hfrom, ← State.swapArrived_linkBook]
  cases s.slm.swap.fromLink with
  | none => rfl
  | some f => exact State.drained_linkBook f _

theorem State.completeSwap_linksOk {s : State} (hs : s.linkBook.ok) (hswap : s.slm.swap.inProgress = true) {l : Fin 4}
    (hto : s.slm.swap.toLink = some l) : (s.completeSwap l).linkBook.ok := by
  rw [State.completeSwap_eq]
  refine State.workOut_linksOk ?_
  rw [State.endIsolation_linkBook, State.swapEnded_linkBook]
  exact hs.done hswap hto

/-! ### Verdicts and START -/

theorem State.changeVerdict_linksOk {s : State} (new : Option VerdictZone) (cause : ZoneCause) (d : Option Nat)
    (hs : s.linkBook.ok) : (s.changeVerdict new cause d).linkBook.ok := by
  rw [State.changeVerdict_eq]
  refine State.workOut_linksOk ?_
  rw [State.entriesFollow_linkBook, State.published, State.sendOrders_linkBook, State.raise_linkBook]
  exact hs

theorem State.endHold_linksOk {s : State} (hs : s.linkBook.ok) : s.endHold.linkBook.ok :=
  State.endHold_keeps (P := fun t => t.linkBook.ok) hs (fun _ _ h => h) fun _ c why d => State.changeVerdict_linksOk c why d

theorem State.beginHold_linksOk {s : State} (hs : s.linkBook.ok) : s.beginHold.linkBook.ok :=
  State.beginHold_keeps (P := fun t => t.linkBook.ok) hs (fun _ _ h => h) fun _ c why d => State.changeVerdict_linksOk c why d

theorem State.takeFix_linksOk {s : State} (q : Quality) (d : Nat) (hs : s.linkBook.ok) : (s.takeFix q d).linkBook.ok :=
  State.takeFix_keeps (P := fun t => t.linkBook.ok) q d hs (fun _ _ h => h) (fun _ _ h => h)
    fun _ c why d => State.changeVerdict_linksOk c why d

theorem State.startDevice_linksOk {s : State} (hs : s.linkBook.ok) : s.startDevice.linkBook.ok := by
  have hselected : s.startedUp.workOut.linkBook.ok := State.workOut_linksOk hs
  rw [State.startDevice_eq]
  split
  · rw [State.beginIsolation_linkBook]
    exact hselected
  · exact hselected

/-! ### The links at their reset values -/

/-- After a reset every link is ABSENT (R97). -/
theorem State.linksOk_of_initial {s : State} {m : Slm} (h : s.slm = Slm.initial m.resetLinks) : s.linkBook.ok := by
  have habsent (l : Fin 4) : s.linkBook.states l = .absent := by
    rw [State.linkBook_states, State.link, h]
    revert l
    simp only [Fin.forall_fin_succ, Slm.initial, Slm.resetLinks]
    exact ⟨rfl, rfl, rfl, rfl, fun i => i.elim0⟩
  refine ⟨fun l _ hl => ?_, fun l hl => ?_, fun l hl => ?_⟩
  all_goals
    rw [habsent] at hl
    cases hl

end Sys2Proof.Machine
end

