-- ==== Sys2Proof/Proofs/LinkAccount.lean ====
section
/-! SUPPORT. The commands and the account of the links (R98): most leave the book as it is, and those that move a link or turn a
swap keep the account. -/

namespace Sys2Proof.Machine

/-! ### Commands by the way they are taken -/

/-- A command whose effect leaves the book leaves it. -/
theorem effect_linkBook {s t : State} {f : State → State} (ht : whenPowered s f = .next t)
    (hf : ∀ s, (f s).linkBook = s.linkBook) : t.linkBook = s.linkBook :=
  whenPowered_keeps (P := fun t => t.linkBook = s.linkBook) ht rfl (fun u => (hf u).trans)

/-- A request whose own rule leaves the book leaves it. -/
theorem request_linkBook {α : Type} {c : Instr} {kind : Byte} {r : Request α} {query : Bool} {cl wf : α → Bool}
    {own : α → State → State} {s t : State} (ht : takeRequest c s (checkedClamped kind r query cl wf own) = .next t)
    (hf : ∀ b s, (own b s).linkBook = s.linkBook) : t.linkBook = s.linkBook :=
  takeRequest_keeps (P := fun t => t.linkBook = s.linkBook) ht rfl (fun _ h => h)
    (fun _ => checkedClamped_keeps (P := fun t => t.linkBook = s.linkBook) (fun _ _ _ _ h => h)
      (fun b u _ => (hf b u).trans))

/-- A request whose own rule keeps the account keeps it. -/
theorem request_linksOk {α : Type} {c : Instr} {kind : Byte} {r : Request α} {query : Bool} {cl wf : α → Bool}
    {own : α → State → State} {s t : State} (ht : takeRequest c s (checkedClamped kind r query cl wf own) = .next t)
    (hs : s.linkBook.ok) (hf : ∀ b s, s.linkBook.ok → (own b s).linkBook.ok) : t.linkBook.ok :=
  takeRequest_keeps (P := fun t => t.linkBook.ok) ht hs (fun _ h => h)
    (fun _ => checkedClamped_keeps (P := fun t => t.linkBook.ok) (fun _ _ _ _ h => h) (fun b u _ => hf b u))

theorem effect_linksOk {s t : State} {f : State → State} (ht : whenPowered s f = .next t) (hs : s.linkBook.ok)
    (hf : ∀ s, s.linkBook.ok → (f s).linkBook.ok) : t.linkBook.ok :=
  whenPowered_keeps (P := fun t => t.linkBook.ok) ht hs hf

/-- A timer's act that keeps the account keeps it whether or not the expiry has come. -/
theorem State.atExpiry_linksOk {e : Nat} {act : State → State} {s : State} (hs : s.linkBook.ok) (hact : (act s).linkBook.ok) :
    (s.atExpiry e act).linkBook.ok := by
  obtain ⟨_, h⟩ | ⟨_, h⟩ := State.atExpiry_cases e act s
  · rw [h]; exact hs
  · rw [h]; exact hact

@[simp] theorem State.atExpiry_linkBook (e : Nat) (act : State → State) (s : State)
    (h : (act s).linkBook = s.linkBook) : (s.atExpiry e act).linkBook = s.linkBook := by
  obtain ⟨_, h'⟩ | ⟨_, h'⟩ := State.atExpiry_cases e act s
  · rw [h']
  · rw [h', h]

@[simp] theorem State.onRecord_linkBook (p : Fin 6) (wf : Bool) (act : State → State) (s : State)
    (h : (act s).linkBook = s.linkBook) : (s.onRecord p wf act).linkBook = s.linkBook := by
  unfold State.onRecord
  split
  · rfl
  · split
    · rfl
    · exact h

@[simp] theorem State.onShoreRecord_linkBook (l : Fin 4) (act : State → State) (s : State)
    (h : (act s).linkBook = s.linkBook) : (s.onShoreRecord l act).linkBook = s.linkBook := by
  unfold State.onShoreRecord
  split
  · exact h
  · exact State.countLink_linkBook l _ s

@[simp] theorem State.onAnswer_linkBook (l : Fin 4) (h : Nat) (token : Token) (kind : ExchangeKind) (partner : Nat)
    (act : Entry → State → State) (s : State) (ha : ∀ e s, (act e s).linkBook = s.linkBook) :
    (s.onAnswer l h token kind partner act).linkBook = s.linkBook := by
  apply State.onShoreRecord_linkBook
  repeat' split
  all_goals simp [ha]

/-! ### Commands that leave the book -/

/-- The commands that may move a link or turn a swap. -/
def Instr.movesLinks : Instr → Prop
  | .start _ | .resetComplete | .fix _ | .thawZone _ | .loadZones _ | .configureLinkShore _ | .pinLink _ | .powerOn
  | .powerLoss | .holdExpiry | .shoreCarrierLost _ | .shoreCarrierReturn _ | .echoBack _ _ _ _ | .echoWindowEnd _ _
  | .keepaliveDue _ | .holddownExpiry _ | .reprobeExpiry _ | .settleTimerExpiry | .moveAck _ _ | .moveAckTimerExpiry
  | .drainingGuardExpiry _ => True
  | _ => False

/-- Every other command leaves the book of the links. The commands stand grouped by the way they are taken: requests, then what
comes over a port or from a timer. -/
theorem exec_linkBook {c : Instr} {s t : State} (hc : ¬ Instr.movesLinks c) (ht : exec c s = .next t) :
    t.linkBook = s.linkBook := by
  cases c <;> try exact absurd trivial hc
  all_goals dsimp only [exec] at ht
  case hostClearToSend | localCarrierChange => cases ht; rfl
  case modemNotReady =>
    cases ht
    exact State.onLink_linkBook _ _ s fun _ => rfl
  case modemReady =>
    dsimp only [execModemReady] at ht
    refine (effect_linkBook ht fun s => ?_).trans (State.onLink_linkBook _ _ s fun _ => rfl)
    split <;> simp
  case unknownKindRequest =>
    exact takeRequest_keeps (P := fun t => t.linkBook = s.linkBook) ht rfl (fun _ h => h) (fun _ h => h)
  case loadPartnersPart | loadPartnersLast =>
    refine takeRequest_keeps (P := fun t => t.linkBook = s.linkBook) ht rfl (fun _ h => h) (fun u hu => Eq.trans ?_ hu)
    dsimp only
    repeat' split
    all_goals simp [State.takePartners]
  case reset | setTime | freezeZone | configureLinkCell | loadTariffPlan | commitTariffNow | commitTariffAtDayRoll | dayRoll
      | setBilling | setCap | setClass | evict | queryZone | queryLinkCell | queryLinkShore | queryLinkManagement
      | querySubscriberSingle | querySubscriberSummary | queryStore | setDelivery | exportRecords | confirmExport
      | flushRecords =>
    refine request_linkBook ht fun b s => ?_
    repeat' split
    all_goals simp
  case attachAsk | depart | headResync | bearerOpen | bearerClose | upFrame =>
    refine effect_linkBook ht fun s => State.onRecord_linkBook _ _ _ s ?_
    repeat' split
    all_goals simp [State.decline, State.refuseBearer]
  case shoreDown | settleAck =>
    refine effect_linkBook ht fun s => State.onShoreRecord_linkBook _ _ s ?_
    repeat' split
    all_goals simp
  case regOk | regRefused | refreshOk | refreshRefused =>
    refine effect_linkBook ht fun s => State.onAnswer_linkBook _ _ _ _ _ _ _ fun e s => ?_
    repeat' split
    all_goals simp
  case exchangeTimerExpiry | fixTimerExpiry =>
    refine effect_linkBook ht fun s => ?_
    split
    · rfl
    · apply State.atExpiry_linkBook
      dsimp only
      split <;> simp [State.freeze]
  case batchTimerExpiry =>
    refine effect_linkBook ht fun s => ?_
    split
    · rfl
    · exact State.atExpiry_linkBook _ _ s rfl
  case refreshDue =>
    refine effect_linkBook ht fun s => ?_
    split
    · rfl
    · split
      · split
        · rfl
        · apply State.atExpiry_linkBook
          dsimp only
          split <;> simp
      · rfl
  case meteredAddition | powerOnScanEnd | probeEchoDue | pacerSend =>
    refine effect_linkBook ht fun s => ?_
    dsimp only
    repeat' split
    all_goals simp
  case' localDown => unfold execLocalDown at ht
  all_goals
    refine effect_linkBook ht fun s => ?_
    repeat' split
    all_goals simp [apply_ite State.linkBook]

/-! ### Commands that move a link -/

theorem State.onLink_linksOk {s : State} (hs : s.linkBook.ok) {l : Fin 4} {f : Link → Link}
    (hf : ∀ k, (f k).state = k.state) : (s.onLink l f).linkBook.ok := by
  rw [State.onLink_linkBook l f s hf]
  exact hs

/-- A configured link starts to probe, goes ABSENT, or stays, and selection is worked out again (R78). -/
theorem State.afterConfigure_linksOk {s : State} (hs : s.linkBook.ok) (l : Fin 4) (on was : Bool) :
    (s.afterConfigure l on was).linkBook.ok := by
  unfold State.afterConfigure
  repeat' split
  · exact State.startProbe_linksOk hs l .enabled
  · exact State.workOut_linksOk hs
  · exact State.workOut_linksOk (State.onLink_linksOk hs fun _ => rfl)
  · exact State.goAbsent_linksOk hs l .disabled
  · exact State.workOut_linksOk hs

section Commands
variable {s t : State} (hs : s.linkBook.ok)
include hs

theorem execStart_linksOk {r : Request Unit} (ht : execStart r s = .next t) : t.linkBook.ok := by
  refine request_linksOk ht hs fun b s hs => ?_
  split
  · exact hs
  · split
    · exact hs
    · exact State.startDevice_linksOk hs

theorem execFix_linksOk {r : Request FixBody} (ht : execFix r s = .next t) : t.linkBook.ok := by
  rw [execFix_eq] at ht
  refine request_linksOk ht hs fun b s hs => ?_
  rw [State.ok_linkBook]
  unfold State.applyFix
  split
  · exact State.takeFix_linksOk _ _ hs
  · exact hs

theorem execThawZone_linksOk {r : Request Unit} (ht : execThawZone r s = .next t) : t.linkBook.ok := by
  refine request_linksOk ht hs fun b s hs => ?_
  rw [State.ok_linkBook]
  split
  · dsimp only
    split
    · exact State.beginHold_linksOk hs
    · exact hs
  · exact hs

theorem execLoadZones_linksOk {r : Request LoadZonesBody} (ht : execLoadZones r s = .next t) : t.linkBook.ok := by
  refine request_linksOk ht hs fun b s hs => ?_
  dsimp only
  repeat' split
  · exact hs
  · exact hs
  · exact State.changeVerdict_linksOk none .tableLoad none hs
  · exact hs

theorem execHoldExpiry_linksOk (ht : execHoldExpiry s = .next t) : t.linkBook.ok := by
  refine effect_linksOk ht hs fun s hs => ?_
  split
  · exact hs
  · exact State.atExpiry_linksOk hs (State.endHold_linksOk hs)

theorem execConfigureLinkShore_linksOk {r : Request ShoreConfig} (ht : execConfigureLinkShore r s = .next t) :
    t.linkBook.ok := by
  refine request_linksOk ht hs fun b u hu => ?_
  split
  · next hport =>
    exact State.afterConfigure_linksOk (s := u.onLink ⟨b.port, hport⟩ (linkConfigured b))
      (State.onLink_linksOk hu fun _ => rfl) ⟨b.port, hport⟩ b.enabled (u.link ⟨b.port, hport⟩).enabled
  · exact hu

theorem execPinLink_linksOk {r : Request PinBody} (ht : execPinLink r s = .next t) : t.linkBook.ok :=
  request_linksOk ht hs fun _ _ hs => State.workOut_linksOk hs

theorem execShoreCarrierLost_linksOk {l : Fin 4} (ht : execShoreCarrierLost l s = .next t) : t.linkBook.ok := by
  dsimp only [execShoreCarrierLost] at ht
  refine effect_linksOk ht (State.onLink_linksOk hs fun _ => rfl) fun s hs => ?_
  split
  · exact hs
  · refine State.goAbsent_linksOk ?_ l .carrierLost
    rw [State.countLink_linkBook]
    exact hs

theorem execShoreCarrierReturn_linksOk {l : Fin 4} (ht : execShoreCarrierReturn l s = .next t) : t.linkBook.ok := by
  dsimp only [execShoreCarrierReturn] at ht
  refine effect_linksOk ht (State.onLink_linksOk hs fun _ => rfl) fun s hs => ?_
  split
  · exact State.startProbe_linksOk hs l .carrierUp
  · exact hs

/-- An ECHO-BACK that answers a probe's echo may conclude the probe; no other moves a link (R84). -/
theorem execEchoBack_linksOk {l : Fin 4} {number seq : Nat} {purpose : Purpose}
    (ht : execEchoBack l number seq purpose s = .next t) : t.linkBook.ok := by
  refine effect_linksOk ht hs fun s hs => ?_
  have hcounted (f : LinkCounters → LinkCounters) : (s.countLink l f).linkBook.ok := State.onLink_linksOk hs fun _ => rfl
  extract_lets k takes
  split
  · exact hcounted _
  split
  · exact hcounted _
  split
  · next o _ =>
    cases purpose with
    | probe =>
      exact State.judgeProbe_linksOk (s := s.onLink l (Link.probeAnswered seq (s.mli.clock - o.sentAt)))
        (State.onLink_linksOk hs fun _ => rfl) l
    | keepalive =>
      refine State.onLink_linksOk hs ?_
      exact fun _ => rfl
  split
  · exact hcounted _
  · exact hcounted _

theorem execEchoWindowEnd_linksOk {l : Fin 4} {seq : Nat} (ht : execEchoWindowEnd l seq s = .next t) : t.linkBook.ok := by
  refine effect_linksOk ht hs fun s hs => ?_
  split
  · exact hs
  · exact State.atExpiry_linksOk hs
      (State.judgeProbe_linksOk (s := s.onLink l (Link.probeTimedOut seq)) (State.onLink_linksOk hs fun _ => rfl) l)

theorem execKeepaliveDue_linksOk {l : Fin 4} (ht : execKeepaliveDue l s = .next t) : t.linkBook.ok := by
  refine effect_linksOk ht hs fun s hs => ?_
  split
  · refine State.atExpiry_linksOk hs ?_
    dsimp only
    split
    · refine State.workOut_linksOk (State.activeFails_linksOk ?_ l .keepaliveLost (by decide) (by decide))
      rw [State.countLink_linkBook]
      refine State.onLink_linksOk hs ?_
      exact fun _ => rfl
    · rw [State.offer_linkBook]
      refine State.onLink_linksOk (State.onLink_linksOk hs ?_) ?_
      all_goals exact fun _ => rfl
  · exact hs

theorem execHolddownExpiry_linksOk {l : Fin 4} (ht : execHolddownExpiry l s = .next t) : t.linkBook.ok := by
  refine effect_linksOk ht hs fun s hs => ?_
  split
  · exact State.atExpiry_linksOk hs (State.startProbe_linksOk hs l .holddownEnd)
  · exact hs

theorem execReprobeExpiry_linksOk {l : Fin 4} (ht : execReprobeExpiry l s = .next t) : t.linkBook.ok := by
  refine effect_linksOk ht hs fun s hs => ?_
  split
  · exact State.atExpiry_linksOk hs (State.startProbe_linksOk hs l .probePass)
  · exact hs

theorem execSettleTimerExpiry_linksOk (ht : execSettleTimerExpiry s = .next t) : t.linkBook.ok := by
  refine effect_linksOk ht hs fun s hs => ?_
  split
  · exact hs
  · next r _ =>
    refine State.atExpiry_linksOk hs ?_
    dsimp only
    split
    · next hstands =>
      simp only [Bool.and_eq_true, Bool.not_eq_true'] at hstands
      obtain ⟨⟨⟨⟨_, hswap⟩, hactive⟩, _⟩, _⟩ := hstands
      have hbegins := State.beginSwap_linksOk (s := s.onSlm fun m => { m with settle := none }) hs hswap r.link
      rwa [hactive] at hbegins
    · exact hs

theorem execMoveAck_linksOk {l : Fin 4} {n : Nat} (ht : execMoveAck l n s = .next t) : t.linkBook.ok := by
  refine effect_linksOk ht hs fun s hs => ?_
  unfold State.onShoreRecord
  split
  · dsimp only
    split
    · next hcurrent hto =>
      rw [Bool.and_eq_true] at hcurrent
      exact State.completeSwap_linksOk hs hcurrent.1 hto
    · exact hs
  · rw [State.countLink_linkBook]
    exact hs

theorem execMoveAckTimerExpiry_linksOk (ht : execMoveAckTimerExpiry s = .next t) : t.linkBook.ok := by
  refine effect_linksOk ht hs fun s hs => ?_
  split
  · next l _ _ hto =>
    refine State.atExpiry_linksOk hs (State.workOut_linksOk ?_)
    have hleft : (s.leaveFor l .holddown .swap false).linkBook.ok := by
      rw [State.leaveFor_linkBook]
      exact hs.enter l (by decide) (by decide)
    refine State.failSwap_linksOk (l := l) hleft ?_ ?_ false
    · rw [(s.leaveFor_slm ..).1]
      exact hto
    · rw [State.leaveFor_link, if_pos rfl]
      exact LinkState.noConfusion
  · exact hs

theorem execDrainingGuardExpiry_linksOk {l : Fin 4} (ht : execDrainingGuardExpiry l s = .next t) : t.linkBook.ok := by
  refine effect_linksOk ht hs fun s hs => ?_
  split
  · refine State.atExpiry_linksOk hs (State.workOut_linksOk ?_)
    rw [State.leaveFor_linkBook]
    exact hs.enter l (by decide) (by decide)
  · exact hs

theorem execResetComplete_linksOk (ht : execResetComplete s = .next t) : t.linkBook.ok := by
  refine effect_linksOk ht hs fun s hs => ?_
  split
  · exact hs
  · have hcarriers (u : State) : (u.cellCarriers true).linkBook = u.linkBook := by
      rw [State.cellCarriers_eq]
      rfl
    rw [hcarriers, State.arbitrate_linkBook, State.ok_linkBook]
    exact State.linksOk_of_initial (m := _) rfl

/-- Every command keeps the account of the links (R98). -/
theorem exec_linksOk {c : Instr} (ht : exec c s = .next t) : t.linkBook.ok := by
  by_cases hc : Instr.movesLinks c
  case neg =>
    rw [exec_linkBook hc ht]
    exact hs
  cases c <;> try exact absurd hc id
  case start => exact execStart_linksOk hs ht
  case resetComplete => exact execResetComplete_linksOk hs ht
  case fix => exact execFix_linksOk hs ht
  case thawZone => exact execThawZone_linksOk hs ht
  case loadZones => exact execLoadZones_linksOk hs ht
  case configureLinkShore => exact execConfigureLinkShore_linksOk hs ht
  case pinLink => exact execPinLink_linksOk hs ht
  case powerOn =>
    cases ht
    exact State.linksOk_of_initial rfl
  case powerLoss => exact effect_linksOk ht hs fun s _ => State.linksOk_of_initial rfl
  case holdExpiry => exact execHoldExpiry_linksOk hs ht
  case shoreCarrierLost => exact execShoreCarrierLost_linksOk hs ht
  case shoreCarrierReturn => exact execShoreCarrierReturn_linksOk hs ht
  case echoBack => exact execEchoBack_linksOk hs ht
  case echoWindowEnd => exact execEchoWindowEnd_linksOk hs ht
  case keepaliveDue => exact execKeepaliveDue_linksOk hs ht
  case holddownExpiry => exact execHolddownExpiry_linksOk hs ht
  case reprobeExpiry => exact execReprobeExpiry_linksOk hs ht
  case settleTimerExpiry => exact execSettleTimerExpiry_linksOk hs ht
  case moveAck => exact execMoveAck_linksOk hs ht
  case moveAckTimerExpiry => exact execMoveAckTimerExpiry_linksOk hs ht
  case drainingGuardExpiry => exact execDrainingGuardExpiry_linksOk hs ht

end Commands

/-- Settles O12: a step runs one command, each of which keeps the account of the links, or lets the part work of itself, which
moves no link. -/
theorem stepKeepsLinks : Obligations.StepKeepsLinks := by
  unfold Obligations.StepKeepsLinks
  intro s t hs ht
  rw [State.linksOk_iff] at hs ⊢
  unfold step at ht
  split at ht
  · cases ht
    unfold State.idle
    repeat' split
    all_goals exact hs
  · exact exec_linksOk (by exact hs) ht

end Sys2Proof.Machine
end

