-- ==== Sys2Proof/Proofs/SwapTimers.lean ====
section
/-! SUPPORT. What selection does not touch, and the two timers of a swap: the MOVE-ACK timer and the guard of a DRAINING link
(R94, R103, R105, R106). -/

namespace Sys2Proof.Machine

/-! ### What selection does not touch -/

/-- The ACTIVE link, when it is itself the desired one, is no target of a swap (R94). -/
theorem State.workOut_activeLink {s : State} {a : Fin 4} (ha : s.activeLink? = some a) : s.workOut.link a = s.link a := by
  obtain ⟨r, hsettles⟩ | ⟨d, hd, hrun, hswap, _, hbegins⟩ := s.workOut_cases
  · rw [hsettles]
    rfl
  · by_cases hda : d = a
    · have hstands : s.workOut = s.onSlm fun m => { m with settle := none } := by
        simp [State.workOut, hrun, hswap, ha, hd, hda]
      rw [hstands]
      rfl
    · rw [hbegins, State.beginSwap_link, if_neg hda]

/-- A swap that begins keeps the last outcome (R98). -/
theorem State.workOut_lastOutcome (s : State) : s.workOut.slm.swap.lastOutcome = s.slm.swap.lastOutcome := by
  obtain ⟨r, hsettles⟩ | ⟨d, _, _, _, _, hbegins⟩ := s.workOut_cases
  · rw [hsettles]
    rfl
  · rw [hbegins, (State.beginSwap_swap ..).1]
    rfl

/-- A link without a guard stays as it is or becomes the to-link of a swap (R94). -/
theorem State.workOut_unguarded {s : State} {l : Fin 4} (hguard : (s.link l).guardAt = none) :
    (s.workOut.link l).guardAt = none ∧ (s.workOut.link l = s.link l ∨
      (s.workOut.link l).state = .joining ∧ s.workOut.slm.swap.toLink = some l) := by
  obtain ⟨r, hsettles⟩ | ⟨d, _, _, _, _, hbegins⟩ := s.workOut_cases
  · rw [hsettles]
    exact ⟨hguard, .inl rfl⟩
  · by_cases hd : d = l
    · rw [hbegins, State.beginSwap_link, if_pos hd, (State.beginSwap_swap ..).1, hd]
      exact ⟨rfl, .inr ⟨rfl, rfl⟩⟩
    · rw [hbegins, State.beginSwap_link, if_neg hd]
      exact ⟨hguard, .inl rfl⟩

/-- With an ACTIVE link and a settle time no swap begins: every link and the swap's record stay (R94). -/
theorem State.workOut_rests {s : State} (hactive : s.activeLink? ≠ none) (htime : s.slm.settleTime ≠ 0) :
    (∀ k, s.workOut.link k = s.link k) ∧ s.workOut.slm.swap = s.slm.swap ∧ s.workOut.mli = s.mli := by
  obtain ⟨r, hsettles⟩ := State.workOut_settles (.inr (.inr ⟨hactive, htime⟩))
  rw [hsettles]
  exact ⟨fun _ => rfl, rfl, rfl⟩

/-- A link that leaves, not ACTIVE before or after, is no loss of the ACTIVE one. -/
theorem State.leaveFor_activeLink? {s : State} {l : Fin 4} {new : LinkState} (cause : LinkCause) (quietly : Bool)
    (hwas : (s.link l).state ≠ .active) (hnew : new ≠ .active) :
    (s.leaveFor l new cause quietly).activeLink? = s.activeLink? := by
  refine State.activeLink?_congr fun k => ?_
  rw [State.leaveFor_link]
  split
  · next hk =>
    subst hk
    exact iff_of_false hnew hwas
  · rfl

/-! ### The MOVE-ACK timer -/

/-- The to-link in HOLDDOWN and its swap failed, before selection is worked out (R103). -/
def State.swapTimedOut (l : Fin 4) (s : State) : State := (s.leaveFor l .holddown .swap false).failSwap false

theorem State.swapTimedOut_slm (l : Fin 4) (s : State) : (s.swapTimedOut l).slm = { s.slm with
    links := (s.leaveFor l .holddown .swap false).slm.links,
    swap := { s.slm.swap with inProgress := false, ackExpiry := none, lastOutcome := some .timeout },
    counters := { s.slm.counters with failedTimeout := bump32 s.slm.counters.failedTimeout } } := by
  have hfailed : (s.swapTimedOut l).slm = { (s.leaveFor l .holddown .swap false).slm with
      swap := { (s.leaveFor l .holddown .swap false).slm.swap with
        inProgress := false, ackExpiry := none, lastOutcome := some .timeout },
      counters := { (s.leaveFor l .holddown .swap false).slm.counters with
        failedTimeout := bump32 (s.leaveFor l .holddown .swap false).slm.counters.failedTimeout } } := by
    unfold State.swapTimedOut State.failSwap
    rw [State.raise_frame]
    rfl
  rw [hfailed, (s.leaveFor_slm ..).1]
  rfl

theorem State.swapTimedOut_link (l k : Fin 4) (s : State) : (s.swapTimedOut l).link k =
    if l = k then (s.link k).left .holddown s.mli.clock s.slm.guardTime else s.link k := by
  have hlink : (s.swapTimedOut l).link k = (s.leaveFor l .holddown .swap false).link k := by
    rw [State.link, State.swapTimedOut_slm]
    rfl
  rw [hlink, State.leaveFor_link]

theorem State.swapTimedOut_activeLink? {s : State} {l : Fin 4} (hl : (s.link l).state = .joining) :
    (s.swapTimedOut l).activeLink? = s.activeLink? := by
  have hsame : (s.swapTimedOut l).activeLink? = (s.leaveFor l .holddown .swap false).activeLink? :=
    State.activeLink?_congr fun k => by rw [State.swapTimedOut_link, State.leaveFor_link]
  rw [hsame, State.leaveFor_activeLink? .swap false (by rw [hl]; decide) (by decide)]

theorem exec_moveAckTimerExpiry {s : State} {l : Fin 4} {at_ : Nat} (hs : s.powered = true)
    (hswap : s.slm.swap.inProgress = true) (hack : s.slm.swap.ackExpiry = some at_) (hdue : at_ ≤ s.mli.clock)
    (hto : s.slm.swap.toLink = some l) : exec .moveAckTimerExpiry s = .next (s.swapTimedOut l).workOut := by
  have hexec : exec .moveAckTimerExpiry s = execMoveAckTimerExpiry s := rfl
  rw [hexec, execMoveAckTimerExpiry, whenPowered_on _ hs]
  simp only [hswap, hack, hto]
  rw [State.atExpiry_due _ hdue]
  rfl

/-- Before its expiry the timer is that of another swap, cancelled since (R102, R105; assumption 5). -/
theorem exec_moveAckTimerExpiry_early {s : State} {at_ : Nat} (hack : s.slm.swap.ackExpiry = some at_)
    (hearly : s.mli.clock < at_) : exec .moveAckTimerExpiry s = .next s := by
  have hexec : exec .moveAckTimerExpiry s = execMoveAckTimerExpiry s := rfl
  have hwaits (act : State → State) : s.atExpiry at_ act = s := if_pos hearly
  rw [hexec, execMoveAckTimerExpiry]
  cases hs : s.powered with
  | false => exact whenPowered_off _ hs
  | true =>
    rw [whenPowered_on _ hs]
    split
    · next t _ _ hexpiry _ =>
      obtain rfl : at_ = t := Option.some.inj (hack.symm.trans hexpiry)
      rw [hwaits]
    · rfl

/-! ### The guard of a DRAINING link -/

theorem exec_drainingGuardExpiry {s : State} {l : Fin 4} {at_ : Nat} (hs : s.powered = true)
    (hstate : (s.link l).state = .draining) (hguard : (s.link l).guardAt = some at_) (hdue : at_ ≤ s.mli.clock) :
    exec (.drainingGuardExpiry l) s = .next (s.leaveFor l .ready .swap false).workOut := by
  have hexec : exec (.drainingGuardExpiry l) s = execDrainingGuardExpiry l s := rfl
  rw [hexec, execDrainingGuardExpiry, whenPowered_on _ hs]
  simp only [hstate, hguard]
  rw [State.atExpiry_due _ hdue]

/-! ### The obligation -/

/-- Settles O37: at its own expiry the swap fails and its to-link holds down, and a drained link is READY; selection, worked out
after each, spares the ACTIVE link. -/
theorem swapTimersExpire : Obligations.SwapTimersExpire := by
  unfold Obligations.SwapTimersExpire
  refine ⟨fun s l at_ hs hswap hack hdue hto hjoining hlinks => ?timeout,
    fun s at_ hack hearly => exec_moveAckTimerExpiry_early hack hearly, fun s l at_ hs hstate hguard hdue => ?drained⟩
  case timeout =>
    have hholds : (s.swapTimedOut l).link l = (s.link l).left .holddown s.mli.clock s.slm.guardTime := by
      rw [State.swapTimedOut_link, if_pos rfl]
    have hactive := State.swapTimedOut_activeLink? hjoining
    refine ⟨_, exec_moveAckTimerExpiry hs hswap hack hdue hto, ?to_, ?outcome, ?counted, fun f hf => ?stays,
      fun htime hhas => ?ended⟩
    case to_ =>
      rw [State.workOut_link (by rw [hholds]; rfl), hholds]
      rfl
    case outcome => rw [State.workOut_lastOutcome, State.swapTimedOut_slm]
    case counted => rw [State.workOut_slm, State.swapTimedOut_slm]
    case stays =>
      have hfirst : s.activeLink? = some f := State.linkBook_active ((State.linksOk_iff s).1 hlinks) hf
      have hne : l ≠ f := by
        rintro rfl
        rw [hjoining] at hf
        cases hf
      rw [State.workOut_activeLink (hactive.trans hfirst), State.swapTimedOut_link, if_neg hne]
      exact hf
    case ended =>
      rw [← hactive] at hhas
      rw [(State.workOut_rests hhas (by rw [State.swapTimedOut_slm]; exact htime)).2.1, State.swapTimedOut_slm]
  case drained =>
    have hready : (s.leaveFor l .ready .swap false).link l = (s.link l).left .ready s.mli.clock s.slm.guardTime := by
      rw [State.leaveFor_link, if_pos rfl]
    obtain ⟨hunguarded, hcases⟩ := State.workOut_unguarded (s := s.leaveFor l .ready .swap false) (l := l)
      (by rw [hready]; rfl)
    refine ⟨_, exec_drainingGuardExpiry hs hstate hguard hdue, hunguarded, hcases.imp_left fun hsame => ?ready,
      fun hhas htime => ?rests⟩
    case ready =>
      rw [hsame, hready]
      rfl
    case rests =>
      rw [← State.leaveFor_activeLink? (l := l) (new := .ready) .swap false (by rw [hstate]; decide) (by decide)] at hhas
      obtain ⟨hlinks, _⟩ := State.workOut_rests hhas (by rw [(s.leaveFor_slm ..).1]; exact htime)
      rw [hlinks, hready]
      exact ⟨rfl, rfl⟩

end Sys2Proof.Machine
end

