-- ==== Sys2Proof/Proofs/SwapDone.lean ====
section
/-! SUPPORT. A swap that its MOVE-ACK completes, and the end of isolation that comes with it (R95, R101, R102, R106, R108,
R111). -/

namespace Sys2Proof.Machine

/-! ### The links of a swap done -/

theorem LinkBook.done_toLink {b : LinkBook} {l : Fin 4} (hfrom : b.fromLink ≠ some l) : (b.done l).states l = .active := by
  unfold LinkBook.done
  split
  · next f hf =>
    have hne : l ≠ f := fun h => hfrom (h ▸ hf)
    rw [LinkBook.enter_states, if_neg hne, LinkBook.enter_states, if_pos rfl]
  · rw [LinkBook.enter_states, if_pos rfl]

theorem LinkBook.done_others {b : LinkBook} {l k : Fin 4} (hfrom : b.fromLink = none) (hk : k ≠ l) :
    (b.done l).states k = b.states k := by
  unfold LinkBook.done
  rw [hfrom]
  dsimp only
  rw [LinkBook.enter_states, if_neg hk]
  rfl

/-! ### The swap ended, part by part -/

section Ended
variable (to_ f : Fin 4) (s : State)

theorem State.linkChanged_slm (l : Fin 4) (prev new : LinkState) (cause : LinkCause) :
    (s.linkChanged l prev new cause).slm = s.slm := by
  rw [State.linkChanged, State.raise_frame]

/-- A LINK-CHANGED of a link described as it was in `b`, told from the notices of `a`. -/
theorem State.linkChanged_mli {s a b : State} {l : Fin 4} (prev new : LinkState) (cause : LinkCause) (hmli : s.mli = a.mli)
    (htime : a.mli.shipTime = b.mli.shipTime) (htype : (s.link l).type = (b.link l).type)
    (hrank : (s.link l).costRank = (b.link l).costRank) (hprobe : (s.link l).lastProbe = (b.link l).lastProbe) :
    (s.linkChanged l prev new cause).mli = (a.raise (.linkChanged l prev new cause (b.link l).type (b.link l).costRank
      (b.link l).lastProbe b.mli.shipTime 1)).mli := by
  rw [State.linkChanged, htype, hrank, hprobe, hmli, htime]
  exact State.raise_mli_congr _ hmli

theorem State.raise_shipTime (n : Notice) : (s.raise n).mli.shipTime = s.mli.shipTime :=
  State.shipTime_of_standing (State.raise_standing n s)

theorem State.raise_clock (n : Notice) : (s.raise n).mli.clock = s.mli.clock :=
  State.clock_of_standing (State.raise_standing n s)

theorem State.swapArrived_slm : (s.swapArrived to_).slm = { s.slm.swapClosed with links := (s.swapArrived to_).slm.links } := by
  unfold State.swapArrived
  rw [State.linkChanged_slm]
  rfl

theorem State.swapArrived_link (k : Fin 4) : (s.swapArrived to_).link k =
    if to_ = k then (s.link k).entered .active s.mli.clock s.slm.guardTime else s.link k := by
  have hlink : (s.swapArrived to_).link k = (s.onLink to_ (Link.entered .active s.mli.clock s.slm.guardTime)).link k := by
    unfold State.swapArrived
    rw [State.link, State.linkChanged_slm]
    rfl
  rw [hlink, State.link_onLink]
  split
  · next h => rw [h]
  · rfl

theorem State.swapArrived_frame : s.swapArrived to_ =
    { s with slm := (s.swapArrived to_).slm, mli := (s.swapArrived to_).mli } := by
  unfold State.swapArrived State.linkChanged
  rw [State.raise_frame]
  rfl

theorem State.swapArrived_mli {to_ : Fin 4} {s : State} (hto : (s.link to_).state = .joining) : (s.swapArrived to_).mli =
    (s.raise (.linkChanged to_ .joining .active .swap (s.link to_).type (s.link to_).costRank (s.link to_).lastProbe
      s.mli.shipTime 1)).mli := by
  have hreported : (s.link to_).reported = .joining := by simp [Link.reported, hto]
  have hlink : ((s.onSlm Slm.swapClosed).enterState to_ .active).link to_ =
      (s.link to_).entered .active s.mli.clock s.slm.guardTime := by
    rw [State.enterState_eq, State.link_onLink, if_pos rfl]
    rfl
  rw [State.swapArrived, hreported]
  refine State.linkChanged_mli _ _ _ rfl rfl ?_ ?_ ?_
  all_goals rw [hlink]; rfl

theorem State.dropWaiting_unfailed_frame : s.dropWaiting f false =
    { s with slm := (s.dropWaiting f false).slm, sws := { s.sws with offered := (s.dropWaiting f false).sws.offered } } := by
  unfold State.dropWaiting
  dsimp only
  split <;> rfl

theorem State.drained_frame (from_ : Option (Fin 4)) : s.drained from_ = { s with
    slm := (s.drained from_).slm, mli := (s.drained from_).mli,
    sws := { s.sws with offered := (s.drained from_).sws.offered } } := by
  cases from_ with
  | none => rfl
  | some f =>
    have hdrained : s.drained (some f) =
        ((s.dropWaiting f false).enterState f .draining).linkChanged f .active .draining .swap := rfl
    rw [hdrained, State.linkChanged, State.raise_frame, State.dropWaiting_unfailed_frame]
    rfl

theorem State.drained_some_slm :
    (s.drained (some f)).slm = (s.onLink f (Link.left .draining s.mli.clock s.slm.guardTime)).slm := by
  obtain ⟨hslm, _⟩ := s.dropWaiting_slm f false
  have hclock : (s.dropWaiting f false).mli.clock = s.mli.clock := State.clock_of_standing (State.dropWaiting_standing ..)
  have hguard : (s.dropWaiting f false).slm.guardTime = s.slm.guardTime := by
    rw [hslm]
    rfl
  rw [State.drained, State.linkChanged_slm, State.enterState_eq, hclock, hguard, State.onLink_slm_congr f _ hslm,
    State.onLink_onLink]
  rfl

theorem State.drained_slm (from_ : Option (Fin 4)) :
    (s.drained from_).slm = { s.slm with links := (s.drained from_).slm.links } := by
  cases from_ with
  | none => rfl
  | some f =>
    rw [State.drained_some_slm]
    rfl

theorem State.drained_some_link : (s.drained (some f)).link f = (s.link f).left .draining s.mli.clock s.slm.guardTime := by
  have hlink : (s.drained (some f)).link f = (s.onLink f (Link.left .draining s.mli.clock s.slm.guardTime)).link f := by
    rw [State.link, State.drained_some_slm]
    rfl
  rw [hlink, State.link_onLink, if_pos rfl]

theorem State.drained_some_mli : (s.drained (some f)).mli =
    (s.raise (.linkChanged f .active .draining .swap (s.link f).type (s.link f).costRank (s.link f).lastProbe
      s.mli.shipTime 1)).mli := by
  have hmli : (s.dropWaiting f false).mli = s.mli := by rw [State.dropWaiting_unfailed_frame]
  have hlink : (s.dropWaiting f false).link f = { s.link f with waiting := [] } := by
    rw [State.link, (s.dropWaiting_slm f false).1]
    exact (State.link_onLink ..).trans (if_pos rfl)
  have hdrained : ((s.dropWaiting f false).enterState f .draining).link f = ((s.dropWaiting f false).link f).entered
      .draining (s.dropWaiting f false).mli.clock (s.dropWaiting f false).slm.guardTime := by
    rw [State.enterState_eq, State.link_onLink, if_pos rfl]
  refine State.linkChanged_mli _ _ _ hmli rfl ?_ ?_ ?_
  all_goals rw [hdrained, hlink]; rfl

/-! ### The swap ended -/

theorem State.swapEnded_frame : s.swapEnded to_ = { s with
    slm := (s.swapEnded to_).slm, mli := (s.swapEnded to_).mli,
    sws := { s.sws with offered := (s.swapEnded to_).sws.offered } } := by
  unfold State.swapEnded
  dsimp only
  rw [State.raise_frame, State.drained_frame, State.swapArrived_frame]

theorem State.swapEnded_slm : (s.swapEnded to_).slm = { s.slm.swapClosed with links := (s.swapEnded to_).slm.links } := by
  unfold State.swapEnded
  dsimp only
  rw [State.raise_frame, State.drained_slm, State.swapArrived_slm]

/-- The from-link drains for the guard time from now (R106). -/
theorem State.swapEnded_fromLink {to_ f : Fin 4} {s : State} (hfrom : s.slm.swap.fromLink = some f) (hne : to_ ≠ f) :
    (s.swapEnded to_).link f = (s.link f).left .draining s.mli.clock s.slm.guardTime := by
  have hclock : (s.swapArrived to_).mli.clock = s.mli.clock := by
    unfold State.swapArrived State.linkChanged
    rw [State.raise_clock]
    rfl
  have hguard : (s.swapArrived to_).slm.guardTime = s.slm.guardTime := by
    rw [State.swapArrived_slm]
    rfl
  have hlink : (s.swapEnded to_).link f = ((s.swapArrived to_).drained (some f)).link f := by
    unfold State.swapEnded
    rw [hfrom, State.link, State.raise_frame]
    rfl
  rw [hlink, State.drained_some_link, State.swapArrived_link, if_neg hne, hclock, hguard]

end Ended

/-! ### The notices of a swap done -/

/-- `u` with a LINK-CHANGED of link `l` raised, the link described and the time told as in `s` (R95). -/
def State.toldChange (l : Fin 4) (old new : LinkState) (s u : State) : State :=
  u.raise (.linkChanged l old new .swap (s.link l).type (s.link l).costRank (s.link l).lastProbe s.mli.shipTime 1)

/-- LINK-CHANGED raised for the to-link, and then for the from-link where there is one (R95). -/
def State.toldLinks (to_ : Fin 4) (s : State) : State :=
  match s.slm.swap.fromLink with
  | some f => s.toldChange f .active .draining (s.toldChange to_ .joining .active s)
  | none => s.toldChange to_ .joining .active s

/-- SWAP-DONE raised behind them (R108). -/
def State.toldSwap (to_ : Fin 4) (planned : Bool) (s : State) : State :=
  (s.toldLinks to_).raise (.swapDone s.slm.swap.number planned s.slm.swap.fromLink to_
    (s.mli.clock - s.slm.swap.startedAt) (occupancy s.sws.frames) s.sws.frames.length s.mli.shipTime 1)

/-- REJOINED raised behind it where isolation stood (R111). -/
def State.toldRejoined (to_ : Fin 4) (planned : Bool) (s : State) : State :=
  match s.slm.isolated with
  | some since => (s.toldSwap to_ planned).raise (.rejoined to_ s.slm.swap.number (s.mli.clock - since) s.slm.cutOff
      (if s.slm.cutOff then s.slm.cutOffShed else ⟨0, 0⟩) s.mli.shipTime 1)
  | none => s.toldSwap to_ planned

section Told
variable {to_ : Fin 4} {s : State}

theorem State.toldLinks_standing (to_ : Fin 4) (s : State) : (s.toldLinks to_).standing = s.standing := by
  unfold State.toldLinks State.toldChange
  split <;> simp

theorem State.toldSwap_standing (to_ : Fin 4) (planned : Bool) (s : State) :
    (s.toldSwap to_ planned).standing = s.standing :=
  (State.raise_standing ..).trans (State.toldLinks_standing to_ s)

theorem State.shipTime_of_mli {a b : State} (h : a.mli = b.mli) : a.mli.shipTime = b.mli.shipTime := by rw [h]

/-- The links that changed are told of, to-link first. -/
theorem State.drained_mli (hto : (s.link to_).state = .joining) (hfrom : s.slm.swap.fromLink ≠ some to_) :
    ((s.swapArrived to_).drained s.slm.swap.fromLink).mli = (s.toldLinks to_).mli := by
  have harrived : (s.swapArrived to_).mli = (s.toldChange to_ .joining .active s).mli := State.swapArrived_mli hto
  unfold State.toldLinks
  cases hf : s.slm.swap.fromLink with
  | none => exact harrived
  | some f =>
    have hlink : (s.swapArrived to_).link f = s.link f := by
      have hne : to_ ≠ f := fun h => hfrom (h ▸ hf)
      rw [State.swapArrived_link, if_neg hne]
    have htime : (s.swapArrived to_).mli.shipTime = s.mli.shipTime :=
      (State.shipTime_of_mli harrived).trans (State.raise_shipTime ..)
    rw [State.drained_some_mli, hlink, htime]
    exact State.raise_mli_congr _ harrived

theorem State.swapEnded_mli {planned : Bool} (hto : (s.link to_).state = .joining)
    (hfrom : s.slm.swap.fromLink ≠ some to_) (hplanned : s.slm.swap.planned = some planned) :
    (s.swapEnded to_).mli = (s.toldSwap to_ planned).mli := by
  have hlinks := State.drained_mli hto hfrom
  have hstanding := State.toldLinks_standing to_ s
  have htime := (State.shipTime_of_mli hlinks).trans (State.shipTime_of_standing hstanding)
  have hnow : ((s.swapArrived to_).drained s.slm.swap.fromLink).now = s.mli.clock :=
    (congrArg Mli.clock hlinks).trans (State.clock_of_standing hstanding)
  have hframes : ((s.swapArrived to_).drained s.slm.swap.fromLink).sws.frames = s.sws.frames := by
    rw [State.drained_frame, State.swapArrived_frame]
  unfold State.swapEnded
  dsimp only
  rw [htime, hnow, hframes, hplanned]
  exact State.raise_mli_congr _ hlinks

end Told

/-! ### Isolation ends -/

/-- What the end of a cut-off sends an entry: FULL, if it is SERVED or MOVING, not barred, unmarked, and at a listening port
(R33, R111). -/
def State.fullLevel (s : State) (x : Nat × Entry) : List Sent :=
  if (x.2.reg = .served ∨ x.2.reg = .moving) ∧ x.2.barred = false ∧ x.2.portLost = none ∧
      (s.port x.2.port).state ≠ .down then
    [.toHead x.2.port (.serveLevel x.1 x.2.token .full)] else []

theorem State.sends_sends (s : State) (l l' : List Sent) : (s.sends l).sends l' = s.sends (l ++ l') := by
  simp [State.sends, List.append_assoc]

/-- A round over those of a list that pass a test sends what each has to get, in the list's order, when the others get
nothing. -/
theorem State.eachOf_sends {α : Type} (l : List α) (good : α → Bool) (key : α → Nat) (f : Nat → State → State)
    (g : α → List Sent) (s : State)
    (hgood : ∀ x ∈ l, good x = true → ∀ new, f (key x) (s.sends new) = s.sends (new ++ g x))
    (hbad : ∀ x, good x = false → g x = []) (new : List Sent) :
    (s.sends new).eachOf ((l.filter good).map key) f = s.sends (new ++ l.flatMap g) := by
  induction l generalizing new with
  | nil =>
    rw [List.flatMap_nil, List.append_nil]
    rfl
  | cons x l ih =>
    have hrest := ih fun y hy => hgood y (List.mem_cons_of_mem x hy)
    cases hx : good x with
    | false =>
      rw [List.filter_cons_of_neg (by simp [hx]), List.flatMap_cons, hbad x hx, List.nil_append]
      exact hrest new
    | true =>
      rw [List.filter_cons_of_pos hx, List.map_cons, State.eachOf_cons, hgood x List.mem_cons_self hx, hrest,
        List.flatMap_cons, List.append_assoc]

theorem State.sendLevel_full {x : Nat × Entry} {s : State} (hread : s.entry? x.1 = some x.2)
    (hx : (x.2.reg.onShore && !x.2.barred) = true) (new : List Sent) :
    (s.sends new).sendLevel x.1 .full = s.sends (new ++ s.fullLevel x) := by
  rw [Bool.and_eq_true, Bool.not_eq_true', RegState.onShore_iff] at hx
  obtain ⟨hreg, hbarred⟩ := hx
  have hawake : x.2.reg ≠ .resting := fun hrest => by simp [hrest] at hreg
  have hports : (s.sends new).port = s.port := rfl
  have hread' : (s.sends new).entry? x.1 = some x.2 := hread
  rw [State.sendLevel_eq _ hread', State.sends_sends, hports]
  simp only [State.fullLevel, hreg, hbarred, hawake, ne_eq, not_false_eq_true, true_and]

/-- FULL goes in ascending handle order to every entry that is to have it (R33, R111; assumption 48). -/
theorem State.eachOf_fullLevel {s : State} (hnd : s.handles.Nodup) :
    s.eachOf (s.onShoreHandles fun e => !e.barred) (fun h s => s.sendLevel h .full) =
      s.sends (s.table.entries.flatMap s.fullLevel) := by
  have hround := State.eachOf_sends s.table.entries (fun x => x.2.reg.onShore && !x.2.barred) (·.1)
    (fun h s => s.sendLevel h .full) s.fullLevel s
    (fun x hx hgood new => State.sendLevel_full (lookupKey_of_mem hnd hx) hgood new)
    (fun x hbad => if_neg fun hall => by simp [(RegState.onShore_iff _).2 hall.1, hall.2.1] at hbad) []
  rw [State.sends_nil, List.nil_append] at hround
  exact hround

/-- Isolation over, and with it any cut-off (R111). -/
def Slm.rejoined (m : Slm) : Slm :=
  { m with
    isolated := none, graceAt := if m.isolated = none then m.graceAt else none, cutOff := m.isolated.isNone && m.cutOff }

theorem Slm.rejoined_of_none {m : Slm} (h : m.isolated = none) : m.rejoined = m := by
  cases m
  dsimp only at h
  subst h
  rfl

/-- Isolation over and told of, before any level is sent (R111). -/
def State.rejoined (l : Fin 4) (since : Nat) (s : State) : State :=
  (s.onSlm fun m => { m with isolated := none, graceAt := none, cutOff := false }).raise
    (.rejoined l s.slm.swap.number (s.mli.clock - since) s.slm.cutOff (if s.slm.cutOff then s.slm.cutOffShed else ⟨0, 0⟩)
      s.mli.shipTime 1)

section Rejoined
variable {l : Fin 4} {s : State}

theorem State.endIsolation_none (h : s.slm.isolated = none) : s.endIsolation l = s := by
  unfold State.endIsolation
  rw [h]

theorem State.endIsolation_some {since : Nat} (h : s.slm.isolated = some since) : s.endIsolation l =
    if s.slm.cutOff then
      (s.rejoined l since).eachOf ((s.rejoined l since).onShoreHandles fun e => !e.barred) fun h s => s.sendLevel h .full
    else s.rejoined l since := by
  unfold State.endIsolation
  rw [h]
  rfl

theorem State.rejoined_frame (l : Fin 4) (since : Nat) (s : State) : s.rejoined l since = { s with
    slm := { s.slm with isolated := none, graceAt := none, cutOff := false }, mli := (s.rejoined l since).mli } := by
  unfold State.rejoined
  rw [State.raise_frame]
  rfl

/-- The end of isolation touches the swap manager, the notices and what is sent alone; the levels raise no notice. -/
theorem State.endIsolation_parts (l : Fin 4) {since : Nat} (h : s.slm.isolated = some since) : s.endIsolation l =
    { s with slm := { s.slm with isolated := none, graceAt := none, cutOff := false }, mli := (s.rejoined l since).mli,
             sent := (s.endIsolation l).sent } := by
  rw [State.endIsolation_some h]
  split
  · rw [State.eachOf_sendLevel_frame, State.rejoined_frame]
  · exact State.rejoined_frame l since s

theorem State.endIsolation_slm (l : Fin 4) (s : State) : (s.endIsolation l).slm = s.slm.rejoined := by
  cases h : s.slm.isolated with
  | none => rw [State.endIsolation_none h, Slm.rejoined_of_none h]
  | some since =>
    rw [State.endIsolation_parts l h, Slm.rejoined, h]
    rfl

/-- Levels go out at the end of a cut-off, and only then (R111). -/
theorem State.endIsolation_sent (l : Fin 4) (hnd : s.handles.Nodup) : (s.endIsolation l).sent = s.sent ++
    if s.slm.isolated ≠ none ∧ s.slm.cutOff = true then s.table.entries.flatMap s.fullLevel else [] := by
  cases h : s.slm.isolated with
  | none =>
    rw [State.endIsolation_none h]
    simp
  | some since =>
    have hframe := State.rejoined_frame l since s
    have hsent : (s.rejoined l since).sent = s.sent := by rw [hframe]
    rw [State.endIsolation_some h]
    split
    · next hcut =>
      have hhandles : (s.rejoined l since).handles.Nodup := by
        rw [hframe]
        exact hnd
      have hlevels : (s.rejoined l since).table.entries.flatMap (s.rejoined l since).fullLevel =
          s.table.entries.flatMap s.fullLevel := by
        rw [hframe]
        rfl
      rw [State.eachOf_fullLevel hhandles, State.sends, hlevels, hsent, if_pos ⟨Option.some_ne_none since, hcut⟩]
    · next hcut => rw [hsent, if_neg fun hall => hcut hall.2, List.append_nil]

end Rejoined

/-! ### Selection sends at most a MOVE -/

theorem State.workOut_sent (s : State) : s.workOut.sent = s.sent ∨
    ∃ l n, s.workOut.sent = s.sent ++ [.toShore l (.move n)] := by
  obtain ⟨r, hsettles⟩ | ⟨d, _, _, _, _, hbegins⟩ := s.workOut_cases
  · rw [hsettles]
    exact .inl rfl
  · rw [hbegins, (State.beginSwap_swap ..).2]
    split
    · exact .inr ⟨d, _, rfl⟩
    · exact .inl (List.append_nil _)

/-! ### The MOVE-ACK -/

theorem exec_moveAck {s : State} {l to_ : Fin 4} (hs : s.powered = true) (htakes : s.takes l = true)
    (hswap : s.slm.swap.inProgress = true) (hto : s.slm.swap.toLink = some to_) :
    exec (.moveAck l s.slm.swap.number) s = .next (s.completeSwap to_) := by
  have hexec : exec (.moveAck l s.slm.swap.number) s = execMoveAck l s.slm.swap.number s := rfl
  rw [hexec, execMoveAck, whenPowered_on _ hs, State.onShoreRecord, if_pos htakes]
  simp only [hswap, hto, beq_self_eq_true, Bool.and_self]

/-- A MOVE-ACK of no swap in progress is counted as stale (R102). -/
theorem exec_moveAck_stale {s : State} {l : Fin 4} {n : Nat} (hs : s.powered = true) (htakes : s.takes l = true)
    (hstale : s.slm.swap.inProgress = false ∨ n ≠ s.slm.swap.number) :
    exec (.moveAck l n) s = .next { s with slm := { s.slm with counters := { s.slm.counters with
      staleMoveAcks := bump32 s.slm.counters.staleMoveAcks } } } := by
  have hexec : exec (.moveAck l n) s = execMoveAck l n s := rfl
  have hother : (s.slm.swap.inProgress && n == s.slm.swap.number) = false := by
    obtain hended | hne := hstale
    · rw [hended, Bool.false_and]
    · rw [beq_false_of_ne hne, Bool.and_false]
  rw [hexec, execMoveAck, whenPowered_on _ hs, State.onShoreRecord, if_pos htakes]
  simp only [hother]
  rfl

/-! ### The obligation -/

/-- The swap done and isolation over, before selection is worked out (R101, R111). -/
def State.swapSettled (to_ : Fin 4) (s : State) : State := (s.swapEnded to_).endIsolation to_

section Settled
variable {to_ : Fin 4} {s : State}

theorem State.swapSettled_slm (to_ : Fin 4) (s : State) : (s.swapSettled to_).slm =
    { s.slm.swapClosed.rejoined with links := (s.swapEnded to_).slm.links } := by
  rw [State.swapSettled, State.endIsolation_slm, State.swapEnded_slm]
  rfl

theorem State.swapSettled_link (to_ k : Fin 4) (s : State) : (s.swapSettled to_).link k = (s.swapEnded to_).link k := by
  rw [State.link, State.swapSettled_slm]
  rfl

theorem State.swapSettled_state (to_ k : Fin 4) (s : State) :
    ((s.swapSettled to_).link k).state = (s.linkBook.done to_).states k := by
  rw [State.swapSettled_link, ← State.linkBook_states, State.swapEnded_linkBook]

/-- The to-link is the ACTIVE link (R98, R101). -/
theorem State.swapSettled_activeLink? (hlinks : s.linksOk) (hswap : s.slm.swap.inProgress = true)
    (hto : s.slm.swap.toLink = some to_) (hfrom : s.slm.swap.fromLink ≠ some to_) :
    (s.swapSettled to_).activeLink? = some to_ := by
  have hbook : (s.swapSettled to_).linkBook = s.linkBook.done to_ := by
    rw [State.swapSettled, State.endIsolation_linkBook, State.swapEnded_linkBook]
  refine State.linkBook_active ?_ ?_
  · rw [hbook]
    exact ((State.linksOk_iff s).1 hlinks).done hswap hto
  · rw [hbook]
    exact LinkBook.done_toLink hfrom

theorem State.swapSettled_sent (to_ : Fin 4) (hnd : s.handles.Nodup) : (s.swapSettled to_).sent = s.sent ++
    if s.slm.isolated ≠ none ∧ s.slm.cutOff = true then s.table.entries.flatMap s.fullLevel else [] := by
  have hframe := State.swapEnded_frame to_ s
  have hslm := State.swapEnded_slm to_ s
  have hhandles : (s.swapEnded to_).handles = s.handles := by rw [hframe]; rfl
  have hlevels : (s.swapEnded to_).table.entries.flatMap (s.swapEnded to_).fullLevel =
      s.table.entries.flatMap s.fullLevel := by
    rw [hframe]
    rfl
  have hisolated : (s.swapEnded to_).slm.isolated = s.slm.isolated := by rw [hslm]; rfl
  have hcut : (s.swapEnded to_).slm.cutOff = s.slm.cutOff := by rw [hslm]; rfl
  have hsent : (s.swapEnded to_).sent = s.sent := by rw [hframe]
  rw [State.swapSettled, State.endIsolation_sent to_ (by rw [hhandles]; exact hnd), hlevels, hisolated, hcut, hsent]

/-- What the MOVE-ACK sends: the levels of a cut-off's end, and perhaps a MOVE behind them. -/
theorem State.swapSettled_levels (to_ : Fin 4) (hnd : s.handles.Nodup) (isLevel : Sent → Bool)
    (hlevel : ∀ p h token level, isLevel (.toHead p (.serveLevel h token level)) = true)
    (hmove : ∀ l n, isLevel (.toShore l (.move n)) = false) :
    ∃ new, (s.swapSettled to_).workOut.sent = s.sent ++ new ∧ new.filter isLevel =
      if s.slm.isolated ≠ none ∧ s.slm.cutOff = true then s.table.entries.flatMap s.fullLevel else [] := by
  have hall : (s.table.entries.flatMap s.fullLevel).filter isLevel = s.table.entries.flatMap s.fullLevel := by
    refine List.filter_eq_self.2 fun x hx => ?_
    obtain ⟨y, _, hy⟩ := List.mem_flatMap.1 hx
    unfold State.fullLevel at hy
    split at hy
    · obtain rfl := List.mem_singleton.1 hy
      exact hlevel ..
    · cases hy
  have hsettled := State.swapSettled_sent to_ hnd
  obtain hsame | ⟨l, n, hmoves⟩ := (s.swapSettled to_).workOut_sent
  · refine ⟨_, hsame.trans hsettled, ?_⟩
    split
    · exact hall
    · rfl
  · refine ⟨_, (hmoves.trans (by rw [hsettled])).trans (List.append_assoc ..), ?_⟩
    rw [List.filter_append, List.filter_cons_of_neg (by rw [hmove]; decide), List.filter_nil, List.append_nil]
    split
    · exact hall
    · rfl

/-- REJOINED is raised behind SWAP-DONE when isolation ends, and nothing else (R111). -/
theorem State.swapSettled_mli {planned : Bool} (hto : (s.link to_).state = .joining)
    (hfrom : s.slm.swap.fromLink ≠ some to_) (hplanned : s.slm.swap.planned = some planned) :
    (s.swapSettled to_).mli = (s.toldRejoined to_ planned).mli := by
  have hmli := State.swapEnded_mli hto hfrom hplanned
  have hstanding := State.toldSwap_standing to_ planned s
  have htime := (State.shipTime_of_mli hmli).trans (State.shipTime_of_standing hstanding)
  have hclock := (congrArg Mli.clock hmli).trans (State.clock_of_standing hstanding)
  have hslm := State.swapEnded_slm to_ s
  have hsame : (s.swapEnded to_).slm.isolated = s.slm.isolated := by rw [hslm]; rfl
  unfold State.toldRejoined
  cases hisolated : s.slm.isolated with
  | none => rw [State.swapSettled, State.endIsolation_none (hsame.trans hisolated), hmli]
  | some since =>
    rw [State.swapSettled, State.endIsolation_parts to_ (hsame.trans hisolated)]
    dsimp only
    rw [State.rejoined, htime, hclock, hslm]
    exact State.raise_mli_congr _ hmli

end Settled

/-- Settles O36: a MOVE-ACK of the swap in progress completes it, and what selection then does leaves the to-link ACTIVE, the
from-link DRAINING and, under a settle time, every link; any other MOVE-ACK is stale. -/
theorem moveAckCompletesTheSwap : Obligations.MoveAckCompletesTheSwap := by
  unfold Obligations.MoveAckCompletesTheSwap
  refine ⟨fun s l to_ hs htakes hswap hlinks hto hfrom => ?completes,
    fun s l n hs htakes hstale => exec_moveAck_stale hs htakes hstale⟩
  have hactive := State.swapSettled_activeLink? hlinks hswap hto hfrom
  have hslm := State.swapSettled_slm to_ s
  have hrests (htime : s.slm.settleTime ≠ 0) := State.workOut_rests (s := s.swapSettled to_)
    (by rw [hactive]; exact Option.some_ne_none to_) (by rw [hslm]; exact htime)
  intro isLevel
  refine ⟨(s.swapSettled to_).workOut, ?runs, ?to_, fun hnd => ?levels, ?isolated, fun hisolated => ?cutOff, ?counted,
    fun f hf => ?from_, fun planned htime hjoining hplanned => ?notices, fun htime => ?ended⟩
  case runs =>
    rw [exec_moveAck hs htakes hswap hto, State.completeSwap_eq]
    rfl
  case to_ =>
    rw [State.workOut_activeLink hactive]
    exact State.link_of_active hactive
  case levels => exact State.swapSettled_levels to_ hnd isLevel (fun _ _ _ _ => rfl) fun _ _ => rfl
  case isolated =>
    rw [State.workOut_slm, hslm]
    rfl
  case cutOff =>
    rw [State.workOut_slm, hslm]
    simp [Slm.rejoined, Slm.swapClosed, Option.isNone_iff_eq_none, hisolated]
  case counted =>
    rw [State.workOut_slm, hslm]
    rfl
  case from_ =>
    have hdrains := (State.swapSettled_link to_ f s).trans (State.swapEnded_fromLink hf fun h => hfrom (h ▸ hf))
    rw [State.workOut_link (by rw [hdrains]; rfl), hdrains]
    exact ⟨rfl, rfl⟩
  case notices =>
    obtain ⟨_, _, hmli⟩ := hrests htime
    exact hmli.trans (State.swapSettled_mli hjoining hfrom hplanned)
  case ended =>
    obtain ⟨hstay, hrecord, _⟩ := hrests htime
    rw [hrecord, hslm]
    refine ⟨rfl, rfl, fun hnone m hm => ?_⟩
    rw [hstay, State.swapSettled_state, LinkBook.done_others hnone hm]
    rfl

end Sys2Proof.Machine
end
